-- ==== Sys2Proof/Word.lean ====
section
/-! DEFINITION. The word types of the PD3140: the bytes of a telegram and the 16-bit rolling counts. -/

namespace Sys2Proof

/-- One byte of a telegram or of the EEPROM. -/
abbrev Byte := BitVec 8

/-- A 16-bit count or sequence that rolls over from 65 535 to 0 (section 5, Counters). -/
abbrev Count16 := BitVec 16

/-- One more, rolling over from 65 535 to 0. -/
def Count16.succ (c : Count16) : Count16 := c + 1

end Sys2Proof
end

