-- ==== Sys2Proof/Syntax.lean ====
section
/-! DEFINITION. The commands of the block: one constructor of `Instr` for each row of
spec/opcode_table.json, with the operands the rules of that row name. The table gives no bits and no
operand fields, so the operands are this model's reading of the rules (assumption log entry 1). -/

namespace Sys2Proof

/-- The two light beams of a door (R45): outer on the corridor side, inner on the room side. -/
inductive Beam where
  | outer
  | inner
  deriving DecidableEq, Repr

/-- The fields of a received telegram's header (R168, R192) but for its kind, which the command's row
fixes, and its payload length, which is the length of the payload carried with it. -/
structure RxHeader where
  /-- Urgency class: SAFETY 0, CONTROL 1, ROUTINE 2, 3 is no class. -/
  cls : BitVec 2
  /-- Sender role: ROOM 0, PANEL 1, PLANT 2, SERVICE 3. -/
  role : BitVec 2
  /-- Source station, 0..63. -/
  source : BitVec 6
  /-- Scope: STATION 0, AIR-GROUP 1, FAÇADE 2, ALL 3. -/
  scope : BitVec 2
  /-- Destination, 0..63. -/
  dest : BitVec 6
  deriving DecidableEq, Repr

/-- One character as the receiver saw it: its eight data bits, and whether its stop bit was missing (R167). -/
structure RxChar where
  data : Byte
  framingError : Bool
  deriving DecidableEq, Repr

/-- How the compaction of a start (R189) meets the world, where step 5 of R180 makes one: all its slot
writes complete; the write numbered `k` (from 0) fails; or it is still running, `k` writes being complete
and the write numbered `k` in progress, when the next command comes. -/
inductive CompactionRun where
  | completes
  | failsAt (k : Nat)
  | runningAt (k : Nat)
  deriving DecidableEq, Repr

/-- What a start finds outside the part: the six straps (R182), whether the EEPROM acknowledges a read
(R183), the image area as the commissioning tool left it (`none`: as the EEPROM already holds it), and how
a compaction fares. -/
structure StartWorld where
  straps : BitVec 6
  eepromAnswers : Bool
  image : Option (List Byte)
  compaction : CompactionRun
  deriving DecidableEq, Repr

/-- The commands. A telegram command carries the header and the payload of a telegram whose characters
all arrived well (step 1 of R169 passes): it is the idle event that ends that telegram. In the PANEL,
SAFETY and QUERY rows the row itself fixes the first payload byte (subtype, action, item), and the operand
is the rest of the payload. Doors, zones, motors and partitions carry their manual's number, from 1. -/
inductive Instr where
  | powerUp (w : StartWorld)
  | powerLoss
  | pinResetAssert
  | pinResetRelease (w : StartWorld)
  | deferredResetEffect
  | backupSupplyLoss
  | listenInEnd
  | calendarAdvance
  | time (h : RxHeader) (payload : List Byte)
  | bookingPut (h : RxHeader) (payload : List Byte)
  | bookingDrop (h : RxHeader) (payload : List Byte)
  | noShowWindowExpiry (id : Nat)
  | runoutCapExpiry (id : Nat)
  | slotWriteComplete
  | slotWriteFail
  | beamBreak (door : Nat) (beam : Beam)
  | beamClear (door : Nat) (beam : Beam)
  | passLimitExpiry (door : Nat)
  | doorFaultTimeout (door : Nat) (beam : Beam)
  | doorRecovery (door : Nat)
  | motionPulse (zone : Nat)
  | motionAgeExpiry (zone : Nat)
  /-- `none` is a sample the serial line delivers malformed (R50). -/
  | co2Sample (ppm : Option Nat)
  | co2HoldExpiry
  | vacancyTimerExpiry
  | vacatingHoldExpiry
  | demand (h : RxHeader) (payload : List Byte)
  | capacity (h : RxHeader) (payload : List Byte)
  | peerStale (station : Nat)
  | peerRemove (station : Nat)
  | capacityAgeExpiry
  | demandRefreshExpiry
  | damperRefreshExpiry
  /-- `none` is a sample the line delivers malformed (R102). -/
  | luxSample (lux : Option Nat)
  | luxHoldExpiry
  | fadeEnd (zone : Nat)
  | panelScene (h : RxHeader) (rest : List Byte)
  | panelLevel (h : RxHeader) (rest : List Byte)
  | panelBlind (h : RxHeader) (rest : List Byte)
  | panelRelease (h : RxHeader) (rest : List Byte)
  | blindHoldExpiry (motor : Nat)
  | runComplete (motor : Nat)
  | referencingComplete (motor : Nat)
  | lockedRunComplete (motor : Nat)
  | pauseEnd (motor : Nat)
  | sun (h : RxHeader) (payload : List Byte)
  | sunAgeExpiry (facade : Nat)
  | wind (h : RxHeader) (payload : List Byte)
  | windHoldingExpiry (facade : Nat)
  /-- The level the PARTn line takes: `true` is HIGH. -/
  | partitionContactChange (partition : Nat) (high : Bool)
  | debounceExpiry (partition : Nat)
  | claimTimerExpiry (partition : Nat)
  | retryTimerExpiry (partition : Nat)
  | joinClaim (h : RxHeader) (payload : List Byte)
  | joinAccept (h : RxHeader) (payload : List Byte)
  | joinRefuse (h : RxHeader) (payload : List Byte)
  | joinRelease (h : RxHeader) (payload : List Byte)
  | joinKeep (h : RxHeader) (payload : List Byte)
  | joinState (h : RxHeader) (payload : List Byte)
  | joinOrder (h : RxHeader) (payload : List Byte)
  | keepTimerExpiry
  | orphanTimerExpiry
  | safetySet (h : RxHeader) (rest : List Byte)
  | safetyClear (h : RxHeader) (rest : List Byte)
  | serviceMask (h : RxHeader) (payload : List Byte)
  | serviceLock (h : RxHeader) (payload : List Byte)
  | serviceRestart (h : RxHeader) (payload : List Byte)
  | queryStatus (h : RxHeader)
  | queryBookings (h : RxHeader) (page : Byte)
  | queryPeers (h : RxHeader) (page : Byte)
  | queryCounters (h : RxHeader)
  | queryOutputs (h : RxHeader)
  | queryIdentity (h : RxHeader)
  | queryUnknownItem (h : RxHeader) (item : Byte) (page : Byte)
  | unhandledTelegram (frame : List RxChar)
  /-- `none`: no characters, or only the part's own echo, since the last idle event. -/
  | idleEvent (frame : Option (List RxChar))
  | deferralExpiry
  | transmitComplete
  | collision
  | startBit
  deriving DecidableEq, Repr

end Sys2Proof
end

