-- ==== Sys2Proof/Config.lean ====
section
/-! DEFINITION. What an installation fixes: the items of the configuration image (R183) and the CONFIG
values every block runs on without a good image (R162), and the values the manual leaves open, as
constants without a body. -/

namespace Sys2Proof

/-- The use of the room a booking states (R19); codes 0..3 by R192. -/
inductive BookingKind where
  | lecture
  | discussion
  | exam
  | screening
  deriving DecidableEq, Repr

/-- Where a dimming zone lies (R92); codes 0..5 by R192. -/
inductive ZoneRole where
  | board
  | front
  | middle
  | rear
  | window
  | aisle
  deriving DecidableEq, Repr

/-- The air idle policy (R65): hold the damper where it stands, or drive a fixed per mille value. -/
inductive AirIdle where
  | hold
  | fixed (v : Nat)
  deriving DecidableEq, Repr

/-- The light idle policy (R92). -/
inductive LightIdle where
  | hold
  | levels
  deriving DecidableEq, Repr

/-- The items of one dimming zone (R92). -/
structure ZoneCfg where
  role : ZoneRole
  linked : Bool
  k : Nat
  minDim : Nat
  dimToOff : Bool
  startLevel : Nat
  idleLevel : Nat
  deriving DecidableEq, Repr

/-- One scene (R93): a level for each of the six zones, a blind target or NONE, a fade time in seconds
and a task illuminance in lux. -/
structure SceneCfg where
  levels : List Nat
  blind : Option Nat
  fade : Nat
  et : Nat
  deriving DecidableEq, Repr

/-- The items of one blind motor (R112); the travel times are in seconds. -/
structure MotorCfg where
  facade : Nat
  td : Nat
  tu : Nat
  glare : Nat
  afterHours : Nat
  deriving DecidableEq, Repr

/-- The items of one partition (R129): the neighbour's station number, and whether a HIGH line means OPEN. -/
structure PartitionCfg where
  neighbour : Nat
  openHigh : Bool
  deriving DecidableEq, Repr

/-- The configuration in use (R183, R65, R92, R93, R112, R129, R44, R19). -/
structure StationConfig where
  durLecture : Nat
  durDiscussion : Nat
  durExam : Nat
  durScreening : Nat
  /-- No-show window length W, minutes. -/
  noShowW : Nat
  doors : Nat
  motionZones : Nat
  /-- Vacancy time Tv, minutes. -/
  tv : Nat
  cout : Nat
  area : Nat
  volume : Nat
  areaRate : Nat
  personRate : Nat
  fset : Nat
  fmin : Nat
  fmax : Nat
  /-- CO2 set point Cs, ppm. -/
  cs : Nat
  airGroup : Nat
  /-- Default capacity Cdef, l/s; 0 means no limit. -/
  cdef : Nat
  airIdle : AirIdle
  lightIdle : LightIdle
  /-- The configured zones, zone 1 first. -/
  zones : List ZoneCfg
  /-- The eight scenes, scene 0 first. -/
  scenes : List SceneCfg
  /-- The configured motors, motor 1 first. -/
  motors : List MotorCfg
  /-- The configured partitions, partition 1 first. -/
  partitions : List PartitionCfg
  deriving DecidableEq, Repr

/-- A scene of the CONFIG values: one level for every zone, blind target NONE, fade time 3 s, Et 0 (R93). -/
def configScene (level : Nat) : SceneCfg :=
  { levels := [level, level, level, level, level, level], blind := none, fade := 3, et := 0 }

/-- The CONFIG values (R162, R65, R92, R93, R112, R129; the factory durations, W, Tv and Cout of R19 and R44). -/
def StationConfig.configValues : StationConfig :=
  { durLecture := 90, durDiscussion := 90, durExam := 120, durScreening := 120, noShowW := 15,
    doors := 0, motionZones := 1, tv := 10, cout := 420,
    area := 50, volume := 150, areaRate := 10, personRate := 8,
    fset := 100, fmin := 100, fmax := 100, cs := 1000, airGroup := 1, cdef := 0,
    airIdle := .hold, lightIdle := .hold,
    zones := [{ role := .middle, linked := false, k := 0, minDim := 0, dimToOff := false,
                startLevel := 500, idleLevel := 500 }],
    scenes := [configScene 0, configScene 500, configScene 800, configScene 800, configScene 1000,
               configScene 200, configScene 1000, configScene 800],
    motors := [], partitions := [] }

/-- What a byte of a journal slot reads as after its slot write failed or was torn (R187 gives no value):
a FREE VALUE, one for each use of the counter in State (assumption log entry 9). -/
opaque Config.freeByte : Nat → Byte

end Sys2Proof
end

