-- ==== Sys2Proof/Machine/State.lean ====
section
/-! DEFINITION. The state of the PD3140 as plain data: one structure for each block of section 3, the
faults and refusals of a step, and the state right after a start. -/

namespace Sys2Proof.Machine

/-! ### Time -/

/-- A recorded value of the station timebase (R1, R2): whole seconds, 16 bits wide, and milliseconds 0..999. -/
structure Stamp where
  sec : Count16
  ms : Nat
  deriving DecidableEq, Repr

/-- The station timebase (R1). `sub` counts 96ths of a millisecond within `ms`, because the model's tick is
one bus slot, 25/96 ms (R167; assumption log entry 2). -/
structure Clock where
  sec : Count16
  ms : Nat
  sub : Nat
  deriving DecidableEq, Repr

/-- Calendar fields (R3); the weekday is derived (R5). -/
structure CalTime where
  year : Nat
  month : Nat
  day : Nat
  hour : Nat
  minute : Nat
  second : Nat
  deriving DecidableEq, Repr

/-- A date and hour:minute at second 0 (R19). -/
structure DateTime where
  year : Nat
  month : Nat
  day : Nat
  hour : Nat
  minute : Nat
  deriving DecidableEq, Repr

/-- The Calendar block (R3, R6, R9, R13, R17). -/
structure Calendar where
  time : CalTime
  /-- RUNNING or STOPPED (R6). -/
  running : Bool
  /-- The seconds phase (R6, R11): slots of 1/3840 s since the last advance or set. -/
  phase : Nat
  setSeq : Count16
  refused : Count16
  /-- Off-time of the last power-up or pin reset, seconds; `none` is unknown (R16, R17). -/
  offTime : Option Nat
  deriving DecidableEq, Repr

/-- What the backup domain keeps beside the calendar (R15). -/
structure Backup where
  valid : Bool
  /-- The loss time, as a calendar instant (R3). -/
  lossTime : Nat
  /-- Whether the calendar was RUNNING at the loss time. -/
  lossRunning : Bool
  deriving DecidableEq, Repr

/-! ### Timetable -/

/-- The states of a record in the list (R19). -/
inductive BookingState where
  | pending
  | preconditioning
  | active
  | runout
  | disabled
  deriving DecidableEq, Repr

/-- Window status (R19); a RUNNING window keeps the timebase value at its start. -/
inductive Window where
  | none
  | running (since : Stamp)
  | deferred
  deriving DecidableEq, Repr

/-- One booking record (R19). -/
structure Booking where
  id : Nat
  kind : BookingKind
  joined : Bool
  noRelease : Bool
  start : DateTime
  finish : DateTime
  headcount : Nat
  weeks : Nat
  /-- Partner station; 0 is none. -/
  partner : Nat
  adjusted : Bool
  state : BookingState
  window : Window
  attended : Bool
  /-- The run-out cap: its start, while it runs. -/
  runout : Option Stamp
  deriving DecidableEq, Repr

/-- The state of a session (R37) but NONE, which is the absence of a summary. -/
inductive SessionState where
  | preconditioning
  | active
  | runout
  deriving DecidableEq, Repr

/-- The session summary (R37). -/
structure Summary where
  state : SessionState
  kind : BookingKind
  id : Nat
  start : DateTime
  expected : Nat
  deriving DecidableEq, Repr

/-- A governing session as the output blocks read it (R94, R145): the record that governs and the station that owns it. -/
structure Gov where
  state : SessionState
  kind : BookingKind
  id : Nat
  start : DateTime
  owner : Nat
  deriving DecidableEq, Repr

/-- Answer status (R27); codes by R192. -/
inductive AnswerStatus where
  | accepted
  | unchanged
  | adjusted
  | replacedOther
  | dropped
  | unknownId
  | refusedPast
  | refusedFull
  deriving DecidableEq, Repr

/-- A BOOKING-ANSWER but for its detail (R27). -/
structure Answer where
  dest : Nat
  id : Nat
  status : AnswerStatus
  /-- The evicted id; 0 but with REPLACED-OTHER. -/
  evicted : Nat
  /-- The record as stored, where the answer carries one. -/
  record : Option Booking
  deriving DecidableEq, Repr

/-- The Timetable block (R19, R28, R37). The answers that wait for a journal write stand with their entries in the write queue. -/
structure Timetable where
  records : List Booking
  summary : Option Summary
  captured : Option Nat
  deriving DecidableEq, Repr

/-! ### Presence Unit -/

/-- Occupancy (R56); codes by R192. -/
inductive Occupancy where
  | unknown
  | vacant
  | occupied
  | vacating
  deriving DecidableEq, Repr

/-- The door decoder (R46, R47); a wait keeps the instant of its pending break. -/
inductive Decoder where
  | ready
  | outerWait (since : Stamp)
  | innerWait (since : Stamp)
  | fault
  deriving DecidableEq, Repr

/-- One configured door: its decoder, the fault timer of each beam (R47) and the recovery timer (R48). -/
structure Door where
  decoder : Decoder
  outerTimer : Option Stamp
  innerTimer : Option Stamp
  recovery : Option Stamp
  deriving DecidableEq, Repr

/-- One configured motion zone (R49): its last-seen stamp, and whether it counts toward the motion floor. -/
structure MotionZone where
  seen : Option Stamp
  counts : Bool
  deriving DecidableEq, Repr

/-- The CO2 hold (R50, R51). -/
structure Co2Hold where
  value : Nat
  arrived : Stamp
  /-- The applied grant at the sample's arrival. -/
  grant : Nat
  hc : Nat
  valid : Bool
  /-- The start of the 60 s hold, while it runs. -/
  hold : Option Stamp
  deriving DecidableEq, Repr

/-- An entry of the event queue (R52): a door pass, inward or outward, or a motion pulse, with its stamp. -/
inductive QueueEvent where
  | pass (inward : Bool) (door : Nat) (at_ : Stamp)
  | motion (zone : Nat) (at_ : Stamp)
  deriving DecidableEq, Repr

/-- The Presence Unit. -/
structure Presence where
  doors : List Door
  zones : List MotionZone
  co2 : Co2Hold
  queue : List QueueEvent
  held : Bool
  /-- A vacancy-timer expiry kept pending while the queue is held (R54). -/
  pendingVacancy : Bool
  /-- A VACATING-hold expiry kept pending while the queue is held (R54). -/
  pendingVacating : Bool
  occupancy : Occupancy
  n : Nat
  recount : Bool
  vacancy : Option Stamp
  vacating : Option Stamp
  h : Nat
  halfPasses : Count16
  corrections : Count16
  queueLosses : Count16
  discardedCo2 : Count16
  deriving DecidableEq, Repr

/-! ### Air Share Unit -/

/-- The mark of the own demand record (R68). -/
inductive DemandMark where
  | none
  | purge
  | smokeHold
  | outOfService
  | lead (station : Nat)
  deriving DecidableEq, Repr

/-- The own demand record (R68). -/
structure DemandRecord where
  d : Nat
  m : Nat
  w : Nat
  mark : DemandMark
  deriving DecidableEq, Repr

/-- The content of a DEMAND: every field but the sequence (R70). The marks byte is that of R193. -/
structure DemandContent where
  d : Nat
  m : Nat
  headcount : Nat
  w : Nat
  occupancy : Occupancy
  marks : Byte
  lead : Nat
  deriving DecidableEq, Repr

/-- One entry of the peer view (R74). -/
structure Peer where
  station : Nat
  content : DemandContent
  seq : Nat
  since : Stamp
  stale : Bool
  deriving DecidableEq, Repr

/-- The capacity record (R78). -/
structure CapacityRecord where
  flow : Nat
  running : Bool
  since : Stamp
  deriving DecidableEq, Repr

/-- What rules the damper output (R88, R89). -/
inductive DamperMode where
  | normal
  | purge
  | smokeHold
  | idleHold
  | idleFixed
  deriving DecidableEq, Repr

/-- The Air Share Unit. -/
structure Air where
  own : DemandRecord
  /-- The content of the DEMAND last composed (R71, R72). -/
  last : Option DemandContent
  seq : Nat
  refresh : Option Stamp
  peers : List Peer
  capacity : Option CapacityRecord
  g : Nat
  ge : Nat
  lead : Nat
  share : Option Nat
  output : Nat
  applied : Nat
  rewrite : Option Stamp
  mode : DamperMode
  overflows : Count16
  deriving DecidableEq, Repr

/-! ### Light Unit -/

/-- A fade in progress (R105); its length is in milliseconds. -/
structure Fade where
  start : Nat
  since : Stamp
  len : Nat
  deriving DecidableEq, Repr

/-- One configured zone: the level it stands at while it does not fade, its target, and its fade. -/
structure Zone where
  level : Nat
  target : Nat
  fade : Option Fade
  deriving DecidableEq, Repr

/-- Where the room scene comes from (R94, R96). -/
inductive SceneSource where
  | start
  | ordered
  | panel
  | session
  | occupancy
  | none
  deriving DecidableEq, Repr

/-- Which of rows 1 and 2 of the applied table (R94) holds, if either. -/
inductive LightOverride where
  | none
  | evacuate
  | idle
  deriving DecidableEq, Repr

/-- The panel hold (R99, R100): its scene (none only where a LEVEL began it in a listen-in or while FOLLOW),
an override for each zone, and the governing session recorded at its beginning. -/
structure PanelHold where
  scene : Option Nat
  overrides : List (Option Nat)
  recorded : Option (Nat × Nat)
  deriving DecidableEq, Repr

/-- The lux hold (R102, R103). -/
structure LuxHold where
  value : Nat
  arrived : Stamp
  valid : Bool
  hold : Option Stamp
  /-- The lux in use Lu. -/
  lu : Option Nat
  deriving DecidableEq, Repr

/-- The Light Unit. -/
structure Light where
  zones : List Zone
  /-- The room scene id; none during a listen-in (R96). -/
  scene : Option Nat
  source : SceneSource
  override : LightOverride
  hold : Option PanelHold
  lux : LuxHold
  discarded : Count16
  deriving DecidableEq, Repr

/-! ### Blind Unit -/

/-- The direction of a run. -/
inductive Dir where
  | up
  | down
  deriving DecidableEq, Repr

/-- The kind of a run (R114). -/
inductive RunKind where
  | normal
  | endStop
  | referencing
  deriving DecidableEq, Repr

/-- A run in progress (R114): its start position is unknown only for a referencing run. -/
structure Run where
  dir : Dir
  start : Option Nat
  since : Stamp
  len : Nat
  kind : RunKind
  target : Nat
  deriving DecidableEq, Repr

/-- The states of a motor (R113). -/
inductive MotorState where
  | unreferenced
  | idle
  | movingUp
  | movingDown
  | pause
  | referencing
  | locked
  deriving DecidableEq, Repr

/-- A motor's panel hold (R125). -/
structure BlindHold where
  position : Nat
  since : Stamp
  deriving DecidableEq, Repr

/-- One configured motor. `estimate` is the position estimate at rest; a run gives it while it goes on (R114). -/
structure Motor where
  state : MotorState
  estimate : Option Nat
  /-- The target in force (R113). -/
  inForce : Option Nat
  /-- The pending target of a PAUSE or REFERENCING. -/
  pending : Option Nat
  /-- The PAUSE is one that a locked run waits for (R123). -/
  lockPending : Bool
  run : Option Run
  lastDir : Option Dir
  /-- The instant its last run stopped, until the 500 ms of R116 are over: then, as before any run, none (R2). -/
  lastStop : Option Stamp
  count : Count16
  hold : Option BlindHold
  deriving DecidableEq, Repr

/-- The level of a SUN record (R121). -/
inductive SunLevel where
  | none
  | low
  | high
  deriving DecidableEq, Repr

/-- A wind lock (R123); HOLDING keeps the start of its timer. -/
inductive WindLock where
  | clear
  | on
  | holding (since : Stamp)
  deriving DecidableEq, Repr

/-- The record of one façade of a configured motor (R121, R123). -/
structure Facade where
  number : Nat
  sun : SunLevel
  sunSince : Option Stamp
  wind : WindLock
  deriving DecidableEq, Repr

/-- The Blind Unit. -/
structure Blind where
  motors : List Motor
  facades : List Facade
  deriving DecidableEq, Repr

/-! ### Join Unit -/

/-- The states of a partition (R131, R129). -/
inductive PartitionState where
  | closed
  | claiming
  | lead
  | follow
  | blocked
  | notConfigured
  deriving DecidableEq, Repr

/-- The retry of a BLOCKED partition (R134). -/
inductive Retry where
  | none
  | timed (since : Stamp)
  | due
  deriving DecidableEq, Repr

/-- One partition record (R130, R131). A contact is `true` when OPEN. -/
structure Partition where
  raw : Bool
  debounced : Bool
  debounce : Option Stamp
  state : PartitionState
  attempts : Nat
  claimTimer : Option Stamp
  retry : Retry
  deriving DecidableEq, Repr

/-- The join role (R131); the partition number with LEAD and FOLLOW. -/
inductive Role where
  | solo
  | lead (p : Nat)
  | follow (p : Nat)
  deriving DecidableEq, Repr

/-- The relation state while joined (R140, R141, R137). -/
structure Relation where
  ownSeq : Nat
  partnerSeq : Nat
  keep : Stamp
  orphan : Stamp
  claimSeq : Nat
  deriving DecidableEq, Repr

/-- The items of a JOIN-ORDER (R148). -/
structure OrderContent where
  scene : Nat
  share : Option Nat
  occupancy : Occupancy
  session : Option Gov
  h : Nat
  deriving DecidableEq, Repr

/-- The group record while LEAD (R138, R143 to R145). -/
structure Group where
  area : Nat
  volume : Nat
  fset : Nat
  fmin : Nat
  fmax : Nat
  followerFmax : Nat
  gn : Nat
  recount : Bool
  /-- Whether the lead's own door count was reliable after the last event (R143). -/
  ownReliable : Bool
  fOccupancy : Occupancy
  fFloor : Nat
  /-- The follower's CO2 value; none is invalid. -/
  fCo2 : Option Nat
  fReliable : Bool
  fSession : Option Gov
  baseIn : Count16
  baseOut : Count16
  occupancy : Occupancy
  hc : Nat
  h : Nat
  session : Option Gov
  lastRequest : Nat
  /-- The content of the JOIN-ORDER last composed (R140). -/
  lastOrder : Option OrderContent
  deriving DecidableEq, Repr

/-- The items of a JOIN-STATE (R146). The summary is held whole, because every session change composes one. -/
structure StateContent where
  occupancy : Occupancy
  floor : Nat
  inTotal : Count16
  outTotal : Count16
  co2 : Option Nat
  reliable : Bool
  summary : Option Summary
  request : Nat
  requestScene : Nat
  deriving DecidableEq, Repr

/-- The follower record while FOLLOW (R137, R146, R149). -/
structure Follower where
  inTotal : Count16
  outTotal : Count16
  request : Nat
  requestScene : Nat
  /-- The share last ordered (R90). -/
  share : Option Nat
  /-- The content last taken from a JOIN-ORDER. -/
  order : Option OrderContent
  /-- The content of the JOIN-STATE last composed (R140). -/
  lastState : Option StateContent
  deriving DecidableEq, Repr

/-- The Join Unit. -/
structure Join where
  partitions : List Partition
  claimSeq : Nat
  relation : Option Relation
  group : Option Group
  follower : Option Follower
  deriving DecidableEq, Repr

/-! ### Safety and Service Unit -/

/-- The air member of the safety mode set (R153): SMOKE-HOLD and PURGE exclude each other. -/
inductive AirMode where
  | none
  | smokeHold
  | purge
  deriving DecidableEq, Repr

/-- The Safety and Service Unit but for the fault set. -/
structure Service where
  air : AirMode
  evacuate : Bool
  maskAir : Bool
  maskLight : Bool
  maskBlind : Bool
  lock : Bool
  refusals : Count16
  deriving DecidableEq, Repr

/-- The fault set (R163). -/
structure Faults where
  co2 : Bool
  lux : Bool
  door1 : Bool
  door2 : Bool
  capacityDefault : Bool
  clockStopped : Bool
  config : Bool
  duplicate : Bool
  journalFull : Bool
  unnumbered : Bool
  deriving DecidableEq, Repr

/-! ### Bus Interface -/

/-- The class of a transmit queue (R173). -/
inductive TxClass where
  | control
  | routine
  deriving DecidableEq, Repr

/-- A composed telegram (R173): its kind code, scope, destination and payload; the Bus Interface adds the rest of the header. -/
structure OutTelegram where
  kind : Nat
  scope : Nat
  dest : Nat
  payload : List Byte
  deriving DecidableEq, Repr

/-- A queue entry: the telegram, its failed attempts and the backoff it owes (R173, R177). -/
structure QueueEntry where
  telegram : OutTelegram
  attempts : Nat
  backoff : Nat
  deriving DecidableEq, Repr

/-- A running deferral (R175): its class, the slots since its start point, and its length in slots. -/
structure Deferral where
  cls : TxClass
  elapsed : Nat
  len : Nat
  deriving DecidableEq, Repr

/-- The Bus Interface. BUSDE is on exactly while `sending` names a class (R167). -/
structure Bus where
  control : List QueueEntry
  routine : List QueueEntry
  sending : Option TxClass
  /-- The characters of the attempt under way, header and check included (R168, R173); none where nothing is being sent. -/
  frame : List Byte
  deferral : Option Deferral
  yieldControl : Bool
  yieldRoutine : Bool
  lfsr : BitVec 16
  lineIdle : Bool
  /-- Another station's characters have begun since the last idle event. -/
  rxInProgress : Bool
  /-- The part has transmitted since the last idle event (R168). -/
  ownFrame : Bool
  /-- Slots since the last character or the start instant (R167). -/
  quiet : Nat
  good : Count16
  bad : Count16
  malformed : Count16
  unusable : Count16
  sent : Count16
  collisions : Count16
  dropped : Count16
  duplicates : Count16
  deriving DecidableEq, Repr

/-! ### Start and Journal Controller -/

/-- The body of a journal entry (R185): a PUT of the record as stored, or a DROP of an id. -/
inductive JournalBody where
  | put (b : Booking)
  | drop (id : Nat)
  deriving DecidableEq, Repr

/-- An entry of the journal write queue (R186) with the answer that waits for it (R27). `pairFirst` marks the
DROP of an eviction pair, whose answer stands with the PUT behind it. -/
structure JournalEntry where
  body : JournalBody
  answer : Option Answer
  pairFirst : Bool
  deriving DecidableEq, Repr

/-- One slot write (R186): page 1..4, slot 0..31 and the eight bytes. -/
structure SlotWrite where
  page : Nat
  slot : Nat
  bytes : List Byte
  deriving DecidableEq, Repr

/-- The journal (R185 to R188). -/
structure Journal where
  /-- The page in use; 0 is none. -/
  page : Nat
  /-- Its next free slot, 1..32. -/
  slot : Nat
  /-- Its page sequence. -/
  seq : Count16
  /-- The page in use is closed by a failed write (R187). -/
  closed : Bool
  queue : List JournalEntry
  /-- The slot writes still to make for the head entry, the one in progress first. -/
  plan : List SlotWrite
  /-- The start of the write in progress (the 20 ms limit of R187). -/
  since : Option Stamp
  torn : Count16
  deriving DecidableEq, Repr

/-- The external EEPROM: its bytes, as a list of (address, byte) pairs in canonical form (addresses strictly
rising, none reading FFh, which is what an unlisted byte reads as), and whether it acknowledges a read. -/
structure Eeprom where
  cells : List Host.Cell
  answers : Bool
  deriving DecidableEq, Repr

/-- Levels of the input pins: beams (`true` is BROKEN), partition contacts (`true` is HIGH) and nRESET (`true` is asserted). -/
structure Pins where
  door1Outer : Bool
  door1Inner : Bool
  door2Outer : Bool
  door2Inner : Bool
  part1 : Bool
  part2 : Bool
  resetAsserted : Bool
  deriving DecidableEq, Repr

/-- Where the part stands between starts (R180): main power absent; the reset pin held; step 5 of the start
sequence running, with the replayed list, the slot writes not yet complete and whether an assertion of nRESET waits
for its end; or step 6 passed. -/
inductive Phase where
  | off
  | held
  | compacting (replayed : List Booking) (rest : List SlotWrite) (resetDeferred : Bool)
  | running
  deriving DecidableEq, Repr

/-- The whole machine. -/
structure State where
  phase : Phase
  pins : Pins
  clock : Clock
  /-- The station number; 0 is none (UNNUMBERED). -/
  station : Nat
  /-- The listen-in is running (R184). -/
  listening : Bool
  cfg : StationConfig
  /-- The configuration format version read; 0 when the image was blank (R183). -/
  formatRead : Nat
  cal : Calendar
  backup : Backup
  tt : Timetable
  presence : Presence
  air : Air
  light : Light
  blind : Blind
  join : Join
  service : Service
  faults : Faults
  bus : Bus
  eeprom : Eeprom
  journal : Journal
  /-- The STATUS change sequence (R191). -/
  statusSeq : Count16
  /-- A service restart has met a slot write in progress: its image reading waits for the end of that write (R181). -/
  imageWait : Bool
  /-- How many free values the model has used (the MODEL's own field). -/
  freeUsed : Nat
  /-- The commands that wait, first in first out (the MODEL's own field). -/
  pending : List Instr
  deriving DecidableEq, Repr

/-- The block never stops with a fault: every command has an effect or none, by the rules, so the type is empty. -/
inductive Fault where
  deriving DecidableEq, Repr

/-- Why a command is refused. -/
inductive Refusal where
  /-- Raised by `exec` alone, for a command that has no meaning yet. Safe: the machine stops. No arm raises it. -/
  | notModelled (mnemonic : String)
  deriving DecidableEq, Repr

/-- The timebase value at a start instant (R1). -/
def stampZero : Stamp := { sec := 0, ms := 0 }

/-- The fields a STOPPED calendar reads (R6). -/
def calZero : CalTime := { year := 2000, month := 1, day := 1, hour := 0, minute := 0, second := 0 }

/-- The part right after a power-up that found the backup domain lost and the EEPROM erased: the state that
the "Starts" tables of the chapters give (R18, R42, R64, R91, R110, R127, R152, R156, R158, R166, R179, R180),
on the CONFIG values of R162. The strap number 1 is a DESIGN CHOICE (assumption log entry 4). -/
def State.reset : State :=
  { phase := .running
    pins := { door1Outer := false, door1Inner := false, door2Outer := false, door2Inner := false,
              part1 := false, part2 := false, resetAsserted := false }
    clock := { sec := 0, ms := 0, sub := 0 }
    station := 1
    listening := true
    cfg := StationConfig.configValues
    formatRead := 0
    cal := { time := calZero, running := false, phase := 0, setSeq := 0, refused := 0, offTime := none }
    backup := { valid := false, lossTime := 0, lossRunning := false }
    tt := { records := [], summary := none, captured := none }
    presence :=
      { doors := []
        zones := [{ seen := none, counts := false }]
        co2 := { value := 0, arrived := stampZero, grant := 0, hc := 0, valid := false, hold := some stampZero }
        queue := [], held := false, pendingVacancy := false, pendingVacating := false
        occupancy := .unknown, n := 0, recount := true
        vacancy := some stampZero, vacating := none, h := 0
        halfPasses := 0, corrections := 0, queueLosses := 0, discardedCo2 := 0 }
    air :=
      { own := { d := 100, m := 100, w := 1, mark := .none }
        last := none, seq := 0, refresh := none, peers := [], capacity := none
        g := 100, ge := 100, lead := 38, share := none
        output := 1000, applied := 100, rewrite := some stampZero, mode := .normal, overflows := 0 }
    light :=
      { zones := [{ level := 500, target := 500, fade := none }]
        scene := none, source := .start, override := .none, hold := none
        lux := { value := 0, arrived := stampZero, valid := false, hold := some stampZero, lu := none }
        discarded := 0 }
    blind := { motors := [], facades := [] }
    join := { partitions := [], claimSeq := 0, relation := none, group := none, follower := none }
    service := { air := .none, evacuate := false, maskAir := false, maskLight := false, maskBlind := false,
                 lock := false, refusals := 0 }
    faults := { co2 := false, lux := false, door1 := false, door2 := false, capacityDefault := false,
                clockStopped := true, config := true, duplicate := false, journalFull := false,
                unnumbered := false }
    bus :=
      { control := [], routine := [], sending := none, frame := [], deferral := none
        yieldControl := false, yieldRoutine := false, lfsr := 1
        lineIdle := false, rxInProgress := false, ownFrame := false, quiet := 0
        good := 0, bad := 0, malformed := 0, unusable := 0, sent := 0, collisions := 0, dropped := 0,
        duplicates := 0 }
    eeprom := { cells := [], answers := true }
    journal := { page := 0, slot := 1, seq := 0, closed := false, queue := [], plan := [], since := none, torn := 0 }
    statusSeq := 0
    imageWait := false
    freeUsed := 0
    pending := [] }

end Sys2Proof.Machine
end

