-- ==== Sys2Proof/Machine/Time.lean ====
section
/-! DEFINITION. The two clocks: ages and timers on the station timebase (R1, R2), and the arithmetic of the
calendar (R3 to R6). -/

namespace Sys2Proof.Machine

/-! ### The station timebase -/

/-- The timebase value of a stamp in milliseconds. -/
def stampMs (t : Stamp) : Nat := t.sec.toNat * 1000 + t.ms

/-- The timebase value now, as a block records it (R2). -/
def nowOf (s : State) : Stamp := { sec := s.clock.sec, ms := s.clock.ms }

/-- The time from `since` to `now` in milliseconds, modulo 65 536 s (R2). -/
def elapsed (since now : Stamp) : Nat := (stampMs now + 65536000 - stampMs since) % 65536000

/-- A running timer of `len` milliseconds has run out (R2). -/
def ranOut (t : Option Stamp) (len : Nat) (now : Stamp) : Bool :=
  match t with
  | none => false
  | some since => decide (len ≤ elapsed since now)

/-- The difference of a running timer has just reached `len` milliseconds: what the tick looks for. -/
def reaches (t : Option Stamp) (len : Nat) (now : Stamp) : Bool :=
  match t with
  | none => false
  | some since => decide (elapsed since now = len)

/-- One slot passes on the timebase: 25/96 ms, with the carries of R1. -/
def clockTick (c : Clock) : Clock :=
  if c.sub + 25 < 96 then { c with sub := c.sub + 25 }
  else if c.ms + 1 < 1000 then { c with ms := c.ms + 1, sub := c.sub + 25 - 96 }
  else { sec := c.sec + 1, ms := 0, sub := c.sub + 25 - 96 }

/-- The timebase at a start instant (R1). -/
def clockZero : Clock := { sec := 0, ms := 0, sub := 0 }

/-! ### The calendar -/

/-- Leap years of the calendar range (R4). -/
def isLeap (year : Nat) : Bool := year % 4 == 0 && year != 2100

/-- Month lengths (R4); 0 for a number that is no month. -/
def monthLength (year month : Nat) : Nat :=
  if month = 2 then (if isLeap year then 29 else 28)
  else if month = 4 ∨ month = 6 ∨ month = 9 ∨ month = 11 then 30
  else if 1 ≤ month ∧ month ≤ 12 then 31
  else 0

/-- Days from 2000-01-01 to the first day of a year, by the leap years of R4. -/
def daysBeforeYear (year : Nat) : Nat :=
  365 * (year - 2000) + (year - 2000 + 3) / 4 - (if 2100 < year then 1 else 0)

/-- Days of a year before the first day of a month. -/
def daysBeforeMonth (year month : Nat) : Nat :=
  ((List.range (month - 1)).map (fun i => monthLength year (i + 1))).sum

/-- The d of R5: whole days from 2000-01-01 to a date. -/
def dayNumber (year month day : Nat) : Nat :=
  daysBeforeYear year + daysBeforeMonth year month + (day - 1)

/-- The weekday of a day number, 0 being Monday (R5). -/
def weekdayOf (d : Nat) : Nat := (d + 5) % 7

/-- The calendar instant of the fields (R3): seconds from 2000-01-01 00:00:00. -/
def instantOf (t : CalTime) : Nat :=
  dayNumber t.year t.month t.day * 86400 + t.hour * 3600 + t.minute * 60 + t.second

/-- The calendar instant of a booking's start or end (R19). -/
def dateInstant (t : DateTime) : Nat :=
  dayNumber t.year t.month t.day * 86400 + t.hour * 3600 + t.minute * 60

/-- A date of the calendar range (R9, R20). -/
def validDate (year month day : Nat) : Bool :=
  decide (2000 ≤ year ∧ year ≤ 2199 ∧ 1 ≤ month ∧ month ≤ 12 ∧ 1 ≤ day ∧ day ≤ monthLength year month)

/-- The day after, with the carries of R4 and R6. -/
def nextDay (t : DateTime) : DateTime :=
  if t.day < monthLength t.year t.month then { t with day := t.day + 1 }
  else if t.month < 12 then { t with day := 1, month := t.month + 1 }
  else { t with day := 1, month := 1, year := t.year + 1 }

/-- A number of days later. -/
def addDays : Nat → DateTime → DateTime
  | 0, t => t
  | n + 1, t => addDays n (nextDay t)

/-- A number of minutes later, with the carries of R4. -/
def addMinutes (n : Nat) (t : DateTime) : DateTime :=
  let m := t.hour * 60 + t.minute + n
  let t' := addDays (m / 1440) t
  { t' with hour := m % 1440 / 60, minute := m % 60 }

/-- One advance of the calendar fields (R6); `none` where it would leave the calendar range (R8). -/
def advanceFields (t : CalTime) : Option CalTime :=
  if t.second < 59 then some { t with second := t.second + 1 }
  else if t.minute < 59 then some { t with second := 0, minute := t.minute + 1 }
  else if t.hour < 23 then some { t with second := 0, minute := 0, hour := t.hour + 1 }
  else if t.day < monthLength t.year t.month then
    some { t with second := 0, minute := 0, hour := 0, day := t.day + 1 }
  else if t.month < 12 then
    some { t with second := 0, minute := 0, hour := 0, day := 1, month := t.month + 1 }
  else if t.year < 2199 then
    some { year := t.year + 1, month := 1, day := 1, hour := 0, minute := 0, second := 0 }
  else none

/-- The calendar instant of a RUNNING calendar; a STOPPED one has none (R10, R22). -/
def calInstant (c : Calendar) : Option Nat :=
  if c.running then some (instantOf c.time) else none

end Sys2Proof.Machine
end

