-- ==== Sys2Proof/Machine/Operands.lean ====
section
/-! DEFINITION. The operand forms of the block: telegram headers and frames (R167 to R169), the kinds of
section 9.3, the code tables and payload layouts of R192 and R193, both ways. A bit that a layout gives no
meaning is not read (assumption log entry 12). -/

namespace Sys2Proof.Machine

/-! ### Bytes -/

/-- The low byte of a number. -/
def byteOf (n : Nat) : Byte := BitVec.ofNat 8 n

/-- A number in two bytes, high byte first (R192). -/
def be2 (n : Nat) : List Byte := [byteOf (n / 256), byteOf n]

/-- The number two bytes hold, high byte first (R192). -/
def rd2 (hi lo : Byte) : Nat := hi.toNat * 256 + lo.toNat

/-- A mark as a bit of the given weight. -/
def bitIf (b : Bool) (weight : Nat) : Nat := if b then weight else 0

/-- One byte of the CRC of R168: polynomial x^16 + x^12 + x^5 + 1, most significant bit first. -/
def crcBits : Nat → BitVec 16 → BitVec 16
  | 0, c => c
  | n + 1, c => crcBits n (if c.msb then (c <<< 1) ^^^ 0x1021#16 else c <<< 1)

/-- The CRC over one more byte. -/
def crcStep (c : BitVec 16) (b : Byte) : BitVec 16 := crcBits 8 (c ^^^ ((b.setWidth 16) <<< 8))

/-- The CRC-16 of R168 over bytes in order of transmission, from all ones, with no final inversion. -/
def crc16 (bytes : List Byte) : BitVec 16 := bytes.foldl crcStep 0xFFFF#16

/-! ### Kinds (section 9.3) -/

def kTime : Nat := 0x01
def kBookingPut : Nat := 0x02
def kBookingDrop : Nat := 0x03
def kBookingAnswer : Nat := 0x04
def kSessionNotice : Nat := 0x05
def kDemand : Nat := 0x08
def kCapacity : Nat := 0x09
def kSun : Nat := 0x0C
def kWind : Nat := 0x0D
def kPanel : Nat := 0x10
def kJoinClaim : Nat := 0x14
def kJoinAccept : Nat := 0x15
def kJoinRefuse : Nat := 0x16
def kJoinRelease : Nat := 0x17
def kJoinKeep : Nat := 0x18
def kJoinState : Nat := 0x19
def kJoinOrder : Nat := 0x1A
def kSafety : Nat := 0x20
def kService : Nat := 0x24
def kQuery : Nat := 0x28
def kReport : Nat := 0x29

/-- Urgency classes (R168). -/
def clsSafety : Nat := 0
def clsControl : Nat := 1
def clsRoutine : Nat := 2

/-- Sender roles (R168). -/
def roleRoom : Nat := 0
def rolePanel : Nat := 1
def rolePlant : Nat := 2
def roleService : Nat := 3

/-- Scopes (R192). -/
def scopeStation : Nat := 0
def scopeAirGroup : Nat := 1
def scopeFacade : Nat := 2
def scopeAll : Nat := 3

/-- The row of the table of section 9.3 for a known kind: its class and the one role that may send it, `none`
standing for any role. -/
def kindRow (kind : Nat) : Option (Nat × Option Nat) :=
  if kind = kTime then some (clsControl, some rolePlant)
  else if kind = kBookingPut ∨ kind = kBookingDrop then some (clsRoutine, some rolePlant)
  else if kind = kBookingAnswer ∨ kind = kSessionNotice then some (clsRoutine, some roleRoom)
  else if kind = kDemand then some (clsControl, some roleRoom)
  else if kind = kCapacity then some (clsControl, some rolePlant)
  else if kind = kSun then some (clsRoutine, some rolePlant)
  else if kind = kWind then some (clsControl, some rolePlant)
  else if kind = kPanel then some (clsControl, some rolePanel)
  else if kJoinClaim ≤ kind ∧ kind ≤ kJoinOrder then some (clsControl, some roleRoom)
  else if kind = kSafety then some (clsSafety, some rolePlant)
  else if kind = kService then some (clsControl, some roleService)
  else if kind = kQuery then some (clsRoutine, none)
  else if kind = kReport then some (clsRoutine, some roleRoom)
  else none

/-- A received telegram (R168): kind, the other header fields, and the payload. -/
structure Telegram where
  kind : Nat
  hdr : RxHeader
  payload : List Byte
  deriving DecidableEq, Repr

/-- The four header bytes and the payload read as a telegram (R192). -/
def telegramOf (b0 b1 b2 : Byte) (payload : List Byte) : Telegram :=
  { kind := (b0.extractLsb' 0 6).toNat
    hdr := { cls := b0.extractLsb' 6 2, role := b1.extractLsb' 6 2, source := b1.extractLsb' 0 6,
             scope := b2.extractLsb' 6 2, dest := b2.extractLsb' 0 6 }
    payload := payload }

/-- Step 1 of the receive filter (R169): the telegram a frame's characters hold, or `none` where it is bad. -/
def parseFrame (frame : List RxChar) : Option Telegram :=
  if frame.any (fun c => c.framingError) then none
  else
    match frame.map (fun c => c.data) with
    | b0 :: b1 :: b2 :: b3 :: rest =>
      if b3.toNat > 24 then none
      else if rest.length ≠ b3.toNat + 2 then none
      else
        let payload := rest.take b3.toNat
        let check := rest.drop b3.toNat
        let crc := crc16 (b0 :: b1 :: b2 :: b3 :: payload)
        if check = be2 crc.toNat then some (telegramOf b0 b1 b2 payload) else none
    | _ => none

/-! ### Code tables (R192) -/

def kindCode : BookingKind → Nat
  | .lecture => 0
  | .discussion => 1
  | .exam => 2
  | .screening => 3

def kindOfCode : Nat → Option BookingKind
  | 0 => some .lecture
  | 1 => some .discussion
  | 2 => some .exam
  | 3 => some .screening
  | _ => none

def bookingStateCode : BookingState → Nat
  | .pending => 0
  | .preconditioning => 1
  | .active => 2
  | .runout => 3
  | .disabled => 4

def sessionStateCode : SessionState → Nat
  | .preconditioning => 1
  | .active => 2
  | .runout => 3

/-- The session state of a code; code 0 is NONE and gives no state. -/
def sessionStateOfCode : Nat → Option SessionState
  | 1 => some .preconditioning
  | 2 => some .active
  | 3 => some .runout
  | _ => none

def occupancyCode : Occupancy → Nat
  | .unknown => 0
  | .vacant => 1
  | .occupied => 2
  | .vacating => 3

def occupancyOfCode : Nat → Option Occupancy
  | 0 => some .unknown
  | 1 => some .vacant
  | 2 => some .occupied
  | 3 => some .vacating
  | _ => none

def statusCode : AnswerStatus → Nat
  | .accepted => 0
  | .unchanged => 1
  | .adjusted => 2
  | .replacedOther => 3
  | .dropped => 4
  | .unknownId => 5
  | .refusedPast => 6
  | .refusedFull => 7

/-- Answer detail codes. -/
def detailNone : Nat := 0
def detailRetained : Nat := 1
def detailNotRetained : Nat := 2

/-- Notice codes. -/
def noticeNoShow : Nat := 0
def noticeOverrun : Nat := 1
def noticeMissed : Nat := 2
def noticeConflict : Nat := 3

def partitionCode : PartitionState → Nat
  | .closed => 0
  | .claiming => 1
  | .lead => 2
  | .follow => 3
  | .blocked => 4
  | .notConfigured => 7

def zoneRoleCode : ZoneRole → Nat
  | .board => 0
  | .front => 1
  | .middle => 2
  | .rear => 3
  | .window => 4
  | .aisle => 5

def zoneRoleOfCode : Nat → Option ZoneRole
  | 0 => some .board
  | 1 => some .front
  | 2 => some .middle
  | 3 => some .rear
  | 4 => some .window
  | 5 => some .aisle
  | _ => none

def motorStateCode : MotorState → Nat
  | .unreferenced => 0
  | .idle => 1
  | .movingUp => 2
  | .movingDown => 3
  | .pause => 4
  | .referencing => 5
  | .locked => 6

def sourceCode : SceneSource → Nat
  | .start => 0
  | .ordered => 1
  | .panel => 2
  | .session => 3
  | .occupancy => 4
  | .none => 5

/-- The fault bits of STATUS. -/
def faultBits (f : Faults) : Nat :=
  bitIf f.co2 1 + bitIf f.lux 2 + bitIf f.door1 4 + bitIf f.door2 8 + bitIf f.capacityDefault 16
    + bitIf f.clockStopped 32 + bitIf f.config 64 + bitIf f.duplicate 128 + bitIf f.journalFull 256
    + bitIf f.unnumbered 512

/-- A date and time in five bytes (R192). -/
def dateBytes (t : DateTime) : List Byte :=
  [byteOf (t.year - 2000), byteOf t.month, byteOf t.day, byteOf t.hour, byteOf t.minute]

/-- Five bytes read as a date and time (R192). -/
def rdDate (y mo d h mi : Byte) : DateTime :=
  { year := 2000 + y.toNat, month := mo.toNat, day := d.toNat, hour := h.toNat, minute := mi.toNat }

/-! ### Payloads the part takes (R193) -/

/-- TIME: the time carried and the STEP mark; `none` where the length differs from the layout. -/
def rdTime : List Byte → Option (CalTime × Bool)
  | [y, mo, d, h, mi, se, fl] =>
    some ({ year := 2000 + y.toNat, month := mo.toNat, day := d.toNat, hour := h.toNat, minute := mi.toNat,
            second := se.toNat }, fl.getLsbD 0)
  | _ => none

/-- A BOOKING-PUT as carried. -/
structure PutFields where
  id : Nat
  kind : Nat
  joined : Bool
  noRelease : Bool
  nextDayMark : Bool
  start : DateTime
  endHour : Nat
  endMinute : Nat
  headcount : Nat
  weeks : Nat
  partner : Nat
  deriving DecidableEq, Repr

/-- BOOKING-PUT. -/
def rdPut : List Byte → Option PutFields
  | [i1, i0, k, fl, y, mo, d, h, mi, eh, em, c1, c0, w, p] =>
    some { id := rd2 i1 i0, kind := k.toNat, joined := fl.getLsbD 0, noRelease := fl.getLsbD 1,
           nextDayMark := fl.getLsbD 2, start := rdDate y mo d h mi, endHour := eh.toNat, endMinute := em.toNat,
           headcount := rd2 c1 c0, weeks := w.toNat, partner := p.toNat }
  | _ => none

/-- BOOKING-DROP. -/
def rdDrop : List Byte → Option Nat
  | [i1, i0] => some (rd2 i1 i0)
  | _ => none

/-- DEMAND: the content and the sequence, the checks of R73 made. -/
def rdDemand : List Byte → Option (DemandContent × Nat)
  | [d1, d0, m1, m0, h1, h0, w, o, mk, l, q] =>
    let d := rd2 d1 d0
    let m := rd2 m1 m0
    if 6000 < d ∨ 6000 < m ∨ d < m then none
    else if 3 < w.toNat ∨ (w.toNat = 0 ∧ m < d) then none
    else if 62 < l.toNat then none
    else
      match occupancyOfCode o.toNat with
      | none => none
      | some oc =>
        some ({ d := d, m := m, headcount := rd2 h1 h0, w := w.toNat, occupancy := oc, marks := mk &&& 0x7F#8,
                lead := l.toNat }, q.toNat)
  | _ => none

/-- CAPACITY: the available flow, above 20 000 l/s taken as 20 000, and whether the plant is RUNNING (R78). -/
def rdCapacity : List Byte → Option (Nat × Bool)
  | [f1, f0, st] =>
    if st.toNat = 0 then some (min (rd2 f1 f0) 20000, true)
    else if st.toNat = 1 then some (min (rd2 f1 f0) 20000, false)
    else none
  | _ => none

/-- SUN. -/
def rdSun : List Byte → Option SunLevel
  | [l] => if l.toNat = 0 then some .none else if l.toNat = 1 then some .low else if l.toNat = 2 then some .high else none
  | _ => none

/-- WIND: `true` is ON. -/
def rdWind : List Byte → Option Bool
  | [w] => if w.toNat = 0 then some false else if w.toNat = 1 then some true else none
  | _ => none

/-- The address of a PANEL LEVEL (R100): one zone by number, or every configured zone of a role. -/
inductive LevelAddress where
  | zone (z : Nat)
  | role (r : ZoneRole)
  deriving DecidableEq, Repr

/-- What a PANEL asks (R193); a LEVEL carries an absolute value or a signed step. -/
inductive PanelRequest where
  | scene (n : Nat)
  | levelAbs (a : LevelAddress) (v : Nat)
  | levelStep (a : LevelAddress) (step : Int)
  | blind (motor : Nat) (position : Nat)
  | release
  deriving DecidableEq, Repr

/-- The address of a LEVEL, `none` where it names nothing configured (R98). -/
def rdAddress (zones : List ZoneCfg) (kind num : Byte) : Option LevelAddress :=
  if kind.toNat = 0 then
    if 1 ≤ num.toNat ∧ num.toNat ≤ zones.length then some (.zone num.toNat) else none
  else if kind.toNat = 1 then
    match zoneRoleOfCode num.toNat with
    | none => none
    | some r => if zones.any (fun z => z.role == r) then some (.role r) else none
  else none

/-- A STEP: a 16-bit two's-complement number, taken as −1000 or +1000 beyond them (R193). -/
def rdStep (v1 v0 : Byte) : Int := max (-1000) (min 1000 ((v1 ++ v0).toInt))

/-- PANEL, with the checks the Light Unit makes (R98): `none` is a PANEL it discards. -/
def rdPanel (zones : List ZoneCfg) : List Byte → Option PanelRequest
  | [sub] => if sub.toNat = 3 then some .release else none
  | [sub, n] => if sub.toNat = 0 ∧ n.toNat ≤ 7 then some (.scene n.toNat) else none
  | [sub, m, p1, p0] => if sub.toNat = 2 then some (.blind m.toNat (rd2 p1 p0)) else none
  | [sub, ak, num, mode, v1, v0] =>
    if sub.toNat = 1 then
      match rdAddress zones ak num with
      | none => none
      | some a =>
        if mode.toNat = 0 then some (.levelAbs a (rd2 v1 v0))
        else if mode.toNat = 1 then some (.levelStep a (rdStep v1 v0))
        else none
    else none
  | _ => none

/-- JOIN-ACCEPT (R137). -/
structure AcceptFields where
  claimSeq : Nat
  area : Nat
  volume : Nat
  fset : Nat
  fmin : Nat
  fmax : Nat
  n : Nat
  inTotal : Count16
  outTotal : Count16
  reliable : Bool
  deriving DecidableEq, Repr

def rdAccept : List Byte → Option AcceptFields
  | [q, a1, a0, v1, v0, s1, s0, m1, m0, x1, x0, n1, n0, i1, i0, o1, o0, r] =>
    some { claimSeq := q.toNat, area := rd2 a1 a0, volume := rd2 v1 v0, fset := rd2 s1 s0, fmin := rd2 m1 m0,
           fmax := rd2 x1 x0, n := rd2 n1 n0, inTotal := i1 ++ i0, outTotal := o1 ++ o0, reliable := r.toNat != 0 }
  | _ => none

/-- A session as JOIN-STATE and JOIN-ORDER carry it: `none` where a code is out of range, `some none` for NONE. -/
def rdSession (id : Nat) (st k : Byte) (start : DateTime) (owner : Nat) : Option (Option Gov) :=
  if st.toNat = 0 then some none
  else
    match sessionStateOfCode st.toNat, kindOfCode k.toNat with
    | some ss, some bk => some (some { state := ss, kind := bk, id := id, start := start, owner := owner })
    | _, _ => none

/-- JOIN-STATE (R146). -/
structure StateFields where
  seq : Nat
  partnerSeq : Nat
  occupancy : Occupancy
  floor : Nat
  inTotal : Count16
  outTotal : Count16
  co2 : Option Nat
  reliable : Bool
  session : Option Gov
  request : Nat
  requestScene : Nat
  deriving DecidableEq, Repr

def rdJoinState (source : Nat) : List Byte → Option StateFields
  | [q, pq, oc, fl, i1, i0, o1, o0, c1, c0, fg, d1, d0, st, k, y, mo, d, h, mi, rn, rs] =>
    if 7 < rs.toNat then none
    else
      match occupancyOfCode oc.toNat, rdSession (rd2 d1 d0) st k (rdDate y mo d h mi) source with
      | some occ, some ses =>
        some { seq := q.toNat, partnerSeq := pq.toNat, occupancy := occ, floor := fl.toNat, inTotal := i1 ++ i0,
               outTotal := o1 ++ o0, co2 := if fg.getLsbD 0 then some (rd2 c1 c0) else none,
               reliable := fg.getLsbD 1, session := ses, request := rn.toNat, requestScene := rs.toNat }
      | _, _ => none
  | _ => none

/-- JOIN-ORDER (R148): the group occupancy is VACANT or OCCUPIED. -/
structure OrderFields where
  seq : Nat
  partnerSeq : Nat
  content : OrderContent
  deriving DecidableEq, Repr

def rdJoinOrder : List Byte → Option OrderFields
  | [q, pq, sc, s1, s0, oc, d1, d0, st, k, y, mo, d, h, mi, ow, h1, h0] =>
    if 7 < sc.toNat ∨ ¬(oc.toNat = 1 ∨ oc.toNat = 2) then none
    else
      match rdSession (rd2 d1 d0) st k (rdDate y mo d h mi) ow.toNat with
      | none => none
      | some ses =>
        some { seq := q.toNat, partnerSeq := pq.toNat,
               content := { scene := sc.toNat, share := if rd2 s1 s0 = 0xFFFF then none else some (rd2 s1 s0),
                            occupancy := if oc.toNat = 1 then .vacant else .occupied, session := ses,
                            h := rd2 h1 h0 } }
  | _ => none

/-- The flags of a SERVICE (R157). -/
structure ServiceFields where
  maskPresent : Bool
  air : Bool
  light : Bool
  blind : Bool
  lock : Bool
  restart : Bool
  deriving DecidableEq, Repr

def rdService : List Byte → Option ServiceFields
  | [f] => some { maskPresent := f.getLsbD 0, air := f.getLsbD 1, light := f.getLsbD 2, blind := f.getLsbD 3,
                  lock := f.getLsbD 4, restart := f.getLsbD 5 }
  | _ => none

/-! ### Payloads the part sends (R193) -/

/-- BOOKING-ANSWER: 23 bytes; fields that do not apply are 0. -/
def answerBytes (a : Answer) (detail : Nat) : List Byte :=
  be2 a.id ++ [byteOf (statusCode a.status), byteOf detail] ++ be2 a.evicted ++
    match a.record with
    | none => List.replicate 17 0
    | some b =>
      [byteOf (kindCode b.kind), byteOf (bitIf b.joined 1 + bitIf b.noRelease 2 + bitIf b.adjusted 4)]
        ++ dateBytes b.start ++ dateBytes b.finish ++ be2 b.headcount
        ++ [byteOf b.weeks, byteOf b.partner, byteOf (bookingStateCode b.state)]

/-- SESSION-NOTICE: 9 bytes (R38). -/
def noticeBytes (code id : Nat) (start : DateTime) (count : Nat) : List Byte :=
  [byteOf code] ++ be2 id ++ dateBytes start ++ [byteOf count]

/-- DEMAND: 11 bytes (R70). -/
def demandBytes (c : DemandContent) (seq : Nat) : List Byte :=
  be2 c.d ++ be2 c.m ++ be2 c.headcount ++ [byteOf c.w, byteOf (occupancyCode c.occupancy), c.marks, byteOf c.lead, byteOf seq]

/-- The nine bytes of a session: id, state, kind, start; all 0 for NONE. -/
def sessionBytes (s : Option (Nat × SessionState × BookingKind × DateTime)) : List Byte :=
  match s with
  | none => List.replicate 9 0
  | some (id, st, k, d) => be2 id ++ [byteOf (sessionStateCode st), byteOf (kindCode k)] ++ dateBytes d

/-- The items of a JOIN-STATE after its two sequence fields (R146). -/
def stateItems (c : StateContent) : List Byte :=
  [byteOf (occupancyCode c.occupancy), byteOf c.floor] ++ be2 c.inTotal.toNat ++ be2 c.outTotal.toNat
    ++ be2 (c.co2.getD 0) ++ [byteOf (bitIf c.co2.isSome 1 + bitIf c.reliable 2)]
    ++ sessionBytes (c.summary.map (fun m => (m.id, m.state, m.kind, m.start)))
    ++ [byteOf c.request, byteOf c.requestScene]

/-- The items of a JOIN-ORDER after its two sequence fields (R148). -/
def orderItems (c : OrderContent) : List Byte :=
  [byteOf c.scene] ++ be2 (c.share.getD 0xFFFF) ++ [byteOf (occupancyCode c.occupancy)]
    ++ sessionBytes (c.session.map (fun g => (g.id, g.state, g.kind, g.start)))
    ++ [byteOf ((c.session.map (fun g => g.owner)).getD 0)] ++ be2 c.h

end Sys2Proof.Machine
end

