-- ==== Sys2Proof/Machine/Ops.lean ====
section
/-! DEFINITION. The named operations the blocks share: EEPROM memory, the list helpers, the transmit queues
and deferral of the Bus Interface (R173 to R177), and the views of the meeting state that several blocks read
(R32, R94, R131). -/

namespace Sys2Proof.Machine

/-! ### EEPROM memory -/

/-- What a byte that no entry lists reads as: an erased byte, FFh (R183, R185, R189). -/
def erasedByte : Byte := 0xFF#8

/-- One byte of a memory. -/
def memRead : List Host.Cell → Nat → Byte
  | [], _ => erasedByte
  | (k, v) :: rest, a => if a = k then v else memRead rest a

/-- Writing one byte, keeping the canonical form. -/
def memWrite : List Host.Cell → Nat → Byte → List Host.Cell
  | [], a, b => if b = erasedByte then [] else [(a, b)]
  | (k, v) :: rest, a, b =>
    if a < k then (if b = erasedByte then (k, v) :: rest else (a, b) :: (k, v) :: rest)
    else if a = k then (if b = erasedByte then rest else (a, b) :: rest)
    else (k, v) :: memWrite rest a b

/-- Every address of a memory lies above `a`. -/
def memAbove (a : Nat) : List Host.Cell → Bool
  | [] => true
  | (k, _) :: rest => decide (a < k) && memAbove a rest

/-- The canonical form: addresses strictly rising, no entry equal to what an unlisted address reads as. -/
def memWf : List Host.Cell → Bool
  | [] => true
  | (k, v) :: rest => v != erasedByte && memAbove k rest && memWf rest

/-- Writing bytes at rising addresses. -/
def memWriteList : List Host.Cell → Nat → List Byte → List Host.Cell
  | m, _, [] => m
  | m, a, b :: rest => memWriteList (memWrite m a b) (a + 1) rest

/-- Reading `n` bytes at rising addresses. -/
def memReadList (m : List Host.Cell) (a n : Nat) : List Byte :=
  (List.range n).map (fun i => memRead m (a + i))

/-- The address of a journal slot: page 1..4, slot 0..31, after the 512 bytes of the image area (R185). -/
def slotAddress (page slot : Nat) : Nat := 512 + (page - 1) * 256 + slot * 8

/-- The image area put into a memory: 512 bytes, FFh where the list is shorter (R183). -/
def memWithImage (m : List Host.Cell) (image : List Byte) : List Host.Cell :=
  memWriteList m 0 ((image ++ List.replicate 512 erasedByte).take 512)

/-! ### Lists -/

/-- The element a manual's number (from 1) names. -/
def nth1 {α : Type} (l : List α) (i : Nat) : Option α := if i = 0 then none else l[i - 1]?

/-- Changing the element a manual's number (from 1) names. -/
def update1 {α : Type} (l : List α) (i : Nat) (f : α → α) : List α :=
  if i = 0 then l else l.modify (i - 1) f

/-- The list with each element paired with its number from `i`. -/
def numbered {α : Type} : Nat → List α → List (Nat × α)
  | _, [] => []
  | i, x :: rest => (i, x) :: numbered (i + 1) rest

/-- The 8-bit sequences of R71, R132, R140 and R146: one more, from 255 to 1. -/
def nextSeq (n : Nat) : Nat := if 255 ≤ n then 1 else n + 1

/-- Rounding up a quotient (section 5, ceil). -/
def ceilDiv (a b : Nat) : Nat := (a + b - 1) / b

/-! ### Views of the meeting state -/

/-- The partition number from `i` whose state is LEAD or FOLLOW gives the role (R131). -/
def roleFrom : Nat → List Partition → Role
  | _, [] => .solo
  | i, p :: rest =>
    match p.state with
    | .lead => .lead i
    | .follow => .follow i
    | _ => roleFrom (i + 1) rest

/-- The join role (R131). -/
def roleOf (s : State) : Role := roleFrom 1 s.join.partitions

/-- The station is LEAD, with a group record. -/
def leadGroup (s : State) : Option Group :=
  match roleOf s with
  | .lead _ => s.join.group
  | _ => none

/-- The station is FOLLOW, with a follower record. -/
def followRecord (s : State) : Option Follower :=
  match roleOf s with
  | .follow _ => s.join.follower
  | _ => none

/-- The station is FOLLOW. -/
def isFollow (s : State) : Bool :=
  match roleOf s with
  | .follow _ => true
  | _ => false

/-- The neighbour of a partition, as a station number; 0 where the number names no partition. -/
def neighbourOf (s : State) (p : Nat) : Nat :=
  match nth1 s.cfg.partitions p with
  | none => 0
  | some c => c.neighbour

/-- The occupancy the Timetable reads (R32, R150). -/
def occRead (s : State) : Occupancy :=
  match leadGroup s, followRecord s with
  | some g, _ => g.occupancy
  | none, some f =>
    match f.order with
    | some o => o.occupancy
    | none => s.presence.occupancy
  | none, none => s.presence.occupancy

/-- The room's own session summary as a governing session. -/
def ownGov (s : State) : Option Gov :=
  s.tt.summary.map (fun m => { state := m.state, kind := m.kind, id := m.id, start := m.start, owner := s.station })

/-- The governing session the output blocks read (R68, R94, R119, R150). -/
def govRead (s : State) : Option Gov :=
  match leadGroup s, followRecord s with
  | some g, _ => g.session
  | none, some f =>
    match f.order with
    | some o => o.session
    | none => ownGov s
  | none, none => ownGov s

/-- The headcount STATUS reports (R193). -/
def hReported (s : State) : Nat :=
  match leadGroup s, followRecord s with
  | some g, _ => g.h
  | none, some f =>
    match f.order with
    | some o => o.h
    | none => s.presence.h
  | none, none => s.presence.h

/-- SMOKE-HOLD or PURGE is in the safety mode set. -/
def airModeHolds (s : State) : Bool := s.service.air != .none

/-- The station has a number and is not in a listen-in: it may compose DEMANDs and claims (R72, R152). -/
def maySpeak (s : State) : Bool := !s.listening && s.station != 0

/-! ### The transmit queues (R173, R174) -/

/-- The queue a composed telegram joins (R173). -/
def txClassOf (kind : Nat) : TxClass :=
  if kind = kBookingAnswer ∨ kind = kSessionNotice ∨ kind = kReport then .routine else .control

/-- The urgency class a queue sends in (R168, R173). -/
def classCode : TxClass → Nat
  | .control => clsControl
  | .routine => clsRoutine

/-- The header the Bus Interface writes (R173, R192): the class and kind, the role ROOM and the station's own number as source, and the
scope, destination and length that the composing block gives. -/
def headerBytes (station : Nat) (t : OutTelegram) : List Byte :=
  [byteOf (64 * classCode (txClassOf t.kind) + t.kind), byteOf (64 * roleRoom + station), byteOf (64 * t.scope + t.dest),
    byteOf t.payload.length]

/-- The characters of a telegram as the part sends it (R168): header, payload, and the check, high byte first. -/
def frameOf (station : Nat) (t : OutTelegram) : List Byte :=
  headerBytes station t ++ t.payload ++ be2 (crc16 (headerBytes station t ++ t.payload)).toNat

/-- Two telegrams with the same coalescing key (R173). -/
def sameKey (a b : OutTelegram) : Bool :=
  a.kind == b.kind &&
    (a.kind == kDemand || ((a.kind == kJoinState || a.kind == kJoinOrder) && a.dest == b.dest))

/-- The queue of a class. -/
def queueOf (b : Bus) : TxClass → List QueueEntry
  | .control => b.control
  | .routine => b.routine

/-- The bus with the queue of a class replaced. -/
def setQueue (b : Bus) (c : TxClass) (q : List QueueEntry) : Bus :=
  match c with
  | .control => { b with control := q }
  | .routine => { b with routine := q }

/-- Coalescing: the first waiting entry of the same key takes the new content in place (R173); `none` where there is none. -/
def coalesce (t : OutTelegram) : List QueueEntry → Option (List QueueEntry)
  | [] => none
  | e :: rest =>
    if sameKey e.telegram t then some ({ e with telegram := t } :: rest)
    else (coalesce t rest).map (fun r => e :: r)

/-- Removing the oldest JOIN-KEEP; `none` where there is none (R174). -/
def dropKeep : List QueueEntry → Option (List QueueEntry)
  | [] => none
  | e :: rest => if e.telegram.kind = kJoinKeep then some rest else (dropKeep rest).map (fun r => e :: r)

/-- How a new telegram joins a queue of its class (R173, R174): the entries not being sent after it, and
whether one was removed or dropped. `room` is how many entries they may be. -/
def joinQueue (c : TxClass) (t : OutTelegram) (waiting : List QueueEntry) (room : Nat) : List QueueEntry × Bool :=
  let e : QueueEntry := { telegram := t, attempts := 0, backoff := 0 }
  match coalesce t waiting with
  | some w => (w, false)
  | none =>
    if waiting.length < room then (waiting ++ [e], false)
    else
      match c with
      | .routine => (waiting.drop 1 ++ [e], true)
      | .control =>
        match dropKeep waiting with
        | some w => (w ++ [e], true)
        | none => (waiting, true)

/-- The class whose head is sent next (R175). -/
def headClass (b : Bus) : Option TxClass :=
  if b.control ≠ [] then some .control else if b.routine ≠ [] then some .routine else none

/-- The yield of a class. -/
def yieldOf (b : Bus) : TxClass → Bool
  | .control => b.yieldControl
  | .routine => b.yieldRoutine

/-- The bus with the yield of a class spent (R176). -/
def spendYield (b : Bus) : TxClass → Bus
  | .control => { b with yieldControl := false }
  | .routine => { b with yieldRoutine := false }

/-- The length of a deferral in slots (R175). -/
def deferralLength (station : Nat) (b : Bus) (c : TxClass) : Nat :=
  (match c with
    | .control => 4
    | .routine => 68)
  + station + (if yieldOf b c then 64 else 0) + ((queueOf b c).head?.map (fun e => e.backoff)).getD 0

/-- The characters that the head of a class puts on the line (R173, R177). -/
def headFrame (station : Nat) (b : Bus) (c : TxClass) : List Byte :=
  match queueOf b c with
  | [] => []
  | e :: _ => frameOf station e.telegram

/-- Starting an attempt on the head of a class (R175, R177): BUSDE on with the head's characters, the deferral ended and its yield spent,
the head's backoff cleared. -/
def beginAttempt (station : Nat) (c : TxClass) (b : Bus) : Bus :=
  let frame := headFrame station b c
  let b := spendYield b c
  let b := setQueue b c (match queueOf b c with
    | [] => []
    | e :: rest => { e with backoff := 0 } :: rest)
  { b with sending := some c, frame := frame, deferral := none, lineIdle := false, ownFrame := true, rxInProgress := false }

/-- Starting a deferral where the line is idle, none runs, nothing is being sent, a queue holds an entry and the
station may transmit (R175). -/
def startDeferral (station : Nat) (listening : Bool) (b : Bus) : Bus :=
  if listening || station == 0 || !b.lineIdle || b.deferral.isSome || b.sending.isSome then b
  else
    match headClass b with
    | none => b
    | some c => { b with deferral := some { cls := c, elapsed := 0, len := deferralLength station b c } }

/-- A CONTROL entry meets a running ROUTINE deferral (R175). -/
def reclassDeferral (station : Nat) (b : Bus) : Bus :=
  match b.deferral with
  | some d =>
    if d.cls = .routine ∧ b.control ≠ [] then
      let len := deferralLength station b .control
      if len ≤ d.elapsed then beginAttempt station .control b
      else { b with deferral := some { d with cls := .control, len := len } }
    else b
  | none => b

/-- The queue entries of a class that are not being sent. -/
def waitingOf (b : Bus) (c : TxClass) : List QueueEntry :=
  if b.sending = some c then (queueOf b c).drop 1 else queueOf b c

/-- The queue entry of a class that is being sent, as a list. -/
def sendingOf (b : Bus) (c : TxClass) : List QueueEntry :=
  if b.sending = some c then (queueOf b c).take 1 else []

/-- Entering a composed telegram (R173 to R175). Where an overflow removes the head whose backoff a running deferral counted, the deferral
keeps its length and its start (assumption log entry 42). -/
def enqueue (station : Nat) (listening : Bool) (t : OutTelegram) (b : Bus) : Bus :=
  if station = 0 then b
  else
    let c := txClassOf t.kind
    let fixed := sendingOf b c
    let r := joinQueue c t (waitingOf b c) (8 - fixed.length)
    let b := setQueue b c (fixed ++ r.1)
    let b := if r.2 then { b with dropped := b.dropped.succ } else b
    reclassDeferral station (startDeferral station listening b)

/-- A block hands a composed telegram to the Bus Interface. -/
def send (t : OutTelegram) (s : State) : State :=
  { s with bus := enqueue s.station s.listening t s.bus }

/-- Handing several telegrams in the order in which they were composed. -/
def sendAll : List OutTelegram → State → State
  | [], s => s
  | t :: rest, s => sendAll rest (send t s)

/-- One draw of the backoff generator (R177). -/
def lfsrStep (r : BitVec 16) : BitVec 16 :=
  (r <<< 1) ||| (BitVec.ofBool (((r.getLsbD 15) ^^ (r.getLsbD 13)) ^^ ((r.getLsbD 12) ^^ (r.getLsbD 10)))).setWidth 16

/-- The backoff a draw gives: the five least significant bits after the shift. -/
def backoffOf (r : BitVec 16) : Nat := (r.extractLsb' 0 5).toNat

/-- A content check that fails steps the unusable count (R178). -/
def countUnusable (s : State) : State := { s with bus := { s.bus with unusable := s.bus.unusable.succ } }

/-- A SAFETY naming both air modes steps the malformed count (R153). -/
def countMalformed (s : State) : State := { s with bus := { s.bus with malformed := s.bus.malformed.succ } }

end Sys2Proof.Machine
end

