-- ==== Sys2Proof/Machine/Presence.lean ====
section
/-! DEFINITION. The Presence Unit: door decoding (R45 to R48), motion (R49), CO2 (R50, R51), the event queue (R52 to
R54), occupancy and net count (R55 to R57), RECOUNT (R58) and the headcount (R60). Every operation here changes the
Presence Unit alone; what it hands out stands with the cascades. -/

namespace Sys2Proof.Machine

/-! ### Doors -/

/-- The level of a beam line: `true` is BROKEN. -/
def beamLevel (p : Pins) (door : Nat) (beam : Beam) : Bool :=
  match door, beam with
  | 1, .outer => p.door1Outer
  | 1, .inner => p.door1Inner
  | 2, .outer => p.door2Outer
  | 2, .inner => p.door2Inner
  | _, _ => false

/-- The pins with the level of a beam line set. -/
def setBeam (p : Pins) (door : Nat) (beam : Beam) (broken : Bool) : Pins :=
  match door, beam with
  | 1, .outer => { p with door1Outer := broken }
  | 1, .inner => { p with door1Inner := broken }
  | 2, .outer => { p with door2Outer := broken }
  | 2, .inner => { p with door2Inner := broken }
  | _, _ => p

/-- A door number has beam lines. -/
def isDoor (door : Nat) : Bool := door == 1 || door == 2

/-- The fault timer of a beam (R47). -/
def beamTimer (d : Door) : Beam → Option Stamp
  | .outer => d.outerTimer
  | .inner => d.innerTimer

/-- The door with the fault timer of a beam set. -/
def setTimer (d : Door) (beam : Beam) (t : Option Stamp) : Door :=
  match beam with
  | .outer => { d with outerTimer := t }
  | .inner => { d with innerTimer := t }

/-- What a break does to a decoder (R46): its next state, whether a half pass is counted, and the pass produced, `true`
being IN. -/
def decodeBreak (now : Stamp) (beam : Beam) : Decoder → Decoder × Bool × Option Bool
  | .ready =>
    match beam with
    | .outer => (.outerWait now, false, none)
    | .inner => (.innerWait now, false, none)
  | .outerWait _ =>
    match beam with
    | .outer => (.outerWait now, true, none)
    | .inner => (.ready, false, some true)
  | .innerWait _ =>
    match beam with
    | .outer => (.ready, false, some false)
    | .inner => (.innerWait now, true, none)
  | .fault => (.fault, false, none)

/-- A door takes a break event: its decoder, the beam's fault timer, and in FAULT the recovery timer stops (R46 to R48). -/
def doorBreak (now : Stamp) (beam : Beam) (d : Door) : Door :=
  { setTimer d beam (some now) with decoder := (decodeBreak now beam d.decoder).1, recovery := none }

/-- A door takes a clear event: the beam's fault timer stops; in FAULT with both beams clear the recovery timer starts
(R47, R48). -/
def doorClear (now : Stamp) (beam : Beam) (bothClear : Bool) (d : Door) : Door :=
  { setTimer d beam none with
    recovery := if d.decoder = .fault ∧ bothClear then some now else d.recovery }

/-- The instant of a decoder's pending break. -/
def pendingBreak : Decoder → Option Stamp
  | .outerWait t => some t
  | .innerWait t => some t
  | _ => none

/-- A door as the start read of its beams leaves it (R45): READY; a beam found BROKEN has its fault timer started, and no break is
produced. -/
def startDoor (now : Stamp) (p : Pins) (door : Nat) : Door :=
  { decoder := .ready
    outerTimer := if beamLevel p door .outer then some now else none
    innerTimer := if beamLevel p door .inner then some now else none
    recovery := none }

/-- The configured doors as the start read leaves them (R45). -/
def startDoors (now : Stamp) (c : StationConfig) (p : Pins) : List Door :=
  (List.range c.doors).map (fun i => startDoor now p (i + 1))

/-! ### Headcount -/

/-- The motion floor (R49): the zones that count. -/
def motionFloor (p : Presence) : Nat := (p.zones.filter (fun z => z.counts)).length

/-- No configured door is in FAULT. -/
def doorsWell (p : Presence) : Bool := p.doors.all (fun d => d.decoder != .fault)

/-- The door count is reliable (R60). -/
def doorCountReliable (p : Presence) : Bool := !p.doors.isEmpty && doorsWell p && !p.recount

/-- Hc as the headcount reads it: 0 while CO2 is invalid (R51, R60). -/
def hcUsed (p : Presence) : Nat := if p.co2.valid then p.co2.hc else 0

/-- The headcount H (R60). -/
def headcountOf (p : Presence) : Nat :=
  if p.occupancy = .vacant then 0
  else if doorCountReliable p ∧ (p.occupancy = .occupied ∨ p.occupancy = .vacating) then max p.n (motionFloor p)
  else max (motionFloor p) (hcUsed p)

/-- Recomputing H (R61). -/
def recomputeH (p : Presence) : Presence := { p with h := headcountOf p }

/-- The CO2 estimate (R50). -/
def co2Estimate (c cout g : Nat) : Nat :=
  if c ≤ cout ∨ g = 0 then 0 else min 300 ((c - cout) * g / 5000)

/-- The valid CO2 value, where there is one. -/
def co2Valid (p : Presence) : Option Nat := if p.co2.valid then some p.co2.value else none

/-! ### Occupancy, net count and RECOUNT -/

/-- Entering VACANT (R55 to R58): both timers stop, N becomes 0, RECOUNT clears. -/
def enterVacant (p : Presence) : Presence :=
  { p with occupancy := .vacant, n := 0, recount := false, vacancy := none, vacating := none,
           pendingVacancy := false, pendingVacating := false }

/-- Becoming OCCUPIED: the VACATING hold stops. -/
def enterOccupied (p : Presence) : Presence :=
  { p with occupancy := .occupied, vacating := none, pendingVacating := false }

/-- The vacancy timer restarts at an IN or MOTION entry (R55). -/
def restartVacancy (now : Stamp) (p : Presence) : Presence :=
  { p with vacancy := some now, pendingVacancy := false }

/-- One correction (R57). -/
def correct (p : Presence) : Presence := { p with corrections := p.corrections.succ }

/-- An IN taken (R56, R57). -/
def takeIn (now : Stamp) (p : Presence) : Presence :=
  enterOccupied { restartVacancy now p with n := min 300 (p.n + 1) }

/-- An OUT taken (R56, R57). -/
def takeOut (now : Stamp) (p : Presence) : Presence :=
  match p.occupancy with
  | .occupied =>
    if p.n = 0 then correct p
    else if p.n = 1 then { p with n := 0, occupancy := .vacating, vacating := some now, pendingVacating := false }
    else { p with n := p.n - 1 }
  | _ => if p.n = 0 then correct p else { p with n := p.n - 1 }

/-- A zone takes a MOTION entry with its own stamp (R49). -/
def seeMotion (now at_ : Stamp) (z : MotionZone) : MotionZone :=
  { z with seen := some at_, counts := decide (elapsed at_ now < 300000) }

/-- A MOTION taken (R49, R56). -/
def takeMotion (now : Stamp) (zone : Nat) (at_ : Stamp) (p : Presence) : Presence :=
  let p := restartVacancy now { p with zones := update1 p.zones zone (seeMotion now at_) }
  match p.occupancy with
  | .vacating => correct (enterOccupied { p with n := 1 })
  | .occupied => p
  | _ => enterOccupied p

/-- An entry taken into the estimator (R55 to R58). -/
def takeEntry (now : Stamp) (e : QueueEvent) (p : Presence) : Presence :=
  match e with
  | .pass true _ _ => takeIn now p
  | .pass false _ _ => takeOut now p
  | .motion z at_ => takeMotion now z at_ p

/-- The vacancy timer's expiry is acted on (R56). -/
def vacancyExpires (p : Presence) : Presence :=
  match p.occupancy with
  | .unknown => enterVacant p
  | .occupied => enterVacant (if p.n = 0 then p else correct p)
  | .vacating => enterVacant p
  | .vacant => { p with vacancy := none, pendingVacancy := false }

/-- The VACATING hold's expiry is acted on (R56). -/
def vacatingExpires (p : Presence) : Presence :=
  match p.occupancy with
  | .vacating => enterVacant p
  | _ => { p with vacating := none, pendingVacating := false }

/-- A RECOUNT set request (R58): without effect while VACANT. -/
def setRecount (p : Presence) : Presence :=
  if p.occupancy = .vacant then p else { p with recount := true }

/-! ### The event queue (R53) -/

/-- Removing the oldest MOTION entry; `none` where every entry is a pass. -/
def dropMotion : List QueueEvent → Option (List QueueEvent)
  | [] => none
  | .motion _ _ :: rest => some rest
  | .pass i d a :: rest => (dropMotion rest).map (fun r => .pass i d a :: r)

/-- An entry arrives at the held queue (R52, R53): the queue after it, and whether an entry was lost. -/
def appendHeld (e : QueueEvent) (q : List QueueEvent) : List QueueEvent × Bool :=
  if q.length < 16 then (q ++ [e], false)
  else
    match e with
    | .motion _ _ => (q, true)
    | .pass _ _ _ =>
      match dropMotion q with
      | some r => (r ++ [e], true)
      | none => (q.drop 1 ++ [e], true)

/-- The Presence Unit with an entry appended to its held queue. -/
def holdEntry (e : QueueEvent) (p : Presence) : Presence :=
  { p with queue := (appendHeld e p.queue).1,
           queueLosses := if (appendHeld e p.queue).2 then p.queueLosses.succ else p.queueLosses }

/-! ### CO2 -/

/-- A valid CO2 sample (R50), but for what it hands out. -/
def takeCo2 (now : Stamp) (cout grant c : Nat) (p : Presence) : Presence :=
  { p with co2 := { value := c, arrived := now, grant := grant, hc := co2Estimate c cout grant, valid := true,
                    hold := some now } }

/-- The end of the CO2 hold (R51). -/
def loseCo2 (p : Presence) : Presence :=
  { p with co2 := { p.co2 with valid := false, hold := none } }

/-! ### Starts (R64) -/

/-- The Presence Unit at a start; a service restart keeps the four counts. -/
def startPresence (c : StationConfig) (pins : Pins) (keepCounts : Bool) (p : Presence) : Presence :=
  { doors := startDoors stampZero c pins
    zones := List.replicate c.motionZones { seen := none, counts := false }
    co2 := { value := 0, arrived := stampZero, grant := 0, hc := 0, valid := false, hold := some stampZero }
    queue := [], held := false, pendingVacancy := false, pendingVacating := false
    occupancy := .unknown, n := 0, recount := true
    vacancy := some stampZero, vacating := none, h := 0
    halfPasses := if keepCounts then p.halfPasses else 0
    corrections := if keepCounts then p.corrections else 0
    queueLosses := if keepCounts then p.queueLosses else 0
    discardedCo2 := if keepCounts then p.discardedCo2 else 0 }

end Sys2Proof.Machine
end

