-- ==== Sys2Proof/Machine/AirShare.lean ====
section
/-! DEFINITION. The Air Share Unit: the demand record (R66 to R69), its announcement (R70 to R72), the peer view (R73 to
R77), the capacity in use (R78, R79), the grant (R80 to R86) and the damper (R87 to R90). -/

namespace Sys2Proof.Machine

/-! ### The values in use (R67) -/

/-- The group record, where its flows are in use: LEAD with neither PURGE nor SMOKE-HOLD holding (R67). -/
def flowGroup (s : State) : Option Group := if airModeHolds s then none else leadGroup s

def fsetInUse (s : State) : Nat := ((flowGroup s).map (fun g => g.fset)).getD s.cfg.fset
def fminInUse (s : State) : Nat := ((flowGroup s).map (fun g => g.fmin)).getD s.cfg.fmin
def fmaxInUse (s : State) : Nat := ((flowGroup s).map (fun g => g.fmax)).getD s.cfg.fmax
def areaInUse (s : State) : Nat := ((leadGroup s).map (fun g => g.area)).getD s.cfg.area
def volumeInUse (s : State) : Nat := ((leadGroup s).map (fun g => g.volume)).getD s.cfg.volume
def hInUse (s : State) : Nat := ((leadGroup s).map (fun g => g.h)).getD s.presence.h

/-- The higher of two valid values, the one valid value, or none (R67, R144). -/
def higherOf (a b : Option Nat) : Option Nat :=
  match a, b with
  | some x, some y => some (max x y)
  | some x, none => some x
  | none, y => y

/-- Group CO2 (R144). -/
def groupCo2 (p : Presence) (g : Group) : Option Nat := higherOf (co2Valid p) g.fCo2

/-- The CO2 value in use (R67). -/
def co2InUse (s : State) : Option Nat :=
  match leadGroup s with
  | some g => groupCo2 s.presence g
  | none => co2Valid s.presence

/-- A value clamped to a range (section 5). -/
def clampTo (lo hi n : Nat) : Nat := max lo (min hi n)

/-- The occupied demand (R66). -/
def occupiedDemand (s : State) : Nat :=
  let base := ceilDiv (s.cfg.areaRate * areaInUse s) 10 + s.cfg.personRate * hInUse s
  let extra := match co2InUse s with
    | some c => if s.cfg.cs < c then (c - s.cfg.cs) * fmaxInUse s / 1000 else 0
    | none => 0
  clampTo (fminInUse s) (fmaxInUse s) (base + extra)

/-- The lead number a follower announces: its partner (R68). -/
def leadNumber (s : State) : Nat :=
  match roleOf s with
  | .follow p => neighbourOf s p
  | _ => 0

/-- The own demand record (R68): the first row whose situation holds. -/
def demandRow (s : State) : DemandRecord :=
  match s.service.air with
  | .purge => { d := fmaxInUse s, m := fmaxInUse s, w := 1, mark := .purge }
  | .smokeHold => { d := 0, m := 0, w := 0, mark := .smokeHold }
  | .none =>
    if s.service.maskAir then { d := 0, m := 0, w := 0, mark := .outOfService }
    else if isFollow s then { d := 0, m := 0, w := 0, mark := .lead (leadNumber s) }
    else
      match govRead s with
      | some g =>
        if g.state = .preconditioning then { d := fmaxInUse s, m := fminInUse s, w := 2, mark := .none }
        else { d := occupiedDemand s, m := fminInUse s, w := 3, mark := .none }
      | none =>
        if occRead s = .vacant then { d := fsetInUse s, m := fsetInUse s, w := 1, mark := .none }
        else { d := occupiedDemand s, m := fminInUse s, w := 1, mark := .none }

/-! ### The announcement (R70 to R72) -/

/-- The marks byte of a DEMAND (R70, R193). -/
def demandMarks (s : State) : Byte :=
  byteOf (bitIf (s.service.air == .smokeHold) 1 + bitIf (s.service.air == .purge) 2 + bitIf s.service.evacuate 4
    + bitIf (s.air.own.mark == .outOfService) 8 + bitIf s.faults.co2 16 + bitIf s.faults.capacityDefault 32
    + bitIf s.faults.config 64)

/-- The lead number of a record. -/
def markLead : DemandMark → Nat
  | .lead n => n
  | _ => 0

/-- The content of a DEMAND composed now (R70). -/
def demandContent (s : State) : DemandContent :=
  { d := s.air.own.d, m := s.air.own.m, headcount := hInUse s, w := s.air.own.w, occupancy := occRead s,
    marks := demandMarks s, lead := markLead s.air.own.mark }

/-- The sequence of a DEMAND composed now (R71). -/
def demandSeq (last : Option DemandContent) (seq : Nat) (c : DemandContent) : Nat :=
  match last with
  | none => 0
  | some l => if l = c then seq else nextSeq seq

/-- Composing a DEMAND (R70, R71); the refresh timer restarts (R72). -/
def composeDemand (s : State) : State :=
  let c := demandContent s
  let q := demandSeq s.air.last s.air.seq c
  let s := { s with air := { s.air with last := some c, seq := q, refresh := some (nowOf s) } }
  send { kind := kDemand, scope := scopeAirGroup, dest := s.cfg.airGroup, payload := demandBytes c q } s

/-- The distance of two numbers. -/
def distance (a b : Nat) : Nat := (a - b) + (b - a)

/-- A change that is announced (R72). -/
def demandChanged (l c : DemandContent) : Bool :=
  l.m != c.m || l.w != c.w || l.lead != c.lead || l.marks != c.marks
    || decide (max 10 (l.d / 20) ≤ distance c.d l.d)

/-- The announcement check (R72): nothing in a listen-in or while UNNUMBERED. -/
def announce (s : State) : State :=
  if !maySpeak s then s
  else
    match s.air.last with
    | none => composeDemand s
    | some l => if demandChanged l (demandContent s) then composeDemand s else s

/-! ### The peer view (R74 to R77) -/

/-- An entry of the view for a checked DEMAND. -/
def peerEntry (station : Nat) (c : DemandContent) (seq : Nat) (now : Stamp) : Peer :=
  { station := station, content := c, seq := seq, since := now, stale := false }

/-- Placing an entry of a new station in ascending station order. -/
def insertPeer (p : Peer) : List Peer → List Peer
  | [] => [p]
  | x :: rest => if p.station < x.station then p :: x :: rest else x :: insertPeer p rest

/-- The entry of a station. -/
def findPeer (station : Nat) (l : List Peer) : Option Peer := l.find? (fun p => p.station == station)

/-- The STALE entry that is displaced (R77): the greatest age, and among equal ages the lower station. -/
def oldestStale (now : Stamp) : List Peer → Option Peer
  | [] => none
  | p :: rest =>
    match oldestStale now rest with
    | none => if p.stale then some p else none
    | some x => if p.stale ∧ elapsed x.since now ≤ elapsed p.since now then some p else some x

/-- The view with the entry of a station replaced in its place. -/
def replacePeer (p : Peer) (l : List Peer) : List Peer := l.map (fun x => if x.station = p.station then p else x)

/-- What a checked DEMAND does to the view (R74, R77): the view after it, or `none` where the peer is kept out. -/
def updatePeers (now : Stamp) (station : Nat) (c : DemandContent) (seq : Nat) (l : List Peer) : Option (List Peer) :=
  match findPeer station l with
  | some e =>
    if seq ≠ 0 ∧ seq = e.seq then some (replacePeer { e with since := now, stale := false } l)
    else some (replacePeer (peerEntry station c seq now) l)
  | none =>
    if l.length < 24 then some (insertPeer (peerEntry station c seq now) l)
    else
      match oldestStale now l with
      | some x => some (insertPeer (peerEntry station c seq now) (l.filter (fun p => p.station != x.station)))
      | none => none

/-- The out-of-service mark of a DEMAND content (R193). -/
def outOfServiceMark (c : DemandContent) : Bool := c.marks.getLsbD 3

/-! ### Capacity in use (R78, R79) -/

/-- The capacity record is held. -/
def capacityInUse (s : State) : Nat := (s.air.capacity.map (fun c => c.flow)).getD s.cfg.cdef

/-- The plant state in use is RUNNING. -/
def plantRunning (s : State) : Bool := (s.air.capacity.map (fun c => c.running)).getD true

/-- The capacity in use is Cdef with Cdef = 0: no limit. -/
def noLimit (s : State) : Bool := s.air.capacity.isNone && s.cfg.cdef == 0

/-! ### The grant (R80 to R82) -/

/-- A counted demand, minimum and weight (R76). -/
structure Counted where
  d : Nat
  m : Nat
  w : Nat
  deriving DecidableEq, Repr

/-- A peer entry as it is counted (R76). -/
def countPeer (p : Peer) : Counted :=
  if outOfServiceMark p.content || p.content.lead != 0 then { d := 0, m := 0, w := 0 }
  else if p.stale then { d := p.content.m, m := p.content.m, w := p.content.w }
  else { d := p.content.d, m := p.content.m, w := p.content.w }

/-- The sums over a counted set (R80). -/
def sumMin (l : List Counted) : Nat := (l.map (fun c => c.m)).sum
def sumDem (l : List Counted) : Nat := (l.map (fun c => c.d)).sum
def sumWeighted (l : List Counted) : Nat := (l.map (fun c => c.w * (c.d - c.m))).sum

/-- Cases 3 to 5 of R81 for an own record over the peers' counted entries. -/
def grantByShare (noLim : Bool) (cap : Nat) (own : Counted) (peers : List Counted) : Nat :=
  let all := own :: peers
  if noLim || decide (sumDem all ≤ cap) then own.d
  else if cap ≤ sumMin all then (if sumMin all = 0 then 0 else own.m * cap / sumMin all)
  else min own.d (own.m + own.w * (own.d - own.m) * (cap - sumMin all) / sumWeighted all)

/-- The cases of R81. -/
def grantByCases (s : State) (own : Counted) : Nat :=
  match s.service.air with
  | .purge => s.cfg.fmax
  | .smokeHold => 0
  | .none =>
    if s.service.maskAir || isFollow s then 0
    else if !plantRunning s then 0
    else grantByShare (noLimit s) (capacityInUse s) own (s.air.peers.map countPeer)

/-- The own record as it is counted. -/
def countOwn (r : DemandRecord) : Counted := { d := r.d, m := r.m, w := r.w }

/-- The grant G (R81, R82). -/
def grantOf (s : State) : Nat :=
  if s.listening then s.air.own.m
  else if s.station = 0 then s.air.own.d
  else grantByCases s (countOwn s.air.own)

/-- The what-if grant Ge (R85). -/
def whatIfGrant (s : State) : Nat :=
  if s.listening then fminInUse s
  else if s.station = 0 then fmaxInUse s
  else grantByCases s { d := fmaxInUse s, m := fminInUse s, w := 2 }

/-- The pre-conditioning lead L in minutes (R86). -/
def leadMinutes (volume ge : Nat) : Nat :=
  if ge = 0 then 60 else clampTo 5 60 (ceilDiv (ceilDiv (volume * 1500) ge) 60)

/-- The follower's share (R84). -/
def shareOf (s : State) (g : Nat) : Option Nat :=
  (flowGroup s).map (fun r => g * r.followerFmax / r.fmax)

/-! ### The damper (R87 to R90) -/

/-- The flow the command is formed from (R87); none at a follower before its first JOIN-ORDER (R90). -/
def damperFlow (s : State) : Option Nat :=
  match roleOf s with
  | .follow _ => (followRecord s).bind (fun f => f.share)
  | _ => some (s.air.g - s.air.share.getD 0)

/-- The damper command of a flow: round half up of flow × 1000 / own Fmax, clamped to 1000 (R87, R90). -/
def damperCommand (flow fmax : Nat) : Nat := min 1000 ((2 * flow * 1000 + fmax) / (2 * fmax))

/-- What rules the damper output (R88, R89). -/
def damperModeOf (s : State) : DamperMode :=
  match s.service.air with
  | .purge => .purge
  | .smokeHold => .smokeHold
  | .none =>
    if s.service.maskAir then
      match s.cfg.airIdle with
      | .hold => .idleHold
      | .fixed _ => .idleFixed
    else .normal

/-- The FIXED idle value. -/
def idleValue (c : StationConfig) : Nat :=
  match c.airIdle with
  | .hold => 0
  | .fixed v => v

/-- Writing the output: the rewrite timer restarts and the applied grant is recorded (R87, R88). -/
def writeDamper (now : Stamp) (value applied : Nat) (a : Air) : Air :=
  { a with output := value, applied := applied, rewrite := some now }

/-- The output and applied grant a mode writes, where it writes (R88, R89). -/
def damperWrite (s : State) : DamperMode → Option (Nat × Nat)
  | .purge => some (1000, s.cfg.fmax)
  | .smokeHold => some (0, 0)
  | .idleHold => none
  | .idleFixed => some (idleValue s.cfg, idleValue s.cfg * s.cfg.fmax / 1000)
  | .normal => (damperFlow s).map (fun f => (damperCommand f s.cfg.fmax, f))

/-- Forming the command and writing the output by R88 and R89: at the first computation of a start and when a safety mode
or a FIXED disable takes effect, at once; otherwise by a difference of 5 or more. -/
def driveDamper (s : State) : Air :=
  let mode := damperModeOf s
  let a := { s.air with mode := mode }
  match damperWrite s mode with
  | none => a
  | some (v, f) =>
    if s.air.rewrite.isNone then writeDamper (nowOf s) v f a
    else if mode = .normal then
      (if 5 ≤ distance v s.air.output then writeDamper (nowOf s) v f a else a)
    else if mode = s.air.mode then a
    else writeDamper (nowOf s) v f a

/-- The 30 s refresh of the output (R88, R89). Under the HOLD idle policy, and at a follower with no share yet, the value
stays and the timer runs again. -/
def refreshDamper (s : State) : Air :=
  match damperWrite s (damperModeOf s) with
  | some (v, f) => writeDamper (nowOf s) v f s.air
  | none => { s.air with rewrite := some (nowOf s) }

/-- Computing the grant again (R83): G, Ge, L, the share and the damper command, from the one G. -/
def computeGrant (s : State) : State :=
  let g := grantOf s
  let ge := whatIfGrant s
  let s := { s with air := { s.air with g := g, ge := ge, lead := leadMinutes (volumeInUse s) ge, share := shareOf s g } }
  { s with air := driveDamper s }

/-- Forming the own record (R69), then the announcement check and the grant, in that order. Where neither the record nor
anything the grant is computed from has changed, none of the three changes anything. -/
def formDemand (s : State) : State :=
  computeGrant (announce { s with air := { s.air with own := demandRow s } })

/-! ### Starts (R91) -/

/-- The Air Share Unit at a power-up or pin reset, before its first computation. -/
def startAirCold : Air :=
  { own := { d := 0, m := 0, w := 0, mark := .none }, last := none, seq := 0, refresh := none, peers := [],
    capacity := none, g := 0, ge := 0, lead := 60, share := none, output := 0, applied := 0, rewrite := none,
    mode := .normal, overflows := 0 }

/-- The Air Share Unit at a service restart, before its first computation, which forms the record, G, Ge and L: the output, the applied
grant and the overflow count are kept, and the rewrite timer runs from the start. Until that computation G, Ge and L stand as they were
(assumption log entry 38). -/
def startAirRestart (a : Air) : Air :=
  { startAirCold with g := a.g, ge := a.ge, lead := a.lead, output := a.output, applied := a.applied, rewrite := some stampZero,
                      overflows := a.overflows }

end Sys2Proof.Machine
end

