-- ==== Sys2Proof/Machine/Lighting.lean ====
section
/-! DEFINITION. The Light Unit: scene selection (R94 to R97), the panel hold (R99 to R101), daylight correction (R102 to
R104), fades (R105, R106), evacuation and the idle policy (R107, R108), and its starts (R110). -/

namespace Sys2Proof.Machine

/-! ### Fades (R105, R106) -/

/-- The level of a fading zone at an elapsed time below the fade's length: the quotient is rounded toward zero (R105). -/
def fadeLevel (start target e len : Nat) : Nat :=
  if start ≤ target then start + (target - start) * e / len else start - (start - target) * e / len

/-- A zone's level at an instant (R105). -/
def zoneLevel (now : Stamp) (z : Zone) : Nat :=
  match z.fade with
  | none => z.level
  | some f =>
    if f.len ≤ elapsed f.since now then z.target else fadeLevel f.start z.target (elapsed f.since now) f.len

/-- A zone set to a level at once, any fade discarded (R107, R108). -/
def setZone (v : Nat) (_ : Zone) : Zone := { level := v, target := v, fade := none }

/-- A zone takes a target: a different one begins a fade of the full length from the level it has (R106); a fade of
length 0 sets the level at once (R105). -/
def retargetZone (now : Stamp) (len target : Nat) (z : Zone) : Zone :=
  if target = z.target then z
  else if len = 0 then setZone target z
  else { level := zoneLevel now z, target := target, fade := some { start := zoneLevel now z, since := now, len := len } }

/-! ### Targets (R104) -/

/-- The daylight correction of a scene level (R104). -/
def correctedLevel (z : ZoneCfg) (s et lu : Nat) : Nat :=
  let r := z.k * lu / 16
  let t := s * (et - r) / et
  let m := min z.minDim s
  if 0 < t ∧ t < m then m
  else if t = 0 ∧ !z.dimToOff then m
  else t

/-- The override the panel hold has for zone `i` (from 1). -/
def overrideOf (l : Light) (i : Nat) : Option Nat :=
  match l.hold with
  | none => none
  | some h => (nth1 h.overrides i).getD none

/-- The scene of an id. -/
def sceneOf (c : StationConfig) (id : Nat) : Option SceneCfg := c.scenes[id]?

/-- The room target of zone `i` under a scene (R104). -/
def roomTarget (l : Light) (sc : SceneCfg) (i : Nat) (z : ZoneCfg) : Nat :=
  match overrideOf l i with
  | some v => v
  | none =>
    let s := sc.levels.getD (i - 1) 0
    match l.lux.lu with
    | some lu => if z.linked ∧ 0 < sc.et ∧ 0 < s then correctedLevel z s sc.et lu else s
    | none => s

/-- Every configured zone takes its room target (R104, R106): `i` numbers the zones from 1. -/
def fadeZones (now : Stamp) (l : Light) (sc : SceneCfg) : Nat → List ZoneCfg → List Zone → List Zone
  | i, c :: cs, z :: zs =>
    retargetZone now (sc.fade * 1000) (roomTarget l sc i c) z :: fadeZones now l sc (i + 1) cs zs
  | _, _, zs => zs

/-- The idle value of each zone as row 2 begins to apply (R108). -/
def idleZones (now : Stamp) (policy : LightIdle) : List ZoneCfg → List Zone → List Zone
  | c :: cs, z :: zs =>
    (match policy with
      | .hold => setZone (zoneLevel now z) z
      | .levels => setZone c.idleLevel z) :: idleZones now policy cs zs
  | _, zs => zs

/-- Which of rows 1 and 2 applies (R94). -/
def lightOverrideOf (s : State) : LightOverride :=
  if s.service.evacuate then .evacuate else if s.service.maskLight then .idle else .none

/-- Forming the targets of every configured zone by the applied row (R104, R107, R108). Without a room scene, in a
listen-in, the zones stay at the level they have (R96). -/
def formZones (s : State) : Light :=
  let l := s.light
  let now := nowOf s
  match lightOverrideOf s with
  | .evacuate => { l with override := .evacuate, zones := l.zones.map (setZone 1000) }
  | .idle =>
    if l.override = .idle then l
    else { l with override := .idle, zones := idleZones now s.cfg.lightIdle s.cfg.zones l.zones }
  | .none =>
    let l := { l with override := .none }
    match l.scene.bind (sceneOf s.cfg) with
    | some sc => if s.listening then l else { l with zones := fadeZones now l sc 1 s.cfg.zones l.zones }
    | none => l

/-- Forming the targets. -/
def formTargets (s : State) : State := { s with light := formZones s }

/-! ### Selection (R94, R95) -/

/-- The scene of a session's kind (R94, R93). -/
def kindScene : BookingKind → Nat
  | .lecture => 2
  | .discussion => 3
  | .exam => 4
  | .screening => 5

/-- Rows 5 to 7 of the room scene table (R94). -/
def sceneByUse (gov : Option Gov) (occ : Occupancy) : Nat × SceneSource :=
  match gov with
  | some g =>
    if g.state = .preconditioning then (if occ = .occupied then 1 else 0, .session) else (kindScene g.kind, .session)
  | none => if occ = .occupied ∨ occ = .vacating then (1, .occupancy) else (0, .none)

/-- The room scene and its source (R94). -/
def roomSceneOf (s : State) : Option Nat × SceneSource :=
  if isFollow s then
    match (followRecord s).bind (fun f => f.order) with
    | some o => (some o.scene, .ordered)
    | none => (s.light.scene, .ordered)
  else
    match s.light.hold.bind (fun h => h.scene) with
    | some n => (some n, .panel)
    | none =>
      let r := sceneByUse (govRead s) (occRead s)
      (some r.1, r.2)

/-- Running the selection and forming the targets (R95, R104). In a listen-in no room scene is chosen (R96). -/
def selectScene (s : State) : State :=
  if s.listening then formTargets s
  else
    let r := roomSceneOf s
    formTargets { s with light := { s.light with scene := r.1, source := r.2 } }

/-! ### The panel hold (R99 to R101) -/

/-- The hold ends: it becomes inactive with its scene and overrides cleared (R101). -/
def endLightHold (s : State) : State := { s with light := { s.light with hold := none } }

/-- What a hold records of the governing session (R99). -/
def recordedSession (g : Option Gov) : Option (Nat × Nat) := g.map (fun x => (x.id, x.owner))

/-- A change of the governing session has ended the recorded one (R101). -/
def sessionEndsHold (recorded : Option (Nat × Nat)) (g : Option Gov) : Bool :=
  match recorded with
  | some r => recordedSession g != some r
  | none =>
    match g with
    | some x => x.state != .preconditioning
    | none => false

/-- The hold ends where the governing session has ended its recorded one (R101). -/
def checkHoldSession (s : State) : State :=
  match s.light.hold with
  | none => s
  | some h => if sessionEndsHold h.recorded (govRead s) then endLightHold s else s

/-- No override for any of the six zones. -/
def noOverrides : List (Option Nat) := [none, none, none, none, none, none]

/-- A PANEL SCENE begins the hold afresh (R99). -/
def beginSceneHold (n : Nat) (s : State) : State :=
  { s with light := { s.light with hold := some { scene := some n, overrides := noOverrides,
                                                  recorded := recordedSession (govRead s) } } }

/-- A PANEL LEVEL begins a hold where none is active (R100). -/
def beginLevelHold (s : State) : State :=
  match s.light.hold with
  | some _ => s
  | none =>
    { s with light := { s.light with
        hold := some { scene := if isFollow s then none else s.light.scene, overrides := noOverrides,
                       recorded := recordedSession (govRead s) } } }

/-- The base a STEP is taken from for zone `i` (R100): its room target, or in a listen-in its level. -/
def stepBase (s : State) (i : Nat) : Nat :=
  let now := nowOf s
  let level := ((nth1 s.light.zones i).map (zoneLevel now)).getD 0
  if s.listening then level
  else
    match s.light.scene.bind (sceneOf s.cfg), nth1 s.cfg.zones i with
    | some sc, some z => roomTarget s.light sc i z
    | _, _ => level

/-- The zones a LEVEL addresses (R100). -/
def addressed (zones : List ZoneCfg) : LevelAddress → List Nat
  | .zone z => [z]
  | .role r => ((numbered 1 zones).filter (fun x => x.2.role == r)).map (fun x => x.1)

/-- A value of 0..1000 from a whole number (R100). -/
def clampLevel (v : Int) : Nat := (max 0 (min 1000 v)).toNat

/-- The new override of zone `i` (R100). -/
def newOverride (s : State) (r : PanelRequest) (i : Nat) : Nat :=
  match r with
  | .levelAbs _ v => min 1000 v
  | .levelStep _ d => clampLevel ((stepBase s i : Int) + d)
  | _ => 0

/-- Setting the overrides of the addressed zones in an active hold (R100). -/
def setOverrides (s : State) (r : PanelRequest) (zones : List Nat) : State :=
  match s.light.hold with
  | none => s
  | some h =>
    { s with light := { s.light with
        hold := some { h with overrides := zones.foldl (fun o i => update1 o i (fun _ => some (newOverride s r i)))
                                              h.overrides } } }

/-- At the end of a listen-in, a hold that a LEVEL began without a scene takes the one rows 5 to 7 give (R100). -/
def settleHoldScene (s : State) : State :=
  match s.light.hold with
  | none => s
  | some h =>
    if h.scene.isSome then s
    else
      { s with light := { s.light with
          hold := some { h with scene := some (sceneByUse (govRead s) (occRead s)).1 } } }

/-! ### Lux (R102, R103) -/

/-- A valid sample (R102, R103). -/
def takeLux (now : Stamp) (v : Nat) (l : LuxHold) : LuxHold :=
  let lu := match l.lu with
    | none => v
    | some u => if 20 ≤ (v - u) + (u - v) then v else u
  { value := v, arrived := now, valid := true, hold := some now, lu := some lu }

/-- The end of the lux hold (R102). -/
def loseLux (l : LuxHold) : LuxHold := { l with valid := false, hold := none, lu := none }

/-! ### Starts (R110) -/

/-- The lux hold at a start. -/
def luxAtStart : LuxHold := { value := 0, arrived := stampZero, valid := false, hold := some stampZero, lu := none }

/-- The Light Unit at a power-up or pin reset: every configured zone at its start level. -/
def startLightCold (c : StationConfig) : Light :=
  { zones := c.zones.map (fun z => { level := z.startLevel, target := z.startLevel, fade := none })
    scene := none, source := .start, override := .none, hold := none, lux := luxAtStart, discarded := 0 }

/-- The zones at a service restart: each configured zone at the level it had reached, a newly configured one at its
start level. -/
def restartZones (now : Stamp) : List ZoneCfg → List Zone → List Zone
  | _ :: cs, z :: zs => setZone (zoneLevel now z) z :: restartZones now cs zs
  | c :: cs, [] => { level := c.startLevel, target := c.startLevel, fade := none } :: restartZones now cs []
  | [], _ => []

/-- The Light Unit at a service restart; `now` is the timebase value before it returns to 0. -/
def startLightRestart (now : Stamp) (c : StationConfig) (l : Light) : Light :=
  { zones := restartZones now c.zones l.zones
    scene := none, source := .start, override := .none, hold := none, lux := luxAtStart, discarded := l.discarded }

end Sys2Proof.Machine
end

