-- ==== Sys2Proof/Machine/Blinds.lean ====
section
/-! DEFINITION. The Blind Unit: runs and the position estimate (R114), moves, reversals and referencing (R115 to R118), the
target table (R119, R120), sun, wind and service (R121 to R124), panel holds (R125, R126) and starts (R127). -/

namespace Sys2Proof.Machine

/-! ### Runs and the estimate (R114) -/

/-- The estimate a run gives at an elapsed time. -/
def runEstimate (c : MotorCfg) (r : Run) (e : Nat) : Option Nat :=
  r.start.map (fun p =>
    match r.dir with
    | .down => min 1000 (p + e / c.td)
    | .up => p - e / c.tu)

/-- The position estimate of a motor at an instant (R114). -/
def motorEstimate (now : Stamp) (c : MotorCfg) (m : Motor) : Option Nat :=
  match m.run with
  | none => m.estimate
  | some r => runEstimate c r (elapsed r.since now)

/-- A target that is near an estimate (R115). -/
def isNear (t : Nat) (e : Option Nat) : Bool :=
  match e with
  | none => false
  | some p => t != 0 && t != 1000 && decide ((t - p) + (p - t) ≤ 20)

/-- The length of a run to a target in milliseconds (R114). -/
def runLength (c : MotorCfg) (dir : Dir) (kind : RunKind) (start target : Nat) : Nat :=
  match kind, dir with
  | .normal, .down => (target - start) * c.td
  | .normal, .up => (start - target) * c.tu
  | .endStop, .down => (1000 - start) * c.td + c.td * 100
  | .endStop, .up => start * c.tu + c.tu * 100
  | .referencing, _ => c.tu * 1100

/-- The kind of a run to a target (R115). -/
def kindTo (t : Nat) : RunKind := if t = 0 ∨ t = 1000 then .endStop else .normal

/-- The run from an estimate to a target. -/
def runTo (now : Stamp) (c : MotorCfg) (dir : Dir) (p t : Nat) : Run :=
  { dir := dir, start := some p, since := now, len := runLength c dir (kindTo t) p t, kind := kindTo t, target := t }

/-- The referencing run (R114, R118). -/
def referencingRun (now : Stamp) (c : MotorCfg) (e : Option Nat) : Run :=
  { dir := .up, start := e, since := now, len := runLength c .up .referencing 0 0, kind := .referencing, target := 0 }

/-- The state of a motor at rest with an estimate: IDLE when it is known (R113). -/
def restState (e : Option Nat) : MotorState := if e.isNone then .unreferenced else .idle

/-- A run is stopped before it completes: the estimate is fixed, direction and instant recorded, and the stop of a normal or end stop run
counted (R114, R116, R118). -/
def stopRun (now : Stamp) (c : MotorCfg) (m : Motor) : Motor :=
  match m.run with
  | none => m
  | some r =>
    { m with estimate := motorEstimate now c m, run := none, lastDir := some r.dir, lastStop := some now,
             count := if r.kind = .referencing then m.count else m.count.succ }

/-- The motor's last run stopped less than 500 ms ago (R116). -/
def stoppedLately (now : Stamp) (m : Motor) : Bool :=
  match m.lastStop with
  | none => false
  | some t => decide (elapsed t now < 500)

/-- A run in a direction is owed a PAUSE (R116). -/
def reversalOwed (now : Stamp) (dir : Dir) (m : Motor) : Bool :=
  match m.lastDir with
  | none => false
  | some d => d != dir && stoppedLately now m

/-- Once the 500 ms of R116 are over the record of the stop is dropped, so that a rollover of the timebase never makes it young
again (R2). -/
def forgetStop (now : Stamp) (m : Motor) : Motor := if stoppedLately now m then m else { m with lastStop := none }

/-- Referencing is due before a run to a target other than 0 (R118). -/
def referencingDue (t : Nat) (m : Motor) : Bool :=
  m.estimate.isNone || (t != 0 && t != 1000 && decide (20 ≤ m.count.toNat))

/-- The direction of a run from a known estimate (R115). -/
def dirTo (p t : Nat) : Dir := if t = 1000 then .down else if t = 0 then .up else if p < t then .down else .up

/-- Starting a move of a motor at rest (R115), with the checks of R118 and R116. -/
def startMove (now : Stamp) (c : MotorCfg) (t : Nat) (m : Motor) : Motor :=
  if isNear t m.estimate then { m with state := .idle, pending := none }
  else if referencingDue t m then
    if reversalOwed now .up m then { m with state := .pause, pending := some t }
    else { m with state := .referencing, pending := if t = 0 then none else some t,
                  run := some (referencingRun now c m.estimate) }
  else
    let p := m.estimate.getD 0
    let dir := dirTo p t
    if reversalOwed now dir m then { m with state := .pause, pending := some t }
    else { m with state := if dir = .up then .movingUp else .movingDown, pending := none,
                  run := some (runTo now c dir p t) }

/-- A moving motor takes a new target (R117). -/
def changeRun (now : Stamp) (c : MotorCfg) (dir : Dir) (t : Nat) (m : Motor) : Motor :=
  let e := motorEstimate now c m
  let p := e.getD 0
  let ahead : Bool := match dir with
    | .up => t == 0 || decide (t < p ∧ t ≠ 1000)
    | .down => t == 1000 || decide (p < t)
  if isNear t e then { stopRun now c m with state := .idle, pending := none }
  else if ahead then { m with run := some (runTo now c dir p t) }
  else { stopRun now c m with state := .pause, pending := some t }

/-! ### Targets taken, LOCKED, and stop and hold -/

/-- A formed position is taken where it differs from the target in force (R120, R113). -/
def takePosition (now : Stamp) (c : MotorCfg) (t : Nat) (m : Motor) : Motor :=
  if m.inForce = some t then m
  else
    let m := { m with inForce := some t }
    match m.state with
    | .unreferenced => startMove now c t m
    | .idle => startMove now c t m
    | .movingUp => changeRun now c .up t m
    | .movingDown => changeRun now c .down t m
    | .pause => { m with pending := some t }
    | .referencing => { m with pending := if t = 0 then none else some t }
    | .locked => m

/-- Starting the locked run of a motor at rest (R123): an end stop run up, or the referencing run. -/
def startLockedRun (now : Stamp) (c : MotorCfg) (m : Motor) : Motor :=
  { m with state := .locked, pending := none, lockPending := false,
           run := some (match m.estimate with
             | none => referencingRun now c none
             | some p => runTo now c .up p 0) }

/-- A motor at rest whose row becomes 1 or 3: the locked run, after any PAUSE owed (R123, R116). -/
def lockAtRest (now : Stamp) (c : MotorCfg) (m : Motor) : Motor :=
  if reversalOwed now .up m then { m with state := .pause, pending := some 0, lockPending := true }
  else startLockedRun now c m

/-- A motor enters LOCKED (R123); one already there, or in the PAUSE before its locked run, stays as it is. -/
def enterLocked (now : Stamp) (c : MotorCfg) (m : Motor) : Motor :=
  let m := { m with inForce := some 0 }
  match m.state with
  | .locked => m
  | .unreferenced => lockAtRest now c m
  | .idle => lockAtRest now c m
  | .movingUp => { m with state := .locked, pending := none,
                          run := some (runTo now c .up ((motorEstimate now c m).getD 0) 0) }
  | .movingDown => { stopRun now c m with state := .pause, pending := some 0, lockPending := true }
  | .pause => { m with pending := some 0, lockPending := true }
  | .referencing => { m with state := .locked, pending := none }

/-- A motor leaves LOCKED when neither row 1 nor row 3 applies any more (R123). -/
def leaveLocked (m : Motor) : Motor :=
  let m := { m with lockPending := false }
  match m.state with
  | .locked =>
    match m.run with
    | none => { m with state := restState m.estimate }
    | some r => { m with state := if r.kind = .referencing then .referencing else .movingUp }
  | _ => m

/-- Stop and hold (R124). -/
def stopAndHold (now : Stamp) (c : MotorCfg) (m : Motor) : Motor :=
  let m := stopRun now c m
  { m with state := restState m.estimate, inForce := none, pending := none, lockPending := false }

/-! ### The target table (R119) -/

/-- The row of the target table that holds for a motor. -/
inductive BlindRow where
  | locked
  | stopped
  | position (t : Nat)
  | none
  deriving DecidableEq, Repr

/-- The record of a façade. -/
def facadeOf (b : Blind) (n : Nat) : Option Facade := b.facades.find? (fun f => f.number == n)

/-- The wind lock of a façade is ON or HOLDING. -/
def windHolds (b : Blind) (n : Nat) : Bool := ((facadeOf b n).map (fun f => f.wind != .clear)).getD false

/-- The façade's SUN record is HIGH. -/
def sunHigh (b : Blind) (n : Nat) : Bool := ((facadeOf b n).map (fun f => f.sun == .high)).getD false

/-- The blind target of the room scene (R93, R119). -/
def sceneBlind (s : State) : Option Nat := (s.light.scene.bind (sceneOf s.cfg)).bind (fun sc => sc.blind)

/-- Rows 4 to 8 (R119), outside a listen-in. -/
def positionRow (s : State) (c : MotorCfg) (m : Motor) : BlindRow :=
  match m.hold with
  | some h => .position h.position
  | none =>
    match sceneBlind s with
    | some t => .position (if sunHigh s.blind c.facade then max t c.glare else t)
    | none =>
      if sunHigh s.blind c.facade ∧ (occRead s = .occupied ∨ (govRead s).isSome) then .position c.glare
      else if occRead s = .vacant ∧ (govRead s).isNone then .position c.afterHours
      else .none

/-- The first row whose condition holds (R119); in a listen-in rows 4 to 7 are as row 8 (R120). -/
def blindRow (s : State) (c : MotorCfg) (m : Motor) : BlindRow :=
  if s.service.evacuate then .locked
  else if s.service.maskBlind then .stopped
  else if windHolds s.blind c.facade then .locked
  else if s.listening then .none
  else positionRow s c m

/-- A motor takes what its row gives (R120, R123, R124). -/
def applyRow (now : Stamp) (c : MotorCfg) (row : BlindRow) (m : Motor) : Motor :=
  match row with
  | .locked => enterLocked now c m
  | .stopped => stopAndHold now c m
  | .position t => takePosition now c t (leaveLocked m)
  | .none => leaveLocked m

/-- Forming the targets of the motors a test names (R120). -/
def formMotors (s : State) (concerned : MotorCfg → Bool) : List MotorCfg → List Motor → List Motor
  | c :: cs, m :: ms =>
    (if concerned c then applyRow (nowOf s) c (blindRow s c m) m else m) :: formMotors s concerned cs ms
  | _, ms => ms

/-- Forming the targets of every motor (R120). -/
def formBlinds (s : State) : State :=
  { s with blind := { s.blind with motors := formMotors s (fun _ => true) s.cfg.motors s.blind.motors } }

/-- Forming the targets of a façade's motors (R120). -/
def formFacade (n : Nat) (s : State) : State :=
  { s with blind := { s.blind with
      motors := formMotors s (fun c => c.facade == n) s.cfg.motors s.blind.motors } }

/-! ### Run ends -/

/-- A normal or end stop run completes (R114, R115, R118). -/
def completeRun (now : Stamp) (m : Motor) : Motor :=
  match m.run with
  | none => m
  | some r =>
    { m with state := .idle, estimate := some r.target, run := none, lastDir := some r.dir, lastStop := some now,
             count := if r.kind = .normal then m.count.succ else 0 }

/-- A referencing run completes (R118): the pending target is started. -/
def completeReferencing (now : Stamp) (c : MotorCfg) (m : Motor) : Motor :=
  let t := m.pending
  let m := { m with state := .idle, estimate := some 0, run := none, lastDir := some .up, lastStop := some now,
                    count := 0, pending := none }
  match t with
  | none => m
  | some t => startMove now c t m

/-- A locked run completes (R123): LOCKED at rest at 0. -/
def completeLocked (now : Stamp) (m : Motor) : Motor :=
  { m with estimate := some 0, run := none, lastDir := some .up, lastStop := some now, count := 0, pending := none }

/-- A PAUSE ends (R116, R123). -/
def endPause (now : Stamp) (c : MotorCfg) (m : Motor) : Motor :=
  if m.lockPending then startLockedRun now c m
  else
    match m.pending with
    | none => { m with state := restState m.estimate }
    | some t => startMove now c t { m with pending := none }

/-- The motor's run has reached its length. -/
def runDone (now : Stamp) (m : Motor) : Bool :=
  match m.run with
  | none => false
  | some r => decide (r.len ≤ elapsed r.since now)

/-- Changing a motor with its configuration, by the manual's number. -/
def changeMotor (s : State) (n : Nat) (f : MotorCfg → Motor → Motor) : State :=
  match nth1 s.cfg.motors n with
  | none => s
  | some c => { s with blind := { s.blind with motors := update1 s.blind.motors n (f c) } }

/-! ### Sun and wind (R121 to R123) -/

/-- Changing a façade's record. -/
def changeFacade (n : Nat) (f : Facade → Facade) (b : Blind) : Blind :=
  { b with facades := b.facades.map (fun x => if x.number = n then f x else x) }

/-- A SUN sets a record and restarts its age (R121). -/
def takeSun (now : Stamp) (l : SunLevel) (f : Facade) : Facade := { f with sun := l, sunSince := some now }

/-- A WIND moves a lock (R123). -/
def takeWind (now : Stamp) (on : Bool) (w : WindLock) : WindLock :=
  match w, on with
  | .clear, true => .on
  | .clear, false => .clear
  | .on, true => .on
  | .on, false => .holding now
  | .holding _, true => .on
  | .holding t, false => .holding t

/-! ### Panel holds (R125, R126) -/

/-- A panel hold of a position begins at an instant. -/
def setHold (now : Stamp) (position : Nat) (m : Motor) : Motor :=
  { m with hold := some { position := min 1000 position, since := now } }

/-- The hold of a motor ends. -/
def clearHold (m : Motor) : Motor := { m with hold := none }

/-- The holds of every motor end (R126). -/
def endBlindHolds (s : State) : State :=
  { s with blind := { s.blind with motors := s.blind.motors.map clearHold } }

/-! ### Relay outputs (R113) -/

/-- BLnUP is on. -/
def relayUp (m : Motor) : Bool :=
  match m.state with
  | .movingUp => true
  | .referencing => true
  | .locked => m.run.isSome
  | _ => false

/-- BLnDN is on. -/
def relayDown (m : Motor) : Bool :=
  match m.state with
  | .movingDown => true
  | _ => false

/-! ### Starts (R127) -/

/-- A motor at a power-up or pin reset, or newly configured. -/
def newMotor : Motor :=
  { state := .unreferenced, estimate := none, inForce := none, pending := none, lockPending := false, run := none,
    lastDir := none, lastStop := none, count := 0, hold := none }

/-- The façades of the configured motors, ascending. -/
def facadeNumbers (c : StationConfig) : List Nat :=
  ((List.range 15).map (fun i => i + 1)).filter (fun n => c.motors.any (fun m => m.facade == n))

/-- The Blind Unit at a power-up or pin reset. -/
def startBlindCold (c : StationConfig) : Blind :=
  { motors := c.motors.map (fun _ => newMotor)
    facades := (facadeNumbers c).map (fun n => { number := n, sun := .none, sunSince := none, wind := .clear }) }

/-- A motor at a service restart under its old configuration; `now` is the timebase value before it returns to 0. -/
def restartMotor (now : Stamp) (c : MotorCfg) (m : Motor) : Motor :=
  let atRest := m.state = .locked ∧ m.run.isNone
  let m := stopRun now c m
  { m with state := if atRest then .locked else restState m.estimate, inForce := none, pending := none,
           lockPending := false, lastStop := some stampZero, hold := none }

/-- A motor whose façade or a travel time differs in the new image (R127). -/
def motorChanged (a b : MotorCfg) : Bool := a.facade != b.facade || a.td != b.td || a.tu != b.tu

/-- The motors at a service restart: old configuration, new configuration, motors. -/
def restartMotors (now : Stamp) : List MotorCfg → List MotorCfg → List Motor → List Motor
  | a :: as, b :: bs, m :: ms =>
    (if motorChanged a b
      then { restartMotor now a m with state := .unreferenced, estimate := none }
      else restartMotor now a m) :: restartMotors now as bs ms
  | _, _ :: bs, _ => newMotor :: restartMotors now [] bs []
  | _, [], _ => []

/-- A wind lock at a service restart: a HOLDING timer runs its full time again. -/
def restartWind : WindLock → WindLock
  | .holding _ => .holding stampZero
  | w => w

/-- The Blind Unit at a service restart (R127). A façade that no motor had before has its wind lock CLEAR: the model's choice (assumption log
entry 45). -/
def startBlindRestart (now : Stamp) (old new : StationConfig) (b : Blind) : Blind :=
  { motors := restartMotors now old.motors new.motors b.motors
    facades := (facadeNumbers new).map (fun n =>
      { number := n, sun := .none, sunSince := none,
        wind := ((facadeOf b n).map (fun f => restartWind f.wind)).getD .clear }) }

end Sys2Proof.Machine
end

