-- ==== Sys2Proof/Machine/Journal.lean ====
section
/-! DEFINITION. The booking journal in the EEPROM: slot layouts (R185), the write queue and the slot writes
(R186, R187), replay (R188) and compaction (R189), and the answers that wait for a write (R27). -/

namespace Sys2Proof.Machine

/-! ### Slots (R185) -/

/-- A slot: seven bytes and their check byte, the low byte of their CRC-16. -/
def slotOf (seven : List Byte) : List Byte := seven ++ [(crc16 seven).setWidth 8]

/-- The header slot of a page. -/
def headerSlot (seq : Count16) : List Byte := slotOf ([0] ++ be2 seq.toNat ++ [0, 0, 0, 0])

/-- The start of a record as one 32-bit number. -/
def packStart (t : DateTime) : Nat :=
  (t.year - 2000) * 1048576 + t.month * 65536 + t.day * 2048 + t.hour * 64 + t.minute

/-- The date and time a 32-bit number holds. -/
def unpackStart (n : Nat) : DateTime :=
  { year := 2000 + n / 1048576 % 256, month := n / 65536 % 16, day := n / 2048 % 32, hour := n / 64 % 32,
    minute := n % 64 }

/-- The first slot of a PUT. -/
def putFirst (b : Booking) : List Byte :=
  slotOf ([byteOf (64 + kindCode b.kind + bitIf b.joined 4 + bitIf b.noRelease 8 + bitIf b.adjusted 16)]
    ++ be2 b.id ++ be2 (packStart b.start / 65536) ++ be2 (packStart b.start % 65536))

/-- The second slot of a PUT. -/
def putSecond (b : Booking) : List Byte :=
  slotOf ([byteOf (128 + b.weeks % 16)] ++ be2 ((dateInstant b.finish - dateInstant b.start) / 60)
    ++ be2 b.headcount ++ [byteOf b.partner, 0])

/-- The slots of an entry. -/
def bodySlots : JournalBody → List (List Byte)
  | .put b => [putFirst b, putSecond b]
  | .drop id => [slotOf ([0xC0#8] ++ be2 id ++ [0, 0, 0, 0])]

/-- What replay reads in one slot. -/
inductive SlotRead where
  | bad
  | drop (id : Nat)
  | first (kind : BookingKind) (joined noRelease adjusted : Bool) (id : Nat) (start : DateTime)
  | second (weeks minutes headcount partner : Nat)
  deriving DecidableEq, Repr

/-- A slot whose check holds. -/
def slotGood (b : List Byte) : Bool := b == slotOf (b.take 7)

/-- A slot whose eight bytes all read FFh. -/
def slotEmpty (b : List Byte) : Bool := b.all (fun x => x == erasedByte)

/-- Reading a slot of slots 1 to 31 that is not empty. -/
def readSlot (b : List Byte) : SlotRead :=
  match b with
  | [b0, b1, b2, b3, b4, b5, b6, _] =>
    if !slotGood b then .bad
    else
      match b0.toNat / 64 with
      | 1 =>
        match kindOfCode (b0.toNat % 4) with
        | some k => .first k (b0.getLsbD 2) (b0.getLsbD 3) (b0.getLsbD 4) (rd2 b1 b2)
                      (unpackStart (rd2 b3 b4 * 65536 + rd2 b5 b6))
        | none => .bad
      | 2 => .second (b0.toNat % 16) (rd2 b1 b2) (rd2 b3 b4) b5.toNat
      | 3 => .drop (rd2 b1 b2)
      | _ => .bad
  | _ => .bad

/-! ### The booking list in order (R24) -/

/-- The order of the list: by start, then by id. -/
def bookingBefore (a b : Booking) : Bool :=
  decide (dateInstant a.start < dateInstant b.start
    ∨ (dateInstant a.start = dateInstant b.start ∧ a.id < b.id))

/-- Placing a record in the order. -/
def insertBooking (b : Booking) : List Booking → List Booking
  | [] => [b]
  | x :: rest => if bookingBefore b x then b :: x :: rest else x :: insertBooking b rest

/-- The list in order. -/
def sortBookings (l : List Booking) : List Booking := l.foldr insertBooking []

/-- A record seven days later with one week less (R35, R36); `none` where the weeks have run out or the start would
fall after 2199-12-31. -/
def weekLater (b : Booking) : Option Booking :=
  let start := addDays 7 b.start
  if b.weeks = 0 ∨ 2199 < start.year then none
  else some { b with start := start, finish := addDays 7 b.finish, weeks := b.weeks - 1 }

/-! ### Answers (R27) -/

/-- A BOOKING-ANSWER with its detail, to the source of the PUT or DROP (R27). -/
def answerTelegram (a : Answer) (detail : Nat) : OutTelegram :=
  { kind := kBookingAnswer, scope := scopeStation, dest := a.dest, payload := answerBytes a detail }

/-- Queueing a BOOKING-ANSWER with its detail. -/
def sendAnswer (a : Answer) (detail : Nat) (s : State) : State := send (answerTelegram a detail) s

/-- Queueing an answer that may be absent. -/
def sendAnswerIf (a : Option Answer) (detail : Nat) (s : State) : State :=
  match a with
  | none => s
  | some x => sendAnswer x detail s

/-! ### The write queue (R186, R187) -/

/-- The slot writes of an entry at the journal position; `none` where no page can take it (R187). -/
def entryPlan (j : Journal) (body : JournalBody) : Option (List SlotWrite) :=
  let slots := bodySlots body
  if j.page ≠ 0 ∧ !j.closed ∧ j.slot + slots.length ≤ 32 then
    some ((numbered j.slot slots).map (fun x => { page := j.page, slot := x.1, bytes := x.2 }))
  else if 4 ≤ j.page then none
  else
    some ({ page := j.page + 1, slot := 0, bytes := headerSlot (if j.page = 0 then 1 else j.seq + 1) }
      :: (numbered 1 slots).map (fun x => { page := j.page + 1, slot := x.1, bytes := x.2 }))

/-- Reporting entries as not written, in order: each answer that waits goes out NOT-RETAINED (R27). -/
def reportNotWritten : List JournalEntry → State → State
  | [], s => s
  | e :: rest, s => reportNotWritten rest (sendAnswerIf e.answer detailNotRetained s)

/-- No page can take the entry: JOURNAL-FULL is raised, every entry is reported and the queue emptied (R187). -/
def raiseJournalFull (s : State) : State :=
  let q := s.journal.queue
  reportNotWritten q
    { s with faults := { s.faults with journalFull := true },
             journal := { s.journal with queue := [], plan := [], since := none } }

/-- Beginning the writes of the head entry, where none is in progress (R186). -/
def startWrite (s : State) : State :=
  match s.journal.plan, s.journal.queue with
  | [], e :: _ =>
    match entryPlan s.journal e.body with
    | some plan => { s with journal := { s.journal with plan := plan, since := some (nowOf s) } }
    | none => raiseJournalFull s
  | _, _ => s

/-- The Timetable hands the controller the entries of one change, `last` carrying its answer (R186, R27). -/
def handEntries (entries : List JournalEntry) (a : Answer) (s : State) : State :=
  if s.faults.journalFull || 4 < s.journal.queue.length + entries.length then sendAnswer a detailNotRetained s
  else startWrite { s with journal := { s.journal with queue := s.journal.queue ++ entries } }

/-- The bytes of a slot put into the EEPROM. -/
def writeSlot (w : SlotWrite) (cells : List Host.Cell) : List Host.Cell :=
  memWriteList cells (slotAddress w.page w.slot) w.bytes

/-- Eight free values: what a slot reads as after its write failed or was torn (R187). -/
def freeSlot (used : Nat) : List Byte := (List.range 8).map (fun i => Config.freeByte (used + i))

/-- The write in progress leaves its slot with no byte the rules give. -/
def spoilSlot (w : SlotWrite) (s : State) : State :=
  { s with eeprom := { s.eeprom with cells := writeSlot { w with bytes := freeSlot s.freeUsed } s.eeprom.cells },
           freeUsed := s.freeUsed + 8 }

/-- The journal after a slot write completes, but for the entry's report. -/
def journalAfterWrite (w : SlotWrite) (rest : List SlotWrite) (now : Stamp) (j : Journal) : Journal :=
  if w.slot = 0 then
    { j with page := w.page, slot := 1, seq := if j.page = 0 then 1 else j.seq + 1, closed := false,
             plan := rest, since := if rest = [] then none else some now }
  else { j with slot := w.slot + 1, plan := rest, since := if rest = [] then none else some now }

/-- A slot write completes (R186). -/
def slotWritten (s : State) : State :=
  match s.journal.plan with
  | [] => s
  | w :: rest =>
    let s := { s with eeprom := { s.eeprom with cells := writeSlot w s.eeprom.cells },
                      journal := journalAfterWrite w rest (nowOf s) s.journal }
    match rest, s.journal.queue with
    | [], e :: q =>
      startWrite (sendAnswerIf e.answer detailRetained { s with journal := { s.journal with queue := q } })
    | _, _ => s

/-- The head entry is reported not written and leaves the queue; where it is the DROP of a pair, the pair's answer
goes out now and no longer waits (R27). -/
def headNotWritten (s : State) : State :=
  match s.journal.queue with
  | [] => s
  | e :: q =>
    let a := if e.pairFirst then (q.head?.map (fun x => x.answer)).getD none else e.answer
    let q' := if e.pairFirst then q.modify 0 (fun x => { x with answer := none }) else q
    sendAnswerIf a detailNotRetained
      { s with journal := { s.journal with queue := q', plan := [], since := none, closed := true } }

/-- A slot write fails (R187). -/
def slotFailed (s : State) : State :=
  match s.journal.plan with
  | [] => s
  | w :: _ =>
    let s := spoilSlot w s
    if w.slot = 0 then raiseJournalFull s else startWrite (headNotWritten s)

/-- A loss of power or a pin reset tears the slot being written and loses the queue (R187). -/
def tearWrites (s : State) : State :=
  let s := match s.journal.plan with
    | [] => s
    | w :: _ => spoilSlot w s
  { s with journal := { s.journal with queue := [], plan := [], since := none } }

/-- A service restart drops the waiting answers and times the write in progress afresh (R181, R27). -/
def journalRestart (s : State) : State :=
  { s with journal :=
      { s.journal with
        queue := s.journal.queue.map (fun e => { e with answer := none, pairFirst := false })
        since := if s.journal.plan = [] then none else some stampZero } }

/-! ### Replay (R188) -/

/-- The slots 1 to 31 of a page up to its first empty slot. -/
def pageSlots (cells : List Host.Cell) (page : Nat) : List (List Byte) :=
  ((List.range 31).map (fun i => memReadList cells (slotAddress page (i + 1)) 8)).takeWhile (fun b => !slotEmpty b)

/-- A page's sequence, where its header is valid (R185). -/
def pageSeq (cells : List Host.Cell) (page : Nat) : Option Count16 :=
  let h := memReadList cells (slotAddress page 0) 8
  if slotEmpty h || !slotGood h then none else some (h.getD 1 0 ++ h.getD 2 0)

/-- Placing a page in ascending page sequence; of two with the same sequence the lower page number comes first (assumption log entry 43). -/
def insertPage (p : Nat × Count16) : List (Nat × Count16) → List (Nat × Count16)
  | [] => [p]
  | x :: rest => if p.2.toNat < x.2.toNat then p :: x :: rest else x :: insertPage p rest

/-- The valid pages in ascending page sequence. -/
def validPages (cells : List Host.Cell) : List (Nat × Count16) :=
  ([1, 2, 3, 4].filterMap (fun p => (pageSeq cells p).map (fun q => (p, q)))).foldl (fun l p => insertPage p l) []

/-- The record a PUT's two slots give (R188). -/
def replayedRecord (k : BookingKind) (joined noRelease adjusted : Bool) (id : Nat) (start : DateTime)
    (weeks minutes headcount partner : Nat) : Booking :=
  { id := id, kind := k, joined := joined, noRelease := noRelease, start := start,
    finish := addMinutes minutes start, headcount := headcount, weeks := weeks, partner := partner,
    adjusted := adjusted, state := if minutes = 0 then .disabled else .pending, window := .none,
    attended := false, runout := none }

/-- The walk over the slots read: the records held, and the slots skipped (R188). -/
def walkSlots : List SlotRead → List Booking → Nat → List Booking × Nat
  | [], held, torn => (held, torn)
  | .drop id :: rest, held, torn => walkSlots rest (held.filter (fun b => b.id != id)) torn
  | .first k j n a id st :: .second w m h p :: rest, held, torn =>
    walkSlots rest (replayedRecord k j n a id st w m h p :: held.filter (fun b => b.id != id)) torn
  | _ :: rest, held, torn => walkSlots rest held (torn + 1)

/-- Bringing a record forward until its end lies after the loss time (R188); `fuel` is at least its weeks and one. -/
def bringForward (loss : Nat) : Nat → Booking → Option Booking
  | 0, b => if dateInstant b.finish ≤ loss then none else some b
  | n + 1, b =>
    if dateInstant b.finish ≤ loss then
      match weekLater b with
      | none => none
      | some b' => bringForward loss n b'
    else some b

/-- The slots replay reads, page after page; a page's last slots do not pair with the next page's first (R185). -/
def walkPages (cells : List Host.Cell) : List (Nat × Count16) → List Booking → Nat → List Booking × Nat
  | [], held, torn => (held, torn)
  | (p, _) :: rest, held, torn =>
    let r := walkSlots ((pageSlots cells p).map readSlot) held torn
    walkPages cells rest r.1 r.2

/-- The list replay leaves, in list order and cut to 32 records (R188). -/
def replayList (s : State) : List Booking :=
  let held := (walkPages s.eeprom.cells (validPages s.eeprom.cells) [] 0).1
  let kept := if s.backup.valid
    then held.filterMap (fun b => bringForward s.backup.lossTime (b.weeks + 1) b)
    else held
  (sortBookings kept).take 32

/-- The journal position and the torn-slot count after replay (R188). -/
def replayJournal (s : State) : Journal :=
  let torn := (walkPages s.eeprom.cells (validPages s.eeprom.cells) [] 0).2
  match (validPages s.eeprom.cells).getLast? with
  | none => { page := 0, slot := 1, seq := 0, closed := false, queue := [], plan := [], since := none,
              torn := BitVec.ofNat 16 torn }
  | some (p, q) =>
    { page := p, slot := (pageSlots s.eeprom.cells p).length + 1, seq := q, closed := false, queue := [],
      plan := [], since := none, torn := BitVec.ofNat 16 torn }

/-- The consumed slots (R185). -/
def consumedSlots (cells : List Host.Cell) : Nat :=
  match (validPages cells).getLast? with
  | none => 0
  | some (p, _) => 31 * ((validPages cells).length - 1) + (pageSlots cells p).length

/-! ### Compaction (R189) -/

/-- The two slot writes of a record. -/
def recordWrites (page slot : Nat) (b : Booking) : List SlotWrite :=
  [{ page := page, slot := slot, bytes := putFirst b }, { page := page, slot := slot + 1, bytes := putSecond b }]

/-- The erasing of a compaction: every byte of every slot of the four pages written with FFh (R189), slot by slot in order of address
(assumption log entry 16). -/
def eraseWrites : List SlotWrite :=
  ([1, 2, 3, 4].map (fun page =>
    (List.range 32).map (fun slot => { page := page, slot := slot, bytes := List.replicate 8 erasedByte }))).flatten

/-- The slot writes of a compaction's entries: records in list order, pages opened as R186 opens them. -/
def compactionWrites : List Booking → Nat → Nat → List SlotWrite
  | [], _, _ => []
  | b :: rest, page, slot =>
    if page ≠ 0 ∧ slot + 2 ≤ 32 then recordWrites page slot b ++ compactionWrites rest page (slot + 2)
    else
      { page := page + 1, slot := 0, bytes := headerSlot (BitVec.ofNat 16 (page + 1)) }
        :: (recordWrites (page + 1) 1 b ++ compactionWrites rest (page + 1) 3)

/-- Every slot write of a compaction, the erasing first (R189). -/
def compactionPlan (records : List Booking) : List SlotWrite := eraseWrites ++ compactionWrites records 0 0

/-- Making slot writes. -/
def makeWrites : List SlotWrite → List Host.Cell → List Host.Cell
  | [], cells => cells
  | w :: rest, cells => makeWrites rest (writeSlot w cells)

/-- The journal position after a compaction: the slot after the last entry written. -/
def compactedJournal (records : List Booking) (j : Journal) : Journal :=
  match (compactionWrites records 0 0).getLast? with
  | none => { j with page := 0, slot := 1, seq := 0 }
  | some w => { j with page := w.page, slot := w.slot + 1, seq := BitVec.ofNat 16 w.page }

end Sys2Proof.Machine
end

