-- ==== Sys2Proof/Machine/Timetable.lean ====
section
/-! DEFINITION. The Timetable: evaluation, activation, ending and recurrence of booking records (R29 to R36), the
session summary (R37), notices (R38), clock steps (R39 to R41), starts (R42, R43), and the decision of a
BOOKING-PUT or BOOKING-DROP against the list (R20 to R28). -/

namespace Sys2Proof.Machine

/-- A SESSION-NOTICE to be queued (R38). -/
structure Notice where
  code : Nat
  id : Nat
  start : DateTime
  count : Nat
  deriving DecidableEq, Repr

/-- What the records of one event are evaluated against: the calendar instant read once (R14), the lead L in
minutes, the occupancy read, the timebase value, W, whether this is the derivation of a start (R42), the neighbour the
station is joined with (0: none), and whether it is FOLLOW. -/
structure EvalCtx where
  now : Nat
  lead : Nat
  occupancy : Occupancy
  stamp : Stamp
  w : Nat
  derivation : Bool
  partner : Nat
  follow : Bool
  deriving DecidableEq, Repr

/-- The neighbour of the partition the station is LEAD or FOLLOW on; 0 while SOLO. -/
def joinedPartner (s : State) : Nat :=
  match roleOf s with
  | .solo => 0
  | .lead p => neighbourOf s p
  | .follow p => neighbourOf s p

/-- The evaluation context at a calendar instant. -/
def evalCtx (s : State) (now : Nat) (derivation : Bool) : EvalCtx :=
  { now := now, lead := s.air.lead, occupancy := occRead s, stamp := nowOf s, w := s.cfg.noShowW,
    derivation := derivation, partner := joinedPartner s, follow := isFollow s }

/-- What becomes of a record on an event: the record left in the list, or none, and its notices in order. -/
abbrev RecordResult := Option Booking × List Notice

/-- The notice of one occurrence. -/
def noticeOf (code : Nat) (b : Booking) (count : Nat) : Notice :=
  { code := code, id := b.id, start := b.start, count := count }

/-- The record disagrees with the join role (R30). -/
def conflicts (c : EvalCtx) (b : Booking) : Bool :=
  if b.joined then c.partner == 0 || c.partner != b.partner else c.follow

/-- The no-show window a record gets as it becomes ACTIVE, and its attended mark (R30, R42). A NO-RELEASE record gets none in the derivation
either, and so meets no CONFLICT check at the end of the listen-in (assumption log entry 40). -/
def openWindow (c : EvalCtx) (b : Booking) : Booking :=
  if b.noRelease then { b with state := .active, window := .none, runout := none }
  else if c.occupancy = .occupied then { b with state := .active, window := .none, attended := true, runout := none }
  else if c.derivation then { b with state := .active, window := .deferred, runout := none }
  else { b with state := .active, window := .running c.stamp, runout := none }

/-- A record becomes ACTIVE (R30). -/
def activate (c : EvalCtx) (b : Booking) : RecordResult :=
  (some (openWindow c b),
    if !c.derivation && conflicts c b then [noticeOf noticeConflict b 1] else [])

/-- Evaluating a PENDING record whose end lies after now (R29). -/
def evaluateLive (c : EvalCtx) (b : Booking) : RecordResult :=
  if dateInstant b.start ≤ c.now then activate c b
  else if dateInstant b.start ≤ c.now + 3600 ∧ dateInstant b.start ≤ c.now + c.lead * 60 then
    (some { b with state := .preconditioning }, [])
  else (some b, [])

/-- The next occurrence as R35 puts it back. -/
def nextOccurrence (b : Booking) : Option Booking :=
  (weekLater b).map (fun x => { x with state := .pending, window := .none, attended := false, runout := none })

/-- Passing over the occurrences whose end is at or before now (R35): how many, and the occurrence left. -/
def missRun (now : Nat) : Nat → Booking → Nat × Option Booking
  | 0, b => if dateInstant b.finish ≤ now then (1, none) else (0, some b)
  | n + 1, b =>
    if dateInstant b.finish ≤ now then
      match nextOccurrence b with
      | none => (1, none)
      | some x => ((missRun now n x).1 + 1, (missRun now n x).2)
    else (0, some b)

/-- Evaluating a PENDING record (R29); one whose end is at or before now is MISSED, one notice covering all the
occurrences passed over (R38, R39). -/
def evaluatePending (c : EvalCtx) (b : Booking) : RecordResult :=
  if dateInstant b.finish ≤ c.now then
    let r := missRun c.now b.weeks b
    let n := noticeOf noticeMissed b r.1
    match r.2 with
    | none => (none, [n])
    | some x => ((evaluateLive c x).1, n :: (evaluateLive c x).2)
  else evaluateLive c b

/-- A record that became DONE or NOSHOW leaves, or is put back and evaluated at once (R35). -/
def leaveOrRecur (c : EvalCtx) (b : Booking) : RecordResult :=
  match nextOccurrence b with
  | none => (none, [])
  | some x => evaluatePending c x

/-- A record becomes NOSHOW: its notice first (R31, R33, R35). -/
def becomeNoShow (c : EvalCtx) (b : Booking) : RecordResult :=
  ((leaveOrRecur c b).1, noticeOf noticeNoShow b 1 :: (leaveOrRecur c b).2)

/-- The window status is RUNNING. -/
def windowRunning (b : Booking) : Bool :=
  match b.window with
  | .running _ => true
  | _ => false

/-- An ACTIVE record reaches its end (R33); a window status DEFERRED stays as it is. -/
def endActive (c : EvalCtx) (b : Booking) : RecordResult :=
  if windowRunning b then becomeNoShow c b
  else if c.occupancy = .vacant then leaveOrRecur c b
  else (some { b with state := .runout, runout := some c.stamp }, [])

/-- A DISABLED record is retired (R36); `fuel` is its weeks remaining. -/
def retireRun (now : Nat) : Nat → Booking → Option Booking
  | 0, _ => none
  | n + 1, b =>
    match weekLater b with
    | none => none
    | some x => if now < dateInstant x.start then some x else retireRun now n x

/-- Retiring on a day boundary, a forward step or a clock start (R36). -/
def retire (c : EvalCtx) (b : Booking) : RecordResult :=
  if dateInstant b.start < c.now then (retireRun c.now b.weeks b, []) else (some b, [])

/-- A record at a minute boundary (R29, R30, R33). -/
def onMinute (c : EvalCtx) (b : Booking) : RecordResult :=
  match b.state with
  | .pending => evaluatePending c b
  | .preconditioning => if dateInstant b.start = c.now then activate c b else (some b, [])
  | .active => if dateInstant b.finish = c.now then endActive c b else (some b, [])
  | .runout => (some b, [])
  | .disabled => (some b, [])

/-- A record at a day boundary (R36). -/
def onDay (c : EvalCtx) (b : Booking) : RecordResult :=
  match b.state with
  | .disabled => retire c b
  | _ => (some b, [])

/-- A record on a forward step or a clock start (R39, R41). -/
def onForward (c : EvalCtx) (b : Booking) : RecordResult :=
  match b.state with
  | .pending => evaluatePending c b
  | .preconditioning =>
    if dateInstant b.finish ≤ c.now then evaluatePending c b
    else if dateInstant b.start ≤ c.now then activate c b
    else (some b, [])
  | .active => if dateInstant b.finish ≤ c.now then endActive c b else (some b, [])
  | .runout => (some b, [])
  | .disabled => retire c b

/-- A record on a backward step (R40). -/
def onBackward (c : EvalCtx) (b : Booking) : RecordResult :=
  match b.state with
  | .pending => evaluatePending c b
  | .preconditioning =>
    if c.now + 3600 < dateInstant b.start then (some { b with state := .pending }, []) else (some b, [])
  | _ => (some b, [])

/-- A record on a grant-change event (R29). -/
def onGrant (c : EvalCtx) (b : Booking) : RecordResult :=
  match b.state with
  | .pending => if dateInstant b.start ≤ c.now + 3600 then evaluatePending c b else (some b, [])
  | _ => (some b, [])

/-- A record on an occupancy event carrying the value read (R31, R34, R42). -/
def onOccupancy (c : EvalCtx) (b : Booking) : RecordResult :=
  match c.occupancy with
  | .occupied =>
    match b.window with
    | .none => (some b, [])
    | _ => (some { b with window := .none, attended := true }, [])
  | .vacant =>
    match b.state with
    | .runout => leaveOrRecur c b
    | _ => (some b, [])
  | _ => (some b, [])

/-- A record at the end of a listen-in (R42). -/
def onListenEnd (c : EvalCtx) (b : Booking) : RecordResult :=
  match b.state, b.window with
  | .active, .deferred => activate c b
  | _, _ => (some b, [])

/-- A record on a clock stop (R41). -/
def onClockStop (b : Booking) : Booking :=
  match b.state with
  | .disabled => b
  | _ => { b with state := .pending, window := .none, attended := false, runout := none }

/-- A record at a service restart (R43). -/
def onRestart (b : Booking) : Booking :=
  { b with
    window := match b.window with
      | .running _ => .deferred
      | x => x
    runout := b.runout.map (fun _ => stampZero) }

/-- The expiry of one record's no-show window (R31). -/
def onWindowExpiry (id : Nat) (c : EvalCtx) (b : Booking) : RecordResult :=
  match b.window with
  | .running since =>
    if b.id = id ∧ b.state = .active ∧ c.w * 60000 ≤ elapsed since c.stamp then
      if c.occupancy = .occupied then (some { b with window := .none, attended := true }, [])
      else becomeNoShow c b
    else (some b, [])
  | _ => (some b, [])

/-- The expiry of one record's run-out cap (R34). -/
def onCapExpiry (id : Nat) (c : EvalCtx) (b : Booking) : RecordResult :=
  if b.id = id ∧ b.state = .runout ∧ ranOut b.runout 1800000 c.stamp then
    ((leaveOrRecur c b).1, noticeOf noticeOverrun b 1 :: (leaveOrRecur c b).2)
  else (some b, [])

/-! ### The list -/

/-- Every record in list order taken through one event: the records left, and the notices in list order. -/
def eachRecord (f : Booking → RecordResult) : List Booking → List Booking × List Notice
  | [] => ([], [])
  | b :: rest =>
    let r := eachRecord f rest
    ((f b).1.toList ++ r.1, (f b).2 ++ r.2)

/-- A SESSION-NOTICE as a telegram, addressed by the captured source (R28, R38). -/
def noticeTelegram (captured : Option Nat) (n : Notice) : OutTelegram :=
  { kind := kSessionNotice
    scope := if captured.isSome then scopeStation else scopeAll
    dest := captured.getD 0
    payload := noticeBytes n.code n.id n.start n.count }

/-- One event over the whole list: the records are settled and put in order, the notices queued. -/
def overRecords (f : Booking → RecordResult) (s : State) : State :=
  let r := eachRecord f s.tt.records
  sendAll (r.2.map (noticeTelegram s.tt.captured)) { s with tt := { s.tt with records := sortBookings r.1 } }

/-- One event over the list, where the calendar is RUNNING: a STOPPED calendar evaluates nothing (R22, R29). -/
def overRecordsAt (f : EvalCtx → Booking → RecordResult) (s : State) : State :=
  match calInstant s.cal with
  | none => s
  | some now => overRecords (f (evalCtx s now false)) s

/-- The Timetable takes an occupancy event (R32). Records are ACTIVE or RUNOUT only while the calendar runs (R41). -/
def ttOccupancy (s : State) : State := overRecordsAt onOccupancy s

/-- The Timetable takes a grant-change event (R29). -/
def ttGrant (s : State) : State := overRecordsAt onGrant s

/-- The Timetable takes a clock stop (R41). -/
def ttClockStop (s : State) : State :=
  { s with tt := { s.tt with records := s.tt.records.map onClockStop } }

/-! ### The session summary (R37) -/

/-- The record is ACTIVE or RUNOUT. -/
def isLive (b : Booking) : Bool := b.state == .active || b.state == .runout

/-- The state a record gives the session, where it gives one. -/
def sessionOf (b : Booking) : Option SessionState :=
  match b.state with
  | .active => some .active
  | .runout => some .runout
  | .preconditioning => some .preconditioning
  | _ => none

/-- The governing record: the list is in order of start and id. -/
def governing (l : List Booking) : Option Booking :=
  match l.find? isLive with
  | some b => some b
  | none => l.find? (fun b => b.state == .preconditioning)

/-- The highest expected headcount among ACTIVE records, where there is one. -/
def expectedActive (l : List Booking) : Option Nat :=
  l.foldl (fun m b => if b.state = .active then some (max (m.getD 0) b.headcount) else m) none

/-- The session summary (R37). -/
def summarize (l : List Booking) : Option Summary :=
  match governing l with
  | none => none
  | some b =>
    (sessionOf b).map (fun st =>
      { state := st, kind := b.kind, id := b.id, start := b.start,
        expected := (expectedActive l).getD b.headcount })

/-! ### BOOKING-PUT and BOOKING-DROP -/

/-- The default duration of a kind, minutes (R19). -/
def defaultDuration (c : StationConfig) : BookingKind → Nat
  | .lecture => c.durLecture
  | .discussion => c.durDiscussion
  | .exam => c.durExam
  | .screening => c.durScreening

/-- The content of a PUT passes the check of R20. -/
def putUsable (p : PutFields) : Bool :=
  p.id != 0 && (kindOfCode p.kind).isSome && validDate p.start.year p.start.month p.start.day
    && decide (p.start.hour ≤ 23 ∧ p.start.minute ≤ 59 ∧ p.endHour ≤ 23 ∧ p.endMinute ≤ 59)

/-- The end a PUT's window forms against a start (R21), and whether forming it sets the ADJUSTED mark. -/
def formEnd (c : StationConfig) (k : BookingKind) (start : DateTime) (p : PutFields) : DateTime × Bool :=
  let day := if p.nextDayMark then nextDay start else start
  let finish := { day with hour := p.endHour, minute := p.endMinute }
  let fallback := addMinutes (defaultDuration c k) start
  if dateInstant finish < dateInstant start then (fallback, true)
  else if dateInstant finish = dateInstant start then (finish, false)
  else if dateInstant start + 43200 < dateInstant finish then (fallback, true)
  else (finish, false)

/-- A station number is the neighbour of a configured partition (R21, R129). -/
def isNeighbour (s : State) (n : Nat) : Bool :=
  (numbered 1 s.join.partitions).any (fun x => x.2.state != .notConfigured && neighbourOf s x.1 == n) && n != 0

/-- The record a PUT forms (R21), as R24 stores a new one. -/
def formRecord (s : State) (k : BookingKind) (p : PutFields) : Booking :=
  let e := formEnd s.cfg k p.start p
  let keepJoin := p.joined && isNeighbour s p.partner
  { id := p.id, kind := k, joined := keepJoin, noRelease := p.noRelease, start := p.start, finish := e.1,
    headcount := min p.headcount 300, weeks := if p.weeks = 255 then 0 else min p.weeks 15,
    partner := if keepJoin then p.partner else 0, adjusted := e.2 || (p.joined && !keepJoin),
    state := if dateInstant e.1 = dateInstant p.start then .disabled else .pending, window := .none,
    attended := false, runout := none }

/-- The first group of fields of two records agree (R23). -/
def sameFields (a b : Booking) : Bool :=
  a.kind == b.kind && a.joined == b.joined && a.noRelease == b.noRelease && a.start == b.start
    && a.finish == b.finish && a.headcount == b.headcount && a.weeks == b.weeks && a.partner == b.partner

/-- A held ACTIVE or RUNOUT record after it took a PUT's end, expected headcount and NO-RELEASE (R25). -/
def adjustLive (now : Option Nat) (finish : DateTime) (headcount : Nat) (noRelease : Bool) (b : Booking) : Booking :=
  let b := { b with finish := finish, headcount := headcount, adjusted := true, noRelease := noRelease,
                    window := if noRelease && windowRunning b then .none else b.window }
  if b.state = .runout ∧ (now.map (fun n => decide (n < dateInstant finish))).getD true then
    { b with state := .active, runout := none }
  else b

/-- The outcome of a PUT or DROP against the list (R22 to R26): its status, the evicted id, the record the answer carries,
the list after it, the journal entries of the change, and whether the record of the PUT is to be evaluated. -/
structure Decision where
  status : AnswerStatus
  evicted : Nat
  record : Option Booking
  records : List Booking
  entries : List JournalBody
  evaluate : Bool
  deriving DecidableEq, Repr

/-- An outcome that changes nothing. -/
def noChange (l : List Booking) (st : AnswerStatus) (r : Option Booking) : Decision :=
  { status := st, evicted := 0, record := r, records := l, entries := [], evaluate := false }

/-- ADJUSTED where the mark is set, ACCEPTED otherwise. -/
def takenStatus (b : Booking) : AnswerStatus := if b.adjusted then .adjusted else .accepted

/-- A PUT for a new id (R24). -/
def putNew (l : List Booking) (b : Booking) : Decision :=
  if l.length < 32 then
    { status := takenStatus b, evicted := 0, record := some b, records := insertBooking b l,
      entries := [.put b], evaluate := true }
  else
    match l.getLast? with
    | none => noChange l .refusedFull none
    | some z =>
      if dateInstant b.start < dateInstant z.start ∧ (z.state = .pending ∨ z.state = .disabled) then
        { status := .replacedOther, evicted := z.id, record := some b, records := insertBooking b l.dropLast,
          entries := [.drop z.id, .put b], evaluate := true }
      else noChange l .refusedFull none

/-- The list with a record put in the place of the held one of its id, in order. -/
def replaceRecord (l : List Booking) (b : Booking) : List Booking :=
  insertBooking b (l.filter (fun x => x.id != b.id))

/-- The calendar instant lies at or after a time; a STOPPED calendar makes no past test (R22). -/
def isPast (now : Option Nat) (t : DateTime) : Bool :=
  match now with
  | none => false
  | some n => decide (dateInstant t ≤ n)

/-- A PUT for a held ACTIVE or RUNOUT record (R25). -/
def putLive (s : State) (p : PutFields) (held : Booking) : Decision :=
  let l := s.tt.records
  let now := calInstant s.cal
  let finish := (formEnd s.cfg held.kind held.start p).1
  let headcount := min p.headcount 300
  if isPast now finish || finish == held.start then noChange l .refusedPast none
  else if finish == held.finish && headcount == held.headcount && p.noRelease == held.noRelease then
    noChange l .unchanged (some held)
  else
    let b := adjustLive now finish headcount p.noRelease held
    { status := .adjusted, evicted := 0, record := some b, records := replaceRecord l b, entries := [.put b],
      evaluate := false }

/-- The decision of a usable PUT of a known kind (R22 to R25). -/
def decidePut (s : State) (k : BookingKind) (p : PutFields) : Decision :=
  let l := s.tt.records
  let b := formRecord s k p
  match l.find? (fun x => x.id == p.id) with
  | none =>
    if isPast (calInstant s.cal) b.finish then noChange l .refusedPast none else putNew l b
  | some held =>
    if isLive held then putLive s p held
    else if isPast (calInstant s.cal) b.finish then noChange l .refusedPast none
    else if sameFields b held then noChange l .unchanged (some held)
    else
      { status := takenStatus b, evicted := 0, record := some b, records := replaceRecord l b,
        entries := [.put b], evaluate := true }

/-- The decision of a DROP (R26). -/
def decideDrop (l : List Booking) (id : Nat) : Decision :=
  if l.any (fun x => x.id == id) then
    { status := .dropped, evicted := 0, record := none, records := l.filter (fun x => x.id != id),
      entries := [.drop id], evaluate := false }
  else noChange l .unknownId none

/-- The statuses that capture the timetable source (R28). -/
def captures : AnswerStatus → Bool
  | .unknownId => false
  | .refusedPast => false
  | .refusedFull => false
  | _ => true

/-- The journal entries of a change with its answer: the last entry carries it (R186). -/
def journalEntries (a : Answer) : List JournalBody → List JournalEntry
  | [] => []
  | [x] => [{ body := x, answer := some a, pairFirst := false }]
  | x :: rest => { body := x, answer := none, pairFirst := true } :: journalEntries a rest

/-- A decision takes effect: the list, the capture (R28), the answer and the journal (R27). -/
def applyDecision (source id : Nat) (d : Decision) (s : State) : State :=
  let a : Answer := { dest := source, id := id, status := d.status, evicted := d.evicted, record := d.record }
  let s := { s with tt := { s.tt with records := d.records,
                                      captured := if captures d.status then some source else s.tt.captured } }
  match d.entries with
  | [] => sendAnswer a detailNone s
  | es => handEntries (journalEntries a es) a s

/-- Evaluating the one record a PUT stored (R24, R25, R29). -/
def evaluateStored (id : Nat) (s : State) : State :=
  overRecordsAt (fun c b => if b.id = id ∧ b.state = .pending then evaluatePending c b else (some b, [])) s

/-- The Timetable takes a BOOKING-PUT but for what follows from a changed session (R20 to R25). -/
def ttPut (t : Telegram) (s : State) : State :=
  match rdPut t.payload with
  | none => countUnusable s
  | some p =>
    if !putUsable p then countUnusable s
    else
      match kindOfCode p.kind with
      | none => countUnusable s
      | some k =>
        let d := decidePut s k p
        let s := applyDecision t.hdr.source.toNat p.id d s
        if d.evaluate then evaluateStored p.id s else s

/-- The Timetable takes a BOOKING-DROP but for what follows from a changed session (R20, R26). -/
def ttDrop (t : Telegram) (s : State) : State :=
  match rdDrop t.payload with
  | none => countUnusable s
  | some id =>
    if id = 0 then countUnusable s
    else applyDecision t.hdr.source.toNat id (decideDrop s.tt.records id) s

end Sys2Proof.Machine
end

