-- ==== Sys2Proof/Machine/Joining.lean ====
section
/-! DEFINITION. The Join Unit: partitions and contacts (R129 to R131), claims (R132 to R134), the relation (R140, R141), the
group record (R138, R143 to R145), the follower record (R137, R146) and the telegrams between partners. The operations here
change the Join Unit and hand telegrams to the bus; what the other blocks do about it stands in the cascade. -/

namespace Sys2Proof.Machine

/-! ### Partitions (R129 to R131, R151) -/

/-- The partition with a manual's number. -/
def partitionOf (s : State) (p : Nat) : Option Partition := nth1 s.join.partitions p

/-- Changing a partition's record. -/
def changePartition (p : Nat) (f : Partition → Partition) (s : State) : State :=
  { s with join := { s.join with partitions := update1 s.join.partitions p f } }

/-- The state of a partition; one that no record holds is not configured. -/
def partitionState (s : State) (p : Nat) : PartitionState :=
  match partitionOf s p with
  | none => .notConfigured
  | some x => x.state

/-- The debounced contact of a partition is OPEN. -/
def contactOpen (s : State) (p : Nat) : Bool :=
  match partitionOf s p with
  | none => false
  | some x => x.debounced

/-- A partition is settled (R151); one that is not configured takes no part. -/
def partitionSettled (x : Partition) : Bool :=
  x.state == .notConfigured || (x.raw == x.debounced && x.state != .claiming)

/-- Every configured partition is settled. -/
def allSettled (s : State) : Bool := s.join.partitions.all partitionSettled

/-- Some partition is CLAIMING. -/
def claimingSomewhere (s : State) : Bool := s.join.partitions.any (fun x => x.state == .claiming)

/-- The station is free (R131). -/
def isFree (s : State) : Bool := roleOf s == .solo && !claimingSomewhere s

/-- A partition is CLAIMING, LEAD or FOLLOW. -/
def isEngaged (x : Partition) : Bool := x.state == .claiming || x.state == .lead || x.state == .follow

/-- A partition other than `p` is CLAIMING, LEAD or FOLLOW (R135). -/
def engagedElsewhere (s : State) (p : Nat) : Bool :=
  (numbered 1 s.join.partitions).any (fun x => x.1 != p && isEngaged x.2)

/-- The configured partition whose neighbour a source is (R136). -/
def partitionFrom (s : State) (source : Nat) : Option Nat :=
  ((numbered 1 s.join.partitions).find? (fun x => x.2.state != .notConfigured && neighbourOf s x.1 == source)).map
    (fun x => x.1)

/-- The station is LEAD or FOLLOW on partition `p`. -/
def joinedOn (s : State) (p : Nat) : Bool := roleOf s == .lead p || roleOf s == .follow p

/-- The Join Unit takes no JOIN telegram, without a count (R152). -/
def joinDeaf (s : State) : Bool := s.listening || s.station == 0

/-- The contact a line level gives by the polarity of R129; `true` is OPEN. -/
def contactOf (c : PartitionCfg) (high : Bool) : Bool := c.openHigh == high

/-- The level of a PARTn line. -/
def partLevel (p : Pins) (n : Nat) : Bool := if n = 1 then p.part1 else if n = 2 then p.part2 else false

/-- The pins with the level of a PARTn line set. -/
def setPart (p : Pins) (n : Nat) (high : Bool) : Pins :=
  if n = 1 then { p with part1 := high } else if n = 2 then { p with part2 := high } else p

/-- A raw contact change (R130): it starts the debounce afresh, or stops it where the contact has returned. -/
def contactChange (now : Stamp) (opened : Bool) (x : Partition) : Partition :=
  { x with raw := opened, debounce := if opened = x.debounced then none else some now }

/-- The debounce ends (R130): the debounced contact takes the raw value. -/
def debounced (x : Partition) : Partition := { x with debounced := x.raw, debounce := none }

/-- A partition that comes to rest in a state, with no claim under way. -/
def restPartition (st : PartitionState) (r : Retry) (x : Partition) : Partition :=
  { x with state := st, retry := r, attempts := 0, claimTimer := none }

/-! ### Telegrams of the Join Unit -/

/-- Composing a JOIN telegram to the neighbour of partition `p` (R131); to the partner of a join it restarts the keep
timer (R140). -/
def sendJoin (p kind : Nat) (payload : List Byte) (s : State) : State :=
  let t : OutTelegram := { kind := kind, scope := scopeStation, dest := neighbourOf s p, payload := payload }
  send t
    (if joinedOn s p
      then { s with join := { s.join with relation := s.join.relation.map (fun r => { r with keep := nowOf s }) } }
      else s)

/-- Composing a JOIN-RELEASE. -/
def sendRelease (p : Nat) (s : State) : State := sendJoin p kJoinRelease [] s

/-- Composing a JOIN-REFUSE: CONTACT 0, BUSY 1. -/
def sendRefuse (p reason : Nat) (s : State) : State := sendJoin p kJoinRefuse [byteOf reason] s

/-- A partner telegram restarts the orphan timer (R141). -/
def hearPartner (s : State) : State :=
  { s with join := { s.join with relation := s.join.relation.map (fun r => { r with orphan := nowOf s }) } }

/-! ### Claims (R132 to R134) -/

/-- A partition whose claim begins (R132). -/
def claimingPartition (now : Stamp) (x : Partition) : Partition :=
  { x with state := .claiming, attempts := 1, claimTimer := some now, retry := .none }

/-- Beginning a claim on partition `p` (R132). -/
def beginClaim (p : Nat) (s : State) : State :=
  let q := nextSeq s.join.claimSeq
  let s := { s with join := { s.join with claimSeq := q } }
  let s := changePartition p (claimingPartition (nowOf s)) s
  sendJoin p kJoinClaim [byteOf q] s

/-- The first partition, from `i`, that is BLOCKED with its retry due. -/
def firstDue : Nat → List Partition → Option Nat
  | _, [] => none
  | i, x :: rest => if x.state = .blocked ∧ x.retry = .due then some i else firstDue (i + 1) rest

/-- A due retry claims where the station is free (R132, R134), outside a listen-in and while numbered (R152). -/
def tryClaim (s : State) : State :=
  if isFree s && maySpeak s then
    match firstDue 1 s.join.partitions with
    | none => s
    | some p => beginClaim p s
  else s

/-- The claim timer has run out on its first or second attempt (R133): the claim is composed again. -/
def claimAgain (p : Nat) (s : State) : State :=
  sendJoin p kJoinClaim [byteOf s.join.claimSeq]
    (changePartition p (fun x => { x with attempts := x.attempts + 1, claimTimer := some (nowOf s) }) s)

/-- A claim ends without a join (R133): BLOCKED with a 60 s retry; another due partition may claim. -/
def claimFails (p : Nat) (s : State) : State :=
  tryClaim (changePartition p (restPartition .blocked (.timed (nowOf s))) s)

/-! ### The group record (R138, R143 to R145) -/

/-- The group door count is reliable (R143). -/
def groupReliable (p : Presence) (g : Group) : Bool := !g.recount && doorCountReliable p && g.fReliable

/-- The group motion floor (R144). -/
def groupFloor (p : Presence) (g : Group) : Nat := motionFloor p + g.fFloor

/-- The group occupancy with what follows from it (R143, R144): RECOUNT is set as the own count ceases to be reliable; GN
and RECOUNT are cleared as the group becomes VACANT. -/
def formGroupOccupancy (p : Presence) (g : Group) : Group :=
  let r := doorCountReliable p
  let g := { g with ownReliable := r, recount := g.recount || (g.ownReliable && !r) }
  if p.occupancy = .vacant ∧ g.fOccupancy = .vacant then
    if g.occupancy = .vacant then g else { g with occupancy := .vacant, gn := 0, recount := false }
  else { g with occupancy := .occupied }

/-- The group headcount (R144). -/
def formGroupH (p : Presence) (g : Group) : Group :=
  { g with h :=
      if g.occupancy = .vacant then 0
      else min 300 (if groupReliable p g then max g.gn (groupFloor p g) else max (groupFloor p g) g.hc) }

/-- The group Hc from the group CO2 and the lead's grant as it stands (R144). -/
def formGroupHc (p : Presence) (cout grant : Nat) (g : Group) : Group :=
  { g with hc := ((groupCo2 p g).map (fun c => co2Estimate c cout grant)).getD 0 }

/-- The earlier-starting of two candidate sessions; the lead's where both start together (R145). -/
def earlierGov (own other : Option Gov) : Option Gov :=
  match own, other with
  | some a, some b => if dateInstant b.start < dateInstant a.start then some b else some a
  | some a, none => some a
  | none, x => x

/-- A pass the Presence Unit hands the Join Unit at the lead (R143). -/
def passAtLead (inward : Bool) (g : Group) : Group :=
  { g with gn := if inward then min 300 (g.gn + 1) else g.gn - 1 }

/-- A pass at the follower (R146). -/
def passAtFollow (inward : Bool) (f : Follower) : Follower :=
  if inward then { f with inTotal := f.inTotal.succ } else { f with outTotal := f.outTotal.succ }

/-- The Join Unit takes a pass event (R57). -/
def handPass (e : QueueEvent) (s : State) : State :=
  match e with
  | .motion _ _ => s
  | .pass inward _ _ =>
    { s with join := { s.join with group := s.join.group.map (passAtLead inward),
                                   follower := s.join.follower.map (passAtFollow inward) } }

/-- Changing the group record, where the station keeps one. -/
def changeGroup (f : Group → Group) (s : State) : State :=
  { s with join := { s.join with group := s.join.group.map f } }

/-- The group record a JOIN-ACCEPT forms (R138), before its group occupancy, Hc and H. -/
def groupFrom (s : State) (a : AcceptFields) : Group :=
  { area := s.cfg.area + a.area, volume := s.cfg.volume + a.volume, fset := s.cfg.fset + a.fset,
    fmin := s.cfg.fmin + a.fmin, fmax := s.cfg.fmax + a.fmax, followerFmax := a.fmax,
    gn := min 300 (s.presence.n + a.n), recount := !(doorCountReliable s.presence && a.reliable),
    ownReliable := doorCountReliable s.presence,
    fOccupancy := .unknown, fFloor := 0, fCo2 := none, fReliable := a.reliable, fSession := none,
    baseIn := a.inTotal, baseOut := a.outTotal, occupancy := .occupied, hc := 0, h := 0,
    session := ownGov s, lastRequest := 0, lastOrder := none }

/-- The pass deltas of a JOIN-STATE applied to GN, and the new base (R143). -/
def applyDeltas (inTotal outTotal : Count16) (g : Group) : Group :=
  { g with gn := min 300 (g.gn + (inTotal - g.baseIn).toNat) - (outTotal - g.baseOut).toNat,
           baseIn := inTotal, baseOut := outTotal }

/-- The follower's reported room taken into the group record, but for its session (R147). -/
def takeReport (f : StateFields) (g : Group) : Group :=
  { g with fOccupancy := f.occupancy, fFloor := f.floor, fCo2 := f.co2, fReliable := f.reliable,
           recount := g.recount || (g.fReliable && !f.reliable) }

/-! ### JOIN-ACCEPT, JOIN-STATE and JOIN-ORDER -/

/-- The payload of a JOIN-ACCEPT (R137). -/
def acceptBytes (s : State) (claimSeq : Nat) (f : Follower) : List Byte :=
  [byteOf claimSeq] ++ be2 s.cfg.area ++ be2 s.cfg.volume ++ be2 s.cfg.fset ++ be2 s.cfg.fmin ++ be2 s.cfg.fmax
    ++ be2 s.presence.n ++ be2 f.inTotal.toNat ++ be2 f.outTotal.toNat
    ++ [byteOf (bitIf (doorCountReliable s.presence) 1)]

/-- The content of a JOIN-STATE composed now (R146). -/
def stateContent (s : State) (f : Follower) : StateContent :=
  { occupancy := s.presence.occupancy, floor := motionFloor s.presence, inTotal := f.inTotal, outTotal := f.outTotal,
    co2 := co2Valid s.presence, reliable := doorCountReliable s.presence, summary := s.tt.summary,
    request := f.request, requestScene := f.requestScene }

/-- A CO2 change a JOIN-STATE is composed on (R146). -/
def co2Moved (last new : Option Nat) : Bool :=
  match last, new with
  | some a, some b => decide (20 ≤ distance a b)
  | none, none => false
  | _, _ => true

/-- A change of an item a JOIN-STATE is composed on (R146). -/
def stateMoved (l c : StateContent) : Bool :=
  { l with co2 := c.co2 } != c || co2Moved l.co2 c.co2

/-- The content sequence of a composition (R140): one more where the items differ from those last composed. -/
def contentSeq (last : Option (List Byte)) (items : List Byte) (own : Nat) : Nat :=
  if last = some items then own else nextSeq own

/-- Composing a JOIN-STATE with every item as it stands (R146, R140). -/
def composeState (s : State) : State :=
  match roleOf s, s.join.follower, s.join.relation with
  | .follow p, some f, some r =>
    let c := stateContent s f
    let q := contentSeq (f.lastState.map stateItems) (stateItems c) r.ownSeq
    sendJoin p kJoinState ([byteOf q, byteOf r.partnerSeq] ++ stateItems c)
      { s with join := { s.join with follower := some { f with lastState := some c },
                                     relation := some { r with ownSeq := q } } }
  | _, _, _ => s

/-- The content of a JOIN-ORDER composed now (R148); none without a room scene. -/
def orderContent (s : State) (g : Group) : Option OrderContent :=
  s.light.scene.map (fun sc =>
    { scene := sc, share := s.air.share, occupancy := g.occupancy, session := g.session, h := g.h })

/-- Composing a JOIN-ORDER with every item as it stands (R148, R140). -/
def composeOrder (s : State) : State :=
  match roleOf s, s.join.group, s.join.relation with
  | .lead p, some g, some r =>
    match orderContent s g with
    | none => s
    | some c =>
      let q := contentSeq (g.lastOrder.map orderItems) (orderItems c) r.ownSeq
      sendJoin p kJoinOrder ([byteOf q, byteOf r.partnerSeq] ++ orderItems c)
        { s with join := { s.join with group := some { g with lastOrder := some c },
                                       relation := some { r with ownSeq := q } } }
  | _, _, _ => s

/-- The lead owes a JOIN-ORDER: an item has changed since the one last composed (R148). -/
def orderOwed (s : State) : Bool :=
  match leadGroup s with
  | none => false
  | some g =>
    match orderContent s g with
    | none => false
    | some c => g.lastOrder != some c

/-- The follower owes a JOIN-STATE (R146). -/
def stateOwed (s : State) : Bool :=
  match followRecord s with
  | none => false
  | some f =>
    match f.lastState with
    | none => true
    | some l => stateMoved l (stateContent s f)

/-- At the end of an event, the JOIN-ORDER or JOIN-STATE that it calls for, at most one (R148, R146). -/
def composeJoin (s : State) : State :=
  if orderOwed s then composeOrder s else if stateOwed s then composeState s else s

/-! ### Starts (R152) -/

/-- A partition at a start: its contact read at once, CLOSED or BLOCKED with its retry due; one that names the station's own
number is not configured (R129). -/
def startPartition (station : Nat) (pins : Pins) (n : Nat) (c : PartitionCfg) : Partition :=
  let opened := contactOf c (partLevel pins n)
  if c.neighbour = station then
    { raw := false, debounced := false, debounce := none, state := .notConfigured, attempts := 0, claimTimer := none,
      retry := .none }
  else
    { raw := opened, debounced := opened, debounce := none, state := if opened then .blocked else .closed,
      attempts := 0, claimTimer := none, retry := if opened then .due else .none }

/-- The configured partitions as the start read of their contacts leaves them (R130). -/
def startPartitions (station : Nat) (pins : Pins) (c : StationConfig) : List Partition :=
  (numbered 1 c.partitions).map (fun x => startPartition station pins x.1 x.2)

/-- The Join Unit at a start. -/
def startJoin (station : Nat) (pins : Pins) (c : StationConfig) : Join :=
  { partitions := startPartitions station pins c
    claimSeq := 0, relation := none, group := none, follower := none }

end Sys2Proof.Machine
end

