-- ==== Sys2Proof/Machine/Cascade.lean ====
section
/-! DEFINITION. What follows from a change inside one event: the meeting state is read again by the blocks that depend on it
(R32, R37, R62, R69, R83, R95, R120, R131, R144, R145), the held presence queue is released (R54, R151), and a join is entered
and left (R137, R138, R142). The order of the handing is that of assumption log entry 6. -/

namespace Sys2Proof.Machine

/-! ### The session and the air -/

/-- The session summary again (R37), at a lead the group's governing session (R145), and the end of a panel hold that a change of
the governing session brings (R101). -/
def refreshSession (s : State) : State :=
  let s := { s with tt := { s.tt with summary := summarize s.tt.records } }
  checkHoldSession (changeGroup (fun g => { g with session := earlierGov (ownGov s) g.fSession }) s)

/-- One pass of the air: the session, the own record, its announcement and the grant (R69, R83). -/
def airPass (s : State) : State := formDemand (refreshSession s)

/-- A grant-change event is due: G or L differs (R83). -/
def grantMoved (a b : Air) : Bool := a.g != b.g || a.lead != b.lead

/-- The air, and what a grant-change event does to the near PENDING records (R29), until no record changes any more. Each
further pass changes the state of a PENDING record, so `fuel` of one more than the 32 records suffices. -/
def airLoop : Nat → State → State
  | 0, s => refreshSession s
  | n + 1, s =>
    let t := airPass s
    if grantMoved s.air t.air then
      let u := ttGrant t
      if u.tt.records = t.tt.records then u else airLoop n u
    else t

/-- The blocks that read the meeting state take its present values: Air Share Unit, Timetable by the grant, Light Unit and Blind
Unit. -/
def settle (s : State) : State := formBlinds (selectScene (airLoop 33 s))

/-- What follows where the calendar or a record's timer has moved the list: the session summary (R37) and the blocks that read it. While a
restart's image reading is awaited the summary alone is formed, and no demand, grant, scene or blind position (assumption log entry 33). -/
def afterRecords (s : State) : State := if s.imageWait then refreshSession s else settle s

/-- The part of an occupancy event that ends holds: on VACANT the panel holds of light and blinds (R101, R126). -/
def vacantEndsHolds (s : State) : State :=
  if occRead s = .vacant then endBlindHolds (endLightHold s) else s

/-- An occupancy event, where the occupancy read differs from what it was (R32, R62, R95, R120). -/
def occHanded (old : Occupancy) (s : State) : State :=
  if occRead s = old then s else settle (vacantEndsHolds (ttOccupancy s))

/-! ### Presence events -/

/-- The lead forms the group occupancy again (R144). -/
def formOccupancy (s : State) : State := changeGroup (formGroupOccupancy s.presence) s

/-- H is formed again (R61), then at a lead the group H (R144), and handed to the air. -/
def formHeadcount (s : State) : State :=
  let s := { s with presence := recomputeH s.presence }
  settle (changeGroup (formGroupH s.presence) s)

/-- A change of the Presence Unit whose occupancy change is handed first (R62); H follows by `formHeadcount`. -/
def changePresence (f : Presence → Presence) (s : State) : State :=
  occHanded (occRead s) (formOccupancy { s with presence := f s.presence })

/-- An entry is taken into the estimator (R55 to R58); a pass is handed to the Join Unit (R57). -/
def takeOne (e : QueueEvent) (s : State) : State :=
  occHanded (occRead s) (formOccupancy (handPass e { s with presence := takeEntry (nowOf s) e s.presence }))

/-- Several entries, oldest first. -/
def takeEach : List QueueEvent → State → State
  | [], s => s
  | e :: rest, s => takeEach rest (takeOne e s)

/-- An entry arrives: it is appended to a held queue (R52, R53), or taken at once. -/
def arriveEntry (e : QueueEvent) (s : State) : State :=
  if s.presence.held then { s with presence := holdEntry e s.presence } else formHeadcount (takeOne e s)

/-- The pending expiries of a release that still stand (R54). -/
def takePending (s : State) : State :=
  let s := if s.presence.pendingVacancy then changePresence vacancyExpires s else s
  if s.presence.pendingVacating then changePresence vacatingExpires s else s

/-- The held queue is released (R54). -/
def releaseQueue (s : State) : State :=
  if !s.presence.held then s
  else
    let q := s.presence.queue
    let t := takePending (takeEach q { s with presence := { s.presence with held := false, queue := [] } })
    formHeadcount { t with presence := { t.presence with pendingVacancy := false, pendingVacating := false } }

/-- The presence hold after an event of the Join Unit (R151). -/
def updateHold (s : State) : State :=
  if allSettled s then releaseQueue s else { s with presence := { s.presence with held := true } }

/-! ### Entering and leaving a join -/

/-- The role change is handed on (R131): the occupancy read may be another (R32), any panel hold of the lights ends (R101), and
every block takes the new role. -/
def roleChanged (old : Occupancy) (s : State) : State := settle (occHanded old (endLightHold s))

/-- Steps 1 to 3 of the return to SOLO (R142). -/
def leaveJoin (p : Nat) (st : PartitionState) (r : Retry) (s : State) : State :=
  let old := occRead s
  let s := changePartition p (restPartition st r) s
  let s := { s with join := { s.join with relation := none, group := none, follower := none } }
  roleChanged old { s with presence := recomputeH (setRecount s.presence) }

/-- The return to SOLO (R142): steps 1 to 3, the release where every partition is settled, and a due claim. -/
def returnSolo (p : Nat) (st : PartitionState) (r : Retry) (s : State) : State :=
  let s := leaveJoin p st r s
  tryClaim (if allSettled s then releaseQueue s else s)

/-- The state a partition takes when the partner's RELEASE or silence ends the join (R139, R141). -/
def partedState (s : State) (p : Nat) : PartitionState × Retry :=
  if contactOpen s p then (.blocked, .timed (nowOf s)) else (.closed, .none)

/-- The relation as a join begins (R137, R138). -/
def newRelation (now : Stamp) (claimSeq : Nat) : Relation :=
  { ownSeq := 0, partnerSeq := 0, keep := now, orphan := now, claimSeq := claimSeq }

/-- The follower record as FOLLOW begins (R137). -/
def newFollower : Follower :=
  { inTotal := 0, outTotal := 0, request := 0, requestScene := 0, share := none, order := none, lastState := none }

/-- The station becomes FOLLOW(p) (R137); the first JOIN-STATE is composed at the end of the event. -/
def enterFollow (p claimSeq : Nat) (s : State) : State :=
  let old := occRead s
  let s := changePartition p (restPartition .follow .none) s
  let s := { s with join := { s.join with relation := some (newRelation (nowOf s) claimSeq), group := none,
                                          follower := some newFollower } }
  roleChanged old (sendJoin p kJoinAccept (acceptBytes s claimSeq newFollower) s)

/-- The station becomes LEAD(p) (R138); the first JOIN-ORDER is composed at the end of the event. -/
def enterLead (p : Nat) (a : AcceptFields) (s : State) : State :=
  let old := occRead s
  let g := formGroupOccupancy s.presence (groupFrom s a)
  let g := formGroupH s.presence (formGroupHc s.presence s.cfg.cout s.air.g g)
  let s := changePartition p (restPartition .lead .none) s
  let s := { s with join := { s.join with relation := some (newRelation (nowOf s) 0), group := some g,
                                          follower := none } }
  roleChanged old s

/-! ### CO2 at a lead -/

/-- Group Hc is formed again from the own and the reported CO2 (R144). -/
def formHc (s : State) : State := changeGroup (formGroupHc s.presence s.cfg.cout s.air.g) s

end Sys2Proof.Machine
end

