-- ==== Sys2Proof/Machine/Flags.lean ====
section
/-! DEFINITION. The items STATUS carries (R193, R17) and the STATUS change sequence (R191): the block's one register of
flags. -/

namespace Sys2Proof.Machine

/-- The off-time as it is reported: unit code and value (R17, R193). -/
def offTimeReport (t : Option Nat) : Nat × Nat :=
  match t with
  | none => (0, 0)
  | some v => if v ≤ 65535 then (1, v) else if v ≤ 3932100 then (2, v / 60) else (2, 65535)

/-- The weekday of the calendar's date, 0 being Monday (R5); STOPPED fields read weekday 5 (R6). -/
def calWeekday (c : Calendar) : Nat := weekdayOf (dayNumber c.time.year c.time.month c.time.day)

/-- The partition state code of partition `n` (R192). -/
def partitionStatus (s : State) (n : Nat) : Nat := partitionCode (partitionState s n)

/-- The byte of safety, mask, lock and RECOUNT bits (R193). -/
def modeBits (s : State) : Nat :=
  bitIf (s.service.air == .smokeHold) 1 + bitIf (s.service.air == .purge) 2 + bitIf s.service.evacuate 4
    + bitIf s.service.maskAir 8 + bitIf s.service.maskLight 16 + bitIf s.service.maskBlind 32
    + bitIf s.service.lock 64 + bitIf s.presence.recount 128

/-- Bytes 16 to 23 of STATUS part 1 (R193). -/
def statusRoom (s : State) : List Byte :=
  [byteOf (occupancyCode (occRead s))] ++ be2 (hReported s) ++ [byteOf (s.tt.captured.getD 0)]
    ++ [byteOf (partitionStatus s 1 + 8 * partitionStatus s 2), byteOf (modeBits s)] ++ be2 (faultBits s.faults)

/-- Bytes 5 to 14 of STATUS part 2: the session summary (R193, R37). -/
def statusSession (m : Option Summary) : List Byte :=
  match m with
  | none => List.replicate 10 0
  | some m =>
    [byteOf (sessionStateCode m.state + 16 * kindCode m.kind)] ++ be2 m.id ++ dateBytes m.start ++ be2 m.expected

/-- Bytes 15 to 23 of STATUS part 2: the air (R193). -/
def statusAir (s : State) : List Byte :=
  be2 s.air.own.d ++ be2 s.air.own.m ++ be2 s.air.g ++ be2 (capacityInUse s)
    ++ [byteOf (bitIf (!plantRunning s) 1 + bitIf s.air.capacity.isNone 2 + bitIf (noLimit s) 4)]

/-- Every item of STATUS but the calendar's date, time and weekday, whose advances do not step the change sequence, and the
sequence itself (R191). -/
def statusItems (s : State) : List Byte :=
  [byteOf (bitIf s.cal.running 8 + 16 * (offTimeReport s.cal.offTime).1)] ++ be2 s.cal.setSeq.toNat
    ++ be2 (offTimeReport s.cal.offTime).2 ++ statusRoom s ++ statusSession s.tt.summary ++ statusAir s

/-- The room's own occupancy and H, whose changes step the change sequence also while a joined station reports the group's (R61, R62);
assumption log entry 39. -/
def ownEstimate (s : State) : List Byte := byteOf (occupancyCode s.presence.occupancy) :: be2 s.presence.h

/-- What steps the change sequence: the items of STATUS (R191), and the room's own estimate (R61, R62). -/
def sequenceItems (s : State) : List Byte := statusItems s ++ ownEstimate s

/-- The change sequence after an event: stepped once where any item that steps it differs from its value before (R191). -/
def commit (before after : State) : State :=
  if sequenceItems before = sequenceItems after then after
  else { after with statusSeq := before.statusSeq.succ }

/-- The end of an event: the JOIN-ORDER or JOIN-STATE it calls for (R148, R146), then the STATUS change sequence (R191). -/
def endEvent (before after : State) : State := commit before (composeJoin after)

end Sys2Proof.Machine
end

