-- ==== Sys2Proof/Machine/Receive.lean ====
section
/-! DEFINITION. The receive side of the Bus Interface: the start bit and the idle event (R167, R168, R175), the five steps of the
receive filter (R169 to R172), and the event of one telegram handed to its block. -/

namespace Sys2Proof.Machine

/-- The part runs: main power is good, the reset pin does not hold it, and the receiver and the field lines act (R180). -/
def powered (s : State) : Bool :=
  match s.phase with
  | .off => false
  | .held => false
  | .compacting _ _ _ => true
  | .running => true

/-- Step 6 of the start has completed: blocks are handed telegrams (R180). -/
def started (s : State) : Bool := s.phase == .running

/-- Blocks are handed telegrams: from step 6 of a start, and from the image reading of a service restart (R180, R181). -/
def takesTelegrams (s : State) : Bool := started s && !s.imageWait

/-- Field events reach their blocks: in a part that runs, but not before the image reading of a service restart (R180, R181). -/
def takesFields (s : State) : Bool := powered s && !s.imageWait

/-! ### The line (R167, R175, R176) -/

/-- A start bit of another station: a running deferral is cancelled and spends the yield of its class (R175, R176). -/
def hearStart (b : Bus) : Bus :=
  let b := match b.deferral with
    | none => b
    | some d => spendYield b d.cls
  { b with deferral := none, lineIdle := false, rxInProgress := true, quiet := 0 }

/-- The idle event ends the frame and leaves the line idle. -/
def lineQuiet (b : Bus) : Bus := { b with lineIdle := true, rxInProgress := false, ownFrame := false, quiet := 0 }

/-- The characters of a frame and the idle event that ends it; where no start bit was taken before, it is taken here. -/
def hearFrame (b : Bus) : Bus := lineQuiet (if b.lineIdle then hearStart b else b)

/-- The deferral an idle event starts (R175). -/
def deferIfWaiting (s : State) : State := { s with bus := startDeferral s.station s.listening s.bus }

/-! ### The filter (R169 to R172) -/

/-- The urgency class agrees with the kind (step 2 of R169). -/
def classGood (t : Telegram) : Bool :=
  t.hdr.cls.toNat != 3 &&
    (match kindRow t.kind with
      | none => true
      | some (c, _) => t.hdr.cls.toNat == c)

/-- The façade of some configured motor. -/
def isFacade (c : StationConfig) (n : Nat) : Bool := n != 0 && c.motors.any (fun m => m.facade == n)

/-- The telegram is in scope (R170). -/
def inScope (s : State) (h : RxHeader) : Bool :=
  if h.scope.toNat = scopeAll then true
  else if h.scope.toNat = scopeFacade then isFacade s.cfg h.dest.toNat
  else if h.scope.toNat = scopeAirGroup then h.dest.toNat == s.cfg.airGroup && h.dest.toNat != 0
  else s.station != 0 && (h.dest.toNat == s.station || h.dest.toNat == 63)

/-- The sender role is one the kind allows (R171). -/
def roleAllowed (role : BitVec 2) (allowed : Option Nat) : Bool :=
  match allowed with
  | none => true
  | some r => role.toNat == r

/-- The telegram passes step 4 (R171). -/
def stepFour (t : Telegram) : Bool :=
  match kindRow t.kind with
  | none => false
  | some (_, allowed) =>
    roleAllowed t.hdr.role allowed && t.hdr.source.toNat != 0 && t.hdr.source.toNat != 63

/-- What the filter makes of a telegram. -/
inductive Verdict where
  | malformed
  | outOfScope
  | unusable
  | duplicate
  | passed
  deriving DecidableEq, Repr

/-- Steps 2 to 5 (R169 to R172). -/
def verdict (s : State) (t : Telegram) : Verdict :=
  if !classGood t then .malformed
  else if !inScope s t.hdr then .outOfScope
  else if !stepFour t then .unusable
  else if s.station != 0 && t.hdr.source.toNat == s.station then .duplicate
  else .passed

/-- A telegram discarded at step 1 (R169). -/
def countBad (s : State) : State := { s with bus := { s.bus with bad := s.bus.bad.succ } }

/-- A telegram that passes step 2 (R169). -/
def countGood (s : State) : State := { s with bus := { s.bus with good := s.bus.good.succ } }

/-- A telegram caught at step 5: the count steps and DUPLICATE is raised (R172, R164). -/
def catchDuplicate (s : State) : State :=
  { s with bus := { s.bus with duplicates := s.bus.duplicates.succ }, faults := { s.faults with duplicate := true } }

/-- The counts of steps 2 to 5 for a verdict (R178). -/
def countVerdict (v : Verdict) (s : State) : State :=
  match v with
  | .malformed => countMalformed s
  | .outOfScope => countGood s
  | .unusable => countUnusable (countGood s)
  | .duplicate => catchDuplicate (countGood s)
  | .passed => countGood s

/-- A telegram through the filter; one that passes is handed on once the start has completed, and set aside before (R180, R181). -/
def filterTelegram (hand : State → State) (t : Telegram) (s : State) : State :=
  let s' := countVerdict (verdict s t) s
  if verdict s t = .passed ∧ takesTelegrams s then hand s' else s'

/-- The characters a valid telegram carries at most: 24 bytes of payload (R168). -/
def payloadFits (p : List Byte) : Bool := decide (p.length ≤ 24)

/-- A frame taken at the idle event that ends it: `none` where step 1 finds it bad. A frame in which the part itself transmitted
is not taken (R168). The first frame after a start is what the command carries, the rest of a telegram that the start cut among it: the
model's choice (assumption log entry 44). -/
def takeFrame (hand : State → State) (t : Option Telegram) (s : State) : State :=
  let s' := { s with bus := hearFrame s.bus }
  if s.bus.ownFrame then s'
  else
    match t with
    | none => countBad s'
    | some t => filterTelegram hand t s'

/-- The whole event of a frame: nothing while the part is without power or held, or is sending; else the frame is taken and a
deferral starts where a telegram waits (R167, R175). -/
def frameEvent (hand : State → State) (t : Option Telegram) (s : State) : State :=
  if !powered s || s.bus.sending.isSome then s
  else endEvent s (deferIfWaiting (takeFrame hand t s))

/-- The event of a telegram of a kind whose characters arrived well; a payload over 24 bytes makes it bad (R169). -/
def telegramEvent (kind : Nat) (h : RxHeader) (payload : List Byte) (hand : State → State) (s : State) : State :=
  frameEvent hand (if payloadFits payload then some { kind := kind, hdr := h, payload := payload } else none) s

/-- The header names the station itself in scope STATION. -/
def toOwnStation (s : State) (h : RxHeader) : Bool :=
  h.scope.toNat == scopeStation && s.station != 0 && h.dest.toNat == s.station

/-- The header names the station's air group. -/
def toOwnGroup (s : State) (h : RxHeader) : Bool := h.scope.toNat == scopeAirGroup && h.dest.toNat == s.cfg.airGroup

/-- The header is addressed to ALL. -/
def toAll (h : RxHeader) : Bool := h.scope.toNat == scopeAll

end Sys2Proof.Machine
end

