-- ==== Sys2Proof/Machine/AirCommands.lean ====
section
/-! DEFINITION. The commands of the Air Share Unit: DEMAND and the peer view (R73 to R77), CAPACITY (R78, R79), and the refresh of
the announcement (R72) and of the damper output (R88, R89). -/

namespace Sys2Proof.Machine

/-- The peer view with a checked DEMAND applied, or the overflow counted where the peer is kept out (R74, R77). -/
def admitPeer (source : Nat) (c : DemandContent) (seq : Nat) (s : State) : State :=
  match updatePeers (nowOf s) source c seq s.air.peers with
  | some l => settle { s with air := { s.air with peers := l } }
  | none => { s with air := { s.air with overflows := s.air.overflows.succ } }

/-- The Air Share Unit takes a DEMAND (R73, R74). -/
def takeDemand (h : RxHeader) (payload : List Byte) (s : State) : State :=
  if !toOwnGroup s h then s
  else
    match rdDemand payload with
    | none => countUnusable s
    | some (c, q) => admitPeer h.source.toNat c q s

/-- DEMAND (R74). -/
def execDemand (h : RxHeader) (payload : List Byte) (s : State) : Host.Outcome State Fault Refusal :=
  .next (telegramEvent kDemand h payload (takeDemand h payload) s)

/-- A CAPACITY replaces the record and clears CAPACITY-DEFAULT (R78). -/
def setCapacity (flow : Nat) (running : Bool) (s : State) : State :=
  settle
    { s with air := { s.air with capacity := some { flow := flow, running := running, since := nowOf s } }
             faults := { s.faults with capacityDefault := false } }

/-- The Air Share Unit takes a CAPACITY (R78). Its scope is looked at before its content, so that one in another scope is not counted: the
model's reading (assumption log entry 18). -/
def takeCapacity (h : RxHeader) (payload : List Byte) (s : State) : State :=
  if toOwnGroup s h || toOwnStation s h || toAll h then
    match rdCapacity payload with
    | none => countUnusable s
    | some (flow, running) => setCapacity flow running s
  else s

/-- CAPACITY (R78). -/
def execCapacity (h : RxHeader) (payload : List Byte) (s : State) : Host.Outcome State Fault Refusal :=
  .next (telegramEvent kCapacity h payload (takeCapacity h payload) s)

/-- The entry of a station has reached an age, and is FRESH where that is asked (R75). -/
def peerAged (station len : Nat) (fresh : Bool) (s : State) : Bool :=
  match findPeer station s.air.peers with
  | none => false
  | some p => (!fresh || !p.stale) && decide (len ≤ elapsed p.since (nowOf s))

/-- The entry of a station becomes STALE. -/
def markStale (station : Nat) (l : List Peer) : List Peer :=
  l.map (fun p => if p.station = station then { p with stale := true } else p)

/-- PEER_STALE (R75): an entry has reached 90 s of age. -/
def execPeerStale (station : Nat) (s : State) : Host.Outcome State Fault Refusal :=
  .next
    (if powered s && peerAged station 90000 true s then
      endEvent s (settle { s with air := { s.air with peers := markStale station s.air.peers } })
     else s)

/-- The view without the entry of a station. -/
def removePeer (station : Nat) (l : List Peer) : List Peer := l.filter (fun p => p.station != station)

/-- PEER_REMOVE (R75): an entry has reached 300 s of age. -/
def execPeerRemove (station : Nat) (s : State) : Host.Outcome State Fault Refusal :=
  .next
    (if powered s && peerAged station 300000 false s then
      endEvent s (settle { s with air := { s.air with peers := removePeer station s.air.peers } })
     else s)

/-- The capacity record has reached 120 s of age (R79). -/
def capacityAged (s : State) : Bool := ranOut (s.air.capacity.map (fun c => c.since)) 120000 (nowOf s)

/-- The record ages to the default, and CAPACITY-DEFAULT is raised (R79). -/
def capacityLapses (s : State) : State :=
  settle { s with air := { s.air with capacity := none }, faults := { s.faults with capacityDefault := true } }

/-- CAPACITY_AGE_EXPIRY (R79). -/
def execCapacityAgeExpiry (s : State) : Host.Outcome State Fault Refusal :=
  .next (if powered s && capacityAged s then endEvent s (capacityLapses s) else s)

/-- DEMAND_REFRESH_EXPIRY (R72): 30 s since the last DEMAND was composed. -/
def execDemandRefreshExpiry (s : State) : Host.Outcome State Fault Refusal :=
  .next (if powered s && maySpeak s && ranOut s.air.refresh 30000 (nowOf s) then composeDemand s else s)

/-- DAMPER_REFRESH_EXPIRY (R88, R89): 30 s since the output was last written. -/
def execDamperRefreshExpiry (s : State) : Host.Outcome State Fault Refusal :=
  .next (if powered s && ranOut s.air.rewrite 30000 (nowOf s) then { s with air := refreshDamper s } else s)

end Sys2Proof.Machine
end

