-- ==== Sys2Proof/Machine/BlindCommands.lean ====
section
/-! DEFINITION. The commands of the Blind Unit: the expiry of a panel hold (R126), the ends of runs and pauses (R114 to R118, R123),
SUN (R121, R122) and WIND (R123). -/

namespace Sys2Proof.Machine

/-- A condition on a motor, by its number; false where it is not configured. -/
def motorIs (s : State) (motor : Nat) (test : Motor → Bool) : Bool :=
  match nth1 s.blind.motors motor with
  | none => false
  | some m => test m

/-- A motor's panel hold has run its 1800 s (R126). -/
def blindHoldDone (now : Stamp) (m : Motor) : Bool := ranOut (m.hold.map (fun h => h.since)) 1800000 now

/-- BLIND_HOLD_EXPIRY (R126). -/
def execBlindHoldExpiry (motor : Nat) (s : State) : Host.Outcome State Fault Refusal :=
  .next
    (if powered s && motorIs s motor (blindHoldDone (nowOf s)) then
      formBlinds { s with blind := { s.blind with motors := update1 s.blind.motors motor clearHold } }
     else s)

/-- A normal or end stop run has reached its length. -/
def moveDone (now : Stamp) (m : Motor) : Bool :=
  (m.state == .movingUp || m.state == .movingDown) && runDone now m

/-- RUN_COMPLETE (R115, R114, R118). -/
def execRunComplete (motor : Nat) (s : State) : Host.Outcome State Fault Refusal :=
  .next
    (if powered s && motorIs s motor (moveDone (nowOf s)) then
      changeMotor s motor (fun _ => completeRun (nowOf s))
     else s)

/-- REFERENCING_COMPLETE (R118). -/
def execReferencingComplete (motor : Nat) (s : State) : Host.Outcome State Fault Refusal :=
  .next
    (if powered s && motorIs s motor (fun m => m.state == .referencing && runDone (nowOf s) m) then
      changeMotor s motor (completeReferencing (nowOf s))
     else s)

/-- LOCKED_RUN_COMPLETE (R123). -/
def execLockedRunComplete (motor : Nat) (s : State) : Host.Outcome State Fault Refusal :=
  .next
    (if powered s && motorIs s motor (fun m => m.state == .locked && runDone (nowOf s) m) then
      changeMotor s motor (fun _ => completeLocked (nowOf s))
     else s)

/-- The 500 ms since a motor's last run stopped are over, in PAUSE (R116). -/
def pauseDone (now : Stamp) (m : Motor) : Bool :=
  m.state == .pause && !stoppedLately now m

/-- PAUSE_END (R116). -/
def execPauseEnd (motor : Nat) (s : State) : Host.Outcome State Fault Refusal :=
  .next
    (if powered s && motorIs s motor (pauseDone (nowOf s)) then changeMotor s motor (endPause (nowOf s)) else s)

/-- Changing the façade records a SUN or WIND names, and forming the targets of their motors (R121, R123). -/
def facadesTaken (h : RxHeader) (f : Facade → Facade) (s : State) : State :=
  if toAll h then formBlinds { s with blind := { s.blind with facades := s.blind.facades.map f } }
  else formFacade h.dest.toNat { s with blind := changeFacade h.dest.toNat f s.blind }

/-- The scope is one the Blind Unit takes: FAÇADE or ALL. -/
def blindScope (h : RxHeader) : Bool := h.scope.toNat == scopeFacade || toAll h

/-- The Blind Unit takes a SUN (R121). Its scope is looked at before its content, so that one in another scope is not counted: the model's
reading (assumption log entry 18). -/
def takeSunTelegram (h : RxHeader) (payload : List Byte) (s : State) : State :=
  if blindScope h then
    match rdSun payload with
    | none => countUnusable s
    | some l => facadesTaken h (takeSun (nowOf s) l) s
  else s

/-- SUN (R121). -/
def execSun (h : RxHeader) (payload : List Byte) (s : State) : Host.Outcome State Fault Refusal :=
  .next (telegramEvent kSun h payload (takeSunTelegram h payload) s)

/-- A façade's SUN record has reached 900 s (R122). -/
def sunAged (facade : Nat) (s : State) : Bool :=
  match facadeOf s.blind facade with
  | none => false
  | some f => ranOut f.sunSince 900000 (nowOf s)

/-- A SUN record without age. -/
def loseSun (f : Facade) : Facade := { f with sun := .none, sunSince := none }

/-- SUN_AGE_EXPIRY (R122). -/
def execSunAgeExpiry (facade : Nat) (s : State) : Host.Outcome State Fault Refusal :=
  .next
    (if powered s && sunAged facade s then
      formFacade facade { s with blind := changeFacade facade loseSun s.blind }
     else s)

/-- The Blind Unit takes a WIND (R123). Its scope is looked at before its content, so that one in another scope is not counted: the model's
reading (assumption log entry 18). -/
def takeWindTelegram (h : RxHeader) (payload : List Byte) (s : State) : State :=
  if blindScope h then
    match rdWind payload with
    | none => countUnusable s
    | some on => facadesTaken h (fun f => { f with wind := takeWind (nowOf s) on f.wind }) s
  else s

/-- WIND (R123). -/
def execWind (h : RxHeader) (payload : List Byte) (s : State) : Host.Outcome State Fault Refusal :=
  .next (telegramEvent kWind h payload (takeWindTelegram h payload) s)

/-- The start of a HOLDING timer. -/
def holdingSince (w : WindLock) : Option Stamp :=
  match w with
  | .holding t => some t
  | _ => none

/-- A façade's HOLDING timer has reached 600 s (R123). -/
def windHoldingDone (facade : Nat) (s : State) : Bool :=
  match facadeOf s.blind facade with
  | none => false
  | some f => ranOut (holdingSince f.wind) 600000 (nowOf s)

/-- WIND_HOLDING_EXPIRY (R123). -/
def execWindHoldingExpiry (facade : Nat) (s : State) : Host.Outcome State Fault Refusal :=
  .next
    (if powered s && windHoldingDone facade s then
      formFacade facade { s with blind := changeFacade facade (fun f => { f with wind := .clear }) s.blind }
     else s)

end Sys2Proof.Machine
end

