-- ==== Sys2Proof/Machine/Image.lean ====
section
/-! DEFINITION. Reading the configuration image (R183): its judgement as blank, bad or good, and the items of
format version 1 with the ranges and orders of R19, R44, R65, R92, R93, R112 and R129. -/

namespace Sys2Proof.Machine

/-- One byte of the image, as a number. -/
def img1 (b : List Byte) (i : Nat) : Nat := (b.getD i 0).toNat

/-- A number of two bytes of the image, high byte first. -/
def img2 (b : List Byte) (i : Nat) : Nat := img1 b i * 256 + img1 b (i + 1)

/-- The number lies in a range. -/
def within (lo hi n : Nat) : Bool := decide (lo ≤ n ∧ n ≤ hi)

/-- Zone `z` of the image, its items checked (R92). -/
def imageZone (b : List Byte) (z : Nat) : Option ZoneCfg :=
  let o := 35 + 10 * (z - 1)
  match zoneRoleOfCode (img1 b o) with
  | none => none
  | some r =>
    if within 0 1 (img1 b (o + 1)) && within 0 16 (img1 b (o + 2)) && within 0 300 (img2 b (o + 3))
        && within 0 1 (img1 b (o + 5)) && within 0 1000 (img2 b (o + 6)) && within 0 1000 (img2 b (o + 8)) then
      some { role := r, linked := img1 b (o + 1) == 1, k := img1 b (o + 2), minDim := img2 b (o + 3),
             dimToOff := img1 b (o + 5) == 1, startLevel := img2 b (o + 6), idleLevel := img2 b (o + 8) }
    else none

/-- Scene `n` of the image, the levels of the configured zones checked (R93). -/
def imageScene (b : List Byte) (zones n : Nat) : Option SceneCfg :=
  let o := 95 + 17 * n
  let levels := (List.range 6).map (fun i => img2 b (o + 2 * i))
  if (levels.take zones).all (within 0 1000) && (img2 b (o + 12) == 0xFFFF || within 0 1000 (img2 b (o + 12)))
      && within 0 30 (img1 b (o + 14)) && within 0 1000 (img2 b (o + 15)) then
    some { levels := levels, blind := if img2 b (o + 12) = 0xFFFF then none else some (img2 b (o + 12)),
           fade := img1 b (o + 14), et := img2 b (o + 15) }
  else none

/-- Motor `n` of the image (R112). -/
def imageMotor (b : List Byte) (n : Nat) : Option MotorCfg :=
  let o := 232 + 7 * (n - 1)
  if within 1 15 (img1 b o) && within 10 180 (img1 b (o + 1)) && within 10 180 (img1 b (o + 2))
      && within 0 1000 (img2 b (o + 3)) && within 0 1000 (img2 b (o + 5)) then
    some { facade := img1 b o, td := img1 b (o + 1), tu := img1 b (o + 2), glare := img2 b (o + 3),
           afterHours := img2 b (o + 5) }
  else none

/-- Partition `n` of the image (R129). -/
def imagePartition (b : List Byte) (n : Nat) : Option PartitionCfg :=
  let o := 261 + 2 * (n - 1)
  if within 1 62 (img1 b o) && within 0 1 (img1 b (o + 1)) then
    some { neighbour := img1 b o, openHigh := img1 b (o + 1) == 1 }
  else none

/-- The list of the values, where every one is there. -/
def allSome {α : Type} : List (Option α) → Option (List α)
  | [] => some []
  | x :: rest =>
    match x, allSome rest with
    | some v, some vs => some (v :: vs)
    | _, _ => none

/-- Two partitions name different neighbours (R129). -/
def partitionsDistinct : List PartitionCfg → Bool
  | [a, b] => a.neighbour != b.neighbour
  | _ => true

/-- The scalar items lie in their ranges and orders (R19, R44, R65, R92). -/
def scalarsGood (b : List Byte) : Bool :=
  (List.range 4).all (fun i => within 30 240 (img1 b (3 + i)))
  && within 5 30 (img1 b 7) && within 0 2 (img1 b 8) && within 0 4 (img1 b 9) && within 2 30 (img1 b 10)
  && within 350 500 (img2 b 11) && within 5 500 (img2 b 13) && within 15 2000 (img2 b 15)
  && within 0 30 (img1 b 17) && within 4 20 (img1 b 18)
  && decide (img2 b 19 ≤ img2 b 21 ∧ img2 b 21 ≤ img2 b 23) && within 1 3000 (img2 b 23)
  && within 600 1500 (img2 b 25) && within 1 15 (img1 b 27) && within 0 20000 (img2 b 28)
  && (img1 b 30 == 0 || (img1 b 30 == 1 && within 0 1000 (img2 b 31)))
  && within 1 6 (img1 b 33) && within 0 1 (img1 b 34) && within 0 4 (img1 b 231) && within 0 2 (img1 b 260)

/-- The items of format version 1 (R183), `none` where one lies outside its range or breaks an order. -/
def imageItems (b : List Byte) : Option StationConfig :=
  if !scalarsGood b then none
  else
    match allSome ((List.range (img1 b 33)).map (fun i => imageZone b (i + 1))),
      allSome ((List.range 8).map (fun n => imageScene b (img1 b 33) n)),
      allSome ((List.range (img1 b 231)).map (fun i => imageMotor b (i + 1))),
      allSome ((List.range (img1 b 260)).map (fun i => imagePartition b (i + 1))) with
    | some zones, some scenes, some motors, some parts =>
      if !partitionsDistinct parts then none
      else
        some { durLecture := img1 b 3, durDiscussion := img1 b 4, durExam := img1 b 5, durScreening := img1 b 6,
               noShowW := img1 b 7, doors := img1 b 8, motionZones := img1 b 9, tv := img1 b 10,
               cout := img2 b 11, area := img2 b 13, volume := img2 b 15, areaRate := img1 b 17,
               personRate := img1 b 18, fset := img2 b 19, fmin := img2 b 21, fmax := img2 b 23,
               cs := img2 b 25, airGroup := img1 b 27, cdef := img2 b 28,
               airIdle := if img1 b 30 = 1 then .fixed (img2 b 31) else .hold,
               lightIdle := if img1 b 34 = 1 then .levels else .hold,
               zones := zones, scenes := scenes, motors := motors, partitions := parts }
    | _, _, _, _ => none

/-- The image is blank (R183): its first three bytes read FFh, or the EEPROM does not acknowledge. -/
def imageBlank (answers : Bool) (b : List Byte) : Bool :=
  !answers || (b.getD 0 0 == 0xFF#8 && b.getD 1 0 == 0xFF#8 && b.getD 2 0 == 0xFF#8)

/-- The image's version, length and check are good (R183): format version 1 requires a length of 267. -/
def imageFrameGood (b : List Byte) : Bool :=
  img1 b 0 == 1 && img2 b 1 == 267 && be2 (crc16 (b.take 265)).toNat == (b.drop 265).take 2

/-- The configuration a good image gives; `none` where it is blank or bad. -/
def readImage (answers : Bool) (b : List Byte) : Option StationConfig :=
  if imageBlank answers b then none
  else if imageFrameGood b then imageItems b
  else none

/-- Step 2 of R180, and the same at a service restart (R181): the configuration in use, the CONFIG fault (R162)
and the format version read (R183). -/
def loadConfiguration (s : State) : State :=
  let b := memReadList s.eeprom.cells 0 512
  { s with
    cfg := (readImage s.eeprom.answers b).getD StationConfig.configValues
    formatRead := if imageBlank s.eeprom.answers b then 0 else img1 b 0
    faults := { s.faults with config := (readImage s.eeprom.answers b).isNone } }

end Sys2Proof.Machine
end

