-- ==== Sys2Proof/Machine/Reports.lean ====
section
/-! DEFINITION. The reporting path (R190, R191): the REPORT payloads of section 11.2, every field taken from the one state in which
the QUERY is taken. -/

namespace Sys2Proof.Machine

/-! ### STATUS -/

/-- The content of STATUS part 1 (R193). -/
def statusPart1 (s : State) : List Byte :=
  let t := s.cal.time
  [byteOf (t.year - 2000), byteOf t.month, byteOf t.day, byteOf t.hour, byteOf t.minute, byteOf t.second]
    ++ [byteOf (calWeekday s.cal + bitIf s.cal.running 8 + 16 * (offTimeReport s.cal.offTime).1)]
    ++ be2 s.cal.setSeq.toNat ++ be2 (offTimeReport s.cal.offTime).2 ++ be2 s.statusSeq.toNat ++ statusRoom s

/-- The content of STATUS part 2 (R193). -/
def statusPart2 (s : State) : List Byte := be2 s.statusSeq.toNat ++ statusSession s.tt.summary ++ statusAir s

/-! ### BOOKINGS and PEERS -/

/-- The window status code (R193). -/
def windowCode : Window → Nat
  | .none => 0
  | .running _ => 1
  | .deferred => 2

/-- A record in a BOOKINGS telegram (R193). -/
def bookingBytes (b : Booking) : List Byte :=
  be2 b.id ++ [byteOf (kindCode b.kind), byteOf (bookingStateCode b.state)]
    ++ [byteOf (bitIf b.joined 1 + bitIf b.noRelease 2 + bitIf b.adjusted 4 + bitIf b.attended 8
          + 16 * windowCode b.window + bitIf b.runout.isSome 64)]
    ++ dateBytes b.start ++ dateBytes b.finish ++ be2 b.headcount ++ [byteOf b.weeks, byteOf b.partner]

/-- A peer entry in a PEERS telegram (R193). -/
def peerBytes (now : Stamp) (p : Peer) : List Byte :=
  [byteOf p.station] ++ be2 p.content.d ++ be2 p.content.m ++ [byteOf p.content.w] ++ be2 p.content.headcount
    ++ [byteOf (p.content.marks.toNat % 128 + bitIf p.stale 128), byteOf p.content.lead, byteOf p.seq]
    ++ be2 (min 300 (elapsed p.since now / 1000))

/-- The telegrams of a page of a list (R190): the count, then one entry each; one with the count alone where none is held. -/
def pageContents (count : Nat) (entries : List (List Byte)) : List (List Byte) :=
  if entries = [] then [[byteOf count]] else entries.map (fun e => byteOf count :: e)

/-- The contents of BOOKINGS page `k`. -/
def bookingsPage (s : State) (k : Nat) : List (List Byte) :=
  pageContents s.tt.records.length (((s.tt.records.drop (2 * k)).take 2).map bookingBytes)

/-- The contents of PEERS page `k`. -/
def peersPage (s : State) (k : Nat) : List (List Byte) :=
  pageContents s.air.peers.length (((s.air.peers.drop (3 * k)).take 3).map (peerBytes (nowOf s)))

/-! ### COUNTERS -/

/-- A 16-bit count as two bytes. -/
def countBytes (c : Count16) : List Byte := be2 c.toNat

/-- The eight bus counts in the order of R178. -/
def busCounts (b : Bus) : List Byte :=
  countBytes b.good ++ countBytes b.bad ++ countBytes b.malformed ++ countBytes b.unusable ++ countBytes b.sent
    ++ countBytes b.collisions ++ countBytes b.dropped ++ countBytes b.duplicates

/-- The nine counts of COUNTERS part 2 in the order of R190. -/
def blockCounts (s : State) : List Byte :=
  countBytes s.cal.refused ++ countBytes s.presence.halfPasses ++ countBytes s.presence.corrections
    ++ countBytes s.presence.queueLosses ++ countBytes s.presence.discardedCo2 ++ countBytes s.air.overflows
    ++ countBytes s.light.discarded ++ countBytes s.service.refusals ++ countBytes s.journal.torn

/-! ### OUTPUTS -/

/-- A value of each of zones 1 to 6, two bytes each; 0 for one not configured. -/
def sixZones (s : State) (f : Zone → Nat) : List Byte :=
  ((List.range 6).map (fun i => be2 ((s.light.zones[i]?.map f).getD 0))).flatten

/-- The role code of zone `i` (from 0); 15 where it is not configured. -/
def roleNibble (s : State) (i : Nat) : Nat := (s.cfg.zones[i]?.map (fun z => zoneRoleCode z.role)).getD 15

/-- The roles of the zones, two to a byte (R193). -/
def roleBytes (s : State) : List Byte :=
  (List.range 3).map (fun j => byteOf (roleNibble s (2 * j) + 16 * roleNibble s (2 * j + 1)))

/-- The row of the room scene (R94, R193); 0 while none is chosen. -/
def sceneRow (l : Light) : Nat :=
  if l.scene.isNone then 0
  else
    match l.source with
    | .start => 0
    | .ordered => 3
    | .panel => 4
    | .session => 5
    | .occupancy => 6
    | .none => 7

/-- The applied row (R94). -/
def appliedRow (l : Light) : Nat :=
  match l.override with
  | .evacuate => 1
  | .idle => 2
  | .none => sceneRow l

/-- The content of OUTPUTS part 1. -/
def outputsPart1 (s : State) : List Byte :=
  sixZones s (zoneLevel (nowOf s)) ++ roleBytes s
    ++ [byteOf (s.light.scene.getD 15 + 16 * sourceCode s.light.source),
        byteOf (appliedRow s.light + bitIf s.light.hold.isSome 8)]
    ++ be2 s.air.output

/-- The content of OUTPUTS part 2. -/
def outputsPart2 (s : State) : List Byte := sixZones s (fun z => z.target)

/-- A motor in OUTPUTS part 3. -/
def motorBytes (s : State) (i : Nat) : List Byte :=
  match s.blind.motors[i]?, s.cfg.motors[i]? with
  | some m, some c => [byteOf (motorStateCode m.state)] ++ be2 ((motorEstimate (nowOf s) c m).getD 0xFFFF)
  | _, _ => [byteOf 7] ++ be2 0xFFFF

/-- The content of OUTPUTS part 3. -/
def outputsPart3 (s : State) : List Byte := ((List.range 4).map (motorBytes s)).flatten

/-! ### Answers -/

/-- Item codes (R190). -/
def itemStatus : Nat := 0
def itemBookings : Nat := 1
def itemPeers : Nat := 2
def itemCounters : Nat := 3
def itemOutputs : Nat := 4
def itemIdentity : Nat := 5
def itemUnknown : Nat := 0xFF

/-- One REPORT telegram: item, page, part number and number of parts, content (R193). -/
def reportTelegram (dest item page part parts : Nat) (content : List Byte) : OutTelegram :=
  { kind := kReport, scope := scopeStation, dest := dest,
    payload := [byteOf item, byteOf page, byteOf (16 * part + parts)] ++ content }

/-- The REPORT telegrams of an answer in part order. -/
def reportTelegrams (dest item page : Nat) (contents : List (List Byte)) : List OutTelegram :=
  (numbered 1 contents).map (fun x => reportTelegram dest item page x.1 contents.length x.2)

/-- Sending an answer: every part is composed from the state in which the QUERY is taken (R191). -/
def answerQuery (h : RxHeader) (item page : Nat) (contents : List (List Byte)) (s : State) : State :=
  sendAll (reportTelegrams h.source.toNat item page contents) s

/-- The answer to STATUS. -/
def answerStatus (h : RxHeader) (s : State) : State := answerQuery h itemStatus 0 [statusPart1 s, statusPart2 s] s

/-- The answer to a BOOKINGS page. -/
def answerBookings (h : RxHeader) (page : Nat) (s : State) : State :=
  answerQuery h itemBookings page (bookingsPage s page) s

/-- The answer to a PEERS page. -/
def answerPeers (h : RxHeader) (page : Nat) (s : State) : State := answerQuery h itemPeers page (peersPage s page) s

/-- The answer to COUNTERS. -/
def answerCounters (h : RxHeader) (s : State) : State :=
  answerQuery h itemCounters 0 [busCounts s.bus, blockCounts s] s

/-- The answer to OUTPUTS. -/
def answerOutputs (h : RxHeader) (s : State) : State :=
  answerQuery h itemOutputs 0 [outputsPart1 s, outputsPart2 s, outputsPart3 s] s

/-- The answer to IDENTITY: part code 0C44h, silicon revision 1, the format version read (R190). -/
def answerIdentity (h : RxHeader) (s : State) : State :=
  answerQuery h itemIdentity 0 [be2 0x0C44 ++ [byteOf 1, byteOf s.formatRead]] s

/-- The answer to an unknown item or a page out of range (R190). -/
def answerUnknown (h : RxHeader) (item page : Byte) (s : State) : State :=
  answerQuery h itemUnknown 0 [[item, page]] s

/-- The reporting path takes a QUERY (R190). -/
def takeQuery (h : RxHeader) (payload : List Byte) (s : State) : State :=
  match payload with
  | [item, page] =>
    if item.toNat = itemStatus ∧ page.toNat = 0 then answerStatus h s
    else if item.toNat = itemBookings ∧ page.toNat ≤ 15 then answerBookings h page.toNat s
    else if item.toNat = itemPeers ∧ page.toNat ≤ 7 then answerPeers h page.toNat s
    else if item.toNat = itemCounters ∧ page.toNat = 0 then answerCounters h s
    else if item.toNat = itemOutputs ∧ page.toNat = 0 then answerOutputs h s
    else if item.toNat = itemIdentity ∧ page.toNat = 0 then answerIdentity h s
    else answerUnknown h item page s
  | _ => countUnusable s

end Sys2Proof.Machine
end

