-- ==== Sys2Proof/Machine/StartUp.lean ====
section
/-! DEFINITION. Starts: the loss time (R15), the restore of the calendar (R16), the start sequence of a power-up and of a pin reset
(R180, R182, R188, R189, R42), and the service restart (R160, R181). -/

namespace Sys2Proof.Machine

/-! ### The backup domain (R15, R16) -/

/-- A loss event: the loss time is the calendar instant, with whether the calendar was RUNNING; a STOPPED calendar loses the
domain's validity (R15). -/
def recordLoss (s : State) : State :=
  { s with backup := { valid := s.backup.valid && s.cal.running, lossTime := instantOf s.cal.time,
                       lossRunning := s.cal.running } }

/-- One advance of the calendar's fields by itself (R6, R8): at the end of 2199 it enters STOPPED. -/
def advanceCalendar (c : Calendar) : Calendar :=
  match advanceFields c.time with
  | some t => { c with time := t, phase := c.phase - 3840 }
  | none => { c with time := calZero, running := false, phase := 0 }

/-- An advance is due: a RUNNING calendar whose seconds phase has reached a full second (R6, R12). -/
def advanceDue (c : Calendar) : Bool := c.running && decide (3840 ≤ c.phase)

/-- The calendar advances while nothing of the main domain runs (R15); entering STOPPED loses the domain's validity. -/
def advanceUnpowered (s : State) : State :=
  let c := advanceCalendar s.cal
  { s with cal := c, backup := { s.backup with valid := s.backup.valid && c.running } }

/-- The off-time a start finds (R16). -/
def offTimeAt (s : State) : Option Nat :=
  if s.backup.valid then some (instantOf s.cal.time - s.backup.lossTime) else none

/-- The calendar after the restore (R16, R18). -/
def restoreCalendar (s : State) : Calendar :=
  { time := if s.backup.valid then s.cal.time else calZero
    running := s.backup.valid
    phase := if s.backup.valid then s.cal.phase else 0
    setSeq := 0, refused := 0, offTime := offTimeAt s }

/-! ### Blocks at a start -/

/-- The station number the straps give: 0 for none (R182). -/
def strapNumber (straps : BitVec 6) : Nat :=
  if straps.toNat = 0 ∨ straps.toNat = 63 then 0 else straps.toNat

/-- The generator's load (R177). -/
def lfsrLoad (station : Nat) : BitVec 16 := if station = 0 then 1 else BitVec.ofNat 16 station

/-- The Bus Interface at a power-up or pin reset (R179). -/
def startBus (station : Nat) : Bus :=
  { control := [], routine := [], sending := none, frame := [], deferral := none, yieldControl := false, yieldRoutine := false,
    lfsr := lfsrLoad station, lineIdle := false, rxInProgress := false, ownFrame := false, quiet := 0,
    good := 0, bad := 0, malformed := 0, unusable := 0, sent := 0, collisions := 0, dropped := 0, duplicates := 0 }

/-- The Bus Interface at a service restart: the counts are kept (R179). -/
def restartBus (station : Nat) (b : Bus) : Bus :=
  { startBus station with good := b.good, bad := b.bad, malformed := b.malformed, unusable := b.unusable,
                          sent := b.sent, collisions := b.collisions, dropped := b.dropped,
                          duplicates := b.duplicates }

/-- The Safety and Service Unit at a power-up or pin reset (R156, R158). -/
def serviceCleared : Service :=
  { air := .none, evacuate := false, maskAir := false, maskLight := false, maskBlind := false, lock := false,
    refusals := 0 }

/-- The fault set at a power-up or pin reset (R166). -/
def startFaults (unnumbered config clockStopped : Bool) : Faults :=
  { co2 := false, lux := false, door1 := false, door2 := false, capacityDefault := false,
    clockStopped := clockStopped, config := config, duplicate := false, journalFull := false,
    unnumbered := unnumbered }

/-- The fault set at a service restart (R166); CONFIG is already that of the image reading. -/
def restartFaults (f : Faults) : Faults :=
  { f with co2 := false, lux := false, door1 := false, door2 := false, capacityDefault := false }

/-! ### Power-up and pin reset -/

/-- What the start finds in the EEPROM: the image area put there by the commissioning tool, and whether it acknowledges. -/
def startEeprom (w : StartWorld) (e : Eeprom) : Eeprom :=
  { cells := match w.image with
      | none => e.cells
      | some b => memWithImage e.cells b
    answers := w.eepromAnswers }

/-- Steps 1 and 2 of R180: the straps and the configuration image, with the timebase at 0 and the listen-in running. -/
def startRead (w : StartWorld) (s : State) : State :=
  loadConfiguration
    { s with eeprom := startEeprom w s.eeprom, station := strapNumber w.straps, clock := clockZero, listening := true,
             statusSeq := 0, imageWait := false }

/-- The first computations of a start (R91, R110, R127): the session summary, the own record and the grant, the zones and the blinds, from
the state the blocks have then. No grant-change event is handed: a start is none of the events of R83 (assumption log entry 38). -/
def firstForms (s : State) : State := formBlinds (selectScene (airPass s))

/-- Steps 3 and 4 of R180, every block as its start table gives it, and the first computations of the blocks. -/
def startBlocks (s : State) : State :=
  let c := restoreCalendar s
  firstForms
    { s with cal := c
             backup := { s.backup with valid := c.running }
             tt := { records := [], summary := none, captured := none }
             presence := startPresence s.cfg s.pins false s.presence
             air := startAirCold
             light := startLightCold s.cfg
             blind := startBlindCold s.cfg
             join := startJoin s.station s.pins s.cfg
             service := serviceCleared
             faults := startFaults (s.station == 0) s.faults.config (!c.running)
             bus := startBus s.station
             journal := replayJournal s }

/-- The derivation of the booking states (R42): the forward step from the loss time, where the calendar runs. -/
def derive (s : State) : State :=
  match calInstant s.cal with
  | none => s
  | some now => overRecords (onForward (evalCtx s now true)) s

/-- Step 6 of R180: the list is handed to the Timetable. -/
def finishStart (records : List Booking) (s : State) : State :=
  settle (derive { s with phase := .running, tt := { s.tt with records := records } })

/-- Slot writes of a compaction that have completed. -/
def writeSlots (ws : List SlotWrite) (s : State) : State :=
  { s with eeprom := { s.eeprom with cells := makeWrites ws s.eeprom.cells } }

/-- The journal after a compaction whose writes all completed (R189). -/
def compactionDone (records : List Booking) (s : State) : State :=
  { s with journal := { compactedJournal records s.journal with since := none } }

/-- A write of a compaction has failed (R189, R165): JOURNAL-FULL is raised. -/
def compactionFailed (w : SlotWrite) (s : State) : State :=
  let s := spoilSlot w s
  { s with faults := { s.faults with journalFull := true },
           journal := { s.journal with page := w.page, slot := w.slot, closed := true, since := none } }

/-- Step 5 of R180 as it meets the world, and step 6 where it ends (R189): the writes of the erasing and those of the entries complete
one after another, one fails, or they are still running. -/
def compact (records : List Booking) (run : CompactionRun) (s : State) : State :=
  let ws := compactionPlan records
  match run with
  | .completes => finishStart records (compactionDone records (writeSlots ws s))
  | .failsAt k =>
    match ws.drop k with
    | [] => finishStart records (compactionDone records (writeSlots ws s))
    | w :: _ => finishStart records (compactionFailed w (writeSlots (ws.take k) s))
  | .runningAt k =>
    match ws.drop k with
    | [] => finishStart records (compactionDone records (writeSlots ws s))
    | rest =>
      let s := writeSlots (ws.take k) s
      { s with phase := .compacting records rest false, journal := { s.journal with since := some (nowOf s) } }

/-- The start sequence of a power-up and of a pin reset (R180). -/
def coldStart (w : StartWorld) (s : State) : State :=
  let s := startRead w s
  let records := replayList s
  let s := startBlocks s
  if 96 < consumedSlots s.eeprom.cells then compact records w.compaction s else finishStart records s

/-! ### Losses -/

/-- BUSDE goes off and the attempt in progress ends (R179). -/
def busOff (s : State) : State := { s with bus := { s.bus with sending := none, frame := [], deferral := none } }

/-- The slot being written is torn and the write queue lost (R187); a compaction's write in progress is torn as well. -/
def cutWrites (s : State) : State :=
  match s.phase with
  | .compacting _ (w :: _) _ => tearWrites (spoilSlot w s)
  | _ => tearWrites s

/-- The deferred reset takes effect, or one takes effect at once (R15, R180): the part is held, its timebase stopped. -/
def holdPart (s : State) : State := { busOff (cutWrites (recordLoss s)) with phase := .held }

/-- The writes a compaction still has to make, completed. -/
def completeCompaction (s : State) : State :=
  match s.phase with
  | .compacting records rest d =>
    compactionDone records { writeSlots rest s with phase := .compacting records [] d }
  | _ => s

/-- A slot write of a compaction completes; the last one ends step 5 (R180, R189). -/
def compactionWritten (s : State) : State :=
  match s.phase with
  | .compacting records [w] deferred =>
    let s := compactionDone records (writeSlots [w] s)
    if deferred then { s with phase := .compacting records [] true } else finishStart records s
  | .compacting records (w :: rest) deferred =>
    let s := writeSlots [w] s
    { s with phase := .compacting records rest deferred, journal := { s.journal with since := some (nowOf s) } }
  | _ => s

/-- A slot write of a compaction fails: the records stay in RAM (R189). -/
def compactionBroken (s : State) : State :=
  match s.phase with
  | .compacting records (w :: _) deferred =>
    let s := compactionFailed w s
    if deferred then { s with phase := .compacting records [] true } else finishStart records s
  | _ => s

/-! ### Service restart -/

/-- What a service restart resets and keeps in the blocks that no image item forms (R43, R158, R166, R179). -/
def restartKept (s : State) : State :=
  { s with tt := { s.tt with records := s.tt.records.map onRestart }
           faults := restartFaults s.faults
           bus := restartBus s.station s.bus }

/-- What a service restart resets and keeps in the blocks that the image configures (R64, R91, R110, R127, R152). `old` is the timebase
value up to which runs and fades have moved, and `cfg` the configuration they moved under. Made again under the same configuration it
changes nothing. -/
def restartBlocks (old : Stamp) (cfg : StationConfig) (s : State) : State :=
  { s with presence := startPresence s.cfg s.pins true s.presence
           air := startAirRestart s.air
           light := startLightRestart old s.cfg s.light
           blind := startBlindRestart old cfg s.cfg s.blind
           join := startJoin s.station s.pins s.cfg }

/-- The image is read again at a service restart, and the blocks form their state under the configuration it gives (R181): the acknowledgement
and the image area are those the EEPROM showed last (assumption log entry 14). Beams and contacts are read here and taken as of the start
instant (R45, R130). -/
def rereadImage (old : Stamp) (s : State) : State :=
  firstForms (restartBlocks old s.cfg (loadConfiguration { s with imageWait := false }))

/-- The slot write that a service restart met has ended: the image is read, and telegrams and field events are taken from here on
(R181). This is an event of its own, so the STATUS change sequence steps again where an item then differs (R191): the model's reading
(assumption log entry 34). -/
def endImageWait (s : State) : State := if s.imageWait then rereadImage (nowOf s) s else s

/-- The service restart (R160, R181); the STATUS change sequence steps once (R191). Where a slot write is in progress the image is read
only after its end; until then the blocks stand reset under the configuration in use, form nothing, and take no telegram and no field
event (assumption log entry 33). The EEPROM acknowledges and holds what it did at the last power-up or pin reset (assumption log
entry 14). -/
def serviceRestartNow (s : State) : State :=
  let old := nowOf s
  let s := restartKept (journalRestart { s with clock := clockZero, listening := true, statusSeq := s.statusSeq.succ })
  if s.journal.plan.isEmpty then rereadImage old s
  else refreshSession (restartBlocks old s.cfg { s with imageWait := true })

end Sys2Proof.Machine
end

