-- ==== Sys2Proof/Machine/BookingCommands.lean ====
section
/-! DEFINITION. The commands of the Timetable and of the journal: BOOKING-PUT and BOOKING-DROP (R20 to R28), the expiries of a
record's timers (R31, R34), and the end of a slot write (R186, R187). -/

namespace Sys2Proof.Machine

/-- The Timetable takes a BOOKING-PUT, and what follows from the session (R20 to R25, R37). -/
def takePut (h : RxHeader) (payload : List Byte) (s : State) : State :=
  settle (ttPut { kind := kBookingPut, hdr := h, payload := payload } s)

/-- BOOKING_PUT (R25). -/
def execBookingPut (h : RxHeader) (payload : List Byte) (s : State) : Host.Outcome State Fault Refusal :=
  .next (telegramEvent kBookingPut h payload (takePut h payload) s)

/-- The Timetable takes a BOOKING-DROP, and what follows from the session (R26, R37). -/
def takeDrop (h : RxHeader) (payload : List Byte) (s : State) : State :=
  settle (ttDrop { kind := kBookingDrop, hdr := h, payload := payload } s)

/-- BOOKING_DROP (R26). -/
def execBookingDrop (h : RxHeader) (payload : List Byte) (s : State) : Host.Outcome State Fault Refusal :=
  .next (telegramEvent kBookingDrop h payload (takeDrop h payload) s)

/-- NO_SHOW_WINDOW_EXPIRY (R31): the W minutes of a record's RUNNING window are over. One left in the queue by a restart whose
image reading is awaited forms the session summary alone (assumption log entry 33). -/
def execNoShowWindowExpiry (id : Nat) (s : State) : Host.Outcome State Fault Refusal :=
  .next (if started s then endEvent s (afterRecords (overRecordsAt (onWindowExpiry id) s)) else s)

/-- RUNOUT_CAP_EXPIRY (R34): the 1800 s of a record's run-out are over. One left in the queue by a restart whose image reading is
awaited forms the session summary alone (assumption log entry 33). -/
def execRunoutCapExpiry (id : Nat) (s : State) : Host.Outcome State Fault Refusal :=
  .next (if started s then endEvent s (afterRecords (overRecordsAt (onCapExpiry id) s)) else s)

/-- A slot write has completed: one of the journal queue, or one of a compaction (R186, R189); the image reading of a restart may have
waited for it (R181). -/
def slotCompletes (s : State) : State :=
  match s.phase with
  | .running => endImageWait (slotWritten s)
  | .compacting _ _ _ => compactionWritten s
  | _ => s

/-- SLOT_WRITE_COMPLETE (R186). -/
def execSlotWriteComplete (s : State) : Host.Outcome State Fault Refusal :=
  .next (if powered s then endEvent s (slotCompletes s) else s)

/-- A slot write was not acknowledged, or has not completed within 20 ms (R187, R189); the image reading of a restart may have waited
for it (R181). -/
def slotFails (s : State) : State :=
  match s.phase with
  | .running => endImageWait (slotFailed s)
  | .compacting _ _ _ => compactionBroken s
  | _ => s

/-- SLOT_WRITE_FAIL (R187). -/
def execSlotWriteFail (s : State) : Host.Outcome State Fault Refusal :=
  .next (if powered s then endEvent s (slotFails s) else s)

end Sys2Proof.Machine
end

