-- ==== Sys2Proof/Machine/CalendarCommands.lean ====
section
/-! DEFINITION. The commands of the Calendar: the advance (R6 to R8, R15) and TIME (R9 to R13). -/

namespace Sys2Proof.Machine

/-- A minute boundary, and after it the day boundary where one falls on the same advance (R7). -/
def boundaries (s : State) : State :=
  if s.cal.time.second ≠ 0 then s
  else
    let s := overRecordsAt onMinute s
    if s.cal.time.minute = 0 ∧ s.cal.time.hour = 0 then overRecordsAt onDay s else s

/-- The calendar has entered STOPPED: CLOCK-STOPPED is raised and the Timetable takes a clock stop (R8, R41). -/
def clockStops (s : State) : State :=
  afterRecords (ttClockStop { s with faults := { s.faults with clockStopped := true } })

/-- One advance in a powered part (R6 to R8). Before step 6 of a start no boundary is handed (R16). -/
def advancePowered (s : State) : State :=
  let s := { s with cal := advanceCalendar s.cal }
  if !s.cal.running then clockStops s
  else if started s ∧ s.cal.time.second = 0 then afterRecords (boundaries s)
  else s

/-- CALENDAR_ADVANCE (R6): a second has passed on a RUNNING calendar. -/
def execCalendarAdvance (s : State) : Host.Outcome State Fault Refusal :=
  .next
    (if !advanceDue s.cal then s
     else if powered s then endEvent s (advancePowered s)
     else advanceUnpowered s)

/-- The time of a TIME is a time of the calendar (R9). -/
def validTime (t : CalTime) : Bool :=
  validDate t.year t.month t.day && decide (t.hour ≤ 23 ∧ t.minute ≤ 59 ∧ t.second ≤ 59)

/-- The Δ of R10. -/
def timeDelta (a b : CalTime) : Nat := distance (instantOf a) (instantOf b)

/-- A valid TIME is accepted (R10). -/
def timeAccepted (c : Calendar) (t : CalTime) (step : Bool) : Bool :=
  !c.running || step || decide (timeDelta t c.time ≤ 900)

/-- A TIME is refused (R9). -/
def refuseTime (s : State) : State := { s with cal := { s.cal with refused := s.cal.refused.succ } }

/-- The calendar is set (R11, R13); the backup domain is valid from here on (R16). -/
def setCalendar (t : CalTime) (s : State) : State :=
  { s with cal := { s.cal with time := t, running := true, phase := 0, setSeq := s.cal.setSeq.succ }
           backup := { s.backup with valid := true }
           faults := { s.faults with clockStopped := false } }

/-- What the set hands the Timetable (R11): a clock start, a forward step, a backward step, or nothing. -/
def handSet (old : Calendar) (s : State) : State :=
  if !old.running then overRecordsAt onForward s
  else if instantOf old.time < instantOf s.cal.time then overRecordsAt onForward s
  else if instantOf s.cal.time < instantOf old.time then overRecordsAt onBackward s
  else s

/-- The Calendar takes a TIME (R9 to R11). -/
def takeTime (payload : List Byte) (s : State) : State :=
  match rdTime payload with
  | none => refuseTime s
  | some (t, step) =>
    if validTime t && timeAccepted s.cal t step then settle (handSet s.cal (setCalendar t s)) else refuseTime s

/-- TIME (R10). -/
def execTime (h : RxHeader) (payload : List Byte) (s : State) : Host.Outcome State Fault Refusal :=
  .next (telegramEvent kTime h payload (takeTime payload) s)

end Sys2Proof.Machine
end

