-- ==== Sys2Proof/Machine/JoinCommands.lean ====
section
/-! DEFINITION. The commands of the Join Unit: contacts (R130), claims (R132 to R134), the JOIN telegrams (R135 to R149), and the keep
and orphan timers (R140, R141). -/

namespace Sys2Proof.Machine

/-! ### Contacts and timers -/

/-- The raw contact of a configured partition after its line has changed (R130), and the presence hold (R151). -/
def contactMoves (p : Nat) (high : Bool) (s : State) : State :=
  match nth1 s.cfg.partitions p, partitionOf s p with
  | some c, some x =>
    if x.state = .notConfigured ∨ contactOf c high = x.raw then s
    else updateHold (changePartition p (contactChange (nowOf s) (contactOf c high)) s)
  | _, _ => s

/-- PARTITION_CONTACT_CHANGE (R130): the PARTn line takes a level. -/
def execPartitionContactChange (p : Nat) (high : Bool) (s : State) : Host.Outcome State Fault Refusal :=
  let s' := { s with pins := setPart s.pins p high }
  .next (if takesFields s then endEvent s (contactMoves p high s') else s')

/-- A condition on a partition, by its number. -/
def partitionIs (s : State) (p : Nat) (test : Partition → Bool) : Bool :=
  match partitionOf s p with
  | none => false
  | some x => test x

/-- A debounced OPEN on a partition (R132): it claims where the station is free, and waits BLOCKED with its retry due where it
is not. -/
def debouncedOpen (p : Nat) (st : PartitionState) (s : State) : State :=
  match st with
  | .closed => tryClaim (changePartition p (restPartition .blocked .due) s)
  | _ => s

/-- A debounced CLOSED on a partition (R133, R134, R139). -/
def debouncedClosed (p : Nat) (st : PartitionState) (s : State) : State :=
  match st with
  | .claiming => tryClaim (changePartition p (restPartition .closed .none) s)
  | .blocked => changePartition p (restPartition .closed .none) s
  | .lead => returnSolo p .closed .none (sendRelease p s)
  | .follow => returnSolo p .closed .none (sendRelease p s)
  | _ => s

/-- The debounce timer runs out (R130). -/
def debounceEnds (p : Nat) (s : State) : State :=
  match partitionOf s p with
  | none => s
  | some x =>
    let t := changePartition p debounced s
    updateHold
      (if x.raw = x.debounced then t
       else if x.raw then debouncedOpen p x.state t
       else debouncedClosed p x.state t)

/-- DEBOUNCE_EXPIRY (R130): the 5 s are over. -/
def execDebounceExpiry (p : Nat) (s : State) : Host.Outcome State Fault Refusal :=
  .next
    (if powered s && partitionIs s p (fun x => ranOut x.debounce 5000 (nowOf s)) then
      endEvent s (debounceEnds p s)
     else s)

/-- The claim timer of a CLAIMING partition has run its 2 s (R132). -/
def claimDue (now : Stamp) (x : Partition) : Bool := x.state == .claiming && ranOut x.claimTimer 2000 now

/-- The claim timer runs out (R133). -/
def claimRunsOut (p : Nat) (s : State) : State :=
  updateHold (if partitionIs s p (fun x => decide (x.attempts < 3)) then claimAgain p s else claimFails p s)

/-- CLAIM_TIMER_EXPIRY (R133). -/
def execClaimTimerExpiry (p : Nat) (s : State) : Host.Outcome State Fault Refusal :=
  .next (if powered s && partitionIs s p (claimDue (nowOf s)) then endEvent s (claimRunsOut p s) else s)

/-- The retry timer of a BLOCKED partition has run its 60 s (R134). -/
def retryDue (now : Stamp) (x : Partition) : Bool :=
  match x.state, x.retry with
  | .blocked, .timed t => decide (60000 ≤ elapsed t now)
  | _, _ => false

/-- The retry becomes due, and claims where the station is free (R134). -/
def retryRunsOut (p : Nat) (s : State) : State :=
  updateHold (tryClaim (changePartition p (fun x => { x with retry := .due }) s))

/-- RETRY_TIMER_EXPIRY (R134). -/
def execRetryTimerExpiry (p : Nat) (s : State) : Host.Outcome State Fault Refusal :=
  .next (if powered s && partitionIs s p (retryDue (nowOf s)) then endEvent s (retryRunsOut p s) else s)

/-! ### JOIN telegrams -/

/-- The Join Unit takes a JOIN telegram (R136, R152): ignored in a listen-in and while UNNUMBERED, unusable from a station that is
no neighbour; after it the presence hold is as R151 asks. -/
def takeJoin (h : RxHeader) (use : Nat → State → State) (s : State) : State :=
  if joinDeaf s then s
  else
    match partitionFrom s h.source.toNat with
    | none => countUnusable s
    | some p => updateHold (use p s)

/-- A follower meets a JOIN-CLAIM of its lead (R135): the one it answered before is answered again, another is a fresh start. -/
def claimAtFollow (p q : Nat) (s : State) : State :=
  match s.join.relation, s.join.follower with
  | some r, some f =>
    if r.claimSeq = q then hearPartner (sendJoin p kJoinAccept (acceptBytes s q f) s)
    else enterFollow p q (leaveJoin p .blocked .none s)
  | _, _ => s

/-- A neighbour's JOIN-CLAIM, by the first row of R135 whose condition holds. -/
def claimTaken (p source q : Nat) (s : State) : State :=
  if !contactOpen s p then sendRefuse p 0 s
  else if engagedElsewhere s p then sendRefuse p 1 s
  else
    match partitionState s p with
    | .claiming => if s.station < source then s else enterFollow p q s
    | .follow => claimAtFollow p q s
    | .lead => enterFollow p q (leaveJoin p .blocked .none s)
    | .blocked => enterFollow p q s
    | .closed => s
    | .notConfigured => s

/-- The use of a JOIN-CLAIM payload. -/
def useClaim (source : Nat) (payload : List Byte) (p : Nat) (s : State) : State :=
  match payload with
  | [q] => claimTaken p source q.toNat s
  | _ => countUnusable s

/-- The Join Unit takes a JOIN-CLAIM. -/
def takeJoinClaim (h : RxHeader) (payload : List Byte) (s : State) : State :=
  takeJoin h (useClaim h.source.toNat payload) s

/-- JOIN_CLAIM (R135). -/
def execJoinClaim (h : RxHeader) (payload : List Byte) (s : State) : Host.Outcome State Fault Refusal :=
  .next (telegramEvent kJoinClaim h payload (takeJoinClaim h payload) s)

/-- The use of a JOIN-ACCEPT (R138, R136). -/
def useAccept (payload : List Byte) (p : Nat) (s : State) : State :=
  match rdAccept payload with
  | none => countUnusable s
  | some a =>
    match partitionState s p with
    | .claiming => enterLead p a s
    | .lead => hearPartner s
    | _ => sendRelease p s

/-- The Join Unit takes a JOIN-ACCEPT. -/
def takeJoinAccept (h : RxHeader) (payload : List Byte) (s : State) : State := takeJoin h (useAccept payload) s

/-- JOIN_ACCEPT (R138). -/
def execJoinAccept (h : RxHeader) (payload : List Byte) (s : State) : Host.Outcome State Fault Refusal :=
  .next (telegramEvent kJoinAccept h payload (takeJoinAccept h payload) s)

/-- The use of a JOIN-REFUSE (R133, R136): the reason is CONTACT or BUSY. -/
def useRefuse (payload : List Byte) (p : Nat) (s : State) : State :=
  match payload with
  | [r] =>
    if 1 < r.toNat then countUnusable s
    else
      match partitionState s p with
      | .claiming => claimFails p s
      | _ => s
  | _ => countUnusable s

/-- The Join Unit takes a JOIN-REFUSE. -/
def takeJoinRefuse (h : RxHeader) (payload : List Byte) (s : State) : State := takeJoin h (useRefuse payload) s

/-- JOIN_REFUSE (R133). -/
def execJoinRefuse (h : RxHeader) (payload : List Byte) (s : State) : Host.Outcome State Fault Refusal :=
  .next (telegramEvent kJoinRefuse h payload (takeJoinRefuse h payload) s)

/-- The use of a JOIN-RELEASE (R139, R136). -/
def useRelease (payload : List Byte) (p : Nat) (s : State) : State :=
  match payload with
  | [] => if joinedOn s p then returnSolo p (partedState s p).1 (partedState s p).2 s else s
  | _ => countUnusable s

/-- The Join Unit takes a JOIN-RELEASE. -/
def takeJoinRelease (h : RxHeader) (payload : List Byte) (s : State) : State := takeJoin h (useRelease payload) s

/-- JOIN_RELEASE (R139). -/
def execJoinRelease (h : RxHeader) (payload : List Byte) (s : State) : Host.Outcome State Fault Refusal :=
  .next (telegramEvent kJoinRelease h payload (takeJoinRelease h payload) s)

/-- A keep repair (R140): where the partner has not taken the own content, it is composed again with its current content. -/
def keepRepair (taken : Nat) (s : State) : State :=
  match s.join.relation with
  | none => s
  | some r => if taken = r.ownSeq then s else composeState (composeOrder s)

/-- The use of a JOIN-KEEP (R140, R141, R136). -/
def useKeep (payload : List Byte) (p : Nat) (s : State) : State :=
  match payload with
  | [q] =>
    match partitionState s p with
    | .claiming => s
    | .lead => keepRepair q.toNat (hearPartner s)
    | .follow => keepRepair q.toNat (hearPartner s)
    | _ => sendRelease p s
  | _ => countUnusable s

/-- The Join Unit takes a JOIN-KEEP. -/
def takeJoinKeep (h : RxHeader) (payload : List Byte) (s : State) : State := takeJoin h (useKeep payload) s

/-- JOIN_KEEP (R140). -/
def execJoinKeep (h : RxHeader) (payload : List Byte) (s : State) : Host.Outcome State Fault Refusal :=
  .next (telegramEvent kJoinKeep h payload (takeJoinKeep h payload) s)

/-- The sequence of a STATE or ORDER is new against the one last taken (R140). -/
def newContent (seq : Nat) (s : State) : Bool :=
  match s.join.relation with
  | none => false
  | some r => r.partnerSeq != seq

/-- The sequence of the content taken is recorded (R140). -/
def recordSeq (seq : Nat) (s : State) : State :=
  { s with join := { s.join with relation := s.join.relation.map (fun r => { r with partnerSeq := seq }) } }

/-- The pending panel request of a JOIN-STATE at the lead (R147): a number other than the last applied, and not 0. -/
def requestTaken (number scene : Nat) (s : State) : State :=
  match s.join.group with
  | none => s
  | some g =>
    if number = 0 ∨ number = g.lastRequest then s
    else settle (beginSceneHold scene (changeGroup (fun g => { g with lastRequest := number }) s))

/-- The follower's CO2 value or validity differs from the one held (R144). -/
def co2Differs (f : StateFields) (s : State) : Bool :=
  match s.join.group with
  | none => false
  | some g => g.fCo2 != f.co2

/-- The content of a JOIN-STATE is taken into the group record, in the order of R147. -/
def stateTaken (f : StateFields) (s : State) : State :=
  let old := occRead s
  let moved := co2Differs f s
  let s := changeGroup (fun g => takeReport f (applyDeltas f.inTotal f.outTotal g)) s
  let s := occHanded old (formOccupancy (if moved then formHc s else s))
  let s := settle (changeGroup (formGroupH s.presence) s)
  let s := settle (changeGroup (fun g => { g with fSession := f.session }) s)
  requestTaken f.request f.requestScene s

/-- The use of a JOIN-STATE (R147, R136). One that a follower answers with JOIN-RELEASE does not restart its orphan timer (assumption log
entry 41). -/
def useState (source : Nat) (payload : List Byte) (p : Nat) (s : State) : State :=
  match rdJoinState source payload with
  | none => countUnusable s
  | some f =>
    match partitionState s p with
    | .claiming => s
    | .lead => if newContent f.seq s then stateTaken f (recordSeq f.seq (hearPartner s)) else hearPartner s
    | _ => sendRelease p s

/-- The Join Unit takes a JOIN-STATE. -/
def takeJoinState (h : RxHeader) (payload : List Byte) (s : State) : State :=
  takeJoin h (useState h.source.toNat payload) s

/-- JOIN_STATE (R147). -/
def execJoinState (h : RxHeader) (payload : List Byte) (s : State) : Host.Outcome State Fault Refusal :=
  .next (telegramEvent kJoinState h payload (takeJoinState h payload) s)

/-- A follower record with the content of a JOIN-ORDER: an absent share leaves the held one (R149). -/
def takeOrder (c : OrderContent) (f : Follower) : Follower :=
  { f with share := if c.share.isSome then c.share else f.share, order := some c }

/-- The content of a JOIN-ORDER is taken at the follower (R149). -/
def orderTaken (c : OrderContent) (s : State) : State :=
  let old := occRead s
  settle (occHanded old { s with join := { s.join with follower := s.join.follower.map (takeOrder c) } })

/-- The use of a JOIN-ORDER (R149, R136). One that a lead answers with JOIN-RELEASE does not restart its orphan timer (assumption log
entry 41). -/
def useOrder (payload : List Byte) (p : Nat) (s : State) : State :=
  match rdJoinOrder payload with
  | none => countUnusable s
  | some f =>
    match partitionState s p with
    | .claiming => s
    | .follow => if newContent f.seq s then orderTaken f.content (recordSeq f.seq (hearPartner s)) else hearPartner s
    | _ => sendRelease p s

/-- The Join Unit takes a JOIN-ORDER. -/
def takeJoinOrder (h : RxHeader) (payload : List Byte) (s : State) : State := takeJoin h (useOrder payload) s

/-- JOIN_ORDER (R149). -/
def execJoinOrder (h : RxHeader) (payload : List Byte) (s : State) : Host.Outcome State Fault Refusal :=
  .next (telegramEvent kJoinOrder h payload (takeJoinOrder h payload) s)

/-! ### The relation's timers -/

/-- The partition the station is joined on. -/
def joinedPartition (s : State) : Option Nat :=
  match roleOf s with
  | .solo => none
  | .lead p => some p
  | .follow p => some p

/-- The keep timer runs out (R140): a JOIN-KEEP with the partner sequence last taken. -/
def keepRunsOut (s : State) : State :=
  match joinedPartition s, s.join.relation with
  | some p, some r =>
    if 30000 ≤ elapsed r.keep (nowOf s) then sendJoin p kJoinKeep [byteOf r.partnerSeq] s else s
  | _, _ => s

/-- KEEP_TIMER_EXPIRY (R140). -/
def execKeepTimerExpiry (s : State) : Host.Outcome State Fault Refusal :=
  .next (if powered s then keepRunsOut s else s)

/-- The orphan timer runs out (R141): a JOIN-RELEASE, and SOLO with the partition BLOCKED. -/
def orphanRunsOut (s : State) : State :=
  match joinedPartition s, s.join.relation with
  | some p, some r =>
    if 120000 ≤ elapsed r.orphan (nowOf s) then
      updateHold (returnSolo p .blocked (.timed (nowOf s)) (sendRelease p s))
    else s
  | _, _ => s

/-- ORPHAN_TIMER_EXPIRY (R141). -/
def execOrphanTimerExpiry (s : State) : Host.Outcome State Fault Refusal :=
  .next (if powered s then endEvent s (orphanRunsOut s) else s)

end Sys2Proof.Machine
end

