-- ==== Sys2Proof/Machine/LightCommands.lean ====
section
/-! DEFINITION. The commands of the Light Unit: lux (R102, R103), the end of a fade (R105), and the PANEL telegrams it takes, of
which it passes BLIND and RELEASE to the Blind Unit (R98 to R101, R125, R126, R150). -/

namespace Sys2Proof.Machine

/-! ### Lux and fades -/

/-- The value of a valid lux sample (R102). -/
def validLux (lux : Option Nat) : Option Nat :=
  match lux with
  | some v => if v ≤ 2000 then some v else none
  | none => none

/-- A valid lux sample: the hold, the fault, the lux in use, the targets (R102 to R104). -/
def luxArrives (v : Nat) (s : State) : State :=
  formTargets { s with light := { s.light with lux := takeLux (nowOf s) v s.light.lux },
                       faults := { s.faults with lux := false } }

/-- A discarded lux sample (R102). -/
def luxDiscarded (s : State) : State :=
  { s with light := { s.light with discarded := s.light.discarded.succ } }

/-- LUX_SAMPLE (R103). -/
def execLuxSample (lux : Option Nat) (s : State) : Host.Outcome State Fault Refusal :=
  .next
    (if !takesFields s then s
     else
       match validLux lux with
       | some v => endEvent s (luxArrives v s)
       | none => luxDiscarded s)

/-- The end of the lux hold: Lu none, the fault raised, the targets without correction (R102, R104). -/
def luxLapses (s : State) : State :=
  formTargets { s with light := { s.light with lux := loseLux s.light.lux },
                       faults := { s.faults with lux := true } }

/-- LUX_HOLD_EXPIRY (R102): 10 s without a valid sample. -/
def execLuxHoldExpiry (s : State) : Host.Outcome State Fault Refusal :=
  .next (if powered s && ranOut s.light.lux.hold 10000 (nowOf s) then endEvent s (luxLapses s) else s)

/-- A zone's fade has reached its length (R105). -/
def fadeDone (now : Stamp) (z : Zone) : Bool :=
  match z.fade with
  | none => false
  | some f => decide (f.len ≤ elapsed f.since now)

/-- FADE_END (R105): the level equals the target. -/
def execFadeEnd (zone : Nat) (s : State) : Host.Outcome State Fault Refusal :=
  .next
    (if powered s && ((nth1 s.light.zones zone).map (fadeDone (nowOf s))).getD false then
      { s with light := { s.light with zones := update1 s.light.zones zone (fun z => setZone z.target z) } }
     else s)

/-! ### PANEL -/

/-- A PANEL SCENE (R99): the panel hold begins afresh; at a follower it becomes the pending request to the lead (R146, R150). -/
def panelSceneTaken (n : Nat) (s : State) : State :=
  match followRecord s with
  | some f =>
    { s with join := { s.join with follower := some { f with request := nextSeq f.request, requestScene := n } } }
  | none => settle (beginSceneHold n s)

/-- A PANEL LEVEL (R100). -/
def panelLevelTaken (r : PanelRequest) (a : LevelAddress) (s : State) : State :=
  settle (setOverrides (beginLevelHold s) r (addressed s.cfg.zones a))

/-- The motor code that names every motor (R193). -/
def allMotors : Nat := 0xFF

/-- A PANEL BLIND (R125). -/
def panelBlindTaken (motor position : Nat) (s : State) : State :=
  if motor = allMotors then
    formBlinds { s with blind := { s.blind with motors := s.blind.motors.map (setHold (nowOf s) position) } }
  else if 1 ≤ motor ∧ motor ≤ s.blind.motors.length then
    formBlinds { s with blind := { s.blind with
                   motors := update1 s.blind.motors motor (setHold (nowOf s) position) } }
  else countUnusable s

/-- A PANEL RELEASE (R101, R126). -/
def panelReleaseTaken (s : State) : State := settle (endBlindHolds (endLightHold s))

/-- A PANEL by its subtype (R98). -/
def panelTaken (r : PanelRequest) (s : State) : State :=
  match r with
  | .scene n => panelSceneTaken n s
  | .levelAbs a _ => panelLevelTaken r a s
  | .levelStep a _ => panelLevelTaken r a s
  | .blind m p => panelBlindTaken m p s
  | .release => panelReleaseTaken s

/-- The Light Unit takes a PANEL (R98). -/
def takePanel (h : RxHeader) (payload : List Byte) (s : State) : State :=
  if toOwnStation s h || toAll h then
    match rdPanel s.cfg.zones payload with
    | none => countUnusable s
    | some r => panelTaken r s
  else s

/-- PANEL_SCENE (R99). -/
def execPanelScene (h : RxHeader) (rest : List Byte) (s : State) : Host.Outcome State Fault Refusal :=
  .next (telegramEvent kPanel h (0x00#8 :: rest) (takePanel h (0x00#8 :: rest)) s)

/-- PANEL_LEVEL (R100). -/
def execPanelLevel (h : RxHeader) (rest : List Byte) (s : State) : Host.Outcome State Fault Refusal :=
  .next (telegramEvent kPanel h (0x01#8 :: rest) (takePanel h (0x01#8 :: rest)) s)

/-- PANEL_BLIND (R125). -/
def execPanelBlind (h : RxHeader) (rest : List Byte) (s : State) : Host.Outcome State Fault Refusal :=
  .next (telegramEvent kPanel h (0x02#8 :: rest) (takePanel h (0x02#8 :: rest)) s)

/-- PANEL_RELEASE (R101). -/
def execPanelRelease (h : RxHeader) (rest : List Byte) (s : State) : Host.Outcome State Fault Refusal :=
  .next (telegramEvent kPanel h (0x03#8 :: rest) (takePanel h (0x03#8 :: rest)) s)

end Sys2Proof.Machine
end

