-- ==== Sys2Proof/Machine/PresenceCommands.lean ====
section
/-! DEFINITION. The commands of the Presence Unit: beams and doors (R45 to R48), motion (R49), CO2 (R50, R51), and the two occupancy
timers (R54 to R56). -/

namespace Sys2Proof.Machine

/-! ### Doors -/

/-- The door decoder takes a break of one of its beams: what it counts, and the pass it may produce (R46, R52). -/
def doorTakesBreak (door : Nat) (beam : Beam) (s : State) : State :=
  match nth1 s.presence.doors door with
  | none => s
  | some d =>
    let now := nowOf s
    let r := decodeBreak now beam d.decoder
    let p := { s.presence with
      doors := update1 s.presence.doors door (doorBreak now beam)
      halfPasses := if r.2.1 then s.presence.halfPasses.succ else s.presence.halfPasses }
    match r.2.2 with
    | none => { s with presence := p }
    | some inward => arriveEntry (.pass inward door now) { s with presence := p }

/-- A beam line changes from CLEAR to BROKEN (R45); where field events are not taken the level alone changes. -/
def beamBreaks (door : Nat) (beam : Beam) (s : State) : State :=
  if !isDoor door || beamLevel s.pins door beam then s
  else
    let s' := { s with pins := setBeam s.pins door beam true }
    if takesFields s then endEvent s (doorTakesBreak door beam s') else s'

/-- BEAM_BREAK (R46). -/
def execBeamBreak (door : Nat) (beam : Beam) (s : State) : Host.Outcome State Fault Refusal :=
  .next (beamBreaks door beam s)

/-- Both beams of a door are CLEAR. -/
def bothClear (p : Pins) (door : Nat) : Bool := !beamLevel p door .outer && !beamLevel p door .inner

/-- A beam line changes from BROKEN to CLEAR (R45, R47, R48). -/
def beamClears (door : Nat) (beam : Beam) (s : State) : State :=
  if !isDoor door || !beamLevel s.pins door beam then s
  else
    let p := setBeam s.pins door beam false
    if takesFields s then
      { s with pins := p
               presence := { s.presence with
                 doors := update1 s.presence.doors door (doorClear (nowOf s) beam (bothClear p door)) } }
    else { s with pins := p }

/-- BEAM_CLEAR (R48). -/
def execBeamClear (door : Nat) (beam : Beam) (s : State) : Host.Outcome State Fault Refusal :=
  .next (beamClears door beam s)

/-- The pass limit of a waiting decoder has run out (R46). -/
def passLimitDue (door : Nat) (s : State) : Bool :=
  match nth1 s.presence.doors door with
  | none => false
  | some d => ranOut (pendingBreak d.decoder) 1500 (nowOf s)

/-- The pass limit expires: a half pass, and READY (R46). -/
def passLimitRunsOut (door : Nat) (s : State) : State :=
  { s with presence := { s.presence with
      doors := update1 s.presence.doors door (fun d => { d with decoder := .ready })
      halfPasses := s.presence.halfPasses.succ } }

/-- PASS_LIMIT_EXPIRY (R46). -/
def execPassLimitExpiry (door : Nat) (s : State) : Host.Outcome State Fault Refusal :=
  .next (if powered s && passLimitDue door s then passLimitRunsOut door s else s)

/-- A beam of a door that is not in FAULT has been BROKEN for 60 s (R47). -/
def doorFaultDue (door : Nat) (beam : Beam) (s : State) : Bool :=
  match nth1 s.presence.doors door with
  | none => false
  | some d => d.decoder != .fault && ranOut (beamTimer d beam) 60000 (nowOf s)

/-- The DOOR fault of a door, raised or cleared (R163). -/
def setDoorFault (door : Nat) (raised : Bool) (f : Faults) : Faults :=
  if door = 1 then { f with door1 := raised } else if door = 2 then { f with door2 := raised } else f

/-- A door enters FAULT (R47): a pending wait is discarded, DOOR(d) is raised, RECOUNT is set. -/
def doorFails (door : Nat) (s : State) : State :=
  let recovery := if bothClear s.pins door then some (nowOf s) else none
  formHeadcount (formOccupancy
    { s with presence := { s.presence with
               doors := update1 s.presence.doors door (fun d => { d with decoder := .fault, recovery := recovery })
               recount := true }
             faults := setDoorFault door true s.faults })

/-- DOOR_FAULT_TIMEOUT (R47). -/
def execDoorFaultTimeout (door : Nat) (beam : Beam) (s : State) : Host.Outcome State Fault Refusal :=
  .next (if powered s && doorFaultDue door beam s then endEvent s (doorFails door s) else s)

/-- Both beams of a door in FAULT have been CLEAR for 10 s (R48). -/
def doorRecoveryDue (door : Nat) (s : State) : Bool :=
  match nth1 s.presence.doors door with
  | none => false
  | some d => d.decoder == .fault && ranOut d.recovery 10000 (nowOf s)

/-- A door recovers (R48): READY with its timers stopped, DOOR(d) cleared, RECOUNT as it was. -/
def doorRecovers (door : Nat) (s : State) : State :=
  formHeadcount (formOccupancy
    { s with presence := { s.presence with
               doors := update1 s.presence.doors door (fun _ =>
                 { decoder := .ready, outerTimer := none, innerTimer := none, recovery := none }) }
             faults := setDoorFault door false s.faults })

/-- DOOR_RECOVERY (R48). -/
def execDoorRecovery (door : Nat) (s : State) : Host.Outcome State Fault Refusal :=
  .next (if powered s && doorRecoveryDue door s then endEvent s (doorRecovers door s) else s)

/-! ### Motion -/

/-- The zone is configured (R49). -/
def zoneConfigured (zone : Nat) (s : State) : Bool := (nth1 s.presence.zones zone).isSome

/-- MOTION_PULSE (R49): a MOTION entry. -/
def execMotionPulse (zone : Nat) (s : State) : Host.Outcome State Fault Refusal :=
  .next (if takesFields s && zoneConfigured zone s then endEvent s (arriveEntry (.motion zone (nowOf s)) s) else s)

/-- A counting zone's stamp has reached 300 s (R49). -/
def motionAgeDue (zone : Nat) (s : State) : Bool :=
  match nth1 s.presence.zones zone with
  | none => false
  | some z => z.counts && ranOut z.seen 300000 (nowOf s)

/-- The zone stops counting, and the headcount is recomputed (R49, R61). -/
def motionAges (zone : Nat) (s : State) : State :=
  formHeadcount
    { s with presence := { s.presence with
        zones := update1 s.presence.zones zone (fun z => { z with counts := false }) } }

/-- MOTION_AGE_EXPIRY (R49). -/
def execMotionAgeExpiry (zone : Nat) (s : State) : Host.Outcome State Fault Refusal :=
  .next (if powered s && motionAgeDue zone s then endEvent s (motionAges zone s) else s)

/-! ### CO2 -/

/-- The value of a valid CO2 sample (R50). -/
def validCo2 (ppm : Option Nat) : Option Nat :=
  match ppm with
  | some c => if 300 ≤ c ∧ c ≤ 5000 then some c else none
  | none => none

/-- A valid CO2 sample: the hold and the estimate, the fault cleared, C handed to the air, then H (R50, R144). -/
def co2Arrives (c : Nat) (s : State) : State :=
  let s := { s with presence := takeCo2 (nowOf s) s.cfg.cout s.air.applied c s.presence,
                    faults := { s.faults with co2 := false } }
  formHeadcount (settle (formHc s))

/-- A discarded CO2 sample (R50). -/
def co2Discarded (s : State) : State :=
  { s with presence := { s.presence with discardedCo2 := s.presence.discardedCo2.succ } }

/-- CO2_SAMPLE (R50). -/
def execCo2Sample (ppm : Option Nat) (s : State) : Host.Outcome State Fault Refusal :=
  .next
    (if !takesFields s then s
     else
       match validCo2 ppm with
       | some c => endEvent s (co2Arrives c s)
       | none => co2Discarded s)

/-- The end of the CO2 hold: CO2 invalid, the fault raised, then H (R51, R144). -/
def co2Lapses (s : State) : State :=
  let s := { s with presence := loseCo2 s.presence, faults := { s.faults with co2 := true } }
  formHeadcount (settle (formHc s))

/-- CO2_HOLD_EXPIRY (R51). -/
def execCo2HoldExpiry (s : State) : Host.Outcome State Fault Refusal :=
  .next
    (if powered s && ranOut s.presence.co2.hold 60000 (nowOf s) then endEvent s (co2Lapses s) else s)

/-! ### The occupancy timers -/

/-- The vacancy timer runs out: acted on, or kept pending while the queue is held (R54, R56). -/
def vacancyRunsOut (s : State) : State :=
  if s.presence.held then { s with presence := { s.presence with pendingVacancy := true } }
  else formHeadcount (changePresence vacancyExpires s)

/-- VACANCY_TIMER_EXPIRY (R55): the vacancy time Tv is over. -/
def execVacancyTimerExpiry (s : State) : Host.Outcome State Fault Refusal :=
  .next
    (if powered s && ranOut s.presence.vacancy (s.cfg.tv * 60000) (nowOf s) then endEvent s (vacancyRunsOut s) else s)

/-- The VACATING hold runs out: acted on, or kept pending while the queue is held (R54, R56). -/
def vacatingRunsOut (s : State) : State :=
  if s.presence.held then { s with presence := { s.presence with pendingVacating := true } }
  else formHeadcount (changePresence vacatingExpires s)

/-- VACATING_HOLD_EXPIRY (R56): the 120 s are over. -/
def execVacatingHoldExpiry (s : State) : Host.Outcome State Fault Refusal :=
  .next
    (if powered s && ranOut s.presence.vacating 120000 (nowOf s) then endEvent s (vacatingRunsOut s) else s)

end Sys2Proof.Machine
end

