-- ==== Sys2Proof/Machine/QueryCommands.lean ====
section
/-! DEFINITION. The QUERY commands, one for each item of R190. The row fixes the item byte; a page outside the item's range is
answered as R190 says. -/

namespace Sys2Proof.Machine

/-- A QUERY of an item and a page, as a telegram (R190, R193). -/
def queryEvent (h : RxHeader) (item page : Byte) (s : State) : State :=
  telegramEvent kQuery h [item, page] (takeQuery h [item, page]) s

/-- QUERY_STATUS (R190). -/
def execQueryStatus (h : RxHeader) (s : State) : Host.Outcome State Fault Refusal := .next (queryEvent h 0x00#8 0x00#8 s)

/-- QUERY_BOOKINGS (R190). -/
def execQueryBookings (h : RxHeader) (page : Byte) (s : State) : Host.Outcome State Fault Refusal :=
  .next (queryEvent h 0x01#8 page s)

/-- QUERY_PEERS (R190). -/
def execQueryPeers (h : RxHeader) (page : Byte) (s : State) : Host.Outcome State Fault Refusal :=
  .next (queryEvent h 0x02#8 page s)

/-- QUERY_COUNTERS (R190). -/
def execQueryCounters (h : RxHeader) (s : State) : Host.Outcome State Fault Refusal := .next (queryEvent h 0x03#8 0x00#8 s)

/-- QUERY_OUTPUTS (R190). -/
def execQueryOutputs (h : RxHeader) (s : State) : Host.Outcome State Fault Refusal := .next (queryEvent h 0x04#8 0x00#8 s)

/-- QUERY_IDENTITY (R190). -/
def execQueryIdentity (h : RxHeader) (s : State) : Host.Outcome State Fault Refusal := .next (queryEvent h 0x05#8 0x00#8 s)

/-- QUERY_UNKNOWN_ITEM (R190). -/
def execQueryUnknownItem (h : RxHeader) (item page : Byte) (s : State) : Host.Outcome State Fault Refusal :=
  .next (queryEvent h item page s)

end Sys2Proof.Machine
end

