-- ==== Sys2Proof/Machine/SafetyCommands.lean ====
section
/-! DEFINITION. The commands of the Safety and Service Unit: SAFETY (R153 to R155) and SERVICE with its three steps (R157 to
R160). -/

namespace Sys2Proof.Machine

/-- The unit after a SET (R154). -/
def safetyAfterSet (smoke purge evacuate : Bool) (u : Service) : Service :=
  { u with air := if smoke then .smokeHold else if purge then .purge else u.air,
           evacuate := u.evacuate || evacuate }

/-- The unit after a CLEAR (R154). -/
def safetyAfterClear (u : Service) : Service := { u with air := .none, evacuate := false }

/-- The safety mode set takes an outcome; one equal to the set held hands nothing out (R154, R155). -/
def changeSafety (u : Service) (s : State) : State :=
  if u = s.service then s else settle { s with service := u }

/-- A SAFETY whose content passes is one the unit takes by its scope and codes (R153): SET with a mark, or CLEAR. -/
def safetyContent (h : RxHeader) (action marks : Byte) (s : State) : State :=
  if !(toOwnGroup s h || toAll h) then countUnusable s
  else if action.toNat = 1 then changeSafety (safetyAfterClear s.service) s
  else if action.toNat ≠ 0 then countUnusable s
  else if marks.toNat % 8 = 0 then countUnusable s
  else changeSafety (safetyAfterSet (marks.getLsbD 0) (marks.getLsbD 1) (marks.getLsbD 2) s.service) s

/-- A SET carrying both the SMOKE-HOLD and the PURGE mark (R153), whatever its scope and length (assumption log entry 19). -/
def namesBothAir (payload : List Byte) : Bool :=
  match payload with
  | action :: marks :: _ => action.toNat == 0 && marks.getLsbD 0 && marks.getLsbD 1
  | _ => false

/-- The unit takes a SAFETY (R153): a SET naming both air modes is malformed before any other check. -/
def takeSafety (h : RxHeader) (payload : List Byte) (s : State) : State :=
  if namesBothAir payload then countMalformed s
  else
    match payload with
    | [action, marks] => safetyContent h action marks s
    | _ => countUnusable s

/-- SAFETY_SET (R154). -/
def execSafetySet (h : RxHeader) (rest : List Byte) (s : State) : Host.Outcome State Fault Refusal :=
  .next (telegramEvent kSafety h (0x00#8 :: rest) (takeSafety h (0x00#8 :: rest)) s)

/-- SAFETY_CLEAR (R154). -/
def execSafetyClear (h : RxHeader) (rest : List Byte) (s : State) : Host.Outcome State Fault Refusal :=
  .next (telegramEvent kSafety h (0x01#8 :: rest) (takeSafety h (0x01#8 :: rest)) s)

/-- A service refusal is counted (R158, R160). -/
def countRefusal (s : State) : State := { s with service := { s.service with refusals := s.service.refusals.succ } }

/-- The carried mask equals the held one. -/
def maskHeld (f : ServiceFields) (u : Service) : Bool :=
  u.maskAir == f.air && u.maskLight == f.light && u.maskBlind == f.blind

/-- The mask step (R158). -/
def maskStep (f : ServiceFields) (s : State) : State :=
  if !f.maskPresent || maskHeld f s.service then s
  else if s.service.lock then countRefusal s
  else settle { s with service := { s.service with maskAir := f.air, maskLight := f.light, maskBlind := f.blind } }

/-- The lock step (R158). -/
def lockStep (f : ServiceFields) (s : State) : State :=
  { s with service := { s.service with lock := s.service.lock || f.lock } }

/-- The timebase is within 10 s of the last start (R160): it reads less than 10 s and has not rolled over, because the listen-in of
that start still runs. -/
def tooSoon (s : State) : Bool := s.listening && decide (s.clock.sec.toNat < 10)

/-- The restart step (R160). -/
def restartStep (f : ServiceFields) (s : State) : State :=
  if !f.restart then s else if tooSoon s then countRefusal s else serviceRestartNow s

/-- The three steps of a SERVICE that passes, in their order (R157). -/
def serviceTaken (f : ServiceFields) (s : State) : State := restartStep f (lockStep f (maskStep f s))

/-- The unit takes a SERVICE (R157): one of scope FAÇADE or of another length is unusable, whatever else its scope names. -/
def takeService (h : RxHeader) (payload : List Byte) (s : State) : State :=
  if h.scope.toNat = scopeFacade then countUnusable s
  else
    match rdService payload with
    | none => countUnusable s
    | some f => if toOwnStation s h || toOwnGroup s h || toAll h then serviceTaken f s else s

/-- SERVICE_MASK (R158): a SERVICE with the mask-present mark, and whatever else it carries. -/
def execServiceMask (h : RxHeader) (payload : List Byte) (s : State) : Host.Outcome State Fault Refusal :=
  .next (telegramEvent kService h payload (takeService h payload) s)

/-- SERVICE_LOCK (R158): a SERVICE with the LOCK mark, and whatever else it carries. -/
def execServiceLock (h : RxHeader) (payload : List Byte) (s : State) : Host.Outcome State Fault Refusal :=
  .next (telegramEvent kService h payload (takeService h payload) s)

/-- SERVICE_RESTART (R160): a SERVICE with the RESTART mark, and whatever else it carries. -/
def execServiceRestart (h : RxHeader) (payload : List Byte) (s : State) : Host.Outcome State Fault Refusal :=
  .next (telegramEvent kService h payload (takeService h payload) s)

end Sys2Proof.Machine
end

