-- ==== Sys2Proof/Machine/StartCommands.lean ====
section
/-! DEFINITION. The commands of the power supply, the reset pin and the listen-in (R15, R180, R184). A command that cannot arise
in the state it meets leaves the state as it is (assumption log entry 3). -/

namespace Sys2Proof.Machine

/-- Main power returns (R180); while nRESET is asserted the part is held until its release. -/
def powerReturns (w : StartWorld) (s : State) : State :=
  match s.phase with
  | .off => if s.pins.resetAsserted then { s with phase := .held } else coldStart w s
  | _ => s

/-- POWER_UP (R180). -/
def execPowerUp (w : StartWorld) (s : State) : Host.Outcome State Fault Refusal := .next (powerReturns w s)

/-- Main power falls away (R15, R179, R187). -/
def powerFails (s : State) : State :=
  match s.phase with
  | .off => s
  | .held => { recordLoss s with phase := .off }
  | _ => { holdPart s with phase := .off }

/-- POWER_LOSS (R15). -/
def execPowerLoss (s : State) : Host.Outcome State Fault Refusal := .next (powerFails s)

/-- The level of nRESET is noted. -/
def setResetPin (asserted : Bool) (s : State) : State := { s with pins := { s.pins with resetAsserted := asserted } }

/-- nRESET is asserted (R15, R180): at once, or deferred while step 5 runs. -/
def resetAsserted (s : State) : State :=
  match s.phase with
  | .compacting records rest _ => setResetPin true { s with phase := .compacting records rest true }
  | .running => setResetPin true (holdPart s)
  | _ => setResetPin true s

/-- PIN_RESET_ASSERT (R15). -/
def execPinResetAssert (s : State) : Host.Outcome State Fault Refusal := .next (resetAsserted s)

/-- nRESET is released (R180): the start sequence of a pin reset. Where the assertion still waits for a compaction, the
compaction completes and the assertion takes effect first. -/
def resetReleased (w : StartWorld) (s : State) : State :=
  match s.phase with
  | .held => if s.pins.resetAsserted then coldStart w (setResetPin false s) else s
  | .compacting _ _ true => coldStart w (setResetPin false (holdPart (completeCompaction s)))
  | _ => setResetPin false s

/-- PIN_RESET_RELEASE (R180). -/
def execPinResetRelease (w : StartWorld) (s : State) : Host.Outcome State Fault Refusal := .next (resetReleased w s)

/-- The deferred assertion takes effect once the compaction has completed (R180, R15). -/
def deferredReset (s : State) : State :=
  match s.phase with
  | .compacting _ [] true => holdPart s
  | _ => s

/-- DEFERRED_RESET_EFFECT (R180). -/
def execDeferredResetEffect (s : State) : Host.Outcome State Fault Refusal := .next (deferredReset s)

/-- The supply of the backup domain falls below its holding level while main power is absent (R15). -/
def backupFails (s : State) : State :=
  match s.phase with
  | .off => { s with backup := { s.backup with valid := false } }
  | _ => s

/-- BACKUP_SUPPLY_LOSS (R15). -/
def execBackupSupplyLoss (s : State) : Host.Outcome State Fault Refusal := .next (backupFails s)

/-- The listen-in has run its 20 s in a started part (R184). -/
def listenDue (s : State) : Bool := started s && s.listening && decide (20 ≤ s.clock.sec.toNat)

/-- The end of the listen-in at the Air Share Unit: CAPACITY-DEFAULT where no CAPACITY was heard (R79), the record, the first
DEMAND and the grant. -/
def endListenAir (s : State) : State :=
  airLoop 33
    { s with listening := false,
             faults := { s.faults with capacityDefault := s.faults.capacityDefault || s.air.capacity.isNone } }

/-- The end of the listen-in, handed to the blocks in the order of R184. -/
def endListen (s : State) : State :=
  let s := endListenAir s
  let s := formBlinds (selectScene (settleHoldScene s))
  let s := updateHold (tryClaim s)
  deferIfWaiting (overRecordsAt onListenEnd s)

/-- LISTEN_IN_END (R184). -/
def execListenInEnd (s : State) : Host.Outcome State Fault Refusal :=
  .next (if listenDue s then endEvent s (endListen s) else s)

end Sys2Proof.Machine
end

