-- ==== Sys2Proof/Machine/BusCommands.lean ====
section
/-! DEFINITION. The commands of the Bus Interface: frames as characters (R167 to R172), the idle event, the deferral (R175, R176), and
the outcomes of an attempt (R177). -/

namespace Sys2Proof.Machine

/-- A telegram that passed the filter goes to the block of its kind (section 9.3); a kind that no block takes is set aside
(R171). -/
def handTelegram (t : Telegram) (s : State) : State :=
  if t.kind = kTime then takeTime t.payload s
  else if t.kind = kBookingPut then takePut t.hdr t.payload s
  else if t.kind = kBookingDrop then takeDrop t.hdr t.payload s
  else if t.kind = kDemand then takeDemand t.hdr t.payload s
  else if t.kind = kCapacity then takeCapacity t.hdr t.payload s
  else if t.kind = kSun then takeSunTelegram t.hdr t.payload s
  else if t.kind = kWind then takeWindTelegram t.hdr t.payload s
  else if t.kind = kPanel then takePanel t.hdr t.payload s
  else if t.kind = kJoinClaim then takeJoinClaim t.hdr t.payload s
  else if t.kind = kJoinAccept then takeJoinAccept t.hdr t.payload s
  else if t.kind = kJoinRefuse then takeJoinRefuse t.hdr t.payload s
  else if t.kind = kJoinRelease then takeJoinRelease t.hdr t.payload s
  else if t.kind = kJoinKeep then takeJoinKeep t.hdr t.payload s
  else if t.kind = kJoinState then takeJoinState t.hdr t.payload s
  else if t.kind = kJoinOrder then takeJoinOrder t.hdr t.payload s
  else if t.kind = kSafety then takeSafety t.hdr t.payload s
  else if t.kind = kService then takeService t.hdr t.payload s
  else if t.kind = kQuery then takeQuery t.hdr t.payload s
  else s

/-- The idle event that ends a frame of characters (R167 to R172). -/
def charsEvent (frame : List RxChar) (s : State) : State :=
  match parseFrame frame with
  | none => frameEvent (fun s => s) none s
  | some t => frameEvent (handTelegram t) (some t) s

/-- UNHANDLED_TELEGRAM (R169): the frame goes through the whole filter. -/
def execUnhandledTelegram (frame : List RxChar) (s : State) : Host.Outcome State Fault Refusal :=
  .next (charsEvent frame s)

/-- An idle event that ends no telegram of another station (R167): there is none while the line is idle already. -/
def emptyIdle (s : State) : State :=
  if !powered s || s.bus.lineIdle || s.bus.sending.isSome then s
  else deferIfWaiting { s with bus := lineQuiet s.bus }

/-- IDLE_EVENT (R167). -/
def execIdleEvent (frame : Option (List RxChar)) (s : State) : Host.Outcome State Fault Refusal :=
  .next
    (match frame with
      | none => emptyIdle s
      | some f => charsEvent f s)

/-- The running deferral has run out on an idle line (R175). -/
def deferralDue (s : State) : Option TxClass :=
  if !powered s || !s.bus.lineIdle || !maySpeak s || s.bus.sending.isSome then none
  else
    match s.bus.deferral with
    | none => none
    | some d => if d.len ≤ d.elapsed then some d.cls else none

/-- DEFERRAL_EXPIRY (R175): the attempt begins. -/
def execDeferralExpiry (s : State) : Host.Outcome State Fault Refusal :=
  .next
    (match deferralDue s with
      | none => s
      | some c => { s with bus := beginAttempt s.station c s.bus })

/-- The yield of a class becomes owed (R176). -/
def oweYield (c : TxClass) (b : Bus) : Bus :=
  match c with
  | .control => { b with yieldControl := true }
  | .routine => { b with yieldRoutine := true }

/-- The telegram is sent (R177): it leaves its queue, the count steps, the yield becomes owed; BUSDE goes off. -/
def sendDone (c : TxClass) (b : Bus) : Bus :=
  { oweYield c (setQueue b c ((queueOf b c).drop 1)) with sending := none, frame := [], quiet := 0, sent := b.sent.succ }

/-- TRANSMIT_COMPLETE (R177). -/
def execTransmitComplete (s : State) : Host.Outcome State Fault Refusal :=
  .next
    (match s.bus.sending with
      | none => s
      | some c => if powered s then { s with bus := sendDone c s.bus } else s)

/-- The first waiting entry of the same key taken out of a queue: its telegram, and the rest (R177). -/
def takeSame (t : OutTelegram) : List QueueEntry → Option (OutTelegram × List QueueEntry)
  | [] => none
  | e :: rest =>
    if sameKey e.telegram t then some (e.telegram, rest)
    else (takeSame t rest).map (fun r => (r.1, e :: r.2))

/-- The queue after its head has collided (R177): given up at the 8th failed attempt; else kept with a drawn backoff, with the
content of a waiting entry of its key. -/
def collidedQueue (backoff : Nat) (q : List QueueEntry) : List QueueEntry :=
  match q with
  | [] => []
  | e :: rest =>
    if 8 ≤ e.attempts + 1 then rest
    else
      match takeSame e.telegram rest with
      | some (t, r) => { telegram := t, attempts := e.attempts + 1, backoff := backoff } :: r
      | none => { e with attempts := e.attempts + 1, backoff := backoff } :: rest

/-- The head of a queue has failed seven times already. -/
def lastAttempt (q : List QueueEntry) : Bool :=
  match q with
  | [] => false
  | e :: _ => decide (8 ≤ e.attempts + 1)

/-- The attempt is stopped by its read-back (R177). The generator draws only where a backoff is owed. -/
def collide (c : TxClass) (b : Bus) : Bus :=
  let q := queueOf b c
  let r := if lastAttempt q then b.lfsr else lfsrStep b.lfsr
  { setQueue b c (collidedQueue (backoffOf r) q) with
    sending := none, frame := [], quiet := 0, collisions := b.collisions.succ, lfsr := r,
    dropped := if lastAttempt q then b.dropped.succ else b.dropped }

/-- COLLISION (R177). -/
def execCollision (s : State) : Host.Outcome State Fault Refusal :=
  .next
    (match s.bus.sending with
      | none => s
      | some c => if powered s then { s with bus := collide c s.bus } else s)

/-- START_BIT (R175): a start bit of another station; while the part itself sends, its read-back judges the line (R177). -/
def execStartBit (s : State) : Host.Outcome State Fault Refusal :=
  .next (if powered s && s.bus.sending.isNone then { s with bus := hearStart s.bus } else s)

end Sys2Proof.Machine
end

