-- ==== Sys2Proof/Machine/Tick.lean ====
section
/-! DEFINITION. What passes with time where no command waits: one bus slot, 25/96 ms (R167), on the station timebase, the calendar's
seconds phase and the line; and the commands that time alone brings, which it puts in the queue (assumption log entry 2). -/

namespace Sys2Proof.Machine

/-- One slot on the calendar's seconds phase, and on the timebase of a part that runs (R1, R6, R15). -/
def tickClocks (s : State) : State :=
  { s with clock := if powered s then clockTick s.clock else s.clock
           cal := if s.cal.running then { s.cal with phase := s.cal.phase + 1 } else s.cal }

/-- One slot on the line: a running deferral and the quiet count (R167, R175). -/
def tickLine (b : Bus) : Bus :=
  { b with deferral := b.deferral.map (fun d => { d with elapsed := d.elapsed + 1 })
           quiet := if b.lineIdle || b.rxInProgress || b.sending.isSome then b.quiet else b.quiet + 1 }

/-- The stops of the motors whose 500 ms are over (R2, R116). -/
def tickBlind (now : Stamp) (b : Blind) : Blind := { b with motors := b.motors.map (forgetStop now) }

/-- Three quiet slots have passed on a line that is not idle (R167). -/
def quietOver (b : Bus) : Bool := !b.lineIdle && !b.rxInProgress && b.sending.isNone && decide (3 ≤ b.quiet)

/-- A command where a condition holds. -/
def dueIf (c : Bool) (i : Instr) : List Instr := if c then [i] else []

/-- The commands due over a numbered list. -/
def dueOver {α : Type} (l : List α) (f : Nat → α → List Instr) : List Instr :=
  ((numbered 1 l).map (fun x => f x.1 x.2)).flatten

/-- The timers of a record (R31, R34). -/
def dueRecord (now : Stamp) (w : Nat) (b : Booking) : List Instr :=
  (match b.window with
    | .running t => dueIf (reaches (some t) (w * 60000) now) (.noShowWindowExpiry b.id)
    | _ => []) ++ dueIf (reaches b.runout 1800000 now) (.runoutCapExpiry b.id)

/-- The timers of a door (R46 to R48). -/
def dueDoor (now : Stamp) (n : Nat) (d : Door) : List Instr :=
  dueIf (reaches (pendingBreak d.decoder) 1500 now) (.passLimitExpiry n)
    ++ dueIf (reaches d.outerTimer 60000 now) (.doorFaultTimeout n .outer)
    ++ dueIf (reaches d.innerTimer 60000 now) (.doorFaultTimeout n .inner)
    ++ dueIf (reaches d.recovery 10000 now) (.doorRecovery n)

/-- The timers of the Presence Unit (R46 to R56). -/
def duePresence (now : Stamp) (tv : Nat) (p : Presence) : List Instr :=
  dueOver p.doors (dueDoor now)
    ++ dueOver p.zones (fun n z => dueIf (z.counts && reaches z.seen 300000 now) (.motionAgeExpiry n))
    ++ dueIf (reaches p.co2.hold 60000 now) .co2HoldExpiry
    ++ dueIf (reaches p.vacancy (tv * 60000) now) .vacancyTimerExpiry
    ++ dueIf (reaches p.vacating 120000 now) .vacatingHoldExpiry

/-- The ages and timers of the Air Share Unit (R72, R75, R79, R88). -/
def dueAir (now : Stamp) (a : Air) : List Instr :=
  (a.peers.map (fun p =>
      dueIf (reaches (some p.since) 90000 now) (.peerStale p.station)
        ++ dueIf (reaches (some p.since) 300000 now) (.peerRemove p.station))).flatten
    ++ dueIf (reaches (a.capacity.map (fun c => c.since)) 120000 now) .capacityAgeExpiry
    ++ dueIf (reaches a.refresh 30000 now) .demandRefreshExpiry
    ++ dueIf (reaches a.rewrite 30000 now) .damperRefreshExpiry

/-- The timers of the Light Unit (R102, R105). -/
def dueLight (now : Stamp) (l : Light) : List Instr :=
  dueIf (reaches l.lux.hold 10000 now) .luxHoldExpiry ++ dueOver l.zones (fun n z => dueIf (fadeDone now z) (.fadeEnd n))

/-- The end of a motor's run, by its state (R115, R118, R123). -/
def dueRun (now : Stamp) (n : Nat) (m : Motor) : List Instr :=
  if !runDone now m then []
  else
    match m.state with
    | .referencing => [.referencingComplete n]
    | .locked => [.lockedRunComplete n]
    | _ => [.runComplete n]

/-- The timers of the Blind Unit (R115 to R126). -/
def dueBlind (now : Stamp) (b : Blind) : List Instr :=
  dueOver b.motors (fun n m =>
      dueRun now n m ++ dueIf (pauseDone now m) (.pauseEnd n)
        ++ dueIf (reaches (m.hold.map (fun h => h.since)) 1800000 now) (.blindHoldExpiry n))
    ++ (b.facades.map (fun f =>
        dueIf (reaches f.sunSince 900000 now) (.sunAgeExpiry f.number)
          ++ dueIf (reaches (holdingSince f.wind) 600000 now) (.windHoldingExpiry f.number))).flatten

/-- The start of a timed retry. -/
def retrySince (r : Retry) : Option Stamp :=
  match r with
  | .timed t => some t
  | _ => none

/-- The timers of the Join Unit (R130 to R141). -/
def dueJoin (now : Stamp) (j : Join) : List Instr :=
  dueOver j.partitions (fun n x =>
      dueIf (reaches x.debounce 5000 now) (.debounceExpiry n)
        ++ dueIf (reaches x.claimTimer 2000 now) (.claimTimerExpiry n)
        ++ dueIf (reaches (retrySince x.retry) 60000 now) (.retryTimerExpiry n))
    ++ dueIf (reaches (j.relation.map (fun r => r.keep)) 30000 now) .keepTimerExpiry
    ++ dueIf (reaches (j.relation.map (fun r => r.orphan)) 120000 now) .orphanTimerExpiry

/-- The commands that the timebase brings at a new millisecond, in the order of the chapters. -/
def dueAtMillisecond (s : State) : List Instr :=
  let now := nowOf s
  dueIf (listenDue s) .listenInEnd
    ++ (s.tt.records.map (dueRecord now s.cfg.noShowW)).flatten
    ++ duePresence now s.cfg.tv s.presence ++ dueAir now s.air ++ dueLight now s.light ++ dueBlind now s.blind
    ++ dueJoin now s.join ++ dueIf (reaches s.journal.since 20 now) .slotWriteFail

/-- A deferred reset waits for its effect, the compaction being over (R180). -/
def deferredWaits (s : State) : Bool :=
  match s.phase with
  | .compacting _ [] true => true
  | _ => false

/-- The commands that the passing of one slot brings. -/
def dueCommands (s : State) : List Instr :=
  dueIf (advanceDue s.cal) .calendarAdvance
    ++ (if !powered s then []
        else
          dueIf (quietOver s.bus) (.idleEvent none) ++ dueIf (deferralDue s).isSome .deferralExpiry
            ++ dueIf (deferredWaits s) .deferredResetEffect
            ++ (if s.clock.sub < 25 then dueAtMillisecond s else []))

/-- One slot passes with no command waiting. -/
def tick (s : State) : State :=
  let t := tickClocks s
  let t := if powered s then { t with bus := tickLine t.bus, blind := tickBlind (nowOf t) t.blind } else t
  { t with pending := t.pending ++ dueCommands t }

end Sys2Proof.Machine
end

