-- ==== Sys2Proof/Machine/Dispatch.lean ====
section
/-! DEFINITION. The meaning of every command: one arm for each row of spec/opcode_table.json. -/

namespace Sys2Proof.Machine

def exec (i : Instr) (s : State) : Host.Outcome State Fault Refusal :=
  match i with
  | .powerUp w => Sys2Proof.Machine.execPowerUp w s
  | .powerLoss => Sys2Proof.Machine.execPowerLoss s
  | .pinResetAssert => Sys2Proof.Machine.execPinResetAssert s
  | .pinResetRelease w => Sys2Proof.Machine.execPinResetRelease w s
  | .deferredResetEffect => Sys2Proof.Machine.execDeferredResetEffect s
  | .backupSupplyLoss => Sys2Proof.Machine.execBackupSupplyLoss s
  | .listenInEnd => Sys2Proof.Machine.execListenInEnd s
  | .calendarAdvance => Sys2Proof.Machine.execCalendarAdvance s
  | .time h payload => Sys2Proof.Machine.execTime h payload s
  | .bookingPut h payload => Sys2Proof.Machine.execBookingPut h payload s
  | .bookingDrop h payload => Sys2Proof.Machine.execBookingDrop h payload s
  | .noShowWindowExpiry id => Sys2Proof.Machine.execNoShowWindowExpiry id s
  | .runoutCapExpiry id => Sys2Proof.Machine.execRunoutCapExpiry id s
  | .slotWriteComplete => Sys2Proof.Machine.execSlotWriteComplete s
  | .slotWriteFail => Sys2Proof.Machine.execSlotWriteFail s
  | .beamBreak door beam => Sys2Proof.Machine.execBeamBreak door beam s
  | .beamClear door beam => Sys2Proof.Machine.execBeamClear door beam s
  | .passLimitExpiry door => Sys2Proof.Machine.execPassLimitExpiry door s
  | .doorFaultTimeout door beam => Sys2Proof.Machine.execDoorFaultTimeout door beam s
  | .doorRecovery door => Sys2Proof.Machine.execDoorRecovery door s
  | .motionPulse zone => Sys2Proof.Machine.execMotionPulse zone s
  | .motionAgeExpiry zone => Sys2Proof.Machine.execMotionAgeExpiry zone s
  | .co2Sample ppm => Sys2Proof.Machine.execCo2Sample ppm s
  | .co2HoldExpiry => Sys2Proof.Machine.execCo2HoldExpiry s
  | .vacancyTimerExpiry => Sys2Proof.Machine.execVacancyTimerExpiry s
  | .vacatingHoldExpiry => Sys2Proof.Machine.execVacatingHoldExpiry s
  | .demand h payload => Sys2Proof.Machine.execDemand h payload s
  | .capacity h payload => Sys2Proof.Machine.execCapacity h payload s
  | .peerStale station => Sys2Proof.Machine.execPeerStale station s
  | .peerRemove station => Sys2Proof.Machine.execPeerRemove station s
  | .capacityAgeExpiry => Sys2Proof.Machine.execCapacityAgeExpiry s
  | .demandRefreshExpiry => Sys2Proof.Machine.execDemandRefreshExpiry s
  | .damperRefreshExpiry => Sys2Proof.Machine.execDamperRefreshExpiry s
  | .luxSample lux => Sys2Proof.Machine.execLuxSample lux s
  | .luxHoldExpiry => Sys2Proof.Machine.execLuxHoldExpiry s
  | .fadeEnd zone => Sys2Proof.Machine.execFadeEnd zone s
  | .panelScene h rest => Sys2Proof.Machine.execPanelScene h rest s
  | .panelLevel h rest => Sys2Proof.Machine.execPanelLevel h rest s
  | .panelBlind h rest => Sys2Proof.Machine.execPanelBlind h rest s
  | .panelRelease h rest => Sys2Proof.Machine.execPanelRelease h rest s
  | .blindHoldExpiry motor => Sys2Proof.Machine.execBlindHoldExpiry motor s
  | .runComplete motor => Sys2Proof.Machine.execRunComplete motor s
  | .referencingComplete motor => Sys2Proof.Machine.execReferencingComplete motor s
  | .lockedRunComplete motor => Sys2Proof.Machine.execLockedRunComplete motor s
  | .pauseEnd motor => Sys2Proof.Machine.execPauseEnd motor s
  | .sun h payload => Sys2Proof.Machine.execSun h payload s
  | .sunAgeExpiry facade => Sys2Proof.Machine.execSunAgeExpiry facade s
  | .wind h payload => Sys2Proof.Machine.execWind h payload s
  | .windHoldingExpiry facade => Sys2Proof.Machine.execWindHoldingExpiry facade s
  | .partitionContactChange partition high => Sys2Proof.Machine.execPartitionContactChange partition high s
  | .debounceExpiry partition => Sys2Proof.Machine.execDebounceExpiry partition s
  | .claimTimerExpiry partition => Sys2Proof.Machine.execClaimTimerExpiry partition s
  | .retryTimerExpiry partition => Sys2Proof.Machine.execRetryTimerExpiry partition s
  | .joinClaim h payload => Sys2Proof.Machine.execJoinClaim h payload s
  | .joinAccept h payload => Sys2Proof.Machine.execJoinAccept h payload s
  | .joinRefuse h payload => Sys2Proof.Machine.execJoinRefuse h payload s
  | .joinRelease h payload => Sys2Proof.Machine.execJoinRelease h payload s
  | .joinKeep h payload => Sys2Proof.Machine.execJoinKeep h payload s
  | .joinState h payload => Sys2Proof.Machine.execJoinState h payload s
  | .joinOrder h payload => Sys2Proof.Machine.execJoinOrder h payload s
  | .keepTimerExpiry => Sys2Proof.Machine.execKeepTimerExpiry s
  | .orphanTimerExpiry => Sys2Proof.Machine.execOrphanTimerExpiry s
  | .safetySet h rest => Sys2Proof.Machine.execSafetySet h rest s
  | .safetyClear h rest => Sys2Proof.Machine.execSafetyClear h rest s
  | .serviceMask h payload => Sys2Proof.Machine.execServiceMask h payload s
  | .serviceLock h payload => Sys2Proof.Machine.execServiceLock h payload s
  | .serviceRestart h payload => Sys2Proof.Machine.execServiceRestart h payload s
  | .queryStatus h => Sys2Proof.Machine.execQueryStatus h s
  | .queryBookings h page => Sys2Proof.Machine.execQueryBookings h page s
  | .queryPeers h page => Sys2Proof.Machine.execQueryPeers h page s
  | .queryCounters h => Sys2Proof.Machine.execQueryCounters h s
  | .queryOutputs h => Sys2Proof.Machine.execQueryOutputs h s
  | .queryIdentity h => Sys2Proof.Machine.execQueryIdentity h s
  | .queryUnknownItem h item page => Sys2Proof.Machine.execQueryUnknownItem h item page s
  | .unhandledTelegram frame => Sys2Proof.Machine.execUnhandledTelegram frame s
  | .idleEvent frame => Sys2Proof.Machine.execIdleEvent frame s
  | .deferralExpiry => Sys2Proof.Machine.execDeferralExpiry s
  | .transmitComplete => Sys2Proof.Machine.execTransmitComplete s
  | .collision => Sys2Proof.Machine.execCollision s
  | .startBit => Sys2Proof.Machine.execStartBit s

end Sys2Proof.Machine
end

