-- ==== Sys2Proof/Safety.lean ====
section
/-! DEFINITION. What claims are stated in: which parts of the state an event leaves alone, when a telegram reaches its block, and the
invariants that every step keeps. -/

namespace Sys2Proof.Machine

/-! ### What an event leaves alone -/

/-- The bus after telegrams have been handed to it, and deferrals begun, and nothing else: a chain of `enqueue` and
`startDeferral` (R173 to R175). -/
inductive Sends (station : Nat) (listening : Bool) (a : Bus) : Bus → Prop where
  | refl : Sends station listening a a
  | enqueue {b : Bus} (t : OutTelegram) : Sends station listening a b →
      Sends station listening a (enqueue station listening t b)
  | defer {b : Bus} : Sends station listening a b → Sends station listening a (startDeferral station listening b)

/-- The parts of the state that no meeting event changes: `t` agrees with `s` on everything but occupancy and headcount, the booking
list, the demand and its grant, scene and zones, motors, joins, the transmit side of the bus and the STATUS change sequence. -/
structure KeepsFields (s t : State) : Prop where
  phase : t.phase = s.phase
  pins : t.pins = s.pins
  clock : t.clock = s.clock
  station : t.station = s.station
  listening : t.listening = s.listening
  cfg : t.cfg = s.cfg
  formatRead : t.formatRead = s.formatRead
  cal : t.cal = s.cal
  backup : t.backup = s.backup
  captured : t.tt.captured = s.tt.captured
  doors : t.presence.doors = s.presence.doors
  co2 : t.presence.co2 = s.presence.co2
  halfPasses : t.presence.halfPasses = s.presence.halfPasses
  discardedCo2 : t.presence.discardedCo2 = s.presence.discardedCo2
  queueLosses : t.presence.queueLosses = s.presence.queueLosses
  peers : t.air.peers = s.air.peers
  capacity : t.air.capacity = s.air.capacity
  overflows : t.air.overflows = s.air.overflows
  lux : t.light.lux = s.light.lux
  discardedLux : t.light.discarded = s.light.discarded
  facades : t.blind.facades = s.blind.facades
  service : t.service = s.service
  faults : t.faults = s.faults
  eeprom : t.eeprom = s.eeprom
  journal : t.journal = s.journal
  imageWait : t.imageWait = s.imageWait
  freeUsed : t.freeUsed = s.freeUsed
  pending : t.pending = s.pending

/-- How a meeting event moves the rest: the bus is handed telegrams, no booking appears under a new id, and the counts stay within
what they were or their cap. -/
structure Within (s t : State) : Prop where
  bus : Sends s.station s.listening s.bus t.bus
  records : t.tt.records.length ≤ s.tt.records.length
  ids : ∀ b ∈ t.tt.records, ∃ a ∈ s.tt.records, a.id = b.id
  queue : t.presence.queue.length ≤ s.presence.queue.length
  count : t.presence.n ≤ 300 ∨ t.presence.n ≤ s.presence.n
  announced : s.air.last.isSome = true → t.air.last.isSome = true
  groupCount : ∀ g, t.join.group = some g → g.gn ≤ 300 ∨ ∃ a, s.join.group = some a ∧ g.gn ≤ a.gn

/-- What a meeting event leaves alone, and how it moves the rest. -/
structure KeepsRest (s t : State) : Prop extends KeepsFields s t, Within s t

/-- What of the group record a JOIN-ACCEPT and the JOIN-STATEs alone set (R138, R143, R147): the two rooms' sums, and the follower's room
as it last reported it. -/
structure GroupReport where
  area : Nat
  volume : Nat
  fset : Nat
  fmin : Nat
  fmax : Nat
  followerFmax : Nat
  occupancy : Occupancy
  floor : Nat
  co2 : Option Nat
  reliable : Bool
  baseIn : Count16
  baseOut : Count16
  deriving DecidableEq, Repr

/-- The report a group record holds. -/
def reportOf (g : Group) : GroupReport :=
  { area := g.area, volume := g.volume, fset := g.fset, fmin := g.fmin, fmax := g.fmax, followerFmax := g.followerFmax,
    occupancy := g.fOccupancy, floor := g.fFloor, co2 := g.fCo2, reliable := g.fReliable, baseIn := g.baseIn,
    baseOut := g.baseOut }

/-- What an event that is none of the Join Unit's leaves alone there: the partitions, what the partner has said, and what has been
answered. -/
structure KeepsJoin (s t : State) : Prop where
  partitions : t.join.partitions = s.join.partitions
  claimSeq : t.join.claimSeq = s.join.claimSeq
  report : t.join.group.map reportOf = s.join.group.map reportOf
  partnerSeq : t.join.relation.map (fun r => r.partnerSeq) = s.join.relation.map (fun r => r.partnerSeq)
  orphan : t.join.relation.map (fun r => r.orphan) = s.join.relation.map (fun r => r.orphan)
  answered : t.join.relation.map (fun r => r.claimSeq) = s.join.relation.map (fun r => r.claimSeq)
  order : t.join.follower.map (fun f => f.order) = s.join.follower.map (fun f => f.order)
  share : t.join.follower.map (fun f => f.share) = s.join.follower.map (fun f => f.share)
  request : t.join.follower.map (fun f => f.request) = s.join.follower.map (fun f => f.request)

/-- What handing on a change to the other blocks leaves alone besides: the Presence Unit, and of the Join Unit what `KeepsJoin` names. -/
structure HandedOn (s t : State) : Prop extends KeepsRest s t where
  presence : t.presence = s.presence
  joins : KeepsJoin s t

/-! ### The booking list over an event -/

/-- The list after one event that takes every record by `f`: what is left of each, in list order (R24, R35). -/
def listAfter (f : Booking → RecordResult) (l : List Booking) : List Booking := sortBookings (eachRecord f l).1

/-- `m` is the list `l` after some number of grant-change events of the same event (R29, R83; assumption log entry 8), each of which
evaluates the PENDING records that start within 60 minutes of `now`; a STOPPED calendar has no instant, and evaluates none. -/
inductive GrantsFollow (now : Option Nat) (l : List Booking) : List Booking → Prop where
  | refl : GrantsFollow now l l
  | step {m : List Booking} (c : EvalCtx) : now = some c.now → c.derivation = false → GrantsFollow now l m →
      GrantsFollow now l (listAfter (onGrant c) m)

/-- What the list is after an event that left it as `l`: `l` itself but for grant-change events, with the session summary formed from it
(R37). -/
structure ListIs (now : Option Nat) (l : List Booking) (t : State) : Prop where
  records : GrantsFollow now l t.tt.records
  summary : t.tt.summary = summarize t.tt.records

/-! ### When a telegram reaches its block -/

/-- The characters of a telegram meet a part that takes them: step 6 of the start has completed, no image reading is
awaited, the part is not sending and has not
sent since the last idle event, and the payload has at most 24 bytes (R168, R180, R181). -/
structure Hears (s : State) (payload : List Byte) : Prop where
  phase : s.phase = .running
  image : s.imageWait = false
  sending : s.bus.sending = none
  ownFrame : s.bus.ownFrame = false
  fits : payload.length ≤ 24

/-- A telegram reaches the block of its kind: it is heard, and passes every step of the filter (R169). -/
structure Reaches (s : State) (kind : Nat) (h : RxHeader) (payload : List Byte) : Prop extends Hears s payload where
  passed : verdict s { kind := kind, hdr := h, payload := payload } = .passed

/-- The state a block is handed a telegram in: the frame is heard and counted good. -/
def heard (s : State) : State := countGood { s with bus := hearFrame s.bus }

/-- The state in which a block finds its part when the telegram's content fails its checks (R178). -/
def heardUnusable (s : State) : State := countUnusable (heard s)

/-! ### Starts and losses -/

/-- The part with the EEPROM as the start finds it. -/
def found (w : StartWorld) (s : State) : State := { s with eeprom := startEeprom w s.eeprom }

/-- The image area of a memory (R183). -/
def imageArea (m : List Host.Cell) : List Byte := memReadList m 0 512

/-- The configuration in use, the CONFIG fault and the format version are those of the image in an EEPROM (R162, R183). -/
structure RunsOnImage (e : Eeprom) (t : State) : Prop where
  cfg : t.cfg = (readImage e.answers (imageArea e.cells)).getD StationConfig.configValues
  fault : t.faults.config = (readImage e.answers (imageArea e.cells)).isNone
  format : t.formatRead = if imageBlank e.answers (imageArea e.cells) then 0 else ((imageArea e.cells).getD 0 0).toNat

/-- The list that step 6 leaves of the records that replay gave (R22, R42): with a lost backup domain they are held as they are; else
they take the forward step of the derivation to the calendar instant, with the occupancy that the part reads then. -/
structure Derived (valid : Bool) (now : Nat) (occ : Occupancy) (replayed : List Booking) (t : State) : Prop where
  lost : valid = false → t.tt.records = replayed
  kept : valid = true → ∃ c : EvalCtx, c.now = now ∧ c.derivation = true ∧ c.occupancy = occ
    ∧ GrantsFollow (some now) (listAfter (onForward c) replayed) t.tt.records
  summary : t.tt.summary = summarize t.tt.records

/-- How the journal comes through step 5 (R188, R189): `cells` is what the EEPROM holds before it and `l` the list of replay. With at most
96 slots consumed it stays as it is, the position found by replay; else the writes of the compaction complete, or one fails, or they
still run. -/
structure JournalAt (run : CompactionRun) (cells : List Host.Cell) (l : List Booking) (t : State) : Prop where
  quiet : consumedSlots cells ≤ 96 → t.phase = .running ∧ t.eeprom.cells = cells ∧ t.faults.journalFull = false
  complete : 96 < consumedSlots cells → run = .completes → t.phase = .running ∧ t.faults.journalFull = false
    ∧ t.eeprom.cells = makeWrites (compactionPlan l) cells
    ∧ ∀ w, (compactionWrites l 0 0).getLast? = some w → t.journal.page = w.page ∧ t.journal.slot = w.slot + 1
  failed : ∀ k w, 96 < consumedSlots cells → run = .failsAt k → (compactionPlan l)[k]? = some w →
    t.phase = .running ∧ t.faults.journalFull = true
    ∧ ∀ a, ¬(slotAddress w.page w.slot ≤ a ∧ a < slotAddress w.page w.slot + 8) →
        memRead t.eeprom.cells a = memRead (makeWrites ((compactionPlan l).take k) cells) a
  runs : ∀ k, 96 < consumedSlots cells → run = .runningAt k → k < (compactionPlan l).length →
    t.phase = .compacting l ((compactionPlan l).drop k) false
    ∧ t.eeprom.cells = makeWrites ((compactionPlan l).take k) cells

/-- What a power-up or pin reset leaves (R1, R13, R16, R28, R42, R64, R91, R158, R166, R178, R180, R183, R188, R189): `s` is the
part before the start. -/
structure StartsAs (w : StartWorld) (s t : State) : Prop where
  phase : t.phase = .running ∨ ∃ l rest, t.phase = .compacting l rest false
  pins : t.pins = s.pins
  clock : t.clock = { sec := 0, ms := 0, sub := 0 }
  station : t.station = strapNumber w.straps
  listening : t.listening = true
  calendar : t.cal.running = s.backup.valid ∧ (s.backup.valid = true → t.cal.time = s.cal.time)
  noCalendar : s.backup.valid = false → t.cal.time = calZero
  setSeq : t.cal.setSeq = 0
  refused : t.cal.refused = 0
  offTime : t.cal.offTime = if s.backup.valid then some (instantOf s.cal.time - s.backup.lossTime) else none
  captured : t.tt.captured = none
  image : RunsOnImage (startEeprom w s.eeprom) t
  answers : t.eeprom.answers = w.eepromAnswers
  imageKept : ∀ a, a < 512 → memRead t.eeprom.cells a = memRead (startEeprom w s.eeprom).cells a
  list : t.phase = .running → Derived s.backup.valid (instantOf s.cal.time) .unknown (replayList (found w s)) t
  held : ∀ l rest d, t.phase = .compacting l rest d → l = replayList (found w s) ∧ t.tt.records = []
  journal : JournalAt w.compaction (startEeprom w s.eeprom).cells (replayList (found w s)) t
  torn : t.journal.torn = (replayJournal (found w s)).torn
  position : consumedSlots (startEeprom w s.eeprom).cells ≤ 96 → t.journal = replayJournal (found w s)
  records : t.tt.records.length ≤ 32
  occupancy : t.presence.occupancy = .unknown ∧ t.presence.n = 0 ∧ t.presence.recount = true
  vacancy : t.presence.vacancy = some stampZero
  presenceCounts : t.presence.halfPasses = 0 ∧ t.presence.corrections = 0 ∧ t.presence.queueLosses = 0
    ∧ t.presence.discardedCo2 = 0
  co2 : t.presence.co2.valid = false
  air : t.air.peers = [] ∧ t.air.capacity = none ∧ t.air.overflows = 0
  lux : t.light.lux = luxAtStart ∧ t.light.discarded = 0
  service : t.service = serviceCleared
  clockStopped : t.faults.clockStopped = !t.cal.running
  unnumbered : t.faults.unnumbered = (t.station == 0)
  otherFaults : t.faults.co2 = false ∧ t.faults.lux = false ∧ t.faults.door1 = false ∧ t.faults.door2 = false
    ∧ t.faults.capacityDefault = false ∧ t.faults.duplicate = false
  lfsr : t.bus.lfsr = if t.station = 0 then 1 else BitVec.ofNat 16 t.station
  silent : t.bus.sending = none ∧ t.bus.deferral = none
  counts : t.bus.good = 0 ∧ t.bus.bad = 0 ∧ t.bus.malformed = 0 ∧ t.bus.unusable = 0 ∧ t.bus.sent = 0
    ∧ t.bus.collisions = 0 ∧ t.bus.duplicates = 0
  writeQueue : t.journal.queue = []
  statusSeq : t.statusSeq = 0
  imageWait : t.imageWait = false
  pending : t.pending = s.pending

/-- What a loss of power or an asserted reset leaves while no slot write is in progress (R15, R179, R187): the part `t` stands in
phase `p`, with the loss recorded and nothing being sent or written. -/
structure LossAt (p : Phase) (s t : State) : Prop where
  phase : t.phase = p
  lossTime : t.backup.lossTime = instantOf s.cal.time
  lossRunning : t.backup.lossRunning = s.cal.running
  valid : t.backup.valid = (s.backup.valid && s.cal.running)
  calendar : t.cal = s.cal
  busOff : t.bus.sending = none ∧ t.bus.deferral = none
  queue : t.journal.queue = [] ∧ t.journal.plan = []
  clock : t.clock = s.clock
  station : t.station = s.station
  cfg : t.cfg = s.cfg
  tt : t.tt = s.tt
  presence : t.presence = s.presence
  air : t.air = s.air
  light : t.light = s.light
  blind : t.blind = s.blind
  join : t.join = s.join
  service : t.service = s.service
  faults : t.faults = s.faults
  pending : t.pending = s.pending

/-- The bytes of a slot write. -/
def inSlot (w : SlotWrite) (a : Nat) : Prop := slotAddress w.page w.slot ≤ a ∧ a < slotAddress w.page w.slot + 8

/-- The slot write in progress, where there is one. -/
def slotInProgress (s : State) : Option SlotWrite :=
  match s.phase with
  | .compacting _ (w :: _) _ => some w
  | .running => s.journal.plan.head?
  | _ => none

/-- What a service restart resets in the blocks that the image configures, once at the restart and again where the image is read after a
slot write (R45, R64, R91, R110, R130, R152, R181). -/
structure BlocksRestart (s t : State) : Prop where
  occupancy : t.presence.occupancy = .unknown ∧ t.presence.n = 0 ∧ t.presence.recount = true
  vacancy : t.presence.vacancy = some stampZero
  doors : t.presence.doors = startDoors stampZero t.cfg s.pins
  presenceCounts : t.presence.halfPasses = s.presence.halfPasses ∧ t.presence.corrections = s.presence.corrections
    ∧ t.presence.queueLosses = s.presence.queueLosses ∧ t.presence.discardedCo2 = s.presence.discardedCo2
  air : t.air.peers = [] ∧ t.air.capacity = none ∧ t.air.overflows = s.air.overflows
  lux : t.light.lux = luxAtStart ∧ t.light.discarded = s.light.discarded
  join : t.join.relation = none ∧ t.join.group = none ∧ t.join.follower = none ∧ t.join.claimSeq = 0
  partitions : t.join.partitions = startPartitions s.station s.pins t.cfg

/-- What the image reading of a restart leaves where it came after a slot write (R181): the blocks restart under the configuration the
image gives, and everything else, the booking list included, is as before. -/
structure ImageRead (s t : State) : Prop extends BlocksRestart s t, RunsOnImage t.eeprom t where
  imageWait : t.imageWait = false
  phase : t.phase = s.phase
  pins : t.pins = s.pins
  clock : t.clock = s.clock
  listening : t.listening = s.listening
  station : t.station = s.station
  calendar : t.cal = s.cal ∧ t.backup = s.backup
  list : t.tt.records = s.tt.records ∧ t.tt.captured = s.tt.captured ∧ t.tt.summary = summarize t.tt.records
  service : t.service = s.service
  pending : t.pending = s.pending

/-! ### Invariants -/

/-- The EEPROM memory is in its canonical form. -/
def MemoryOk (s : State) : Prop := memWf s.eeprom.cells = true

/-- The transmit queues hold at most 8 entries each (R173). -/
def QueuesBounded (s : State) : Prop := s.bus.control.length ≤ 8 ∧ s.bus.routine.length ≤ 8

/-- The event queue holds at most 16 entries (R52). -/
def EventQueueBounded (s : State) : Prop := s.presence.queue.length ≤ 16

/-- The peer view holds at most 24 entries (R74, R77). -/
def PeersBounded (s : State) : Prop := s.air.peers.length ≤ 24

/-- The journal write queue holds at most 4 entries (R186). -/
def WriteQueueBounded (s : State) : Prop := s.journal.queue.length ≤ 4

/-- The records that a start in progress holds. -/
def heldRecords (s : State) : List Booking :=
  match s.phase with
  | .compacting l _ _ => l
  | _ => []

/-- The booking list holds at most 32 records, and so does the list that a start will hand on (R24, R188). -/
def ListBounded (s : State) : Prop := s.tt.records.length ≤ 32 ∧ (heldRecords s).length ≤ 32

/-- The net count and the group net count do not pass 300 (R57, R143). -/
def CountsCapped (s : State) : Prop :=
  s.presence.n ≤ 300 ∧ ∀ g, s.join.group = some g → g.gn ≤ 300

/-- The calendar is STOPPED at its fixed reading, or shows a date and time of the calendar range (R3, R6). -/
def CalendarOk (s : State) : Prop :=
  if s.cal.running then validTime s.cal.time = true else s.cal.time = calZero

/-- CLOCK-STOPPED is raised exactly while the calendar is STOPPED, in a part that runs (R8, R163). -/
def ClockFaultOk (s : State) : Prop := powered s = true → s.faults.clockStopped = !s.cal.running

/-- While the part has no power or is held, a valid backup domain goes with a RUNNING calendar (R15, R16). -/
def BackupOk (s : State) : Prop := powered s = false → s.backup.valid = true → s.cal.running = true

/-- A part in a listen-in, or without a number, sends nothing (R175, R184). -/
def SilentOk (s : State) : Prop :=
  s.listening = true ∨ s.station = 0 → s.bus.sending = none ∧ s.bus.deferral = none

/-- What every step keeps. -/
structure Inv (s : State) : Prop where
  memory : MemoryOk s
  queues : QueuesBounded s
  eventQueue : EventQueueBounded s
  peers : PeersBounded s
  writeQueue : WriteQueueBounded s
  list : ListBounded s
  counts : CountsCapped s
  calendar : CalendarOk s
  clockFault : ClockFaultOk s
  silent : SilentOk s
  backup : BackupOk s

end Sys2Proof.Machine
end

