-- ==== Sys2Proof/Certificates/Slice0/Obligations.lean ====
section
/-! DEFINITION. The statements for the provers, one definition each, by the chapters of the manual. -/

open Sys2Proof Sys2Proof.Machine

/-! ### Words the statements share -/

/-- A telegram is the first that the event hands the bus, which stands as `b` before it. -/
def composesFirst (s t : State) (b : Bus) (x : OutTelegram) : Prop :=
  Sends s.station s.listening (enqueue s.station s.listening x b) t.bus

/-- These telegrams are the first that the event hands the bus, in this order. -/
def composesAll (s t : State) (l : List OutTelegram) : Prop :=
  Sends s.station s.listening (l.foldl (fun b x => enqueue s.station s.listening x b) s.bus) t.bus

/-- The list is in the order of R24: by start, and among equal starts by id. -/
def inListOrder (l : List Booking) : Prop := l.Pairwise (fun a b => bookingBefore a b = true)

/-- The targets of the zones are those of R104 and R107: every zone is at 1000 while EVACUATE holds; while light is enabled, and outside a
listen-in, every zone's target is its room target under the room scene. -/
def targetsFormed (t : State) : Prop :=
  (t.service.evacuate = true → ∀ z ∈ t.light.zones, z = { level := 1000, target := 1000, fade := none })
  ∧ (t.service.evacuate = false → t.service.maskLight = false → t.listening = false →
      ∀ sc i z c, t.light.scene.bind (sceneOf t.cfg) = some sc → nth1 t.light.zones i = some z →
        nth1 t.cfg.zones i = some c → z.target = roomTarget t.light sc i c)

/-- The room scene and its source are those of the table of R94. -/
def sceneChosen (t : State) : Prop := (t.light.scene, t.light.source) = roomSceneOf t

/-- A motor that is locked: LOCKED, or in the PAUSE before its locked run; its target in force is 0, in that PAUSE as well (assumption log
entry 31). -/
def isLockedUp (m : Motor) : Prop :=
  m.inForce = some 0
  ∧ (m.state = .locked ∨ m.state = .pause ∧ m.lockPending = true ∧ m.pending = some 0)
  ∧ relayDown m = false

/-- A motor that is stopped and held: no run, no target, both relays off. -/
def isStopped (m : Motor) : Prop :=
  m.run = none ∧ m.inForce = none ∧ m.pending = none ∧ m.state = restState m.estimate
  ∧ relayUp m = false ∧ relayDown m = false

/-- Every motor stands as the first row of R119 that holds for it says: locked up, stopped and held, or with the row's position as its
target in force, also where the move to it waits in PAUSE or REFERENCING (assumption log entry 31); row 8 says nothing. -/
def motorsFormed (t : State) : Prop :=
  ∀ n c m, nth1 t.cfg.motors n = some c → nth1 t.blind.motors n = some m →
    (blindRow t c m = .locked → isLockedUp m)
    ∧ (blindRow t c m = .stopped → isStopped m)
    ∧ ∀ p, blindRow t c m = .position p → m.inForce = some p

/-! ### The life of a record -/

/-- A record as it becomes ACTIVE (R30, R31, R42): without a window where NO-RELEASE is set or the room reads OCCUPIED, attended in the
second case; else with its window RUNNING from now, or DEFERRED in the derivation of a start. A NO-RELEASE record gets no window in the
derivation either: the model's choice (assumption log entry 40). -/
structure Activated (c : EvalCtx) (b a : Booking) : Prop where
  fields : a = { b with state := .active, window := a.window, attended := a.attended, runout := none }
  noRelease : b.noRelease = true → a.window = .none ∧ a.attended = b.attended
  occupied : b.noRelease = false → c.occupancy = .occupied → a.window = .none ∧ a.attended = true
  running : b.noRelease = false → c.occupancy ≠ .occupied → c.derivation = false →
    a.window = .running c.stamp ∧ a.attended = b.attended
  deferred : b.noRelease = false → c.occupancy ≠ .occupied → c.derivation = true → a.window = .deferred ∧ a.attended = b.attended

/-- A record becomes ACTIVE, with a CONFLICT notice where it disagrees with the join role, but none in the derivation of a start (R30, R42). -/
def activates (c : EvalCtx) (b : Booking) (r : RecordResult) : Prop :=
  ∃ a, r.1 = some a ∧ Activated c b a
    ∧ r.2 = (if c.derivation = false ∧ conflicts c b = true then [noticeOf noticeConflict b 1] else [])

/-- What evaluation makes of a PENDING record whose end lies after the calendar instant (R29, R30): from its start on it is ACTIVE; within 60
minutes of its start and within the lead L it is PRECONDITIONING; before that it stays PENDING. -/
structure Evaluated (c : EvalCtx) (b : Booking) (r : RecordResult) : Prop where
  active : dateInstant b.start ≤ c.now → activates c b r
  preconditioning : c.now < dateInstant b.start → dateInstant b.start ≤ c.now + 3600 → dateInstant b.start ≤ c.now + c.lead * 60 →
    r = (some { b with state := .preconditioning }, [])
  pending : c.now < dateInstant b.start → c.now + 3600 < dateInstant b.start ∨ c.now + c.lead * 60 < dateInstant b.start →
    r = (some b, [])

/-- What the end of an ACTIVE record without weeks makes of it (R31, R33): NOSHOW where its window still runs; DONE in a room that reads
VACANT; else RUNOUT, with its cap running from now. A record that becomes RUNOUT keeps its window status, DEFERRED included: the model's reading
(assumption log entry 28). -/
structure Ended (c : EvalCtx) (b : Booking) (r : RecordResult) : Prop where
  noShow : windowRunning b = true → b.weeks = 0 → r = (none, [noticeOf noticeNoShow b 1])
  done : windowRunning b = false → c.occupancy = .vacant → b.weeks = 0 → r = (none, [])
  runsOut : windowRunning b = false → c.occupancy ≠ .vacant →
    r = (some { b with state := .runout, runout := some c.stamp }, [])

/-- The rows of a minute boundary for a record (R29, R30, R33). -/
structure MinuteRows (c : EvalCtx) (b : Booking) : Prop where
  pending : b.state = .pending → c.now < dateInstant b.finish → Evaluated c b (onMinute c b)
  missed : b.state = .pending → dateInstant b.finish ≤ c.now → b.weeks = 0 → onMinute c b = (none, [noticeOf noticeMissed b 1])
  starts : b.state = .preconditioning → dateInstant b.start = c.now → activates c b (onMinute c b)
  ends : b.state = .active → dateInstant b.finish = c.now → Ended c b (onMinute c b)
  stays : b.state = .preconditioning ∧ dateInstant b.start ≠ c.now ∨ b.state = .active ∧ dateInstant b.finish ≠ c.now
    ∨ b.state = .runout ∨ b.state = .disabled → onMinute c b = (some b, [])

/-- The rows of a DISABLED record at a day boundary, a forward step or a clock start (R36): from its day on it leaves, or with weeks left
moves on to the next week whose start lies ahead. -/
structure RetireRows (c : EvalCtx) (b : Booking) (r : RecordResult) : Prop where
  stays : c.now ≤ dateInstant b.start → r = (some b, [])
  leaves : dateInstant b.start < c.now → b.weeks = 0 → r = (none, [])
  moves : ∀ x, dateInstant b.start < c.now → weekLater b = some x → c.now < dateInstant x.start → r = (some x, [])

/-- The rows of a forward step and of a clock start for a record (R39, R41). -/
structure ForwardRows (c : EvalCtx) (b : Booking) : Prop where
  pending : b.state = .pending → c.now < dateInstant b.finish → Evaluated c b (onForward c b)
  missed : b.state = .pending ∨ b.state = .preconditioning → dateInstant b.finish ≤ c.now → b.weeks = 0 →
    onForward c b = (none, [noticeOf noticeMissed b 1])
  starts : b.state = .preconditioning → dateInstant b.start ≤ c.now → c.now < dateInstant b.finish →
    activates c b (onForward c b)
  ends : b.state = .active → dateInstant b.finish ≤ c.now → Ended c b (onForward c b)
  stays : b.state = .preconditioning ∧ c.now < dateInstant b.start ∧ c.now < dateInstant b.finish
    ∨ b.state = .active ∧ c.now < dateInstant b.finish ∨ b.state = .runout → onForward c b = (some b, [])
  retires : b.state = .disabled → RetireRows c b (onForward c b)

/-- The rows of a backward step for a record (R40): a PRECONDITIONING record that starts more than 60 minutes ahead is PENDING again, and an
ACTIVE or RUNOUT one stays as it is. -/
structure BackwardRows (c : EvalCtx) (b : Booking) : Prop where
  pending : b.state = .pending → c.now < dateInstant b.finish → Evaluated c b (onBackward c b)
  again : b.state = .preconditioning → c.now + 3600 < dateInstant b.start → onBackward c b = (some { b with state := .pending }, [])
  stays : b.state = .preconditioning ∧ dateInstant b.start ≤ c.now + 3600 ∨ b.state = .active ∨ b.state = .runout
    ∨ b.state = .disabled → onBackward c b = (some b, [])

/-! ### Steps, time and starts -/

/-- One step runs the command at the front of the queue on the state with the queue's rest. -/
def Obligations.StepRunsFrontCommand : Prop :=
  ∀ (c : Instr) (rest : List Instr) (s : State),
    step { s with pending := c :: rest } = exec c { s with pending := rest }

/-- With no command waiting, one bus slot passes: the model's choice (assumption log entry 2). Clock and seconds phase move by one slot, and
so do a running deferral and the quiet count of a line that is neither idle nor in use; a motor's last stop is forgotten once 500 ms old. The
commands that time brings join the queue, among them an advance of the calendar at a full second (R6), an attempt whose deferral has run out
on an idle line (R175), the end of the listen-in at 20 s (R184), and the windows (R31) and run-outs (R34) of records at each new millisecond.
Nothing else changes. -/
def Obligations.EmptyQueuePassesOneSlot : Prop :=
  ∀ s : State, s.pending = [] → ∃ t, step s = .next t
    ∧ t = { s with clock := t.clock, cal := t.cal, bus := t.bus, blind := t.blind, pending := t.pending }
    ∧ t.blind = { s.blind with motors := if powered s then s.blind.motors.map (forgetStop (nowOf t)) else s.blind.motors }
    ∧ t.clock = (if powered s then clockTick s.clock else s.clock)
    ∧ t.cal = { s.cal with phase := if s.cal.running then s.cal.phase + 1 else s.cal.phase }
    ∧ t.bus = { s.bus with
        deferral := s.bus.deferral.map (fun d => if powered s then { d with elapsed := d.elapsed + 1 } else d)
        quiet := if powered s = true ∧ s.bus.lineIdle = false ∧ s.bus.rxInProgress = false ∧ s.bus.sending = none
          then s.bus.quiet + 1 else s.bus.quiet }
    ∧ t.pending = dueCommands t
    ∧ (.calendarAdvance ∈ t.pending ↔ t.cal.running = true ∧ 3840 ≤ t.cal.phase)
    ∧ (.deferralExpiry ∈ t.pending ↔ powered t = true ∧ t.bus.lineIdle = true ∧ maySpeak t = true ∧ t.bus.sending = none
        ∧ ∃ d, t.bus.deferral = some d ∧ d.len ≤ d.elapsed)
    ∧ (.listenInEnd ∈ t.pending ↔ t.phase = .running ∧ t.listening = true ∧ 20 ≤ t.clock.sec.toNat ∧ t.clock.sub < 25)
    ∧ (∀ b ∈ t.tt.records, powered t = true → t.clock.sub < 25 →
        (∀ since, b.window = .running since → elapsed since (nowOf t) = t.cfg.noShowW * 60000 →
          .noShowWindowExpiry b.id ∈ t.pending)
        ∧ (∀ since, b.runout = some since → elapsed since (nowOf t) = 1800000 → .runoutCapExpiry b.id ∈ t.pending))

/-- The timebase in 96ths of a millisecond. -/
def clockUnits (c : Clock) : Nat := (c.sec.toNat * 1000 + c.ms) * 96 + c.sub

/-- A tick advances the timebase by 25/96 ms, modulo 65 536 s, with the carries of R1. -/
def Obligations.ClockTickAdvancesOneSlot : Prop :=
  ∀ c : Clock, c.ms < 1000 → c.sub < 96 →
    clockUnits (clockTick c) = (clockUnits c + 25) % (65536 * 1000 * 96)
      ∧ (clockTick c).ms < 1000 ∧ (clockTick c).sub < 96

/-- POWER_UP, and PIN_RESET_RELEASE of a held part, run the start sequence (R180): the configuration, the CONFIG fault and the format
version are those of the image (R183), the calendar is the restored one (R16), the list is the one that replay gives (R188), brought forward
by the derivation (R42), and the journal has been compacted, is being compacted, or stands where replay found its end (R189). Where the
starts differ from the spec's words or fill them, the log says so: entries 14 (the image read), 16 (the writes of a compaction), 38 (no
grant-change event) and 40 (NO-RELEASE in the derivation). -/
def Obligations.StartSequenceRuns : Prop :=
  (∀ (w : StartWorld) (s : State), s.phase = .off → s.pins.resetAsserted = false →
    ∃ t, exec (.powerUp w) s = .next t ∧ StartsAs w s t)
  ∧ (∀ (w : StartWorld) (s : State), s.phase = .held → s.pins.resetAsserted = true →
    ∃ t, exec (.pinResetRelease w) s = .next t ∧ StartsAs w (setResetPin false s) t)

/-- POWER_LOSS, PIN_RESET_ASSERT and DEFERRED_RESET_EFFECT record the loss and stop the part (R15, R179, R187); where a slot write was
in progress, every byte of the EEPROM outside its slot is unchanged, and where none was, every byte is. That the blocks keep their values
while the part is without power or held is the model's choice (assumption log entry 17), and so is the deferred effect with no write left
(entry 16). -/
def Obligations.LossesAreRecorded : Prop :=
  (∀ s : State, powered s = true → ∃ t, exec .powerLoss s = .next t ∧ LossAt .off s t ∧ t.pins = s.pins
    ∧ (s.journal.plan = [] ∨ s.phase = .running → ∀ a, (∀ w, slotInProgress s = some w → ¬ inSlot w a) →
        memRead t.eeprom.cells a = memRead s.eeprom.cells a))
  ∧ (∀ s : State, s.phase = .held → exec .powerLoss s =
      .next { s with phase := .off
                     backup := { valid := s.backup.valid && s.cal.running, lossTime := instantOf s.cal.time,
                                 lossRunning := s.cal.running } })
  ∧ (∀ s : State, s.phase = .running → ∃ t, exec .pinResetAssert s = .next t ∧ LossAt .held s t
    ∧ t.pins = { s.pins with resetAsserted := true }
    ∧ ∀ a, (∀ w, slotInProgress s = some w → ¬ inSlot w a) →
        memRead t.eeprom.cells a = memRead s.eeprom.cells a)
  ∧ (∀ (s : State) (l : List Booking), s.phase = .compacting l [] true → s.journal.plan = [] →
    ∃ t, exec .deferredResetEffect s = .next t ∧ LossAt .held s t ∧ t.pins = s.pins ∧ t.eeprom = s.eeprom)

/-- While a compaction runs, an assertion of nRESET is deferred (R180). -/
def Obligations.ResetWaitsForCompaction : Prop :=
  ∀ (s : State) (l : List Booking) (rest : List SlotWrite) (d : Bool), s.phase = .compacting l rest d →
    exec .pinResetAssert s =
      .next { s with phase := .compacting l rest true, pins := { s.pins with resetAsserted := true } }

/-- BACKUP_SUPPLY_LOSS while main power is absent ends the validity of the backup domain and changes nothing else (R15). -/
def Obligations.BackupSupplyLossEndsValidity : Prop :=
  ∀ s : State, s.phase = .off →
    exec .backupSupplyLoss s = .next { s with backup := { s.backup with valid := false } }

/-- LISTEN_IN_END (R184): CAPACITY-DEFAULT is raised where no CAPACITY was heard (R79), and a numbered station has composed a DEMAND; the
first room scene is chosen and handed out (R96), and the first blind positions are taken (R120); a free station claims on its first partition
with a retry due (R132); and every DEFERRED window is settled by the occupancy read (R42): with the room OCCUPIED the record is attended,
else its no-show window runs from here. That a position is the target in force also where the move to it waits is the model's reading
(assumption log entry 31). -/
def Obligations.ListenInEnds : Prop :=
  ∀ s : State, s.phase = .running → s.listening = true → 20 ≤ s.clock.sec.toNat →
    ∃ t, exec .listenInEnd s = .next t ∧ t.listening = false
      ∧ KeepsRest { s with listening := false
                           faults := { s.faults with
                             capacityDefault := s.faults.capacityDefault || s.air.capacity.isNone } } t
      ∧ (s.station ≠ 0 → t.air.last.isSome = true)
      ∧ sceneChosen t ∧ targetsFormed t ∧ motorsFormed t
      ∧ (∀ p x, s.station ≠ 0 → isFree s = true → partitionOf s p = some x → x.state = .blocked → x.retry = .due →
          (∀ r z, r < p → partitionOf s r = some z → ¬(z.state = .blocked ∧ z.retry = .due)) →
          partitionOf t p = some (claimingPartition (nowOf s) x) ∧ t.join.claimSeq = nextSeq s.join.claimSeq
            ∧ ∀ r, r ≠ p → partitionOf t r = partitionOf s r)
      ∧ (s.station = 0 ∨ isFree s = false → t.join.partitions = s.join.partitions)
      ∧ (s.cal.running = true → ∀ b ∈ t.tt.records, b.state = .active → b.window ≠ .deferred)
      ∧ (s.cal.running = true → s.presence.held = false →
          ∃ l, GrantsFollow (some (instantOf s.cal.time)) s.tt.records l
            ∧ ∀ a, a ∈ t.tt.records ↔ ∃ b ∈ l,
              (¬(b.state = .active ∧ b.window = .deferred) ∧ a = b)
              ∨ (b.state = .active ∧ b.window = .deferred ∧ Activated (evalCtx t (instantOf s.cal.time) false) b a))

/-! ### Calendar -/

/-- The list after a minute boundary, and after the day boundary where one falls on it (R7). -/
def boundaryList (c : EvalCtx) (time : CalTime) (l : List Booking) : List Booking :=
  if time.hour = 0 ∧ time.minute = 0 then listAfter (onDay c) (listAfter (onMinute c) l) else listAfter (onMinute c) l

/-- CALENDAR_ADVANCE adds one second to the calendar instant within the calendar range, with the carries of R4 and R6, and leaves a
valid date and time. In a part that runs, an advance onto a full minute is a minute boundary (R7), at which every record moves by its rows
(R29, R30, R33), and at midnight a day boundary too, at which DISABLED records are retired (R36); the session summary is formed again
(R37). On any other advance list and outputs stay. That a record which becomes RUNOUT keeps its window status is the model's reading
(assumption log entry 28). -/
def Obligations.CalendarAdvancesOneSecond : Prop :=
  (∀ s : State, s.cal.running = true → 3840 ≤ s.cal.phase → validTime s.cal.time = true →
    s.cal.time ≠ { year := 2199, month := 12, day := 31, hour := 23, minute := 59, second := 59 } →
    ∃ t, exec .calendarAdvance s = .next t ∧ instantOf t.cal.time = instantOf s.cal.time + 1
      ∧ validTime t.cal.time = true
      ∧ t.cal = { s.cal with time := t.cal.time, phase := s.cal.phase - 3840 }
      ∧ (powered s = true → HandedOn { s with cal := t.cal } t)
      ∧ (powered s = false → t = { s with cal := t.cal })
      ∧ (s.phase = .running → t.cal.time.second = 0 →
          ListIs (some (instantOf t.cal.time))
            (boundaryList (evalCtx s (instantOf t.cal.time) false) t.cal.time s.tt.records) t)
      ∧ (s.phase ≠ .running ∨ t.cal.time.second ≠ 0 →
          t.tt = s.tt ∧ t.air = s.air ∧ t.light = s.light ∧ t.blind = s.blind))
  ∧ (∀ (c : EvalCtx) (b : Booking), MinuteRows c b
      ∧ (b.state = .disabled → RetireRows c b (onDay c b)) ∧ (b.state ≠ .disabled → onDay c b = (some b, [])))

/-- An advance from 2199-12-31 23:59:59 stops the calendar (R8): its fields are fixed, CLOCK-STOPPED is raised and the set sequence is
kept. Every record that is not DISABLED is PENDING again, without window, attended mark or run-out, and no session governs (R41, R37). -/
def Obligations.CalendarStopsAtEndOfRange : Prop :=
  ∀ s : State, s.cal.running = true → 3840 ≤ s.cal.phase →
    s.cal.time = { year := 2199, month := 12, day := 31, hour := 23, minute := 59, second := 59 } → powered s = true →
    ∃ t, exec .calendarAdvance s = .next t ∧ t.cal.running = false ∧ t.cal.time = calZero
      ∧ t.cal.setSeq = s.cal.setSeq
      ∧ HandedOn { s with cal := t.cal, faults := { s.faults with clockStopped := true } } t
      ∧ t.tt.records = s.tt.records.map (fun b => if b.state = .disabled then b
          else { b with state := .pending, window := .none, attended := false, runout := none })
      ∧ t.tt.summary = none

/-- The weekday (R5) is derived from the days since 2000-01-01, a Saturday, as (d + 5) modulo 7, each day after a valid date being one
day more; STATUS, the one report that carries it, reports the weekday of the date that the calendar holds. -/
def Obligations.WeekdayFollowsTheDate : Prop :=
  dayNumber 2000 1 1 = 0
  ∧ (∀ d : DateTime, validDate d.year d.month d.day = true →
      dayNumber (nextDay d).year (nextDay d).month (nextDay d).day = dayNumber d.year d.month d.day + 1)
  ∧ ∀ s : State, ((statusPart1 s).getD 6 0).toNat % 8 = (dayNumber s.cal.time.year s.cal.time.month s.cal.time.day + 5) % 7

/-- What a set to the instant `new` makes of the list (R11): a clock start or a forward step, a backward step, or nothing. -/
def setList (old : Calendar) (new : Nat) (c : EvalCtx) (l : List Booking) : List Booking :=
  if old.running = false ∨ instantOf old.time < new then listAfter (onForward c) l
  else if new < instantOf old.time then listAfter (onBackward c) l
  else l

/-- A valid TIME is decided by R10. Where the calendar is STOPPED, where the difference is at most 900 s, or with the STEP mark, it sets the
calendar (R11, R13): its fields and nothing else of it, the seconds phase at its beginning, the set sequence one higher, the backup domain
valid, CLOCK-STOPPED cleared. A set from STOPPED or onto a later instant moves every record by the rows of a forward step (R39, R41), one onto
an earlier instant by those of a backward step (R40), and the session summary follows (R37). A RUNNING calendar over 900 s away refuses it
without STEP: the refusal count steps. The model's readings in the rows: a record that becomes RUNOUT keeps its window status (assumption log
entry 28), and a NO-RELEASE record gets no window in a derivation (40). -/
def Obligations.TimeSetsTheCalendar : Prop :=
  (∀ (s : State) (h : RxHeader) (payload : List Byte) (u : CalTime) (step : Bool),
    Reaches s kTime h payload → rdTime payload = some (u, step) → validTime u = true →
    (s.cal.running = false ∨ step = true ∨ distance (instantOf u) (instantOf s.cal.time) ≤ 900) →
    ∃ t, exec (.time h payload) s = .next t
      ∧ HandedOn { heard s with
          cal := { s.cal with time := u, running := true, phase := 0, setSeq := s.cal.setSeq + 1 }
          backup := { s.backup with valid := true }
          faults := { s.faults with clockStopped := false } } t
      ∧ ListIs (some (instantOf u)) (setList s.cal (instantOf u) (evalCtx s (instantOf u) false) s.tt.records) t)
  ∧ (∀ (s : State) (h : RxHeader) (payload : List Byte) (u : CalTime),
    Reaches s kTime h payload → rdTime payload = some (u, false) → validTime u = true → s.cal.running = true →
    900 < distance (instantOf u) (instantOf s.cal.time) →
    ∃ t, exec (.time h payload) s = .next t
      ∧ HandedOn { heard s with cal := { s.cal with refused := s.cal.refused + 1 } } t ∧ t.tt = s.tt)
  ∧ (∀ (c : EvalCtx) (b : Booking), ForwardRows c b ∧ BackwardRows c b)

/-- A TIME that is invalid, or that a RUNNING calendar finds over 900 s away without STEP, is refused (R9, R10): the refusal count
steps, and calendar, list and rooms are unchanged. -/
def Obligations.TimeRefused : Prop :=
  ∀ (s : State) (h : RxHeader) (payload : List Byte), Reaches s kTime h payload →
    (∀ u step, rdTime payload = some (u, step) → validTime u = false
      ∨ (s.cal.running = true ∧ step = false ∧ 900 < distance (instantOf u) (instantOf s.cal.time))) →
    ∃ t, exec (.time h payload) s = .next t
      ∧ HandedOn { heard s with cal := { s.cal with refused := s.cal.refused + 1 } } t
      ∧ t.tt = s.tt ∧ t.air = s.air ∧ t.light = s.light ∧ t.blind = s.blind

/-! ### Bookings, sessions and the journal -/

/-- The answer to a PUT or DROP (R27): to its source, with the id it named. -/
def answerOf (source id : Nat) (d : Decision) : Answer :=
  { dest := source, id := id, status := d.status, evicted := d.evicted, record := d.record }

/-- The list of a decision once the record that a PUT stored has been evaluated (R24, R25, R29); a STOPPED calendar evaluates nothing. -/
def listDecided (s : State) (id : Nat) (d : Decision) : List Booking :=
  match calInstant s.cal with
  | none => d.records
  | some now =>
    if d.evaluate then
      listAfter (fun b => if b.id = id ∧ b.state = .pending then evaluatePending (evalCtx s now false) b else (some b, [])) d.records
    else d.records

/-- How the answer goes out, and what becomes of the journal (R27, R186, R187): a decision that changes nothing is answered at once; one whose
entries the write queue cannot take, JOURNAL-FULL being raised or the queue too full, is answered NOT-RETAINED; else the entries join the
queue, and the answer waits for the last of them. -/
structure AnswerGiven (source id : Nat) (d : Decision) (s t : State) : Prop where
  unwritten : d.entries = [] → t.journal = s.journal ∧ t.faults = s.faults
    ∧ composesFirst s t (heard s).bus (answerTelegram (answerOf source id d) detailNone)
  full : d.entries ≠ [] → s.faults.journalFull = true ∨ 4 < s.journal.queue.length + d.entries.length →
    t.journal = s.journal ∧ t.faults = s.faults
    ∧ composesFirst s t (heard s).bus (answerTelegram (answerOf source id d) detailNotRetained)
  waits : d.entries ≠ [] → s.faults.journalFull = false → s.journal.queue.length + d.entries.length ≤ 4 →
    s.journal.plan ≠ [] →
    t.faults = s.faults
    ∧ t.journal = { s.journal with queue := s.journal.queue ++ journalEntries (answerOf source id d) d.entries }
  begins : ∀ e rest plan, d.entries = e :: rest → s.faults.journalFull = false → s.journal.queue = [] → d.entries.length ≤ 4 →
    s.journal.plan = [] → entryPlan s.journal e = some plan →
    t.faults = s.faults
    ∧ t.journal = { s.journal with
        queue := journalEntries (answerOf source id d) d.entries, plan := plan, since := some (nowOf s) }
  noPage : ∀ e rest, d.entries = e :: rest → s.faults.journalFull = false → s.journal.queue = [] → d.entries.length ≤ 4 →
    s.journal.plan = [] → entryPlan s.journal e = none →
    t.faults = { s.faults with journalFull := true } ∧ t.journal.queue = [] ∧ t.journal.plan = []
    ∧ composesFirst s t (heard s).bus (answerTelegram (answerOf source id d) detailNotRetained)

/-- What a BOOKING-PUT or BOOKING-DROP that has been decided leaves: the decided list with the stored record evaluated, the session summary
formed from it (R37), the capture of R28, the answer of R27, and nothing else but what follows from the session. A record of the decided list
stays as it is unless it is the one to be evaluated, or a PENDING one that starts within 60 minutes of now, which a grant-change event may
evaluate too. -/
structure DecisionTaken (source id : Nat) (d : Decision) (s t : State) : Prop where
  captured : t.tt.captured = (if captures d.status then some source else s.tt.captured)
  list : ListIs (calInstant s.cal) (listDecided s id d) t
  stays : ∀ b ∈ d.records, b.id ≠ id ∨ d.evaluate = false →
    b.state ≠ .pending ∨ (∀ now, calInstant s.cal = some now → now + 3600 < dateInstant b.start) → b ∈ t.tt.records
  faults : t.faults = { s.faults with journalFull := t.faults.journalFull }
  eeprom : t.eeprom = s.eeprom
  rest : HandedOn { heard s with
      tt := { s.tt with records := d.records, captured := t.tt.captured }
      journal := t.journal
      faults := t.faults } t
  answer : AnswerGiven source id d s t

/-- Where a PUT that was taken leaves its record `b` (R24, R25, R29): as it was stored, in a STOPPED calendar, as a DISABLED, ACTIVE or RUNOUT
record, or more than 60 minutes before its start; PRECONDITIONING within the lead L; ACTIVE from its start on. -/
structure RecordHeld (c : EvalCtx) (running : Bool) (b : Booking) (l : List Booking) : Prop where
  stored : running = false ∨ b.state ≠ .pending ∨ c.now + 3600 < dateInstant b.start → b ∈ l
  near : running = true → b.state = .pending → c.now < dateInstant b.start → ∃ a ∈ l, a = b ∨ a = { b with state := .preconditioning }
  preconditioning : running = true → b.state = .pending → c.now < dateInstant b.start → dateInstant b.start ≤ c.now + 3600 →
    dateInstant b.start ≤ c.now + c.lead * 60 → { b with state := .preconditioning } ∈ l
  active : running = true → b.state = .pending → dateInstant b.start ≤ c.now → ∃ a ∈ l, Activated c b a

/-- BOOKING_PUT and BOOKING_DROP whose content passes R20 take effect as R22 to R26 decide: list, summary, capture, journal and
BOOKING-ANSWER; the record of a PUT that the list takes is held, and one that a DROP names is not. One whose content fails R20 is counted
unusable, and neither the list nor the journal changes. That an answer sent at once goes before the notices of the evaluation, and carries the
record as it is stored, is the model's reading (assumption log entry 26). -/
def Obligations.BookingsTakeEffect : Prop :=
  (∀ (s : State) (h : RxHeader) (payload : List Byte) (p : PutFields) (k : BookingKind),
    Reaches s kBookingPut h payload → rdPut payload = some p → putUsable p = true → kindOfCode p.kind = some k →
    ∃ t, exec (.bookingPut h payload) s = .next t ∧ DecisionTaken h.source.toNat p.id (decidePut s k p) s t
      ∧ (∀ b, (decidePut s k p).record = some b → (decidePut s k p).status ≠ .unchanged →
          RecordHeld (evalCtx s (instantOf s.cal.time) false) s.cal.running b t.tt.records))
  ∧ (∀ (s : State) (h : RxHeader) (payload : List Byte) (id : Nat),
    Reaches s kBookingDrop h payload → rdDrop payload = some id → id ≠ 0 →
    ∃ t, exec (.bookingDrop h payload) s = .next t ∧ DecisionTaken h.source.toNat id (decideDrop s.tt.records id) s t
      ∧ ∀ b ∈ t.tt.records, b.id ≠ id)
  ∧ (∀ (s : State) (h : RxHeader) (payload : List Byte), Reaches s kBookingPut h payload →
    (∀ p, rdPut payload = some p → putUsable p = false) →
    ∃ t, exec (.bookingPut h payload) s = .next t ∧ HandedOn (heardUnusable s) t
      ∧ ListIs (calInstant s.cal) s.tt.records t)
  ∧ (∀ (s : State) (h : RxHeader) (payload : List Byte), Reaches s kBookingDrop h payload →
    (∀ id, rdDrop payload = some id → id = 0) →
    ∃ t, exec (.bookingDrop h payload) s = .next t ∧ HandedOn (heardUnusable s) t
      ∧ ListIs (calInstant s.cal) s.tt.records t)

/-- A PUT and a DROP keep the order of the list, one record for each id, and its bound of 32 records (R24, R25). -/
def Obligations.DecisionsKeepTheList : Prop :=
  ∀ (s : State) (k : BookingKind) (p : PutFields) (id : Nat),
    inListOrder s.tt.records → (s.tt.records.map (fun b => b.id)).Nodup → s.tt.records.length ≤ 32 →
    (inListOrder (decidePut s k p).records ∧ ((decidePut s k p).records.map (fun b => b.id)).Nodup
      ∧ (decidePut s k p).records.length ≤ 32)
    ∧ (inListOrder (decideDrop s.tt.records id).records
      ∧ ((decideDrop s.tt.records id).records.map (fun b => b.id)).Nodup
      ∧ (decideDrop s.tt.records id).records.length ≤ 32)

/-- While the calendar is RUNNING, a PUT for a record that is neither ACTIVE nor RUNOUT, or for a new one, whose end as formed is at or
before now is refused with REFUSED-PAST and changes nothing (R22). -/
def Obligations.PutRefusedPast : Prop :=
  ∀ (s : State) (k : BookingKind) (p : PutFields), s.cal.running = true →
    (∀ b ∈ s.tt.records, b.id = p.id → isLive b = false) →
    dateInstant (formEnd s.cfg k p.start p).1 ≤ instantOf s.cal.time →
    (decidePut s k p).status = .refusedPast ∧ (decidePut s k p).records = s.tt.records
      ∧ (decidePut s k p).entries = []

/-- The next occurrence of a record (R35), at its new start and end: PENDING, with one week less and nothing kept of the one that ended. -/
def weekOn (b : Booking) (start finish : DateTime) : Booking :=
  { b with start := start, finish := finish, weeks := b.weeks - 1, state := .pending, window := .none, attended := false,
           runout := none }

/-- How an occurrence that ends leaves the list (R35): with no week left, or past 2199, the record is gone; else its next occurrence, seven
days later, is held, as it is put back where it starts more than 60 minutes from now. -/
structure LeavesOrRecurs (now : Nat) (b : Booking) (t : State) : Prop where
  gone : b.weeks = 0 ∨ 2199 < (addDays 7 b.start).year → ∀ a ∈ t.tt.records, a.id ≠ b.id
  again : ∀ start finish, start = addDays 7 b.start → finish = addDays 7 b.finish → 0 < b.weeks → start.year ≤ 2199 →
    now + 3600 < dateInstant start → now < dateInstant finish → weekOn b start finish ∈ t.tt.records

/-- NO_SHOW_WINDOW_EXPIRY (R31) and RUNOUT_CAP_EXPIRY (R34) of a record. At the window's expiry a room that reads OCCUPIED leaves the record
ACTIVE and attended, and else the occurrence ends with a NOSHOW notice; at the cap it ends with an OVERRUN notice (R38); what ends leaves, or
recurs (R35). The session summary follows (R37), and nothing but list, session and what follows from them changes. -/
def Obligations.RecordTimersEndRecords : Prop :=
  (∀ (s : State) (id : Nat) (b : Booking) (since : Stamp), s.phase = .running → s.cal.running = true →
    b ∈ s.tt.records → b.id = id → (∀ x ∈ s.tt.records, x.id = id → x = b) →
    b.state = .active → b.window = .running since → s.cfg.noShowW * 60000 ≤ elapsed since (nowOf s) →
    ∃ t, exec (.noShowWindowExpiry id) s = .next t ∧ HandedOn s t
      ∧ ListIs (calInstant s.cal) (listAfter (onWindowExpiry id (evalCtx s (instantOf s.cal.time) false)) s.tt.records) t
      ∧ (occRead s = .occupied → { b with window := .none, attended := true } ∈ t.tt.records)
      ∧ (occRead s ≠ .occupied → LeavesOrRecurs (instantOf s.cal.time) b t
          ∧ composesFirst s t s.bus (noticeTelegram s.tt.captured (noticeOf noticeNoShow b 1))))
  ∧ (∀ (s : State) (id : Nat) (b : Booking) (since : Stamp), s.phase = .running → s.cal.running = true →
    b ∈ s.tt.records → b.id = id → (∀ x ∈ s.tt.records, x.id = id → x = b) →
    b.state = .runout → b.runout = some since → 1800000 ≤ elapsed since (nowOf s) →
    ∃ t, exec (.runoutCapExpiry id) s = .next t ∧ HandedOn s t
      ∧ ListIs (calInstant s.cal) (listAfter (onCapExpiry id (evalCtx s (instantOf s.cal.time) false)) s.tt.records) t
      ∧ LeavesOrRecurs (instantOf s.cal.time) b t
      ∧ composesFirst s t s.bus (noticeTelegram s.tt.captured (noticeOf noticeOverrun b 1)))
  ∧ (∀ (c : EvalCtx) (b : Booking), c.occupancy = .vacant → b.state = .runout → b.weeks = 0 → onOccupancy c b = (none, []))

/-- The answers that wait for entries of the journal, as they go out with a detail (R27). -/
def answersWith (detail : Nat) (l : List JournalEntry) : List OutTelegram :=
  l.filterMap (fun e => e.answer.map (fun a => answerTelegram a detail))

/-- The last slot of the entry at the head of the write queue, `e`, has been written (R186): its answer goes out RETAINED, it leaves the queue,
and the next entry begins, at once; where no page can take that one, JOURNAL-FULL is raised and every answer behind goes out NOT-RETAINED
(R187). -/
structure EntryWritten (w : SlotWrite) (e : JournalEntry) (q : List JournalEntry) (s t : State) : Prop where
  answer : composesAll s t (answersWith detailRetained [e])
  last : q = [] → t.journal.queue = [] ∧ t.journal.plan = [] ∧ t.faults.journalFull = s.faults.journalFull
  next : ∀ n r plan, q = n :: r → entryPlan (journalAfterWrite w [] (nowOf s) s.journal) n.body = some plan →
    t.journal.queue = q ∧ t.journal.plan = plan ∧ t.journal.since = some (nowOf s)
    ∧ t.faults.journalFull = s.faults.journalFull
  noPage : ∀ n r, q = n :: r → entryPlan (journalAfterWrite w [] (nowOf s) s.journal) n.body = none →
    t.journal.queue = [] ∧ t.journal.plan = [] ∧ t.faults.journalFull = true
    ∧ composesAll s t (answersWith detailRetained [e] ++ answersWith detailNotRetained q)

/-- The entry at the head of the write queue, `e`, is not written (R187): its answer goes out NOT-RETAINED, or that of the eviction whose DROP
it is; it leaves the queue, and the page in use is closed. Where that is page 4 and an entry is left, JOURNAL-FULL is raised and every answer
goes out NOT-RETAINED. -/
structure EntryLost (e : JournalEntry) (q : List JournalEntry) (s t : State) : Prop where
  answer : composesAll s t (answersWith detailNotRetained (if e.pairFirst then q.take 1 else [e]))
  closed : t.journal.closed = true
  leaves : t.faults.journalFull = false → e.pairFirst = false → t.journal.queue = q
  pair : ∀ x r, t.faults.journalFull = false → e.pairFirst = true → q = x :: r → t.journal.queue = { x with answer := none } :: r
  noPage : q ≠ [] → 4 ≤ s.journal.page → t.faults.journalFull = true ∧ t.journal.queue = [] ∧ t.journal.plan = []
    ∧ composesAll s t (answersWith detailNotRetained (if e.pairFirst then q else e :: q))

/-- SLOT_WRITE_COMPLETE (R186, R189): the slot's bytes read back, every other byte of the EEPROM is unchanged, and the next write of the
entry, or of the compaction, is the one in progress. The last write of an entry sends its answer RETAINED and begins the next entry (R27).
That the command moves a compaction on slot by slot is the model's choice (assumption log entry 16). The last write of a compaction ends step 5 of the start: the list it held is handed on,
or the reset that came meanwhile takes effect next (R180). Where a restart's image reading has waited for the write, it is read now (R181),
the end of the one write in progress, and not of its entry, ending the wait: the model's choice (assumption log entry 33). -/
def Obligations.SlotWriteCompletes : Prop :=
  (∀ (s : State) (w : SlotWrite) (rest : List SlotWrite), s.phase = .running → s.journal.plan = w :: rest →
    memWf s.eeprom.cells = true →
    ∃ t, exec .slotWriteComplete s = .next t
      ∧ (∀ i, (hi : i < w.bytes.length) → memRead t.eeprom.cells (slotAddress w.page w.slot + i) = w.bytes[i])
      ∧ (∀ a, (a < slotAddress w.page w.slot ∨ slotAddress w.page w.slot + w.bytes.length ≤ a) →
          memRead t.eeprom.cells a = memRead s.eeprom.cells a)
      ∧ (rest ≠ [] → t.journal.plan = rest ∧ t.journal.queue = s.journal.queue)
      ∧ (∀ e q, rest = [] → s.journal.queue = e :: q → EntryWritten w e q s t)
      ∧ (s.imageWait = false → HandedOn { s with eeprom := t.eeprom, journal := t.journal, faults := t.faults } t
          ∧ t.faults = { s.faults with journalFull := t.faults.journalFull })
      ∧ (s.imageWait = true → ImageRead s t))
  ∧ (∀ (s : State) (l : List Booking) (w w' : SlotWrite) (rest : List SlotWrite) (d : Bool),
    s.phase = .compacting l (w :: w' :: rest) d →
    ∃ t, exec .slotWriteComplete s = .next t ∧ t.phase = .compacting l (w' :: rest) d
      ∧ t.eeprom.cells = memWriteList s.eeprom.cells (slotAddress w.page w.slot) w.bytes)
  ∧ (∀ (s : State) (l : List Booking) (w : SlotWrite), s.phase = .compacting l [w] false →
    ∃ t, exec .slotWriteComplete s = .next t ∧ t.phase = .running
      ∧ t.eeprom.cells = memWriteList s.eeprom.cells (slotAddress w.page w.slot) w.bytes
      ∧ (∀ x, (compactionWrites l 0 0).getLast? = some x → t.journal.page = x.page ∧ t.journal.slot = x.slot + 1)
      ∧ t.faults = s.faults
      ∧ Derived s.cal.running (instantOf s.cal.time) (occRead s) l t)
  ∧ (∀ (s : State) (l : List Booking) (w : SlotWrite), s.phase = .compacting l [w] true →
    ∃ t, exec .slotWriteComplete s = .next t ∧ t.phase = .compacting l [] true
      ∧ t.eeprom.cells = memWriteList s.eeprom.cells (slotAddress w.page w.slot) w.bytes)

/-- SLOT_WRITE_FAIL (R187, R189): every byte of the EEPROM outside the slot is unchanged. Where the slot is a page's header, JOURNAL-FULL is
raised and the write queue emptied, every answer going out NOT-RETAINED; otherwise the entry at the head leaves the queue and its answer, or that
of the eviction whose DROP it is, goes out NOT-RETAINED (R27). A failed write of a compaction raises JOURNAL-FULL and ends step 5, the records
staying in RAM and no further write being made: the model's choice (assumption log entry 16). Where a restart's image reading has waited for the write, it is
read now (R181; assumption log entry 33). -/
def Obligations.SlotWriteFails : Prop :=
  (∀ (s : State) (w : SlotWrite) (rest : List SlotWrite), s.phase = .running → s.journal.plan = w :: rest →
    ∃ t, exec .slotWriteFail s = .next t
      ∧ (∀ a, ¬ inSlot w a → memRead t.eeprom.cells a = memRead s.eeprom.cells a)
      ∧ (s.imageWait = false →
          HandedOn { s with eeprom := t.eeprom, journal := t.journal, faults := t.faults, freeUsed := t.freeUsed } t
          ∧ t.faults = { s.faults with journalFull := t.faults.journalFull })
      ∧ (s.imageWait = true → ImageRead s t)
      ∧ (w.slot = 0 → t.faults.journalFull = true ∧ t.journal.queue = [] ∧ t.journal.plan = []
          ∧ composesAll s t (answersWith detailNotRetained s.journal.queue))
      ∧ (∀ e q, w.slot ≠ 0 → s.journal.queue = e :: q → EntryLost e q s t))
  ∧ (∀ (s : State) (l : List Booking) (w : SlotWrite) (rest : List SlotWrite) (d : Bool), s.phase = .compacting l (w :: rest) d →
    ∃ t, exec .slotWriteFail s = .next t
      ∧ (∀ a, ¬ inSlot w a → memRead t.eeprom.cells a = memRead s.eeprom.cells a)
      ∧ t.faults = { s.faults with journalFull := true }
      ∧ (d = false → t.phase = .running ∧ Derived s.cal.running (instantOf s.cal.time) (occRead s) l t)
      ∧ (d = true → t.phase = .compacting l [] true))

/-- A journal entry as written reads back as replay reads it (R185, R188): a PUT gives its record's fields, a DROP its id. -/
def Obligations.JournalEntriesReadBack : Prop :=
  (∀ b : Booking, b.id < 65536 → 2000 ≤ b.start.year → b.start.year ≤ 2255 → b.start.month < 16 → b.start.day < 32 →
    b.start.hour < 32 → b.start.minute < 64 → b.weeks < 16 → b.headcount < 65536 → b.partner < 256 →
    (dateInstant b.finish - dateInstant b.start) / 60 < 65536 →
    (bodySlots (.put b)).map readSlot =
      [.first b.kind b.joined b.noRelease b.adjusted b.id b.start,
        .second b.weeks ((dateInstant b.finish - dateInstant b.start) / 60) b.headcount b.partner])
  ∧ (∀ id, id < 65536 → (bodySlots (.drop id)).map readSlot = [.drop id])

/-! ### Presence -/

/-- The table of R46, but for the pass limit: what a break does to a decoder, whether a half pass is counted, and the pass produced. -/
def Obligations.DoorDecoderTable : Prop :=
  ∀ now since : Stamp,
    decodeBreak now .outer .ready = (.outerWait now, false, none)
    ∧ decodeBreak now .inner .ready = (.innerWait now, false, none)
    ∧ decodeBreak now .outer (.outerWait since) = (.outerWait now, true, none)
    ∧ decodeBreak now .inner (.outerWait since) = (.ready, false, some true)
    ∧ decodeBreak now .outer (.innerWait since) = (.ready, false, some false)
    ∧ decodeBreak now .inner (.innerWait since) = (.innerWait now, true, none)

/-- BEAM_BREAK of a configured door's CLEAR beam (R46, R47): the decoder moves, the beam's fault timer starts, a half pass is counted
where the decoder counts one; a pass meets a held queue at its tail, and is taken at once by one that is not held. -/
def Obligations.BeamBreakIsDecoded : Prop :=
  ∀ (s : State) (d : Nat) (b : Beam) (x : Door), takesFields s = true → isDoor d = true → beamLevel s.pins d b = false →
    nth1 s.presence.doors d = some x →
    ∃ t, exec (.beamBreak d b) s = .next t
      ∧ t.pins = setBeam s.pins d b true
      ∧ nth1 t.presence.doors d = some { setTimer x b (some (nowOf s)) with
          decoder := (decodeBreak (nowOf s) b x.decoder).1, recovery := none }
      ∧ t.presence.halfPasses =
          (if (decodeBreak (nowOf s) b x.decoder).2.1 then s.presence.halfPasses + 1 else s.presence.halfPasses)
      ∧ (∀ e, e ≠ d → nth1 t.presence.doors e = nth1 s.presence.doors e)
      ∧ ((decodeBreak (nowOf s) b x.decoder).2.2 = none →
          t.presence = { s.presence with doors := t.presence.doors, halfPasses := t.presence.halfPasses })
      ∧ (∀ inward, (decodeBreak (nowOf s) b x.decoder).2.2 = some inward → s.presence.held = true →
          t.presence.queue = (appendHeld (.pass inward d (nowOf s)) s.presence.queue).1 ∧ t.presence.n = s.presence.n)
      ∧ (∀ inward, (decodeBreak (nowOf s) b x.decoder).2.2 = some inward → s.presence.held = false →
          t.presence.n = (takeEntry (nowOf s) (.pass inward d (nowOf s)) s.presence).n
            ∧ t.presence.occupancy = (takeEntry (nowOf s) (.pass inward d (nowOf s)) s.presence).occupancy
            ∧ t.presence.h = headcountOf t.presence)
      ∧ t.cal = s.cal ∧ t.service = s.service ∧ t.faults = s.faults ∧ t.eeprom = s.eeprom ∧ t.journal = s.journal
      ∧ t.cfg = s.cfg ∧ t.clock = s.clock ∧ t.phase = s.phase

/-- The table of R56, and the net count and the corrections of R57, for an entry taken: an IN makes the room OCCUPIED, stops the VACATING hold
and counts one more up to 300, with no correction; an OUT counts one less, never below 0, and the last one of an OCCUPIED room leaves it
VACATING, its hold running from now; an OUT that finds no one counted is a correction, and a hold runs on; a motion pulse makes a room that is
not OCCUPIED so and stops the hold, with one person counted, and one correction, where it was VACATING. No entry changes RECOUNT (R58). -/
def Obligations.EntriesMoveOccupancy : Prop :=
  ∀ (now at_ : Stamp) (d z : Nat) (p : Presence),
    ((takeEntry now (.pass true d at_) p).occupancy = .occupied
      ∧ (takeEntry now (.pass true d at_) p).n = min 300 (p.n + 1)
      ∧ (takeEntry now (.pass true d at_) p).corrections = p.corrections
      ∧ (takeEntry now (.pass true d at_) p).vacating = none
      ∧ (takeEntry now (.pass true d at_) p).vacancy = some now
      ∧ (takeEntry now (.pass true d at_) p).recount = p.recount)
    ∧ ((takeEntry now (.pass false d at_) p).n = p.n - 1
      ∧ (takeEntry now (.pass false d at_) p).corrections = (if p.n = 0 then p.corrections + 1 else p.corrections)
      ∧ (takeEntry now (.pass false d at_) p).occupancy =
          (if p.occupancy = .occupied ∧ p.n = 1 then .vacating else p.occupancy)
      ∧ (takeEntry now (.pass false d at_) p).vacating =
          (if p.occupancy = .occupied ∧ p.n = 1 then some now else p.vacating)
      ∧ (takeEntry now (.pass false d at_) p).vacancy = p.vacancy
      ∧ (takeEntry now (.pass false d at_) p).recount = p.recount)
    ∧ ((takeEntry now (.motion z at_) p).occupancy = .occupied
      ∧ (takeEntry now (.motion z at_) p).n = (if p.occupancy = .vacating then 1 else p.n)
      ∧ (takeEntry now (.motion z at_) p).corrections =
          (if p.occupancy = .vacating then p.corrections + 1 else p.corrections)
      ∧ (takeEntry now (.motion z at_) p).vacating = (if p.occupancy = .occupied then p.vacating else none)
      ∧ (takeEntry now (.motion z at_) p).vacancy = some now
      ∧ (takeEntry now (.motion z at_) p).recount = p.recount)

/-- BEAM_CLEAR of a BROKEN beam and PASS_LIMIT_EXPIRY change the door they name, its line, or the half-pass count, and nothing else
(R46, R47, R48). -/
def Obligations.DoorTimersMove : Prop :=
  (∀ (s : State) (d : Nat) (b : Beam) (x : Door), takesFields s = true → isDoor d = true → beamLevel s.pins d b = true →
    nth1 s.presence.doors d = some x →
    ∃ t, exec (.beamClear d b) s = .next t
      ∧ t = { s with pins := setBeam s.pins d b false, presence := { s.presence with doors := t.presence.doors } }
      ∧ nth1 t.presence.doors d = some { setTimer x b none with
          recovery := if x.decoder = .fault ∧ beamLevel t.pins d .outer = false ∧ beamLevel t.pins d .inner = false
            then some (nowOf s) else x.recovery }
      ∧ ∀ e, e ≠ d → nth1 t.presence.doors e = nth1 s.presence.doors e)
  ∧ (∀ (s : State) (d : Nat) (x : Door) (since : Stamp), powered s = true → nth1 s.presence.doors d = some x →
    pendingBreak x.decoder = some since → 1500 ≤ elapsed since (nowOf s) →
    ∃ t, exec (.passLimitExpiry d) s = .next t
      ∧ t = { s with presence := { s.presence with doors := t.presence.doors,
                                                   halfPasses := s.presence.halfPasses + 1 } }
      ∧ nth1 t.presence.doors d = some { x with decoder := .ready }
      ∧ ∀ e, e ≠ d → nth1 t.presence.doors e = nth1 s.presence.doors e)

/-- DOOR_FAULT_TIMEOUT and DOOR_RECOVERY (R47, R48): the door enters FAULT with its fault raised and RECOUNT set, or returns to READY
with the fault cleared and RECOUNT as it was; H is formed again. That a door's fault sets RECOUNT in a VACANT room too is the model's reading
of R47 (assumption log entry 20). -/
def Obligations.DoorsFailAndRecover : Prop :=
  (∀ (s : State) (d : Nat) (b : Beam) (x : Door) (since : Stamp), powered s = true → isDoor d = true →
    nth1 s.presence.doors d = some x → x.decoder ≠ .fault → beamTimer x b = some since →
    60000 ≤ elapsed since (nowOf s) →
    ∃ t y, exec (.doorFaultTimeout d b) s = .next t ∧ nth1 t.presence.doors d = some y ∧ y.decoder = .fault
      ∧ t.faults = { s.faults with door1 := t.faults.door1, door2 := t.faults.door2 }
      ∧ t.faults.door1 = (d == 1 || s.faults.door1) ∧ t.faults.door2 = (d == 2 || s.faults.door2)
      ∧ t.presence.recount = true ∧ t.presence.h = headcountOf t.presence
      ∧ t.presence = { s.presence with doors := t.presence.doors, recount := true, h := t.presence.h })
  ∧ (∀ (s : State) (d : Nat) (x : Door) (since : Stamp), powered s = true → isDoor d = true →
    nth1 s.presence.doors d = some x → x.decoder = .fault → x.recovery = some since →
    10000 ≤ elapsed since (nowOf s) →
    ∃ t, exec (.doorRecovery d) s = .next t
      ∧ nth1 t.presence.doors d = some { decoder := .ready, outerTimer := none, innerTimer := none, recovery := none }
      ∧ t.faults = { s.faults with door1 := t.faults.door1, door2 := t.faults.door2 }
      ∧ t.faults.door1 = (d != 1 && s.faults.door1) ∧ t.faults.door2 = (d != 2 && s.faults.door2)
      ∧ t.presence.h = headcountOf t.presence
      ∧ t.presence = { s.presence with doors := t.presence.doors, h := t.presence.h })

/-- MOTION_PULSE and MOTION_AGE_EXPIRY of a configured zone (R49, R52, R55): a pulse taken at once makes the room OCCUPIED and the zone
seen and counting; one that meets a held queue waits at its tail; a stamp 300 s old stops counting, and H is formed again. -/
def Obligations.MotionIsSeenAndAges : Prop :=
  (∀ (s : State) (z : Nat) (x : MotionZone), takesFields s = true → nth1 s.presence.zones z = some x →
    ∃ t, exec (.motionPulse z) s = .next t
      ∧ (s.presence.held = true → t.presence.queue = (appendHeld (.motion z (nowOf s)) s.presence.queue).1
          ∧ t.presence.occupancy = s.presence.occupancy ∧ t.presence.zones = s.presence.zones)
      ∧ (s.presence.held = false → nth1 t.presence.zones z = some { seen := some (nowOf s), counts := true }
          ∧ t.presence.occupancy = .occupied ∧ t.presence.vacancy = some (nowOf s)
          ∧ t.presence.h = headcountOf t.presence)
      ∧ t.presence.doors = s.presence.doors ∧ t.presence.co2 = s.presence.co2 ∧ t.faults = s.faults
      ∧ t.cal = s.cal ∧ t.service = s.service ∧ t.eeprom = s.eeprom ∧ t.journal = s.journal ∧ t.pins = s.pins)
  ∧ (∀ (s : State) (z : Nat) (x : MotionZone) (since : Stamp), powered s = true → nth1 s.presence.zones z = some x →
    x.counts = true → x.seen = some since → 300000 ≤ elapsed since (nowOf s) →
    ∃ t, exec (.motionAgeExpiry z) s = .next t
      ∧ nth1 t.presence.zones z = some { x with counts := false }
      ∧ t.presence.h = headcountOf t.presence
      ∧ t.presence = { s.presence with zones := t.presence.zones, h := t.presence.h }
      ∧ KeepsRest s t)

/-- CO2_SAMPLE and CO2_HOLD_EXPIRY (R50, R51): a valid sample renews the hold, forms Hc from the applied grant and clears the fault; one
outside 300..5000 ppm, or malformed, is counted and changes nothing else; the end of the hold makes CO2 invalid and raises the fault. -/
def Obligations.Co2IsHeld : Prop :=
  (∀ (s : State) (c : Nat), takesFields s = true → 300 ≤ c → c ≤ 5000 →
    ∃ t, exec (.co2Sample (some c)) s = .next t
      ∧ t.presence.co2 = { value := c, arrived := nowOf s, grant := s.air.applied,
                           hc := co2Estimate c s.cfg.cout s.air.applied, valid := true, hold := some (nowOf s) }
      ∧ t.presence.h = headcountOf t.presence
      ∧ t.presence = { s.presence with co2 := t.presence.co2, h := t.presence.h }
      ∧ t.faults = { s.faults with co2 := false } ∧ t.cal = s.cal ∧ t.eeprom = s.eeprom ∧ t.service = s.service)
  ∧ (∀ (s : State) (ppm : Option Nat), takesFields s = true → (∀ c, ppm = some c → c < 300 ∨ 5000 < c) →
    exec (.co2Sample ppm) s =
      .next { s with presence := { s.presence with discardedCo2 := s.presence.discardedCo2 + 1 } })
  ∧ (∀ (s : State) (since : Stamp), powered s = true → s.presence.co2.hold = some since →
    60000 ≤ elapsed since (nowOf s) →
    ∃ t, exec .co2HoldExpiry s = .next t ∧ t.presence.co2 = { s.presence.co2 with valid := false, hold := none }
      ∧ t.presence.h = headcountOf t.presence
      ∧ t.presence = { s.presence with co2 := t.presence.co2, h := t.presence.h }
      ∧ t.faults = { s.faults with co2 := true } ∧ t.cal = s.cal ∧ t.eeprom = s.eeprom ∧ t.service = s.service)

/-- VACANCY_TIMER_EXPIRY and VACATING_HOLD_EXPIRY (R54, R56, R57): a room whose queue is not held becomes VACANT with N at 0, RECOUNT
clear and both timers stopped, one correction being counted where people were still counted in an OCCUPIED room; while the queue is held
the expiry is kept pending. -/
def Obligations.OccupancyTimersExpire : Prop :=
  (∀ (s : State) (since : Stamp), powered s = true → s.presence.vacancy = some since →
    s.cfg.tv * 60000 ≤ elapsed since (nowOf s) →
    ∃ t, exec .vacancyTimerExpiry s = .next t ∧ KeepsRest s t
      ∧ (s.presence.held = true → t.presence = { s.presence with pendingVacancy := true })
      ∧ (s.presence.held = false → s.presence.occupancy ≠ .vacant →
          t.presence.occupancy = .vacant ∧ t.presence.n = 0 ∧ t.presence.recount = false ∧ t.presence.h = 0
          ∧ t.presence.vacancy = none ∧ t.presence.vacating = none
          ∧ t.presence.corrections = (if s.presence.occupancy = .occupied ∧ s.presence.n ≠ 0
              then s.presence.corrections + 1 else s.presence.corrections)))
  ∧ (∀ (s : State) (since : Stamp), powered s = true → s.presence.vacating = some since →
    120000 ≤ elapsed since (nowOf s) →
    ∃ t, exec .vacatingHoldExpiry s = .next t ∧ KeepsRest s t
      ∧ (s.presence.held = true → t.presence = { s.presence with pendingVacating := true })
      ∧ (s.presence.held = false → s.presence.occupancy = .vacating →
          t.presence.occupancy = .vacant ∧ t.presence.n = 0 ∧ t.presence.recount = false ∧ t.presence.h = 0
          ∧ t.presence.vacancy = none ∧ t.presence.vacating = none
          ∧ t.presence.corrections = s.presence.corrections))

/-! ### Air -/

/-- The entry a DEMAND of a station gives the peer view (R74): its content and sequence, with age 0, FRESH. -/
def freshEntry (source : Nat) (c : DemandContent) (q : Nat) (now : Stamp) : Peer :=
  { station := source, content := c, seq := q, since := now, stale := false }

/-- The peer view is in ascending order of station number, with at most one entry for any (R74). -/
def peersAscend (l : List Peer) : Prop := l.Pairwise (fun a b => a.station < b.station)

/-- DEMAND to the own air group (R73, R74, R77): a held peer is renewed, or takes content and sequence; a new one takes an entry, where
the view is full in the place of the STALE entry with the greatest age, and none being STALE is kept out and counted. -/
def Obligations.DemandsEnterThePeerView : Prop :=
  ∀ (s : State) (h : RxHeader) (payload : List Byte), Reaches s kDemand h payload → toOwnGroup s h = true →
    peersAscend s.air.peers →
    ∃ t, exec (.demand h payload) s = .next t
      ∧ HandedOn { heard s with
          air := { s.air with peers := t.air.peers, overflows := t.air.overflows }
          bus := (if rdDemand payload = none then heardUnusable s else heard s).bus } t
      ∧ peersAscend t.air.peers
      ∧ (rdDemand payload = none → t.air.peers = s.air.peers ∧ t.air.overflows = s.air.overflows)
      ∧ (∀ c q e, rdDemand payload = some (c, q) → findPeer h.source.toNat s.air.peers = some e →
          t.air.overflows = s.air.overflows
          ∧ t.air.peers = s.air.peers.map (fun x => if x.station ≠ h.source.toNat then x
              else if q ≠ 0 ∧ q = e.seq then { e with since := nowOf s, stale := false }
              else freshEntry h.source.toNat c q (nowOf s)))
      ∧ (∀ c q, rdDemand payload = some (c, q) → findPeer h.source.toNat s.air.peers = none → s.air.peers.length < 24 →
          t.air.overflows = s.air.overflows
          ∧ ∀ x, x ∈ t.air.peers ↔ x ∈ s.air.peers ∨ x = freshEntry h.source.toNat c q (nowOf s))
      ∧ (∀ c q, rdDemand payload = some (c, q) → findPeer h.source.toNat s.air.peers = none →
          24 ≤ s.air.peers.length → (∀ x ∈ s.air.peers, x.stale = false) →
          t.air.overflows = s.air.overflows + 1 ∧ t.air.peers = s.air.peers)
      ∧ (∀ c q z, rdDemand payload = some (c, q) → findPeer h.source.toNat s.air.peers = none →
          24 ≤ s.air.peers.length → z ∈ s.air.peers → z.stale = true →
          (∀ x ∈ s.air.peers, x.stale = true → elapsed x.since (nowOf s) < elapsed z.since (nowOf s)
            ∨ elapsed x.since (nowOf s) = elapsed z.since (nowOf s) ∧ z.station ≤ x.station) →
          t.air.overflows = s.air.overflows
          ∧ ∀ x, x ∈ t.air.peers ↔
              (x ∈ s.air.peers ∧ x.station ≠ z.station) ∨ x = freshEntry h.source.toNat c q (nowOf s))

/-- CAPACITY in one of its three scopes (R78): the record is replaced whole, with at most 20 000 l/s, and CAPACITY-DEFAULT is cleared; a
content that fails its checks is counted unusable and changes nothing else. -/
def Obligations.CapacityIsTaken : Prop :=
  ∀ (s : State) (h : RxHeader) (payload : List Byte), Reaches s kCapacity h payload →
    (toOwnGroup s h || toOwnStation s h || toAll h) = true →
    (∀ flow running, rdCapacity payload = some (flow, running) → flow ≤ 20000 ∧
      ∃ t, exec (.capacity h payload) s = .next t
        ∧ HandedOn { heard s with
            air := { s.air with capacity := some { flow := flow, running := running, since := nowOf s } }
            faults := { s.faults with capacityDefault := false } } t)
    ∧ (rdCapacity payload = none → ∃ t, exec (.capacity h payload) s = .next t ∧ HandedOn (heardUnusable s) t)

/-- PEER_STALE, PEER_REMOVE and CAPACITY_AGE_EXPIRY (R75, R79): at 90 s an entry becomes STALE, at 300 s it is removed; at 120 s the
capacity record gives way to the default and CAPACITY-DEFAULT is raised. -/
def Obligations.PeersAndCapacityAge : Prop :=
  (∀ (s : State) (n : Nat) (p : Peer), powered s = true → findPeer n s.air.peers = some p → p.stale = false →
    90000 ≤ elapsed p.since (nowOf s) →
    ∃ t, exec (.peerStale n) s = .next t
      ∧ HandedOn { s with air := { s.air with peers := t.air.peers } } t
      ∧ t.air.peers = s.air.peers.map (fun x => if x.station = n then { x with stale := true } else x))
  ∧ (∀ (s : State) (n : Nat) (p : Peer), powered s = true → findPeer n s.air.peers = some p →
    300000 ≤ elapsed p.since (nowOf s) →
    ∃ t, exec (.peerRemove n) s = .next t
      ∧ HandedOn { s with air := { s.air with peers := t.air.peers } } t
      ∧ ∀ x, x ∈ t.air.peers ↔ x ∈ s.air.peers ∧ x.station ≠ n)
  ∧ (∀ (s : State) (c : CapacityRecord), powered s = true → s.air.capacity = some c →
    120000 ≤ elapsed c.since (nowOf s) →
    ∃ t, exec .capacityAgeExpiry s = .next t
      ∧ HandedOn { s with air := { s.air with capacity := none }
                          faults := { s.faults with capacityDefault := true } } t)

/-- DEMAND_REFRESH_EXPIRY (R71, R72) and DAMPER_REFRESH_EXPIRY (R88, R89): the DEMAND is composed with the content as it stands, its
sequence stepping where the content has changed; the output is written with the current command. Under the HOLD idle policy, and at a
follower without a share, the output stays and the timer runs again: the model's reading (assumption log entry 32). -/
def Obligations.RefreshesRepeat : Prop :=
  (∀ (s : State) (since : Stamp), powered s = true → s.listening = false → s.station ≠ 0 → s.air.refresh = some since →
    30000 ≤ elapsed since (nowOf s) →
    ∃ t, exec .demandRefreshExpiry s = .next t
      ∧ t = { s with
                air := { s.air with last := some (demandContent s), seq := t.air.seq, refresh := some (nowOf s) }
                bus := t.bus }
      ∧ t.air.seq = (if s.air.last = none then 0 else if s.air.last = some (demandContent s) then s.air.seq
          else if 255 ≤ s.air.seq then 1 else s.air.seq + 1)
      ∧ t.bus = enqueue s.station false
          { kind := kDemand, scope := scopeAirGroup, dest := s.cfg.airGroup,
            payload := demandBytes (demandContent s) t.air.seq } s.bus)
  ∧ (∀ (s : State) (since : Stamp), powered s = true → s.air.rewrite = some since → 30000 ≤ elapsed since (nowOf s) →
    ∃ t, exec .damperRefreshExpiry s = .next t
      ∧ t = { s with air := { s.air with output := t.air.output, applied := t.air.applied, rewrite := some (nowOf s) } }
      ∧ (s.service.air = .purge → t.air.output = 1000 ∧ t.air.applied = s.cfg.fmax)
      ∧ (s.service.air = .smokeHold → t.air.output = 0 ∧ t.air.applied = 0)
      ∧ (s.service.air = .none → s.service.maskAir = true → s.cfg.airIdle = .hold →
          t.air.output = s.air.output ∧ t.air.applied = s.air.applied)
      ∧ (∀ v, s.service.air = .none → s.service.maskAir = true → s.cfg.airIdle = .fixed v →
          t.air.output = v ∧ t.air.applied = v * s.cfg.fmax / 1000)
      ∧ (∀ f, s.service.air = .none → s.service.maskAir = false → damperFlow s = some f →
          t.air.output = damperCommand f s.cfg.fmax ∧ t.air.applied = f)
      ∧ (s.service.air = .none → s.service.maskAir = false → damperFlow s = none →
          t.air.output = s.air.output ∧ t.air.applied = s.air.applied))

/-- The grant never exceeds the station's own current demand, and both lie within the Fmax in use (R81, R82). -/
def Obligations.GrantWithinDemand : Prop :=
  ∀ s : State, fminInUse s ≤ fmaxInUse s → fsetInUse s ≤ fmaxInUse s → s.air.own = demandRow s →
    grantOf s ≤ s.air.own.d ∧ s.air.own.d ≤ fmaxInUse s

/-- Where the views of the stations of an air group agree on the counted set and the capacity, their grants together stay within the
capacity. -/
def Obligations.GrantsFitTheCapacity : Prop :=
  ∀ (cap : Nat) (rooms : List State),
    (∀ s ∈ rooms, s.listening = false ∧ s.station ≠ 0 ∧ s.service.air = .none ∧ s.service.maskAir = false
      ∧ isFollow s = false ∧ plantRunning s = true ∧ noLimit s = false ∧ capacityInUse s = cap
      ∧ (countOwn s.air.own :: s.air.peers.map countPeer).Perm (rooms.map (fun r => countOwn r.air.own))) →
    (rooms.map grantOf).sum ≤ cap

/-- The lead's own part of the grant never exceeds its own Fmax (R84), and the damper command of a flow is the nearest thousandth of the
own Fmax, halves up, of at most 1000 (R87). -/
def Obligations.OwnPartFitsTheDamper : Prop :=
  (∀ (s : State) (g : Group) (own : Nat), flowGroup s = some g → g.fmax = own + g.followerFmax → 0 < g.fmax →
    s.air.g ≤ g.fmax → s.air.share = shareOf s s.air.g → (∃ p, roleOf s = .lead p) →
    ∃ f, damperFlow s = some f ∧ f ≤ own ∧ f + s.air.g * g.followerFmax / g.fmax = s.air.g)
  ∧ (∀ flow fmax, 0 < fmax → damperCommand flow fmax ≤ 1000
    ∧ (flow ≤ fmax → 2 * flow * 1000 < 2 * fmax * damperCommand flow fmax + fmax
        ∧ 2 * fmax * damperCommand flow fmax ≤ 2 * flow * 1000 + fmax))

/-- The pre-conditioning lead (R86): 60 minutes where no air could be granted; otherwise between 5 and 60 minutes, below 60 long enough
for the what-if grant to move one and a half volumes, and above 5 not a minute longer than that. -/
def Obligations.LeadTimeSuffices : Prop :=
  ∀ volume ge, leadMinutes volume 0 = 60
    ∧ 5 ≤ leadMinutes volume ge ∧ leadMinutes volume ge ≤ 60
    ∧ (0 < ge → leadMinutes volume ge < 60 → volume * 1500 ≤ leadMinutes volume ge * 60 * ge)
    ∧ (0 < ge → 5 < leadMinutes volume ge → (leadMinutes volume ge - 1) * 60 * ge < volume * 1500)

/-! ### Light -/

/-- The session the blocks read is up to date, and no PENDING record is near enough for the grant to change it (R29, R37, R145). -/
def sessionSettled (s : State) : Prop :=
  s.tt.summary = summarize s.tt.records ∧ inListOrder s.tt.records
  ∧ (∀ g, s.join.group = some g → g.session = earlierGov (ownGov s) g.fSession)
  ∧ ∀ now, calInstant s.cal = some now → ∀ b ∈ s.tt.records, b.state = .pending → now + 3600 < dateInstant b.start

/-- LUX_SAMPLE and LUX_HOLD_EXPIRY (R102 to R104): a valid sample renews the hold and clears the fault, and becomes the lux in use where
there is none or it differs by 20 lux or more; one over 2000 lux, or malformed, is counted and changes nothing else; the end of the hold
makes lux invalid and raises the fault. The targets are formed again. -/
def Obligations.LuxIsHeld : Prop :=
  (∀ (s : State) (v : Nat), takesFields s = true → v ≤ 2000 →
    ∃ t, exec (.luxSample (some v)) s = .next t ∧ targetsFormed t
      ∧ t.light.lux = { value := v, arrived := nowOf s, valid := true, hold := some (nowOf s), lu := t.light.lux.lu }
      ∧ (s.light.lux.lu = none → t.light.lux.lu = some v)
      ∧ (∀ u, s.light.lux.lu = some u → t.light.lux.lu = some (if v + 20 ≤ u ∨ u + 20 ≤ v then v else u))
      ∧ HandedOn { s with light := { s.light with lux := t.light.lux }, faults := { s.faults with lux := false } } t
      ∧ t.tt = s.tt ∧ t.air = s.air ∧ t.blind = s.blind ∧ t.light.scene = s.light.scene ∧ t.light.hold = s.light.hold)
  ∧ (∀ (s : State) (lux : Option Nat), takesFields s = true → (∀ v, lux = some v → 2000 < v) →
    exec (.luxSample lux) s = .next { s with light := { s.light with discarded := s.light.discarded + 1 } })
  ∧ (∀ (s : State) (since : Stamp), powered s = true → s.light.lux.hold = some since →
    10000 ≤ elapsed since (nowOf s) →
    ∃ t, exec .luxHoldExpiry s = .next t ∧ targetsFormed t
      ∧ t.light.lux = { s.light.lux with valid := false, hold := none, lu := none }
      ∧ HandedOn { s with light := { s.light with lux := t.light.lux }, faults := { s.faults with lux := true } } t
      ∧ t.tt = s.tt ∧ t.air = s.air ∧ t.blind = s.blind ∧ t.light.scene = s.light.scene ∧ t.light.hold = s.light.hold)

/-- Fades and levels (R104, R105): FADE_END leaves the zone at its target; on the way a level lies between start and target, held back
toward the start by less than one; a corrected level does not exceed the scene's, does not rise with the daylight, and is 0 only in a
zone that dims to off or has the minimum 0. -/
def Obligations.LevelsStayInBounds : Prop :=
  (∀ (s : State) (i : Nat) (z : Zone) (f : Fade), powered s = true → nth1 s.light.zones i = some z → z.fade = some f →
    f.len ≤ elapsed f.since (nowOf s) →
    ∃ t, exec (.fadeEnd i) s = .next t
      ∧ t = { s with light := { s.light with zones := t.light.zones } }
      ∧ nth1 t.light.zones i = some { level := z.target, target := z.target, fade := none }
      ∧ ∀ j, j ≠ i → nth1 t.light.zones j = nth1 s.light.zones j)
  ∧ (∀ start target e len : Nat, e < len →
      min start target ≤ fadeLevel start target e len ∧ fadeLevel start target e len ≤ max start target
      ∧ distance (fadeLevel start target e len) start * len ≤ distance target start * e
      ∧ distance target start * e < (distance (fadeLevel start target e len) start + 1) * len)
  ∧ (∀ (z : ZoneCfg) (level et lu lu' : Nat), 0 < et → 0 < level → lu ≤ lu' →
      correctedLevel z level et lu' ≤ correctedLevel z level et lu ∧ correctedLevel z level et lu ≤ level
      ∧ (correctedLevel z level et lu = 0 → z.dimToOff = true ∨ z.minDim = 0))

/-- PANEL_SCENE to the station (R99, R94): the panel hold begins afresh with the scene and no overrides, and records the governing
session; the scene is the room scene, and the zones take its targets. At a follower it becomes the pending request, and the local hold
stays. -/
def Obligations.PanelScenesAreTaken : Prop :=
  (∀ (s : State) (h : RxHeader) (n : Byte), Reaches s kPanel h [0x00#8, n] → (toOwnStation s h || toAll h) = true →
    n.toNat ≤ 7 → isFollow s = false →
    ∃ t, exec (.panelScene h [n]) s = .next t ∧ HandedOn (heard s) t ∧ targetsFormed t
      ∧ (sessionSettled s →
          t.light.hold = some { scene := some n.toNat, overrides := [none, none, none, none, none, none],
                                recorded := (govRead s).map (fun g => (g.id, g.owner)) }
          ∧ (s.listening = false → t.light.scene = some n.toNat ∧ t.light.source = .panel)))
  ∧ (∀ (s : State) (h : RxHeader) (n : Byte) (f : Follower), Reaches s kPanel h [0x00#8, n] →
    (toOwnStation s h || toAll h) = true → n.toNat ≤ 7 → followRecord s = some f →
    ∃ t f', exec (.panelScene h [n]) s = .next t ∧ t.join.follower = some f' ∧ f'.requestScene = n.toNat
      ∧ f'.request = (if 255 ≤ f.request then 1 else f.request + 1)
      ∧ t.light = s.light ∧ t.air = s.air ∧ t.tt = s.tt ∧ t.blind = s.blind
      ∧ HandedOn { heard s with join := { s.join with
          follower := some { f with request := f'.request, requestScene := n.toNat } } } t)
  ∧ (∀ (s : State) (h : RxHeader) (rest : List Byte), Reaches s kPanel h (0x00#8 :: rest) →
    (toOwnStation s h || toAll h) = true → (∀ n, rest = [n] → 7 < n.toNat) →
    ∃ t, exec (.panelScene h rest) s = .next t ∧ HandedOn (heardUnusable s) t ∧ t.light = s.light)

/-- PANEL_LEVEL to the station (R100): a hold begins where none is active, and each addressed zone takes the override: the value clamped to
0..1000, or the zone's base plus the step so clamped; the other overrides stay. -/
def Obligations.PanelLevelsSetOverrides : Prop :=
  ∀ (s : State) (h : RxHeader) (rest : List Byte) (r : PanelRequest) (a : LevelAddress),
    Reaches s kPanel h (0x01#8 :: rest) → (toOwnStation s h || toAll h) = true →
    rdPanel s.cfg.zones (0x01#8 :: rest) = some r →
    ((∃ v, r = .levelAbs a v) ∨ ∃ d, r = .levelStep a d) →
    (∀ x, s.light.hold = some x → x.overrides.length = 6) →
    ∃ t, exec (.panelLevel h rest) s = .next t ∧ HandedOn (heard s) t ∧ targetsFormed t
      ∧ (sessionSettled s → (∀ x, s.light.hold = some x → sessionEndsHold x.recorded (govRead s) = false) →
          ∃ y, t.light.hold = some y ∧ y.overrides.length = 6
            ∧ (∀ i, 1 ≤ i → i ≤ 6 → i ∈ addressed s.cfg.zones a →
                (∀ v, r = .levelAbs a v → nth1 y.overrides i = some (some (min 1000 v)))
                ∧ (∀ d, r = .levelStep a d → nth1 y.overrides i = some (some (clampLevel ((stepBase s i : Int) + d)))))
            ∧ (∀ i, 1 ≤ i → i ≤ 6 → i ∉ addressed s.cfg.zones a → nth1 y.overrides i = some (overrideOf s.light i)))

/-- PANEL_BLIND and PANEL_RELEASE to the station (R101, R125, R126): the named motor, or every motor for FFh, takes a panel hold of the
position, which is its target in force where no higher row holds; a motor that is not configured is counted unusable. RELEASE ends the
light hold and every blind hold. The target in force is set as it is accepted, also where the move waits in PAUSE or REFERENCING: the model's
reading of R115 (assumption log entry 31). -/
def Obligations.PanelHoldsOfBlinds : Prop :=
  (∀ (s : State) (h : RxHeader) (m p1 p0 : Byte), Reaches s kPanel h [0x02#8, m, p1, p0] →
    (toOwnStation s h || toAll h) = true →
    (m.toNat = 255 ∨ 1 ≤ m.toNat ∧ m.toNat ≤ s.blind.motors.length) →
    ∃ t, exec (.panelBlind h [m, p1, p0]) s = .next t ∧ HandedOn (heard s) t
      ∧ t.light = s.light ∧ t.air = s.air ∧ t.tt = s.tt
      ∧ ∀ i x, nth1 s.blind.motors i = some x → ∃ y, nth1 t.blind.motors i = some y
          ∧ (m.toNat = 255 ∨ m.toNat = i →
              y.hold = some { position := min 1000 (p1.toNat * 256 + p0.toNat), since := nowOf s }
              ∧ ∀ c, nth1 s.cfg.motors i = some c → s.service.evacuate = false → s.service.maskBlind = false →
                  windHolds s.blind c.facade = false → s.listening = false →
                  y.inForce = some (min 1000 (p1.toNat * 256 + p0.toNat)))
          ∧ (m.toNat ≠ 255 → m.toNat ≠ i → y.hold = x.hold))
  ∧ (∀ (s : State) (h : RxHeader) (m p1 p0 : Byte), Reaches s kPanel h [0x02#8, m, p1, p0] →
    (toOwnStation s h || toAll h) = true → m.toNat ≠ 255 → (m.toNat = 0 ∨ s.blind.motors.length < m.toNat) →
    ∃ t, exec (.panelBlind h [m, p1, p0]) s = .next t ∧ HandedOn (heardUnusable s) t ∧ t.blind = s.blind)
  ∧ (∀ (s : State) (h : RxHeader), Reaches s kPanel h [0x03#8] → (toOwnStation s h || toAll h) = true →
    ∃ t, exec (.panelRelease h []) s = .next t ∧ HandedOn (heard s) t ∧ targetsFormed t
      ∧ t.light.hold = none ∧ ∀ y ∈ t.blind.motors, y.hold = none)

/-! ### Blinds -/

/-- The command changes motor `n` alone, which becomes `y`. -/
def motorBecomes (s t : State) (n : Nat) (y : Motor) : Prop :=
  t = { s with blind := { s.blind with motors := t.blind.motors } }
  ∧ nth1 t.blind.motors n = some y ∧ ∀ j, j ≠ n → nth1 t.blind.motors j = nth1 s.blind.motors j

/-- RUN_COMPLETE, REFERENCING_COMPLETE and LOCKED_RUN_COMPLETE (R114, R115, R116, R118, R123): the run's target, or 0, becomes the
estimate, direction and instant are recorded, and the count of runs steps after a normal run and is cleared otherwise; a target that waited
for the referencing run, which is never 0, is started: where it is near the motor is idle at once, and else it waits in PAUSE. The target in force stays as it was set when the target
was accepted (assumption log entry 31). -/
def Obligations.MotorRunsEnd : Prop :=
  (∀ (s : State) (n : Nat) (c : MotorCfg) (m : Motor) (r : Run), powered s = true → nth1 s.cfg.motors n = some c →
    nth1 s.blind.motors n = some m → m.state = .movingUp ∨ m.state = .movingDown → m.run = some r →
    r.len ≤ elapsed r.since (nowOf s) →
    ∃ t, exec (.runComplete n) s = .next t
      ∧ motorBecomes s t n { m with state := .idle, estimate := some r.target, run := none, lastDir := some r.dir,
                                    lastStop := some (nowOf s), count := if r.kind = .normal then m.count + 1 else 0 })
  ∧ (∀ (s : State) (n : Nat) (c : MotorCfg) (m : Motor) (r : Run), powered s = true → nth1 s.cfg.motors n = some c →
    nth1 s.blind.motors n = some m → m.state = .referencing → m.run = some r → r.len ≤ elapsed r.since (nowOf s) →
    m.pending ≠ some 0 →
    ∃ t y, exec (.referencingComplete n) s = .next t ∧ motorBecomes s t n y
      ∧ y = { m with state := y.state, estimate := some 0, run := none, lastDir := some .up, lastStop := some (nowOf s),
                     count := 0, pending := y.pending }
      ∧ (m.pending = none → y.state = .idle ∧ y.pending = none)
      ∧ (∀ p, m.pending = some p → 1 ≤ p → p ≤ 20 → y.state = .idle ∧ y.pending = none)
      ∧ (∀ p, m.pending = some p → 20 < p → y.state = .pause ∧ y.pending = some p))
  ∧ (∀ (s : State) (n : Nat) (c : MotorCfg) (m : Motor) (r : Run), powered s = true → nth1 s.cfg.motors n = some c →
    nth1 s.blind.motors n = some m → m.state = .locked → m.run = some r → r.len ≤ elapsed r.since (nowOf s) →
    ∃ t, exec (.lockedRunComplete n) s = .next t
      ∧ motorBecomes s t n { m with estimate := some 0, run := none, lastDir := some .up, lastStop := some (nowOf s),
                                    count := 0, pending := none })

/-- PAUSE_END (R116, R123) and BLIND_HOLD_EXPIRY (R126): 500 ms after the last stop the locked run or the pending move starts, towards the
target from the estimate; after 1800 s the panel hold of the motor ends, and no other. A pending target near the estimate leaves the motor
IDLE, and a due referencing run comes first (R118). The target in force stays as it was set when the target was accepted (assumption log
entry 31). -/
def Obligations.PausesAndHoldsEnd : Prop :=
  (∀ (s : State) (n : Nat) (c : MotorCfg) (m : Motor), powered s = true → nth1 s.cfg.motors n = some c →
    nth1 s.blind.motors n = some m → m.state = .pause → (∀ u, m.lastStop = some u → 500 ≤ elapsed u (nowOf s)) →
    ∃ t y, exec (.pauseEnd n) s = .next t ∧ motorBecomes s t n y ∧ y.estimate = m.estimate ∧ y.hold = m.hold
      ∧ y.inForce = m.inForce
      ∧ (m.lockPending = true → y.state = .locked ∧ y.lockPending = false ∧ ∃ r, y.run = some r ∧ r.dir = .up ∧ r.since = nowOf s)
      ∧ (∀ p q, m.lockPending = false → m.pending = some q → m.estimate = some p → m.count.toNat < 20 →
          isNear q (some p) = false →
          y.pending = none ∧ y.state = (if dirTo p q = .up then .movingUp else .movingDown)
            ∧ y.run = some (runTo (nowOf s) c (dirTo p q) p q))
      ∧ (∀ q, m.lockPending = false → m.pending = some q → isNear q m.estimate = true →
          y.state = .idle ∧ y.pending = none ∧ y.run = m.run)
      ∧ (∀ p q, m.lockPending = false → m.pending = some q → m.estimate = some p → 20 ≤ m.count.toNat → q ≠ 0 → q ≠ 1000 →
          isNear q (some p) = false →
          y.state = .referencing ∧ y.pending = some q ∧ y.run = some (referencingRun (nowOf s) c (some p)))
      ∧ (∀ q, m.lockPending = false → m.pending = some q → m.estimate = none →
          y.state = .referencing ∧ y.run = some (referencingRun (nowOf s) c none)))
  ∧ (∀ (s : State) (n : Nat) (m : Motor) (x : BlindHold), powered s = true → nth1 s.blind.motors n = some m →
    m.hold = some x → 1800000 ≤ elapsed x.since (nowOf s) →
    ∃ t, exec (.blindHoldExpiry n) s = .next t
      ∧ t = { s with blind := { s.blind with motors := t.blind.motors } }
      ∧ (∃ y, nth1 t.blind.motors n = some y ∧ y.hold = none)
      ∧ ∀ j a, j ≠ n → nth1 s.blind.motors j = some a → ∃ b, nth1 t.blind.motors j = some b ∧ b.hold = a.hold)

/-- A façade record a SUN or WIND names: every one in scope ALL, else the one of the destination. -/
def facadeNamed (h : RxHeader) (f : Facade) : Prop := toAll h = true ∨ f.number = h.dest.toNat

/-- SUN, WIND and the expiries of their records (R121 to R123): the named façades take the level with age 0, or the lock moves: ON at any
ON, HOLDING at an OFF from ON, its timer not restarted by another OFF; after 900 s the sun record is gone, after 600 s the lock CLEAR. A
content that fails its check is counted unusable. -/
def Obligations.SunAndWindAreRecorded : Prop :=
  (∀ (s : State) (h : RxHeader) (payload : List Byte), Reaches s kSun h payload → blindScope h = true →
    ∃ t, exec (.sun h payload) s = .next t
      ∧ (rdSun payload = none → HandedOn (heardUnusable s) t ∧ t.blind = s.blind)
      ∧ (∀ l, rdSun payload = some l →
          HandedOn { heard s with blind := { s.blind with facades := t.blind.facades } } t
          ∧ t.blind.facades.length = s.blind.facades.length
          ∧ ∀ (i : Nat) (f : Facade), s.blind.facades[i]? = some f → ∃ g, t.blind.facades[i]? = some g
              ∧ (facadeNamed h f → g = { f with sun := l, sunSince := some (nowOf s) })
              ∧ (¬ facadeNamed h f → g = f)))
  ∧ (∀ (s : State) (h : RxHeader) (payload : List Byte), Reaches s kWind h payload → blindScope h = true →
    ∃ t, exec (.wind h payload) s = .next t
      ∧ (rdWind payload = none → HandedOn (heardUnusable s) t ∧ t.blind = s.blind)
      ∧ (∀ on, rdWind payload = some on →
          HandedOn { heard s with blind := { s.blind with facades := t.blind.facades } } t
          ∧ t.blind.facades.length = s.blind.facades.length
          ∧ ∀ (i : Nat) (f : Facade), s.blind.facades[i]? = some f → ∃ g, t.blind.facades[i]? = some g
              ∧ g = { f with wind := g.wind }
              ∧ (¬ facadeNamed h f → g = f)
              ∧ (facadeNamed h f → on = true → g.wind = .on)
              ∧ (facadeNamed h f → on = false → f.wind = .on → g.wind = .holding (nowOf s))
              ∧ (facadeNamed h f → on = false → f.wind ≠ .on → g.wind = f.wind)))
  ∧ (∀ (s : State) (n : Nat) (f : Facade) (since : Stamp), powered s = true → facadeOf s.blind n = some f →
    f.sunSince = some since → 900000 ≤ elapsed since (nowOf s) →
    ∃ t, exec (.sunAgeExpiry n) s = .next t ∧ t = { s with blind := t.blind }
      ∧ t.blind.facades = s.blind.facades.map
          (fun g => if g.number = n then { g with sun := .none, sunSince := none } else g))
  ∧ (∀ (s : State) (n : Nat) (f : Facade) (since : Stamp), powered s = true → facadeOf s.blind n = some f →
    f.wind = .holding since → 600000 ≤ elapsed since (nowOf s) →
    ∃ t, exec (.windHoldingExpiry n) s = .next t ∧ t = { s with blind := t.blind }
      ∧ t.blind.facades = s.blind.facades.map (fun g => if g.number = n then { g with wind := .clear } else g))

/-- Forming the targets of the motors (R119, R123, R124): under EVACUATE, and under the wind lock of its façade where blinds are enabled,
every motor is locked up; disabled by the service mask otherwise it is stopped and held. A motor that comes to be locked runs up: at once from
rest and from a run up, a referencing run going on; after its PAUSE where it was running down or has stopped from a run down within 500 ms. Its
target in force is 0 in that PAUSE as well: the model's reading (assumption log entry 31). -/
def Obligations.MotorsLockAndStop : Prop :=
  ∀ (s : State) (n : Nat) (c : MotorCfg) (x m : Motor), nth1 s.cfg.motors n = some c → nth1 s.blind.motors n = some x →
    nth1 (formBlinds s).blind.motors n = some m →
    (s.service.evacuate = true ∨ s.service.maskBlind = false ∧ windHolds s.blind c.facade = true →
      isLockedUp m
      ∧ (x.state = .locked → m = { x with inForce := some 0 })
      ∧ (x.state = .movingUp → m.state = .locked ∧ relayUp m = true)
      ∧ (x.state = .referencing → m.state = .locked ∧ m.run = x.run ∧ (x.run ≠ none → relayUp m = true))
      ∧ (x.state = .movingDown ∨ x.state = .pause → m.state = .pause ∧ relayUp m = false)
      ∧ (x.state = .idle ∨ x.state = .unreferenced →
          (reversalOwed (nowOf s) .up x = true → m.state = .pause ∧ relayUp m = false)
          ∧ (reversalOwed (nowOf s) .up x = false → m.state = .locked ∧ relayUp m = true
              ∧ ∃ r, m.run = some r ∧ r.dir = .up ∧ r.since = nowOf s)))
    ∧ (s.service.evacuate = false → s.service.maskBlind = true → isStopped m)

/-! ### Joins -/

/-- A JOIN telegram reaches the Join Unit of a numbered part outside its listen-in, from the neighbour of a configured partition, whose
record is `x`. -/
structure JoinReaches (s : State) (kind : Nat) (h : RxHeader) (payload : List Byte) (p : Nat) (x : Partition) : Prop
    extends Reaches s kind h payload where
  hears : joinDeaf s = false
  neighbour : partitionFrom s h.source.toNat = some p
  record : partitionOf s p = some x

/-- A telegram of the Join Unit to the neighbour of a partition (R131). -/
def joinTelegram (s : State) (p kind : Nat) (payload : List Byte) : OutTelegram :=
  { kind := kind, scope := scopeStation, dest := neighbourOf s p, payload := payload }

/-- Every other partition is as before, but that one BLOCKED with its retry due may claim now that the station has become free (R132). -/
def othersStay (s t : State) (p : Nat) : Prop :=
  ∀ r y, r ≠ p → partitionOf s r = some y → ∃ z, partitionOf t r = some z
    ∧ (z = y ∨ y.state = .blocked ∧ y.retry = .due ∧ z = claimingPartition (nowOf s) y)

/-- PARTITION_CONTACT_CHANGE and DEBOUNCE_EXPIRY (R130 to R134, R139): a change of the raw contact starts the debounce afresh, or stops it
where the contact has returned, and holds the presence queue where it has not; after 5 s the debounced contact takes the raw value. CLOSED
ends a claim, a wait and a join; OPEN claims where the station is free, and else waits with its retry due. Without power, held, or before the
image reading that a restart awaits (R180, R181), the line's level changes and nothing else (assumption log entries 17 and 33). -/
def Obligations.ContactsDebounce : Prop :=
  (∀ (s : State) (p : Nat) (c : PartitionCfg) (x : Partition) (high : Bool), takesFields s = true →
    nth1 s.cfg.partitions p = some c → partitionOf s p = some x → x.state ≠ .notConfigured →
    ∃ t, exec (.partitionContactChange p high) s = .next t
      ∧ (contactOf c high = x.raw → HandedOn { s with pins := setPart s.pins p high } t)
      ∧ (contactOf c high ≠ x.raw → KeepsRest { s with pins := setPart s.pins p high } t
          ∧ partitionOf t p = some { x with
              raw := contactOf c high
              debounce := if contactOf c high = x.debounced then none else some (nowOf s) }
          ∧ (∀ r, r ≠ p → partitionOf t r = partitionOf s r)
          ∧ (contactOf c high ≠ x.debounced → t.presence.held = true)))
  ∧ (∀ (s : State) (p : Nat) (high : Bool), takesFields s = false →
    exec (.partitionContactChange p high) s = .next { s with pins := setPart s.pins p high })
  ∧ (∀ (s : State) (p : Nat) (x : Partition) (since : Stamp), powered s = true → partitionOf s p = some x →
    x.debounce = some since → 5000 ≤ elapsed since (nowOf s) →
    ∃ t y, exec (.debounceExpiry p) s = .next t ∧ partitionOf t p = some y ∧ KeepsRest s t
      ∧ y.raw = x.raw ∧ y.debounced = x.raw ∧ y.debounce = none ∧ othersStay s t p
      ∧ (x.raw = x.debounced → y = { x with debounce := none })
      ∧ (x.raw = false → x.debounced = true →
          x.state = .claiming ∨ x.state = .blocked ∨ x.state = .lead ∨ x.state = .follow →
          y.state = .closed ∧ y.retry = .none ∧ y.claimTimer = none)
      ∧ (x.raw = false → x.debounced = true → x.state = .lead ∨ x.state = .follow →
          t.join.relation = none ∧ t.join.group = none ∧ t.join.follower = none
          ∧ composesFirst s t s.bus (joinTelegram s p kJoinRelease []))
      ∧ (x.raw = true → x.debounced = false → x.state = .closed →
          (isFree s = false ∨ maySpeak s = false → y.state = .blocked ∧ y.retry = .due)
          ∧ (isFree s = true → maySpeak s = true →
              (∀ r z, r < p → partitionOf s r = some z → ¬(z.state = .blocked ∧ z.retry = .due)) →
              y = claimingPartition (nowOf s) { x with debounced := true, debounce := none }
              ∧ t.join.claimSeq = nextSeq s.join.claimSeq
              ∧ composesFirst s t s.bus (joinTelegram s p kJoinClaim [byteOf (nextSeq s.join.claimSeq)]))))

/-- CLAIM_TIMER_EXPIRY, RETRY_TIMER_EXPIRY, KEEP_TIMER_EXPIRY and ORPHAN_TIMER_EXPIRY (R133, R134, R140, R141): a claim is composed again
until its third attempt has failed, and then waits 60 s; a retry that becomes due claims where the station is free; a joined station sends
a JOIN-KEEP 30 s after its last telegram to the partner, and 120 s after the partner's last it releases, and is alone, BLOCKED. -/
def Obligations.JoinTimersExpire : Prop :=
  (∀ (s : State) (p : Nat) (x : Partition) (since : Stamp), powered s = true → partitionOf s p = some x →
    x.state = .claiming → x.claimTimer = some since → 2000 ≤ elapsed since (nowOf s) →
    ∃ t, exec (.claimTimerExpiry p) s = .next t ∧ KeepsRest s t
      ∧ (x.attempts < 3 →
          partitionOf t p = some { x with attempts := x.attempts + 1, claimTimer := some (nowOf s) }
          ∧ (∀ r, r ≠ p → partitionOf t r = partitionOf s r)
          ∧ composesFirst s t s.bus (joinTelegram s p kJoinClaim [byteOf s.join.claimSeq]))
      ∧ (3 ≤ x.attempts → partitionOf t p = some (restPartition .blocked (.timed (nowOf s)) x) ∧ othersStay s t p))
  ∧ (∀ (s : State) (p : Nat) (x : Partition) (since : Stamp), powered s = true → partitionOf s p = some x →
    x.state = .blocked → x.retry = .timed since → 60000 ≤ elapsed since (nowOf s) →
    ∃ t, exec (.retryTimerExpiry p) s = .next t ∧ KeepsRest s t
      ∧ (isFree s = false ∨ maySpeak s = false → partitionOf t p = some { x with retry := .due }
          ∧ ∀ r, r ≠ p → partitionOf t r = partitionOf s r)
      ∧ (isFree s = true → maySpeak s = true →
          (∀ r z, r < p → partitionOf s r = some z → ¬(z.state = .blocked ∧ z.retry = .due)) →
          partitionOf t p = some (claimingPartition (nowOf s) x)
          ∧ (∀ r, r ≠ p → partitionOf t r = partitionOf s r)
          ∧ t.join.claimSeq = nextSeq s.join.claimSeq
          ∧ composesFirst s t s.bus (joinTelegram s p kJoinClaim [byteOf (nextSeq s.join.claimSeq)])))
  ∧ (∀ (s : State) (p : Nat) (r : Relation), powered s = true → joinedPartition s = some p →
    s.join.relation = some r → 30000 ≤ elapsed r.keep (nowOf s) →
    exec .keepTimerExpiry s = .next { s with
      join := { s.join with relation := some { r with keep := nowOf s } }
      bus := enqueue s.station s.listening (joinTelegram s p kJoinKeep [byteOf r.partnerSeq]) s.bus })
  ∧ (∀ (s : State) (p : Nat) (x : Partition) (r : Relation), powered s = true → joinedPartition s = some p →
    partitionOf s p = some x → s.join.relation = some r → 120000 ≤ elapsed r.orphan (nowOf s) →
    ∃ t, exec .orphanTimerExpiry s = .next t ∧ KeepsRest s t
      ∧ partitionOf t p = some (restPartition .blocked (.timed (nowOf s)) x) ∧ othersStay s t p
      ∧ t.join.relation = none ∧ t.join.group = none ∧ t.join.follower = none
      ∧ composesFirst s t s.bus (joinTelegram s p kJoinRelease []))

/-- The JOIN telegrams with their payloads. -/
def joinCommands (h : RxHeader) (payload : List Byte) : List (Instr × Nat) :=
  [(.joinClaim h payload, kJoinClaim), (.joinAccept h payload, kJoinAccept), (.joinRefuse h payload, kJoinRefuse),
   (.joinRelease h payload, kJoinRelease), (.joinKeep h payload, kJoinKeep), (.joinState h payload, kJoinState),
   (.joinOrder h payload, kJoinOrder)]

/-- The content of a JOIN telegram fails its checks (R136): its length, or one of its codes. -/
def joinUnreadable (kind source : Nat) (payload : List Byte) : Prop :=
  (kind = kJoinClaim ∨ kind = kJoinKeep → payload.length ≠ 1)
  ∧ (kind = kJoinRefuse → ∀ r, payload = [r] → 1 < r.toNat)
  ∧ (kind = kJoinRelease → payload ≠ [])
  ∧ (kind = kJoinAccept → rdAccept payload = none)
  ∧ (kind = kJoinState → rdJoinState source payload = none)
  ∧ (kind = kJoinOrder → rdJoinOrder payload = none)

/-- A JOIN telegram is ignored uncounted in a listen-in and without a number (R152), and counted unusable where it comes from no neighbour
of a configured partition, or its content fails its checks (R136); the Join Unit keeps its partitions and what the partner has said. The check
refuses every code outside its table, a session kind, a scene and a group occupancy among them: the model's reading (assumption log entry
30). -/
def Obligations.JoinTelegramsAreChecked : Prop :=
  ∀ (s : State) (h : RxHeader) (payload : List Byte) (c : Instr) (kind : Nat), (c, kind) ∈ joinCommands h payload →
    Reaches s kind h payload →
    (joinDeaf s = true → ∃ t, exec c s = .next t ∧ HandedOn (heard s) t)
    ∧ (joinDeaf s = false → partitionFrom s h.source.toNat = none →
        ∃ t, exec c s = .next t ∧ HandedOn (heardUnusable s) t)
    ∧ (∀ p, joinDeaf s = false → partitionFrom s h.source.toNat = some p → joinUnreadable kind h.source.toNat payload →
        ∃ t, exec c s = .next t ∧ KeepsRest (heardUnusable s) t ∧ KeepsJoin (heardUnusable s) t)

/-- JOIN_CLAIM from a neighbour, by the rows of R135: refused behind a closed wall and while engaged on the other partition; of two crossing
claims the lower number's goes on; a follower that has answered this claim answers again; every other partition behind an open wall follows,
with a fresh relation and follower record. That a repeated claim restarts the orphan timer, and that the return to SOLO inside R135 makes no
claim on another partition, is the model's reading (assumption log entry 11). -/
def Obligations.ClaimsAreAnswered : Prop :=
  ∀ (s : State) (h : RxHeader) (q : Byte) (p : Nat) (x : Partition), JoinReaches s kJoinClaim h [q] p x →
    ∃ t, exec (.joinClaim h [q]) s = .next t ∧ KeepsRest (heard s) t
      ∧ (x.debounced = false → t.join.partitions = s.join.partitions
          ∧ composesFirst s t (heard s).bus (joinTelegram s p kJoinRefuse [0]))
      ∧ (x.debounced = true → engagedElsewhere s p = true → t.join.partitions = s.join.partitions
          ∧ composesFirst s t (heard s).bus (joinTelegram s p kJoinRefuse [1]))
      ∧ (x.debounced = true → engagedElsewhere s p = false → x.state = .claiming → s.station < h.source.toNat →
          KeepsJoin (heard s) t)
      ∧ (∀ r f, x.debounced = true → engagedElsewhere s p = false → x.state = .follow → s.join.relation = some r →
          s.join.follower = some f → r.claimSeq = q.toNat →
          t.join.partitions = s.join.partitions
          ∧ t.join.relation.map (fun y => y.orphan) = some (nowOf s)
          ∧ t.join.follower.map (fun y => y.order) = some f.order
          ∧ composesFirst s t (heard s).bus (joinTelegram s p kJoinAccept (acceptBytes s q.toNat f)))
      ∧ (x.debounced = true → engagedElsewhere s p = false →
          (x.state = .claiming ∧ h.source.toNat ≤ s.station ∨ x.state = .blocked ∨ x.state = .lead
            ∨ x.state = .follow ∧ s.join.follower.isSome = true ∧ ∃ r, s.join.relation = some r ∧ r.claimSeq ≠ q.toNat) →
          partitionOf t p = some (restPartition .follow .none x)
          ∧ (∀ r, r ≠ p → partitionOf t r = partitionOf s r)
          ∧ t.join.group = none
          ∧ t.join.relation.map (fun y => y.partnerSeq) = some 0
          ∧ t.join.relation.map (fun y => y.orphan) = some (nowOf s)
          ∧ t.join.relation.map (fun y => y.claimSeq) = some q.toNat
          ∧ t.join.follower.map (fun y => (y.order, y.share, y.request)) = some (none, none, 0)
          ∧ (x.state = .claiming ∨ x.state = .blocked →
              composesFirst s t (heard s).bus (joinTelegram s p kJoinAccept (acceptBytes s q.toNat newFollower))))

/-- JOIN_ACCEPT, JOIN_REFUSE and JOIN_RELEASE from a neighbour (R133, R136, R138, R139): an ACCEPT makes a claimant the lead, with the two
rooms' sums and nothing yet known of the follower's room; a REFUSE sends it to wait 60 s; a RELEASE parts the joined. An ACCEPT that no
claim or lead awaits is answered with a RELEASE; a REFUSE or RELEASE that fits no relation changes nothing. -/
def Obligations.JoinsBeginAndEnd : Prop :=
  (∀ (s : State) (h : RxHeader) (payload : List Byte) (p : Nat) (x : Partition) (a : AcceptFields),
    JoinReaches s kJoinAccept h payload p x → rdAccept payload = some a →
    ∃ t, exec (.joinAccept h payload) s = .next t ∧ KeepsRest (heard s) t
      ∧ (x.state = .claiming →
          partitionOf t p = some (restPartition .lead .none x)
          ∧ (∀ r, r ≠ p → partitionOf t r = partitionOf s r)
          ∧ t.join.follower = none
          ∧ t.join.relation.map (fun y => y.partnerSeq) = some 0
          ∧ t.join.relation.map (fun y => y.orphan) = some (nowOf s)
          ∧ t.join.group.map reportOf = some {
              area := s.cfg.area + a.area
              volume := s.cfg.volume + a.volume
              fset := s.cfg.fset + a.fset
              fmin := s.cfg.fmin + a.fmin
              fmax := s.cfg.fmax + a.fmax
              followerFmax := a.fmax
              occupancy := .unknown
              floor := 0
              co2 := none
              reliable := a.reliable
              baseIn := a.inTotal
              baseOut := a.outTotal })
      ∧ (x.state = .lead →
          KeepsJoin { heard s with
            join := { s.join with relation := s.join.relation.map (fun y => { y with orphan := nowOf s }) } } t)
      ∧ (x.state ≠ .claiming → x.state ≠ .lead → KeepsJoin (heard s) t
          ∧ composesFirst s t (heard s).bus (joinTelegram s p kJoinRelease [])))
  ∧ (∀ (s : State) (h : RxHeader) (r : Byte) (p : Nat) (x : Partition), JoinReaches s kJoinRefuse h [r] p x →
    r.toNat ≤ 1 →
    ∃ t, exec (.joinRefuse h [r]) s = .next t ∧ KeepsRest (heard s) t
      ∧ (x.state = .claiming →
          partitionOf t p = some (restPartition .blocked (.timed (nowOf s)) x) ∧ othersStay s t p)
      ∧ (x.state ≠ .claiming → KeepsJoin (heard s) t))
  ∧ (∀ (s : State) (h : RxHeader) (p : Nat) (x : Partition), JoinReaches s kJoinRelease h [] p x →
    ∃ t, exec (.joinRelease h []) s = .next t ∧ KeepsRest (heard s) t
      ∧ (joinedOn s p = true →
          partitionOf t p = some (if x.debounced then restPartition .blocked (.timed (nowOf s)) x
            else restPartition .closed .none x)
          ∧ othersStay s t p
          ∧ t.join.relation = none ∧ t.join.group = none ∧ t.join.follower = none)
      ∧ (joinedOn s p = false → KeepsJoin (heard s) t))

/-- JOIN_KEEP, JOIN_STATE and JOIN_ORDER from a partner (R136, R140, R141, R147, R149): each restarts the orphan timer; a STATE at the lead
and an ORDER at the follower whose sequence is new are taken, with their sequence; a claimant ignores all three, and one that they do not
fit answers with a RELEASE, and restarts no timer: the model's choice for a STATE at FOLLOW and an ORDER at LEAD (assumption log entry
41). -/
def Obligations.PartnersReport : Prop :=
  (∀ (s : State) (h : RxHeader) (q : Byte) (p : Nat) (x : Partition), JoinReaches s kJoinKeep h [q] p x →
    ∃ t, exec (.joinKeep h [q]) s = .next t ∧ KeepsRest (heard s) t
      ∧ (x.state = .lead ∨ x.state = .follow →
          KeepsJoin { heard s with
            join := { s.join with relation := s.join.relation.map (fun y => { y with orphan := nowOf s }) } } t)
      ∧ (x.state = .claiming → KeepsJoin (heard s) t)
      ∧ (x.state = .closed ∨ x.state = .blocked → KeepsJoin (heard s) t
          ∧ composesFirst s t (heard s).bus (joinTelegram s p kJoinRelease [])))
  ∧ (∀ (s : State) (h : RxHeader) (payload : List Byte) (p : Nat) (x : Partition) (f : StateFields),
    JoinReaches s kJoinState h payload p x → rdJoinState h.source.toNat payload = some f →
    ∃ t, exec (.joinState h payload) s = .next t ∧ KeepsRest (heard s) t
      ∧ (∀ r g, x.state = .lead → s.join.relation = some r → s.join.group = some g → r.partnerSeq ≠ f.seq →
          t.join.partitions = s.join.partitions
          ∧ t.join.relation.map (fun y => (y.partnerSeq, y.orphan)) = some (f.seq, nowOf s)
          ∧ t.join.group.map reportOf = some { reportOf g with
              occupancy := f.occupancy, floor := f.floor, co2 := f.co2, reliable := f.reliable,
              baseIn := f.inTotal, baseOut := f.outTotal })
      ∧ (∀ r, x.state = .lead → s.join.relation = some r → r.partnerSeq = f.seq →
          KeepsJoin { heard s with join := { s.join with relation := some { r with orphan := nowOf s } } } t)
      ∧ (x.state = .claiming → KeepsJoin (heard s) t)
      ∧ (x.state ≠ .lead → x.state ≠ .claiming → KeepsJoin (heard s) t
          ∧ composesFirst s t (heard s).bus (joinTelegram s p kJoinRelease [])))
  ∧ (∀ (s : State) (h : RxHeader) (payload : List Byte) (p : Nat) (x : Partition) (f : OrderFields),
    JoinReaches s kJoinOrder h payload p x → rdJoinOrder payload = some f →
    ∃ t, exec (.joinOrder h payload) s = .next t ∧ KeepsRest (heard s) t
      ∧ (∀ r y, x.state = .follow → s.join.relation = some r → s.join.follower = some y → r.partnerSeq ≠ f.seq →
          t.join.partitions = s.join.partitions
          ∧ t.join.relation.map (fun z => (z.partnerSeq, z.orphan)) = some (f.seq, nowOf s)
          ∧ t.join.follower.map (fun z => z.order) = some (some f.content)
          ∧ t.join.follower.map (fun z => z.share) = some (if f.content.share.isSome then f.content.share else y.share)
          ∧ t.join.follower.map (fun z => z.request) = some y.request)
      ∧ (∀ r, x.state = .follow → s.join.relation = some r → r.partnerSeq = f.seq →
          KeepsJoin { heard s with join := { s.join with relation := some { r with orphan := nowOf s } } } t)
      ∧ (x.state = .claiming → KeepsJoin (heard s) t)
      ∧ (x.state ≠ .follow → x.state ≠ .claiming → KeepsJoin (heard s) t
          ∧ composesFirst s t (heard s).bus (joinTelegram s p kJoinRelease [])))

/-! ### Safety and service -/

/-- The unit takes a SAFETY in this scope (R153). -/
def safetyScope (s : State) (h : RxHeader) : Prop := (toOwnGroup s h || toAll h) = true

/-- SAFETY_SET and SAFETY_CLEAR (R153 to R155): a SET adds what it names and replaces the opposing air mode, a CLEAR empties the set; what
changes it is handed out: the damper goes to 0 or 1000 at once, and under EVACUATE every zone is at 1000 and every motor locked up. A SET
naming both air modes is malformed, before its scope and its length are looked at; another scope, length or a SET without a mark is unusable.
The model's readings here: marks without a meaning are not read (assumption log entry 12), another scope counts unusable (18), both air marks
come first (19), and a locked motor's target in force is 0 (31). -/
def Obligations.SafetyOrdersTake : Prop :=
  (∀ (s : State) (h : RxHeader) (marks : Byte), Reaches s kSafety h [0x00#8, marks] → safetyScope s h →
    marks.toNat % 8 ≠ 0 → (marks.getLsbD 0 && marks.getLsbD 1) = false →
    ∃ t, exec (.safetySet h [marks]) s = .next t
      ∧ HandedOn { heard s with service := { s.service with air := t.service.air, evacuate := t.service.evacuate } } t
      ∧ t.service.air =
          (if marks.getLsbD 0 then .smokeHold else if marks.getLsbD 1 then .purge else s.service.air)
      ∧ t.service.evacuate = (s.service.evacuate || marks.getLsbD 2)
      ∧ (t.service = s.service → t.air = s.air ∧ t.light = s.light ∧ t.blind = s.blind ∧ t.tt = s.tt)
      ∧ (t.service ≠ s.service → targetsFormed t)
      ∧ (t.service.air = .smokeHold → s.service.air ≠ .smokeHold → s.air.mode = damperModeOf s →
          t.air.output = 0 ∧ t.air.applied = 0)
      ∧ (t.service.air = .purge → s.service.air ≠ .purge → s.air.mode = damperModeOf s →
          t.air.output = 1000 ∧ t.air.applied = s.cfg.fmax)
      ∧ (t.service.evacuate = true → s.service.evacuate = false → ∀ n c m, nth1 s.cfg.motors n = some c →
          nth1 t.blind.motors n = some m → isLockedUp m))
  ∧ (∀ (s : State) (h : RxHeader) (marks : Byte), Reaches s kSafety h [0x01#8, marks] → safetyScope s h →
    ∃ t, exec (.safetyClear h [marks]) s = .next t
      ∧ HandedOn { heard s with service := { s.service with air := .none, evacuate := false } } t
      ∧ (s.service.air ≠ .none ∨ s.service.evacuate = true → targetsFormed t)
      ∧ (s.service.air = .none → s.service.evacuate = false →
          t.air = s.air ∧ t.light = s.light ∧ t.blind = s.blind ∧ t.tt = s.tt))
  ∧ (∀ (s : State) (h : RxHeader) (marks : Byte) (more : List Byte), Reaches s kSafety h (0x00#8 :: marks :: more) →
    (marks.getLsbD 0 && marks.getLsbD 1) = true →
    ∃ t, exec (.safetySet h (marks :: more)) s = .next t ∧ HandedOn (countMalformed (heard s)) t)
  ∧ (∀ (s : State) (h : RxHeader) (rest : List Byte), Reaches s kSafety h (0x00#8 :: rest) →
    (∀ m more, rest = m :: more → (m.getLsbD 0 && m.getLsbD 1) = false
      ∧ (m.toNat % 8 = 0 ∨ more ≠ [] ∨ ¬ safetyScope s h)) →
    ∃ t, exec (.safetySet h rest) s = .next t ∧ HandedOn (heardUnusable s) t)
  ∧ (∀ (s : State) (h : RxHeader) (rest : List Byte), Reaches s kSafety h (0x01#8 :: rest) →
    (∀ m, rest = [m] → ¬ safetyScope s h) →
    ∃ t, exec (.safetyClear h rest) s = .next t ∧ HandedOn (heardUnusable s) t)

/-- The Safety and Service Unit after the mask and lock steps of a SERVICE (R158). -/
def maskAndLock (f : ServiceFields) (u : Service) : Service :=
  let differs := f.maskPresent ∧ ¬(f.air = u.maskAir ∧ f.light = u.maskLight ∧ f.blind = u.maskBlind)
  { u with
    maskAir := if differs ∧ u.lock = false then f.air else u.maskAir
    maskLight := if differs ∧ u.lock = false then f.light else u.maskLight
    maskBlind := if differs ∧ u.lock = false then f.blind else u.maskBlind
    lock := u.lock || f.lock
    refusals := if differs ∧ u.lock = true then u.refusals + 1 else u.refusals }

/-- What a service restart resets and keeps (R1, R28, R43, R64, R91, R110, R152, R160, R166, R178, R181, R184): `s` is the part before it,
with the SERVICE heard. With no slot write in progress the image is read at once; else the configuration in use stays until it is read. -/
structure RestartsAs (u : Service) (s t : State) : Prop extends BlocksRestart s t where
  running : t.phase = .running
  pins : t.pins = s.pins
  clock : t.clock = { sec := 0, ms := 0, sub := 0 }
  listening : t.listening = true
  station : t.station = s.station
  calendar : t.cal = s.cal ∧ t.backup = s.backup
  captured : t.tt.captured = s.tt.captured
  records : ∃ l, GrantsFollow (calInstant s.cal) s.tt.records l ∧ t.tt.records = l.map onRestart
  recordsKept : u.maskAir = s.service.maskAir → u.maskLight = s.service.maskLight → u.maskBlind = s.service.maskBlind →
    t.tt.records = s.tt.records.map onRestart
  summary : t.tt.summary = summarize t.tt.records
  service : t.service = u
  faults : t.faults = { s.faults with
    co2 := false, lux := false, door1 := false, door2 := false, capacityDefault := false, config := t.faults.config }
  imageNow : s.journal.plan = [] → t.imageWait = false ∧ RunsOnImage s.eeprom t
  imageLater : s.journal.plan ≠ [] → t.imageWait = true ∧ t.cfg = s.cfg ∧ t.faults.config = s.faults.config
    ∧ t.formatRead = s.formatRead
  lfsr : t.bus.lfsr = if s.station = 0 then 1 else BitVec.ofNat 16 s.station
  silent : t.bus.sending = none ∧ t.bus.deferral = none
  counts : t.bus.good = s.bus.good ∧ t.bus.bad = s.bus.bad ∧ t.bus.malformed = s.bus.malformed
    ∧ t.bus.unusable = s.bus.unusable ∧ t.bus.sent = s.bus.sent ∧ t.bus.collisions = s.bus.collisions
    ∧ t.bus.duplicates = s.bus.duplicates
  eeprom : t.eeprom = s.eeprom
  writes : t.journal.plan = s.journal.plan
    ∧ t.journal.queue = s.journal.queue.map (fun e => { e with answer := none, pairFirst := false })
  pending : t.pending = s.pending

/-- The SERVICE commands: one telegram, named by the mark it carries. -/
def serviceCommands (h : RxHeader) (payload : List Byte) : List Instr :=
  [.serviceMask h payload, .serviceLock h payload, .serviceRestart h payload]

/-- The unit takes a SERVICE in this scope (R157). -/
def serviceScope (s : State) (h : RxHeader) : Prop := (toOwnStation s h || toOwnGroup s h || toAll h) = true

/-- SERVICE_MASK, SERVICE_LOCK and SERVICE_RESTART (R157, R158, R160): the mask step, the lock step and the restart step in this order.
A mask that differs is refused under the lock, a RESTART within 10 s of a start; a FAÇADE scope or another length is unusable. A restart keeps
every record of the list with its state, a RUNNING window turning DEFERRED and a run-out beginning its time again (R43). The model's readings
here: another scope is ignored uncounted (assumption log entry 18), the 10 s are read while the listen-in runs (25), and where a slot write is
in progress the image is read at its end (33), as the EEPROM holds and answers since the last start (14), and the first grant of a restart
hands the list no event (38). -/
def Obligations.ServiceOrdersTake : Prop :=
  ∀ (s : State) (h : RxHeader) (payload : List Byte) (c : Instr), c ∈ serviceCommands h payload →
    Reaches s kService h payload →
    (∀ f, serviceScope s h → rdService payload = some f → f.restart = false →
        ∃ t, exec c s = .next t ∧ HandedOn { heard s with service := maskAndLock f s.service } t
          ∧ ((maskAndLock f s.service).maskAir ≠ s.service.maskAir ∨ (maskAndLock f s.service).maskLight ≠ s.service.maskLight
              ∨ (maskAndLock f s.service).maskBlind ≠ s.service.maskBlind → targetsFormed t)
          ∧ ((maskAndLock f s.service).maskAir = s.service.maskAir → (maskAndLock f s.service).maskLight = s.service.maskLight →
              (maskAndLock f s.service).maskBlind = s.service.maskBlind →
              t.air = s.air ∧ t.light = s.light ∧ t.blind = s.blind ∧ t.tt = s.tt))
    ∧ (∀ f, serviceScope s h → rdService payload = some f → f.restart = true → s.listening = true →
        s.clock.sec.toNat < 10 →
        ∃ t, exec c s = .next t
          ∧ HandedOn { heard s with service := { maskAndLock f s.service with
              refusals := (maskAndLock f s.service).refusals + 1 } } t)
    ∧ (∀ f, serviceScope s h → rdService payload = some f → f.restart = true →
        s.listening = false ∨ 10 ≤ s.clock.sec.toNat →
        ∃ t, exec c s = .next t ∧ RestartsAs (maskAndLock f s.service) (heard s) t)
    ∧ (h.scope.toNat = scopeFacade ∨ payload.length ≠ 1 →
        ∃ t, exec c s = .next t ∧ HandedOn (heardUnusable s) t)
    ∧ (h.scope.toNat ≠ scopeFacade → payload.length = 1 → ¬ serviceScope s h →
        ∃ t, exec c s = .next t ∧ HandedOn (heard s) t)

/-- A command that starts the part anew: power-up or the end of a pin reset. -/
def startsAnew : Instr → Bool
  | .powerUp _ => true
  | .pinResetRelease _ => true
  | _ => false

/-- The service lock has no clear action on the bus (R158): whatever command comes, but a power-up or the end of a pin reset, a lock that is
set stays set, and the mask under it stays as it is. -/
def Obligations.LockLatches : Prop :=
  ∀ s t : State, s.service.lock = true → (∀ c, s.pending.head? = some c → startsAnew c = false) → step s = .next t →
    t.service.lock = true ∧ t.service.maskAir = s.service.maskAir ∧ t.service.maskLight = s.service.maskLight
      ∧ t.service.maskBlind = s.service.maskBlind

/-! ### Queries -/

/-- A QUERY is answered with REPORT telegrams of these contents (R190, R191), and nothing else changes but that they wait in the ROUTINE
queue, behind the telegrams there, where there is room. -/
def answeredWith (s : State) (h : RxHeader) (c : Instr) (item page : Nat) (contents : List (List Byte)) : Prop :=
  ∃ t, exec c s = .next t ∧ HandedOn (heard s) t
    ∧ t.tt = s.tt ∧ t.air = s.air ∧ t.light = s.light ∧ t.blind = s.blind
    ∧ (s.station ≠ 0 → s.bus.routine.length + contents.length ≤ 8 →
        t.bus.routine.map (fun e => e.telegram) =
          s.bus.routine.map (fun e => e.telegram) ++ reportTelegrams h.source.toNat item page contents)

/-- The QUERY commands (R190): each item with its pages, from the state in which the QUERY is taken, with every part in order; an unknown
item or a page outside its item is answered with item FFh and the two bytes asked for. -/
def Obligations.QueriesAreAnswered : Prop :=
  (∀ (s : State) (h : RxHeader), Reaches s kQuery h [0x00#8, 0x00#8] →
    answeredWith s h (.queryStatus h) 0 0 [statusPart1 (heard s), statusPart2 (heard s)])
  ∧ (∀ (s : State) (h : RxHeader) (page : Byte), Reaches s kQuery h [0x01#8, page] →
    (page.toNat ≤ 15 → answeredWith s h (.queryBookings h page) 1 page.toNat (bookingsPage s page.toNat))
    ∧ (15 < page.toNat → answeredWith s h (.queryBookings h page) 0xFF 0 [[0x01#8, page]]))
  ∧ (∀ (s : State) (h : RxHeader) (page : Byte), Reaches s kQuery h [0x02#8, page] →
    (page.toNat ≤ 7 → answeredWith s h (.queryPeers h page) 2 page.toNat (peersPage s page.toNat))
    ∧ (7 < page.toNat → answeredWith s h (.queryPeers h page) 0xFF 0 [[0x02#8, page]]))
  ∧ (∀ (s : State) (h : RxHeader), Reaches s kQuery h [0x03#8, 0x00#8] →
    answeredWith s h (.queryCounters h) 3 0 [busCounts (heard s).bus, blockCounts s])
  ∧ (∀ (s : State) (h : RxHeader), Reaches s kQuery h [0x04#8, 0x00#8] →
    answeredWith s h (.queryOutputs h) 4 0 [outputsPart1 s, outputsPart2 s, outputsPart3 s])
  ∧ (∀ (s : State) (h : RxHeader), Reaches s kQuery h [0x05#8, 0x00#8] →
    answeredWith s h (.queryIdentity h) 5 0 [[0x0C#8, 0x44#8, 0x01#8, byteOf s.formatRead]])
  ∧ (∀ (s : State) (h : RxHeader) (item page : Byte), Reaches s kQuery h [item, page] →
    5 < item.toNat ∨ (item.toNat = 0 ∨ item.toNat = 3 ∨ item.toNat = 4 ∨ item.toNat = 5) ∧ page.toNat ≠ 0 →
    answeredWith s h (.queryUnknownItem h item page) 0xFF 0 [[item, page]])

/-! ### The wing bus -/

/-- The characters of bytes that all arrive well. -/
def goodChars (l : List Byte) : List RxChar := l.map (fun b => { data := b, framingError := false })

/-- The commands that a telegram of a kind stands for. -/
def telegramCommands (t : Telegram) : List (Nat × Instr) :=
  [(kTime, .time t.hdr t.payload), (kBookingPut, .bookingPut t.hdr t.payload), (kBookingDrop, .bookingDrop t.hdr t.payload),
   (kDemand, .demand t.hdr t.payload), (kCapacity, .capacity t.hdr t.payload), (kSun, .sun t.hdr t.payload),
   (kWind, .wind t.hdr t.payload), (kJoinClaim, .joinClaim t.hdr t.payload), (kJoinAccept, .joinAccept t.hdr t.payload),
   (kJoinRefuse, .joinRefuse t.hdr t.payload), (kJoinRelease, .joinRelease t.hdr t.payload),
   (kJoinKeep, .joinKeep t.hdr t.payload), (kJoinState, .joinState t.hdr t.payload), (kJoinOrder, .joinOrder t.hdr t.payload),
   (kService, .serviceMask t.hdr t.payload)]

/-- The commands that a PANEL, a SAFETY or a QUERY stands for, by the first bytes of its payload. -/
def codedCommands (t : Telegram) : List (Nat × List Byte × Instr) :=
  let rest := t.payload.drop 1
  let page := t.payload.getD 1 0
  [(kPanel, 0x00#8 :: rest, .panelScene t.hdr rest), (kPanel, 0x01#8 :: rest, .panelLevel t.hdr rest),
   (kPanel, 0x02#8 :: rest, .panelBlind t.hdr rest), (kPanel, 0x03#8 :: rest, .panelRelease t.hdr rest),
   (kSafety, 0x00#8 :: rest, .safetySet t.hdr rest), (kSafety, 0x01#8 :: rest, .safetyClear t.hdr rest),
   (kQuery, [0x00#8, 0x00#8], .queryStatus t.hdr), (kQuery, [0x01#8, page], .queryBookings t.hdr page),
   (kQuery, [0x02#8, page], .queryPeers t.hdr page), (kQuery, [0x03#8, 0x00#8], .queryCounters t.hdr),
   (kQuery, [0x04#8, 0x00#8], .queryOutputs t.hdr), (kQuery, [0x05#8, 0x00#8], .queryIdentity t.hdr)]

/-- A QUERY of an unknown item, or of a page outside its item (R190). -/
def asksUnknown (item page : Byte) : Prop :=
  5 < item.toNat ∨ (item.toNat = 0 ∨ item.toNat = 3 ∨ item.toNat = 4 ∨ item.toNat = 5) ∧ page.toNat ≠ 0

/-- The content of a PANEL to the station, of a SAFETY or of a QUERY that stands for no command of the table, or has not its length (R98,
R153, R190): an unknown subtype or action, or a length that the layout does not give. -/
def contentUnusable (s : State) (t : Telegram) : Prop :=
  t.kind = kPanel ∧ (toOwnStation s t.hdr || toAll t.hdr) = true
      ∧ (∀ sub rest, t.payload = sub :: rest → 3 < sub.toNat ∨ rest.length ≠ [1, 5, 3, 0].getD sub.toNat 0)
    ∨ t.kind = kSafety ∧ (∀ action marks more, t.payload = action :: marks :: more →
        1 < action.toNat ∨ more ≠ [] ∧ (action.toNat = 0 → (marks.getLsbD 0 && marks.getLsbD 1) = false))
    ∨ t.kind = kQuery ∧ t.payload.length ≠ 2

/-- UNHANDLED_TELEGRAM and an IDLE_EVENT that ends characters (R168 to R172): the five steps of the filter, with their counts, and
DUPLICATE for a telegram under the station's own number. A telegram as R168 frames it is read back; one that is not bad acts as the command
of its kind and first bytes does, and one that stands for no command of the table counts unusable; one in whose frame the part transmitted is
not taken. The model's readings here: a frame that meets a part that is sending or has no power changes nothing (assumption log entries 3 and
17), and a frame without a character counts bad (36). -/
def Obligations.FramesAreJudged : Prop :=
  (∀ (b0 b1 b2 : Byte) (payload : List Byte), payload.length ≤ 24 →
    parseFrame (goodChars ([b0, b1, b2, byteOf payload.length] ++ payload
      ++ be2 (crc16 ([b0, b1, b2, byteOf payload.length] ++ payload)).toNat)) = some (telegramOf b0 b1 b2 payload))
  ∧ (∀ (frame : List RxChar) (x : Telegram), parseFrame frame = some x →
    (∀ c ∈ frame, c.framingError = false) ∧ x.payload.length ≤ 24 ∧ frame.length = 6 + x.payload.length)
  ∧ (∀ (s : State) (frame : List RxChar) (c : Instr), c = .unhandledTelegram frame ∨ c = .idleEvent (some frame) →
    (powered s = false ∨ s.bus.sending.isSome = true → exec c s = .next s)
    ∧ (powered s = true → s.bus.sending = none → s.bus.ownFrame = true →
        ∃ t, exec c s = .next t ∧ HandedOn { s with bus := hearFrame s.bus } t)
    ∧ (powered s = true → s.bus.sending = none → s.bus.ownFrame = false →
        (parseFrame frame = none → ∃ t, exec c s = .next t
          ∧ HandedOn { s with bus := { hearFrame s.bus with bad := s.bus.bad + 1 } } t)
        ∧ (∀ x, parseFrame frame = some x →
            (verdict s x = .malformed → ∃ t, exec c s = .next t
              ∧ HandedOn { s with bus := { hearFrame s.bus with malformed := s.bus.malformed + 1 } } t)
            ∧ (verdict s x = .outOfScope → ∃ t, exec c s = .next t ∧ HandedOn (heard s) t)
            ∧ (verdict s x = .unusable → ∃ t, exec c s = .next t ∧ HandedOn (heardUnusable s) t)
            ∧ (verdict s x = .duplicate → ∃ t, exec c s = .next t
              ∧ HandedOn { heard s with
                  bus := { (heard s).bus with duplicates := s.bus.duplicates + 1 }
                  faults := { s.faults with duplicate := true } } t)
            ∧ (verdict s x = .passed →
                s.phase ≠ .running ∨ s.imageWait = true ∨ x.kind = kBookingAnswer ∨ x.kind = kSessionNotice ∨ x.kind = kReport →
                ∃ t, exec c s = .next t ∧ HandedOn (heard s) t)
            ∧ (verdict s x = .passed → s.phase = .running → s.imageWait = false → contentUnusable s x →
                ∃ t, exec c s = .next t ∧ HandedOn (heardUnusable s) t)))
    ∧ (∀ x i, parseFrame frame = some x → (x.kind, i) ∈ telegramCommands x → exec c s = exec i s)
    ∧ (∀ x i, parseFrame frame = some x → (x.kind, x.payload, i) ∈ codedCommands x → exec c s = exec i s)
    ∧ (∀ x item page, parseFrame frame = some x → x.kind = kQuery → x.payload = [item, page] →
        asksUnknown item page ∨ item.toNat = 1 ∧ 15 < page.toNat ∨ item.toNat = 2 ∧ 7 < page.toNat →
        exec c s = exec (.queryUnknownItem x.hdr item page) s))

/-- The deferral that an idle line owes the head of a class (R175). -/
def owedDeferral (s : State) (c : TxClass) : Deferral :=
  { cls := c, elapsed := 0, len := deferralLength s.station s.bus c }

/-- The line and the attempts (R167, R175 to R177): an idle event leaves the line idle and starts the deferral of the waiting head; a start
bit cancels a deferral and spends the yield of its class; a deferral that runs out on an idle line begins the attempt, which puts the telegram
on the line under the header of R173: its class, the role ROOM, the own number as source and the length; an attempt that completes takes its
telegram from the queue and owes the yield; a collision keeps it, with a drawn backoff of 0 to 31 slots, until the eighth. An idle event on an
idle line changes nothing, and the eighth collision draws nothing: the model's readings (assumption log entries 3 and 15). -/
def Obligations.LineAndAttempts : Prop :=
  (∀ s : State, powered s = true → s.bus.sending = none →
    (s.bus.lineIdle = true → exec (.idleEvent none) s = .next s)
    ∧ (s.bus.lineIdle = false → ∃ t, exec (.idleEvent none) s = .next t
        ∧ t = { s with bus := { s.bus with
            lineIdle := true, ownFrame := false, rxInProgress := false, quiet := t.bus.quiet, deferral := t.bus.deferral } }
        ∧ (maySpeak s = false ∨ s.bus.control = [] ∧ s.bus.routine = [] → t.bus.deferral = s.bus.deferral)
        ∧ (maySpeak s = true → s.bus.deferral = none → s.bus.control ≠ [] →
            t.bus.deferral = some (owedDeferral s .control))
        ∧ (maySpeak s = true → s.bus.deferral = none → s.bus.control = [] → s.bus.routine ≠ [] →
            t.bus.deferral = some (owedDeferral s .routine))))
  ∧ (∀ s : State, powered s = true → s.bus.sending = none → ∃ t, exec .startBit s = .next t
      ∧ t = { s with bus := { s.bus with
          deferral := none, lineIdle := false, rxInProgress := true, quiet := t.bus.quiet,
          yieldControl := t.bus.yieldControl, yieldRoutine := t.bus.yieldRoutine } }
      ∧ t.bus.yieldControl = (s.bus.yieldControl && decide (s.bus.deferral.map (fun d => d.cls) ≠ some .control))
      ∧ t.bus.yieldRoutine = (s.bus.yieldRoutine && decide (s.bus.deferral.map (fun d => d.cls) ≠ some .routine)))
  ∧ (∀ (s : State) (d : Deferral) (e : QueueEntry) (rest : List QueueEntry), powered s = true → s.bus.lineIdle = true →
    maySpeak s = true → s.bus.sending = none → s.bus.deferral = some d → d.len ≤ d.elapsed →
    queueOf s.bus d.cls = e :: rest →
    ∃ t, exec .deferralExpiry s = .next t ∧ t = { s with bus := t.bus }
      ∧ t.bus.sending = some d.cls ∧ t.bus.deferral = none ∧ yieldOf t.bus d.cls = false
      ∧ queueOf t.bus d.cls = { e with backoff := 0 } :: rest
      ∧ t.bus.frame = frameOf s.station e.telegram
      ∧ ∀ c, c ≠ d.cls → queueOf t.bus c = queueOf s.bus c ∧ yieldOf t.bus c = yieldOf s.bus c)
  ∧ (∀ (s : State) (c : TxClass) (e : QueueEntry) (rest : List QueueEntry), powered s = true →
    s.bus.sending = some c → queueOf s.bus c = e :: rest →
    (∃ t, exec .transmitComplete s = .next t ∧ t = { s with bus := t.bus }
      ∧ t.bus.sending = none ∧ t.bus.frame = [] ∧ queueOf t.bus c = rest ∧ yieldOf t.bus c = true
      ∧ t.bus.sent = s.bus.sent + 1
      ∧ (∀ x, x ≠ c → queueOf t.bus x = queueOf s.bus x ∧ yieldOf t.bus x = yieldOf s.bus x))
    ∧ (∃ t, exec .collision s = .next t ∧ t = { s with bus := t.bus }
      ∧ t.bus.sending = none ∧ t.bus.frame = [] ∧ t.bus.collisions = s.bus.collisions + 1
      ∧ (∀ x, x ≠ c → queueOf t.bus x = queueOf s.bus x)
      ∧ (7 ≤ e.attempts → queueOf t.bus c = rest ∧ t.bus.dropped = s.bus.dropped + 1 ∧ t.bus.lfsr = s.bus.lfsr)
      ∧ (e.attempts < 7 → t.bus.lfsr = lfsrStep s.bus.lfsr ∧ t.bus.dropped = s.bus.dropped
          ∧ backoffOf (lfsrStep s.bus.lfsr) ≤ 31
          ∧ ((∀ x ∈ rest, sameKey x.telegram e.telegram = false) →
            queueOf t.bus c = { e with attempts := e.attempts + 1, backoff := backoffOf (lfsrStep s.bus.lfsr) } :: rest)
          ∧ (∀ u k v, rest = u ++ k :: v → (∀ x ∈ u, sameKey x.telegram e.telegram = false) →
            sameKey k.telegram e.telegram = true →
            queueOf t.bus c = { telegram := k.telegram, attempts := e.attempts + 1,
                                backoff := backoffOf (lfsrStep s.bus.lfsr) } :: (u ++ v)))))
  ∧ (∀ (station : Nat) (x : OutTelegram), station < 64 → x.kind < 64 → x.scope < 4 → x.dest < 64 → x.payload.length ≤ 24 →
    parseFrame (goodChars (frameOf station x)) = some {
      kind := x.kind
      hdr := { cls := BitVec.ofNat 2 (classCode (txClassOf x.kind)), role := BitVec.ofNat 2 roleRoom,
               source := BitVec.ofNat 6 station, scope := BitVec.ofNat 2 x.scope, dest := BitVec.ofNat 6 x.dest }
      payload := x.payload })
  ∧ (∀ r : BitVec 16, (r ≠ 0 → lfsrStep r ≠ 0)
      ∧ (lfsrStep r).getLsbD 0 = (((r.getLsbD 15 ^^ r.getLsbD 13) ^^ r.getLsbD 12) ^^ r.getLsbD 10)
      ∧ ∀ i, i < 15 → (lfsrStep r).getLsbD (i + 1) = r.getLsbD i)

/-- What a transmit queue holds, the backoffs apart: an attempt that begins clears one (R177). -/
def queued (l : List QueueEntry) : List (OutTelegram × Nat) := l.map (fun e => (e.telegram, e.attempts))

/-- The transmit queues (R173, R174): a composed telegram joins the queue of its class at the tail; one that coalesces takes the place of
the waiting one, which keeps its attempt count; a full ROUTINE queue gives up its oldest waiting entry, a full CONTROL queue its oldest
waiting JOIN-KEEP, or the new telegram; a part without a number discards what it composes. -/
def Obligations.QueuesKeepTheirRules : Prop :=
  ∀ (station : Nat) (listening : Bool) (t : OutTelegram) (b : Bus),
    (station = 0 → enqueue station listening t b = b)
    ∧ (station ≠ 0 → t.kind = kBookingAnswer ∨ t.kind = kSessionNotice ∨ t.kind = kReport →
        queued (enqueue station listening t b).control = queued b.control
        ∧ (b.routine.length < 8 → queued (enqueue station listening t b).routine = queued b.routine ++ [(t, 0)]
            ∧ (enqueue station listening t b).dropped = b.dropped)
        ∧ (b.routine.length = 8 → b.sending ≠ some .routine →
            queued (enqueue station listening t b).routine = (queued b.routine).drop 1 ++ [(t, 0)]
            ∧ (enqueue station listening t b).dropped = b.dropped + 1)
        ∧ (b.routine.length = 8 → b.sending = some .routine →
            queued (enqueue station listening t b).routine =
              (queued b.routine).take 1 ++ (queued b.routine).drop 2 ++ [(t, 0)]
            ∧ (enqueue station listening t b).dropped = b.dropped + 1))
    ∧ (station ≠ 0 → t.kind = kDemand ∨ kJoinClaim ≤ t.kind ∧ t.kind ≤ kJoinOrder →
        queued (enqueue station listening t b).routine = queued b.routine
        ∧ (∀ w r, waitingOf b .control = w ++ r → (∀ e ∈ w, sameKey e.telegram t = false) →
            (r = [] → b.control.length < 8 →
              queued (enqueue station listening t b).control = queued b.control ++ [(t, 0)]
              ∧ (enqueue station listening t b).dropped = b.dropped)
            ∧ (∀ e q, r = e :: q → sameKey e.telegram t = true →
              queued (enqueue station listening t b).control =
                queued (sendingOf b .control) ++ queued w ++ (t, e.attempts) :: queued q
              ∧ (enqueue station listening t b).dropped = b.dropped)
            ∧ (r = [] → b.control.length = 8 → (∀ e ∈ w, e.telegram.kind ≠ kJoinKeep) →
              queued (enqueue station listening t b).control = queued b.control
              ∧ (enqueue station listening t b).dropped = b.dropped + 1)
            ∧ (∀ u k v, r = [] → b.control.length = 8 → w = u ++ k :: v → k.telegram.kind = kJoinKeep →
              (∀ e ∈ u, e.telegram.kind ≠ kJoinKeep) →
              queued (enqueue station listening t b).control =
                queued (sendingOf b .control) ++ queued u ++ queued v ++ [(t, 0)]
              ∧ (enqueue station listening t b).dropped = b.dropped + 1)))

/-! ### Invariants -/

/-- The state after reset meets what every step keeps. -/
def Obligations.InvHoldsAtReset : Prop := Inv State.reset

/-- Every step keeps the bounds of memory, queues, view and list, the caps of the counts, the calendar's range and its fault, the silence of
a part that may not send, and the backup domain's validity. -/
def Obligations.InvKeptByEveryStep : Prop :=
  ∀ s t : State, Inv s → step s = .next t → Inv t
end

