-- ==== Sys2Proof/Laws/Records.lean ====
section
/-! SUPPORT. The booking list as events take it: every event keeps the id of a record, and no event makes the list longer. -/

namespace Sys2Proof.Machine

/-! ### The list in order -/

theorem mem_insertBooking {b x : Booking} {l : List Booking} : x ∈ insertBooking b l ↔ x = b ∨ x ∈ l := by
  induction l with
  | nil => simp [insertBooking]
  | cons y rest ih =>
    unfold insertBooking
    split
    · simp
    · simp [ih, or_left_comm]

theorem length_insertBooking (b : Booking) (l : List Booking) : (insertBooking b l).length = l.length + 1 := by
  induction l with
  | nil => rfl
  | cons y rest ih =>
    unfold insertBooking
    split
    · rfl
    · simp [ih]

theorem mem_sortBookings {x : Booking} {l : List Booking} : x ∈ sortBookings l ↔ x ∈ l := by
  induction l with
  | nil => exact Iff.rfl
  | cons y rest ih =>
    have e : sortBookings (y :: rest) = insertBooking y (sortBookings rest) := rfl
    rw [e, mem_insertBooking, ih, List.mem_cons]

theorem length_sortBookings (l : List Booking) : (sortBookings l).length = l.length := by
  induction l with
  | nil => rfl
  | cons y rest ih =>
    have e : sortBookings (y :: rest) = insertBooking y (sortBookings rest) := rfl
    rw [e, length_insertBooking, ih, List.length_cons]

/-! ### Events over records -/

/-- The event leaves the id of a record as it is. -/
def KeepsId (f : Booking → RecordResult) : Prop := ∀ b x, (f b).1 = some x → x.id = b.id

theorem length_eachRecord (f : Booking → RecordResult) (l : List Booking) :
    (eachRecord f l).1.length ≤ l.length := by
  induction l with
  | nil => exact le_refl _
  | cons b rest ih =>
    unfold eachRecord
    dsimp only
    rw [List.length_append, List.length_cons]
    cases h : (f b).1 <;> simp <;> omega

theorem mem_eachRecord {f : Booking → RecordResult} {l : List Booking} {x : Booking}
    (h : x ∈ (eachRecord f l).1) : ∃ b ∈ l, (f b).1 = some x := by
  induction l with
  | nil => cases h
  | cons b rest ih =>
    unfold eachRecord at h
    dsimp only at h
    rcases List.mem_append.1 h with h | h
    · refine ⟨b, List.mem_cons_self .., ?_⟩
      cases hb : (f b).1 with
      | none => rw [hb] at h; cases h
      | some y => rw [hb] at h; simp at h; rw [h]
    · obtain ⟨c, hc, e⟩ := ih h
      exact ⟨c, List.mem_cons_of_mem _ hc, e⟩

/-! ### Each event keeps the id -/

theorem weekLater_id {b x : Booking} (h : weekLater b = some x) : x.id = b.id := by
  unfold weekLater at h
  dsimp only at h
  split at h
  · cases h
  · cases h; rfl

theorem nextOccurrence_id {b x : Booking} (h : nextOccurrence b = some x) : x.id = b.id := by
  unfold nextOccurrence at h
  cases hw : weekLater b with
  | none => rw [hw] at h; cases h
  | some y =>
    rw [hw] at h
    cases h
    exact (weekLater_id hw :)

theorem missRun_id {now n : Nat} {b x : Booking} (h : (missRun now n b).2 = some x) : x.id = b.id := by
  induction n generalizing b with
  | zero =>
    unfold missRun at h
    split at h
    · cases h
    · cases h; rfl
  | succ n ih =>
    unfold missRun at h
    split at h
    · split at h
      · cases h
      · rename_i y hy
        exact (ih h).trans (nextOccurrence_id hy)
    · cases h; rfl

theorem openWindow_id (c : EvalCtx) (b : Booking) : (openWindow c b).id = b.id := by
  unfold openWindow
  repeat' split
  all_goals rfl

theorem activate_keepsId (c : EvalCtx) : KeepsId (activate c) := by
  intro b x h
  cases h
  exact openWindow_id c b

theorem evaluateLive_keepsId (c : EvalCtx) : KeepsId (evaluateLive c) := by
  intro b x h
  unfold evaluateLive at h
  split at h
  · exact activate_keepsId c b x h
  · split at h <;> cases h <;> rfl

theorem evaluatePending_keepsId (c : EvalCtx) : KeepsId (evaluatePending c) := by
  intro b x h
  unfold evaluatePending at h
  dsimp only at h
  split at h
  · split at h
    · cases h
    · rename_i y hy
      exact (evaluateLive_keepsId c y x h).trans (missRun_id hy)
  · exact evaluateLive_keepsId c b x h

theorem leaveOrRecur_keepsId (c : EvalCtx) : KeepsId (leaveOrRecur c) := by
  intro b x h
  unfold leaveOrRecur at h
  split at h
  · cases h
  · rename_i y hy
    exact (evaluatePending_keepsId c y x h).trans (nextOccurrence_id hy)

theorem becomeNoShow_keepsId (c : EvalCtx) : KeepsId (becomeNoShow c) := fun b x h => leaveOrRecur_keepsId c b x h

theorem endActive_keepsId (c : EvalCtx) : KeepsId (endActive c) := by
  intro b x h
  unfold endActive at h
  repeat' split at h
  · exact becomeNoShow_keepsId c b x h
  · exact leaveOrRecur_keepsId c b x h
  · cases h; rfl

theorem retireRun_id {now n : Nat} {b x : Booking} (h : retireRun now n b = some x) : x.id = b.id := by
  induction n generalizing b with
  | zero => cases h
  | succ n ih =>
    unfold retireRun at h
    split at h
    · cases h
    · rename_i y hy
      split at h
      · cases h; exact weekLater_id hy
      · exact (ih h).trans (weekLater_id hy)

theorem retire_keepsId (c : EvalCtx) : KeepsId (retire c) := by
  intro b x h
  unfold retire at h
  split at h
  · exact retireRun_id h
  · cases h; rfl

theorem onMinute_keepsId (c : EvalCtx) : KeepsId (onMinute c) := by
  intro b x h
  unfold onMinute at h
  split at h
  · exact evaluatePending_keepsId c b x h
  · split at h
    · exact activate_keepsId c b x h
    · cases h; rfl
  · split at h
    · exact endActive_keepsId c b x h
    · cases h; rfl
  · cases h; rfl
  · cases h; rfl

theorem onDay_keepsId (c : EvalCtx) : KeepsId (onDay c) := by
  intro b x h
  unfold onDay at h
  split at h
  · exact retire_keepsId c b x h
  · cases h; rfl

theorem onForward_keepsId (c : EvalCtx) : KeepsId (onForward c) := by
  intro b x h
  unfold onForward at h
  split at h
  · exact evaluatePending_keepsId c b x h
  · split at h
    · exact evaluatePending_keepsId c b x h
    · split at h
      · exact activate_keepsId c b x h
      · cases h; rfl
  · split at h
    · exact endActive_keepsId c b x h
    · cases h; rfl
  · cases h; rfl
  · exact retire_keepsId c b x h

theorem onBackward_keepsId (c : EvalCtx) : KeepsId (onBackward c) := by
  intro b x h
  unfold onBackward at h
  split at h
  · exact evaluatePending_keepsId c b x h
  · split at h <;> cases h <;> rfl
  · cases h; rfl

theorem onGrant_keepsId (c : EvalCtx) : KeepsId (onGrant c) := by
  intro b x h
  unfold onGrant at h
  split at h
  · split at h
    · exact evaluatePending_keepsId c b x h
    · cases h; rfl
  · cases h; rfl

theorem onOccupancy_keepsId (c : EvalCtx) : KeepsId (onOccupancy c) := by
  intro b x h
  unfold onOccupancy at h
  split at h
  · split at h <;> cases h <;> rfl
  · split at h
    · exact leaveOrRecur_keepsId c b x h
    · cases h; rfl
  · cases h; rfl

theorem onListenEnd_keepsId (c : EvalCtx) : KeepsId (onListenEnd c) := by
  intro b x h
  unfold onListenEnd at h
  split at h
  · exact activate_keepsId c b x h
  · cases h; rfl

theorem onWindowExpiry_keepsId (id : Nat) (c : EvalCtx) : KeepsId (onWindowExpiry id c) := by
  intro b x h
  unfold onWindowExpiry at h
  split at h
  · split at h
    · split at h
      · cases h; rfl
      · exact becomeNoShow_keepsId c b x h
    · cases h; rfl
  · cases h; rfl

theorem onCapExpiry_keepsId (id : Nat) (c : EvalCtx) : KeepsId (onCapExpiry id c) := by
  intro b x h
  unfold onCapExpiry at h
  split at h
  · exact leaveOrRecur_keepsId c b x h
  · cases h; rfl

/-- The event of a stored record alone (R24) keeps the id. -/
theorem evaluateOne_keepsId (id : Nat) (c : EvalCtx) :
    KeepsId (fun b => if b.id = id ∧ b.state = .pending then evaluatePending c b else (some b, [])) := by
  intro b x h
  dsimp only at h
  split at h
  · exact evaluatePending_keepsId c b x h
  · cases h; rfl

end Sys2Proof.Machine
end

