-- ==== Sys2Proof/Laws/Frames.lean ====
section
/-! SUPPORT. What the shared operations leave alone: one lemma for each operation, composed by transitivity. -/

namespace Sys2Proof.Machine

/-! ### The two frames compose -/

theorem KeepsFields.trans {s t u : State} (a : KeepsFields s t) (b : KeepsFields t u) : KeepsFields s u := by
  constructor
  · exact b.phase.trans a.phase
  · exact b.pins.trans a.pins
  · exact b.clock.trans a.clock
  · exact b.station.trans a.station
  · exact b.listening.trans a.listening
  · exact b.cfg.trans a.cfg
  · exact b.formatRead.trans a.formatRead
  · exact b.cal.trans a.cal
  · exact b.backup.trans a.backup
  · exact b.captured.trans a.captured
  · exact b.doors.trans a.doors
  · exact b.co2.trans a.co2
  · exact b.halfPasses.trans a.halfPasses
  · exact b.discardedCo2.trans a.discardedCo2
  · exact b.queueLosses.trans a.queueLosses
  · exact b.peers.trans a.peers
  · exact b.capacity.trans a.capacity
  · exact b.overflows.trans a.overflows
  · exact b.lux.trans a.lux
  · exact b.discardedLux.trans a.discardedLux
  · exact b.facades.trans a.facades
  · exact b.service.trans a.service
  · exact b.faults.trans a.faults
  · exact b.eeprom.trans a.eeprom
  · exact b.journal.trans a.journal
  · exact b.imageWait.trans a.imageWait
  · exact b.freeUsed.trans a.freeUsed
  · exact b.pending.trans a.pending

theorem Sends.trans {st : Nat} {li : Bool} {a b c : Bus} (x : Sends st li a b) (y : Sends st li b c) :
    Sends st li a c := by
  induction y with
  | refl => exact x
  | enqueue t _ ih => exact .enqueue t ih
  | defer _ ih => exact .defer ih

theorem Within.trans {s t u : State} (a : KeepsFields s t) (x : Within s t) (y : Within t u) : Within s u := by
  constructor
  · exact x.bus.trans (a.station ▸ a.listening ▸ y.bus)
  · exact y.records.trans x.records
  · intro b hb
    obtain ⟨c, hc, e⟩ := y.ids b hb
    obtain ⟨d, hd, e'⟩ := x.ids c hc
    exact ⟨d, hd, e'.trans e⟩
  · exact y.queue.trans x.queue
  · rcases y.count with h | h
    · exact .inl h
    · rcases x.count with h' | h'
      · exact .inl (h.trans h')
      · exact .inr (h.trans h')
  · exact fun h => y.announced (x.announced h)
  · intro g hg
    rcases y.groupCount g hg with h | ⟨c, hc, h⟩
    · exact .inl h
    · rcases x.groupCount c hc with h' | ⟨d, hd, h'⟩
      · exact .inl (h.trans h')
      · exact .inr ⟨d, hd, h.trans h'⟩

/-- A change that leaves list, bus, event queue and net count as they are, and caps or keeps GN. -/
theorem Within.ofJoin {s t : State} (hb : t.bus = s.bus) (hl : t.tt.records = s.tt.records)
    (hq : t.presence.queue.length ≤ s.presence.queue.length) (hn : t.presence.n = s.presence.n)
    (hg : ∀ g, t.join.group = some g → g.gn ≤ 300)
    (ha : s.air.last.isSome = true → t.air.last.isSome = true := by exact fun h => h) : Within s t := by
  constructor
  · rw [hb]; exact .refl
  · rw [hl]
  · intro b h; exact ⟨b, hl ▸ h, rfl⟩
  · exact hq
  · right; rw [hn]
  · exact ha
  · intro g h; exact .inl (hg g h)

/-- A change that leaves list, bus, event queue, net count and group record as they are. -/
theorem Within.ofSame {s t : State} (hb : t.bus = s.bus) (hl : t.tt.records = s.tt.records)
    (hq : t.presence.queue = s.presence.queue) (hn : t.presence.n = s.presence.n)
    (hg : t.join.group = s.join.group)
    (ha : s.air.last.isSome = true → t.air.last.isSome = true := by exact fun h => h) : Within s t := by
  constructor
  · rw [hb]; exact .refl
  · rw [hl]
  · intro b h; exact ⟨b, hl ▸ h, rfl⟩
  · rw [hq]
  · right; rw [hn]
  · exact ha
  · intro g h; exact .inr ⟨g, hg ▸ h, le_refl _⟩

theorem KeepsRest.refl (s : State) : KeepsRest s s :=
  ⟨by constructor <;> rfl, .ofSame rfl rfl rfl rfl rfl⟩

theorem KeepsRest.trans {s t u : State} (a : KeepsRest s t) (b : KeepsRest t u) : KeepsRest s u :=
  ⟨a.toKeepsFields.trans b.toKeepsFields, a.toWithin.trans a.toKeepsFields b.toWithin⟩

theorem KeepsJoin.refl (s : State) : KeepsJoin s s := by constructor <;> rfl

/-- A change outside the Join Unit. -/
theorem KeepsJoin.ofSame {s t : State} (h : t.join = s.join) : KeepsJoin s t := by
  constructor <;> rw [h]

theorem KeepsJoin.trans {s t u : State} (a : KeepsJoin s t) (b : KeepsJoin t u) : KeepsJoin s u :=
  ⟨b.partitions.trans a.partitions, b.claimSeq.trans a.claimSeq, b.report.trans a.report,
    b.partnerSeq.trans a.partnerSeq, b.orphan.trans a.orphan, b.answered.trans a.answered,
    b.order.trans a.order, b.share.trans a.share, b.request.trans a.request⟩

theorem HandedOn.partitions {s t : State} (h : HandedOn s t) : t.join.partitions = s.join.partitions := h.joins.partitions

theorem HandedOn.refl (s : State) : HandedOn s s := ⟨.refl s, rfl, rfl, rfl, rfl, rfl, rfl, rfl, rfl, rfl, rfl⟩

theorem HandedOn.trans {s t u : State} (a : HandedOn s t) (b : HandedOn t u) : HandedOn s u :=
  ⟨a.toKeepsRest.trans b.toKeepsRest, b.presence.trans a.presence, a.joins.trans b.joins⟩

/-- Telegrams handed to the bus alone. -/
theorem HandedOn.ofSends {s : State} {b : Bus} (h : Sends s.station s.listening s.bus b) :
    HandedOn s { s with bus := b } := by
  refine ⟨⟨by constructor <;> rfl, ⟨h, le_refl _, fun b hb => ⟨b, hb, rfl⟩, le_refl _, .inr (le_refl _), fun h => h, ?_⟩⟩, rfl, rfl, rfl, rfl, rfl, rfl, rfl, rfl, rfl, rfl⟩
  exact fun g hg => .inr ⟨g, hg, le_refl _⟩

/-! ### Telegrams -/

theorem send_handedOn (t : OutTelegram) (s : State) : HandedOn s (send t s) :=
  .ofSends (.enqueue t .refl)

theorem sendAll_handedOn (l : List OutTelegram) (s : State) : HandedOn s (sendAll l s) := by
  induction l generalizing s with
  | nil => exact .refl s
  | cons t rest ih => exact (send_handedOn t s).trans (ih _)

theorem map_same {α β : Type} {f : α → α} {g : α → β} (h : ∀ x, g (f x) = g x) (o : Option α) :
    (o.map f).map g = o.map g := by
  cases o with
  | none => rfl
  | some x => exact congrArg some (h x)

theorem sendJoin_handedOn (p kind : Nat) (payload : List Byte) (s : State) :
    HandedOn s (sendJoin p kind payload s) := by
  unfold sendJoin
  split
  · refine HandedOn.trans ?_ (send_handedOn _ _)
    exact ⟨⟨by constructor <;> rfl, .ofSame rfl rfl rfl rfl rfl⟩, rfl, rfl, rfl, rfl, map_same (by intro _; rfl) _,
      map_same (by intro _; rfl) _, map_same (by intro _; rfl) _, rfl, rfl, rfl⟩
  · exact send_handedOn _ _

theorem deferIfWaiting_handedOn (s : State) : HandedOn s (deferIfWaiting s) := .ofSends (.defer .refl)

/-! ### The Timetable -/

theorem overRecords_handedOn (f : Booking → RecordResult) (hf : KeepsId f) (s : State) :
    HandedOn s (overRecords f s) := by
  refine HandedOn.trans ?_ (sendAll_handedOn _ { s with tt := { s.tt with records := sortBookings (eachRecord f s.tt.records).1 } })
  refine ⟨⟨by constructor <;> rfl, ⟨.refl, ?_, ?_, le_refl _, .inr (le_refl _), fun h => h, ?_⟩⟩, rfl, rfl, rfl, rfl, rfl, rfl, rfl, rfl, rfl, rfl⟩
  · exact (length_sortBookings _).trans_le (length_eachRecord f _)
  · intro b hb
    obtain ⟨a, ha, e⟩ := mem_eachRecord (mem_sortBookings.1 hb)
    exact ⟨a, ha, (hf a b e).symm⟩
  · exact fun g hg => .inr ⟨g, hg, le_refl _⟩

theorem overRecordsAt_handedOn (f : EvalCtx → Booking → RecordResult) (hf : ∀ c, KeepsId (f c)) (s : State) :
    HandedOn s (overRecordsAt f s) := by
  unfold overRecordsAt
  split
  · exact .refl s
  · exact overRecords_handedOn _ (hf _) s

theorem onClockStop_id (b : Booking) : (onClockStop b).id = b.id := by
  unfold onClockStop
  split <;> rfl

theorem ttClockStop_handedOn (s : State) : HandedOn s (ttClockStop s) := by
  refine ⟨⟨by constructor <;> rfl, ⟨.refl, ?_, ?_, le_refl _, .inr (le_refl _), fun h => h, ?_⟩⟩, rfl, rfl, rfl, rfl, rfl, rfl, rfl, rfl, rfl, rfl⟩
  · exact (List.length_map _).le
  · intro b hb
    obtain ⟨a, ha, e⟩ := List.mem_map.1 hb
    exact ⟨a, ha, e ▸ (onClockStop_id a).symm⟩
  · exact fun g hg => .inr ⟨g, hg, le_refl _⟩

/-! ### Air, light and blinds -/

/-- A change of the group record that caps or lowers GN and leaves the report is handed on. -/
theorem changeGroup_handedOn (f : Group → Group) (hf : ∀ g, (f g).gn ≤ 300 ∨ (f g).gn ≤ g.gn)
    (hr : ∀ g, reportOf (f g) = reportOf g) (s : State) : HandedOn s (changeGroup f s) := by
  refine HandedOn.mk ?_ rfl ⟨rfl, rfl, map_same hr _, rfl, rfl, rfl, rfl, rfl, rfl⟩
  refine ⟨by constructor <;> rfl, ⟨.refl, le_refl _, fun b hb => ⟨b, hb, rfl⟩, le_refl _, .inr (le_refl _), fun h => h, ?_⟩⟩
  intro g hg
  change s.join.group.map f = some g at hg
  cases hs : s.join.group with
  | none => rw [hs] at hg; cases hg
  | some a =>
    rw [hs] at hg
    cases hg
    exact (hf a).imp id (fun h => ⟨a, rfl, h⟩)

/-- A change of the group record that leaves GN and the report as they are. -/
theorem changeGroup_same (f : Group → Group) (hf : ∀ g, (f g).gn = g.gn) (hr : ∀ g, reportOf (f g) = reportOf g)
    (s : State) : HandedOn s (changeGroup f s) := changeGroup_handedOn f (fun g => .inr (hf g).le) hr s

theorem formGroupOccupancy_report (p : Presence) (g : Group) : reportOf (formGroupOccupancy p g) = reportOf g := by
  unfold formGroupOccupancy
  dsimp only
  repeat' split
  all_goals rfl

theorem formGroupOccupancy_gn (p : Presence) (g : Group) : (formGroupOccupancy p g).gn ≤ g.gn := by
  unfold formGroupOccupancy
  dsimp only
  repeat' split
  · exact le_refl _
  · exact Nat.zero_le _
  · exact le_refl _

theorem endLightHold_handedOn (s : State) : HandedOn s (endLightHold s) := ⟨⟨by constructor <;> rfl, .ofSame rfl rfl rfl rfl rfl⟩, rfl, rfl, rfl, rfl, rfl, rfl, rfl, rfl, rfl, rfl⟩

theorem checkHoldSession_handedOn (s : State) : HandedOn s (checkHoldSession s) := by
  unfold checkHoldSession
  split
  · exact .refl s
  · split
    · exact endLightHold_handedOn s
    · exact .refl s

theorem refreshSession_handedOn (s : State) : HandedOn s (refreshSession s) := by
  unfold refreshSession
  refine HandedOn.trans ?_ (checkHoldSession_handedOn _)
  refine HandedOn.trans ?_ (changeGroup_same _ (by intro _; rfl) (by intro _; rfl) _)
  exact ⟨⟨by constructor <;> rfl, .ofSame rfl rfl rfl rfl rfl⟩, rfl, rfl, rfl, rfl, rfl, rfl, rfl, rfl, rfl, rfl⟩

theorem composeDemand_handedOn (s : State) : HandedOn s (composeDemand s) := by
  unfold composeDemand
  refine HandedOn.trans ?_ (send_handedOn _ _)
  exact ⟨⟨by constructor <;> rfl, .ofSame rfl rfl rfl rfl rfl (fun _ => rfl)⟩, rfl, rfl, rfl, rfl, rfl, rfl, rfl, rfl, rfl, rfl⟩

theorem announce_handedOn (s : State) : HandedOn s (announce s) := by
  unfold announce
  split
  · exact .refl s
  · split
    · exact composeDemand_handedOn s
    · split
      · exact composeDemand_handedOn s
      · exact .refl s

/-- What driving the damper leaves alone of the Air Share Unit. -/
theorem driveDamper_keeps (s : State) :
    (driveDamper s).peers = s.air.peers ∧ (driveDamper s).capacity = s.air.capacity
      ∧ (driveDamper s).overflows = s.air.overflows ∧ (driveDamper s).last = s.air.last
      ∧ (driveDamper s).g = s.air.g ∧ (driveDamper s).own = s.air.own := by
  unfold driveDamper
  dsimp only
  repeat' split
  all_goals exact ⟨rfl, rfl, rfl, rfl, rfl, rfl⟩

theorem computeGrant_handedOn (s : State) : HandedOn s (computeGrant s) := by
  unfold computeGrant
  refine ⟨?_, rfl, rfl, rfl, rfl, rfl, rfl, rfl, rfl, rfl, rfl⟩
  refine ⟨?_, .ofSame rfl rfl rfl rfl rfl (fun h => (congrArg Option.isSome (driveDamper_keeps _).2.2.2.1).trans h)⟩
  constructor <;> first | rfl | skip
  · exact (driveDamper_keeps _).1
  · exact (driveDamper_keeps _).2.1
  · exact (driveDamper_keeps _).2.2.1

theorem formDemand_handedOn (s : State) : HandedOn s (formDemand s) :=
  HandedOn.trans (t := { s with air := { s.air with own := demandRow s } }) ⟨⟨by constructor <;> rfl, .ofSame rfl rfl rfl rfl rfl⟩, rfl, rfl, rfl, rfl, rfl, rfl, rfl, rfl, rfl, rfl⟩
    ((announce_handedOn _).trans (computeGrant_handedOn _))

theorem airPass_handedOn (s : State) : HandedOn s (airPass s) :=
  (refreshSession_handedOn s).trans (formDemand_handedOn _)

theorem airLoop_handedOn (n : Nat) (s : State) : HandedOn s (airLoop n s) := by
  induction n generalizing s with
  | zero => exact refreshSession_handedOn s
  | succ n ih =>
    unfold airLoop
    dsimp only
    split
    · split
      · exact (airPass_handedOn s).trans (overRecordsAt_handedOn _ onGrant_keepsId _)
      · exact ((airPass_handedOn s).trans (overRecordsAt_handedOn _ onGrant_keepsId _)).trans (ih _)
    · exact airPass_handedOn s

/-- What forming the zone targets leaves alone of the Light Unit. -/
theorem formZones_keeps (s : State) :
    (formZones s).lux = s.light.lux ∧ (formZones s).discarded = s.light.discarded
      ∧ (formZones s).hold = s.light.hold ∧ (formZones s).scene = s.light.scene := by
  unfold formZones
  dsimp only
  repeat' split
  all_goals exact ⟨rfl, rfl, rfl, rfl⟩

theorem formTargets_handedOn (s : State) : HandedOn s (formTargets s) := by
  refine ⟨?_, rfl, rfl, rfl, rfl, rfl, rfl, rfl, rfl, rfl, rfl⟩
  refine ⟨?_, .ofSame rfl rfl rfl rfl rfl⟩
  constructor <;> first | rfl | skip
  · exact (formZones_keeps s).1
  · exact (formZones_keeps s).2.1

theorem selectScene_handedOn (s : State) : HandedOn s (selectScene s) := by
  unfold selectScene
  split
  · exact formTargets_handedOn s
  · refine HandedOn.trans ?_ (formTargets_handedOn _)
    exact ⟨⟨by constructor <;> rfl, .ofSame rfl rfl rfl rfl rfl⟩, rfl, rfl, rfl, rfl, rfl, rfl, rfl, rfl, rfl, rfl⟩

theorem formBlinds_handedOn (s : State) : HandedOn s (formBlinds s) := ⟨⟨by constructor <;> rfl, .ofSame rfl rfl rfl rfl rfl⟩, rfl, rfl, rfl, rfl, rfl, rfl, rfl, rfl, rfl, rfl⟩

theorem formFacade_handedOn (n : Nat) (s : State) : HandedOn s (formFacade n s) :=
  ⟨⟨by constructor <;> rfl, .ofSame rfl rfl rfl rfl rfl⟩, rfl, rfl, rfl, rfl, rfl, rfl, rfl, rfl, rfl, rfl⟩

theorem endBlindHolds_handedOn (s : State) : HandedOn s (endBlindHolds s) := ⟨⟨by constructor <;> rfl, .ofSame rfl rfl rfl rfl rfl⟩, rfl, rfl, rfl, rfl, rfl, rfl, rfl, rfl, rfl, rfl⟩

/-! ### The cascade -/

theorem settle_handedOn (s : State) : HandedOn s (settle s) :=
  ((airLoop_handedOn 33 s).trans (selectScene_handedOn _)).trans (formBlinds_handedOn _)

theorem afterRecords_handedOn (s : State) : HandedOn s (afterRecords s) := by
  unfold afterRecords
  split
  · exact refreshSession_handedOn s
  · exact settle_handedOn s

theorem firstForms_handedOn (s : State) : HandedOn s (firstForms s) :=
  ((airPass_handedOn s).trans (selectScene_handedOn _)).trans (formBlinds_handedOn _)

theorem vacantEndsHolds_handedOn (s : State) : HandedOn s (vacantEndsHolds s) := by
  unfold vacantEndsHolds
  split
  · exact (endLightHold_handedOn s).trans (endBlindHolds_handedOn _)
  · exact .refl s

theorem occHanded_handedOn (old : Occupancy) (s : State) : HandedOn s (occHanded old s) := by
  unfold occHanded
  split
  · exact .refl s
  · exact ((overRecordsAt_handedOn _ onOccupancy_keepsId s).trans (vacantEndsHolds_handedOn _)).trans (settle_handedOn _)

theorem formOccupancy_handedOn (s : State) : HandedOn s (formOccupancy s) :=
  changeGroup_handedOn _ (fun g => .inr (formGroupOccupancy_gn s.presence g)) (formGroupOccupancy_report s.presence) s

theorem formHc_handedOn (s : State) : HandedOn s (formHc s) :=
  changeGroup_same _ (by intro _; rfl) (by intro _; rfl) s

theorem composeState_handedOn (s : State) : HandedOn s (composeState s) := by
  unfold composeState
  split
  · rename_i p f r hp hf hr
    refine HandedOn.trans ?_ (sendJoin_handedOn _ _ _ _)
    refine ⟨⟨by constructor <;> rfl, .ofSame rfl rfl rfl rfl rfl⟩, rfl, rfl, rfl, rfl, ?_, ?_, ?_, ?_, ?_, ?_⟩
    · rw [hr]; rfl
    · rw [hr]; rfl
    · rw [hr]; rfl
    · rw [hf]; rfl
    · rw [hf]; rfl
    · rw [hf]; rfl
  · exact .refl s

theorem composeOrder_handedOn (s : State) : HandedOn s (composeOrder s) := by
  unfold composeOrder
  split
  · rename_i p g r hp hg hr
    split
    · exact .refl s
    · refine HandedOn.trans ?_ (sendJoin_handedOn _ _ _ _)
      refine ⟨⟨by constructor <;> rfl, ⟨.refl, le_refl _, fun b hb => ⟨b, hb, rfl⟩, le_refl _, .inr (le_refl _), fun h => h, ?_⟩⟩,
        rfl, rfl, rfl, ?_, ?_, ?_, ?_, rfl, rfl, rfl⟩
      · intro x hx
        cases hx
        exact .inr ⟨_, hg, le_refl _⟩
      · rw [hg]; rfl
      · rw [hr]; rfl
      · rw [hr]; rfl
      · rw [hr]; rfl
  · exact .refl s

theorem composeJoin_handedOn (s : State) : HandedOn s (composeJoin s) := by
  unfold composeJoin
  split
  · exact composeOrder_handedOn s
  · split
    · exact composeState_handedOn s
    · exact .refl s

theorem commit_handedOn (before after : State) : HandedOn after (commit before after) := by
  unfold commit
  split
  · exact .refl after
  · exact ⟨⟨by constructor <;> rfl, .ofSame rfl rfl rfl rfl rfl⟩, rfl, rfl, rfl, rfl, rfl, rfl, rfl, rfl, rfl, rfl⟩

theorem endEvent_handedOn (before after : State) : HandedOn after (endEvent before after) :=
  (composeJoin_handedOn after).trans (commit_handedOn _ _)

/-- Forming H changes the Presence Unit in its headcount alone. -/
theorem formHeadcount_handedOn (s : State) :
    HandedOn { s with presence := recomputeH s.presence } (formHeadcount s) :=
  (changeGroup_same _ (by intro _; rfl) (by intro _; rfl) _).trans (settle_handedOn _)

theorem changePresence_handedOn (f : Presence → Presence) (s : State) :
    HandedOn { s with presence := f s.presence } (changePresence f s) :=
  (formOccupancy_handedOn _).trans (occHanded_handedOn _ _)

theorem passAtLead_gn (inward : Bool) (g : Group) : (passAtLead inward g).gn ≤ 300 ∨ (passAtLead inward g).gn ≤ g.gn := by
  unfold passAtLead
  dsimp only
  split
  · exact .inl (Nat.min_le_left _ _)
  · exact .inr (Nat.sub_le _ _)

theorem passAtFollow_keeps (inward : Bool) (f : Follower) :
    (passAtFollow inward f).order = f.order ∧ (passAtFollow inward f).share = f.share
      ∧ (passAtFollow inward f).request = f.request := by
  unfold passAtFollow
  split <;> exact ⟨rfl, rfl, rfl⟩

theorem handPass_handedOn (e : QueueEvent) (s : State) : HandedOn s (handPass e s) := by
  unfold handPass
  split
  · exact .refl s
  · rename_i inward _ _
    refine HandedOn.trans (changeGroup_handedOn _ (passAtLead_gn inward) (fun _ => rfl) s) ?_
    exact ⟨⟨by constructor <;> rfl, .ofSame rfl rfl rfl rfl rfl⟩, rfl, rfl, rfl, rfl, rfl, rfl, rfl,
      map_same (fun f => (passAtFollow_keeps inward f).1) _, map_same (fun f => (passAtFollow_keeps inward f).2.1) _,
      map_same (fun f => (passAtFollow_keeps inward f).2.2) _⟩

theorem takeOne_handedOn (e : QueueEvent) (s : State) :
    HandedOn { s with presence := takeEntry (nowOf s) e s.presence } (takeOne e s) :=
  ((handPass_handedOn e _).trans (formOccupancy_handedOn _)).trans (occHanded_handedOn _ _)

/-! ### What taking an entry leaves alone of the Presence Unit -/

/-- The parts of the Presence Unit that no entry and no occupancy timer changes, and the cap on N. -/
structure KeepsDoors (p q : Presence) : Prop where
  doors : q.doors = p.doors
  co2 : q.co2 = p.co2
  queue : q.queue = p.queue
  held : q.held = p.held
  halfPasses : q.halfPasses = p.halfPasses
  queueLosses : q.queueLosses = p.queueLosses
  discardedCo2 : q.discardedCo2 = p.discardedCo2
  count : q.n ≤ 300 ∨ q.n ≤ p.n

theorem takeIn_keepsDoors (now : Stamp) (p : Presence) : KeepsDoors p (takeIn now p) :=
  ⟨rfl, rfl, rfl, rfl, rfl, rfl, rfl, .inl (Nat.min_le_left _ _)⟩

theorem takeOut_keepsDoors (now : Stamp) (p : Presence) : KeepsDoors p (takeOut now p) := by
  unfold takeOut
  repeat' split
  all_goals refine ⟨rfl, rfl, rfl, rfl, rfl, rfl, rfl, .inr ?_⟩
  · exact le_refl _
  · exact Nat.zero_le _
  · exact Nat.sub_le _ _
  · exact le_refl _
  · exact Nat.sub_le _ _

theorem takeMotion_keepsDoors (now : Stamp) (z : Nat) (at_ : Stamp) (p : Presence) :
    KeepsDoors p (takeMotion now z at_ p) := by
  unfold takeMotion
  dsimp only
  split
  · exact ⟨rfl, rfl, rfl, rfl, rfl, rfl, rfl, .inl (by decide : (1 : Nat) ≤ 300)⟩
  · exact ⟨rfl, rfl, rfl, rfl, rfl, rfl, rfl, .inr (le_refl _)⟩
  · exact ⟨rfl, rfl, rfl, rfl, rfl, rfl, rfl, .inr (le_refl _)⟩

theorem takeEntry_keepsDoors (now : Stamp) (e : QueueEvent) (p : Presence) : KeepsDoors p (takeEntry now e p) := by
  unfold takeEntry
  split
  · exact takeIn_keepsDoors now p
  · exact takeOut_keepsDoors now p
  · exact takeMotion_keepsDoors now _ _ p

theorem vacancyExpires_keepsDoors (p : Presence) : KeepsDoors p (vacancyExpires p) := by
  unfold vacancyExpires
  split
  · exact ⟨rfl, rfl, rfl, rfl, rfl, rfl, rfl, .inr (Nat.zero_le _)⟩
  · split <;> exact ⟨rfl, rfl, rfl, rfl, rfl, rfl, rfl, .inr (Nat.zero_le _)⟩
  · exact ⟨rfl, rfl, rfl, rfl, rfl, rfl, rfl, .inr (Nat.zero_le _)⟩
  · exact ⟨rfl, rfl, rfl, rfl, rfl, rfl, rfl, .inr (le_refl _)⟩

theorem vacatingExpires_keepsDoors (p : Presence) : KeepsDoors p (vacatingExpires p) := by
  unfold vacatingExpires
  split
  · exact ⟨rfl, rfl, rfl, rfl, rfl, rfl, rfl, .inr (Nat.zero_le _)⟩
  · exact ⟨rfl, rfl, rfl, rfl, rfl, rfl, rfl, .inr (le_refl _)⟩

/-- A change of the Presence Unit within those parts keeps the rest. -/
theorem KeepsDoors.keepsRest {s : State} {q : Presence} (h : KeepsDoors s.presence q) :
    KeepsRest s { s with presence := q } := by
  refine ⟨?_, ⟨.refl, le_refl _, fun b hb => ⟨b, hb, rfl⟩, ?_, h.count, fun h => h, fun g hg => .inr ⟨g, hg, le_refl _⟩⟩⟩
  · constructor <;> first | rfl | skip
    · exact h.doors
    · exact h.co2
    · exact h.halfPasses
    · exact h.discardedCo2
    · exact h.queueLosses
  · exact (congrArg List.length h.queue).le

/-! ### Presence events and the hold -/

theorem takeOne_keepsRest (e : QueueEvent) (s : State) : KeepsRest s (takeOne e s) :=
  (takeEntry_keepsDoors (nowOf s) e s.presence).keepsRest.trans (takeOne_handedOn e s).toKeepsRest

theorem handPass_keepsJoin (e : QueueEvent) (s : State) : KeepsJoin s (handPass e s) := (handPass_handedOn e s).joins

theorem takeOne_keepsJoin (e : QueueEvent) (s : State) : KeepsJoin s (takeOne e s) :=
  KeepsJoin.trans (t := { s with presence := takeEntry (nowOf s) e s.presence }) (.ofSame rfl) (takeOne_handedOn e s).joins

theorem takeEach_keepsRest (q : List QueueEvent) (s : State) : KeepsRest s (takeEach q s) := by
  induction q generalizing s with
  | nil => exact .refl s
  | cons e rest ih => exact (takeOne_keepsRest e s).trans (ih _)

theorem takeEach_keepsJoin (q : List QueueEvent) (s : State) : KeepsJoin s (takeEach q s) := by
  induction q generalizing s with
  | nil => exact .refl s
  | cons e rest ih => exact (takeOne_keepsJoin e s).trans (ih _)

theorem formHeadcount_keepsRest (s : State) : KeepsRest s (formHeadcount s) :=
  KeepsRest.trans (t := { s with presence := recomputeH s.presence })
    ⟨by constructor <;> rfl, .ofSame rfl rfl rfl rfl rfl⟩ (formHeadcount_handedOn s).toKeepsRest

theorem formHeadcount_keepsJoin (s : State) : KeepsJoin s (formHeadcount s) :=
  KeepsJoin.trans (t := { s with presence := recomputeH s.presence }) (.ofSame rfl) (formHeadcount_handedOn s).joins

theorem changePresence_keepsRest (f : Presence → Presence) (s : State)
    (h : KeepsDoors s.presence (f s.presence)) : KeepsRest s (changePresence f s) :=
  h.keepsRest.trans (changePresence_handedOn f s).toKeepsRest

theorem changePresence_keepsJoin (f : Presence → Presence) (s : State) : KeepsJoin s (changePresence f s) :=
  KeepsJoin.trans (t := { s with presence := f s.presence }) (.ofSame rfl) (changePresence_handedOn f s).joins

theorem takePending_keepsRest (s : State) : KeepsRest s (takePending s) := by
  unfold takePending
  dsimp only
  split <;> split
  · exact (changePresence_keepsRest _ _ (vacancyExpires_keepsDoors _)).trans
      (changePresence_keepsRest _ _ (vacatingExpires_keepsDoors _))
  · exact changePresence_keepsRest _ _ (vacancyExpires_keepsDoors _)
  · exact changePresence_keepsRest _ _ (vacatingExpires_keepsDoors _)
  · exact .refl s

theorem takePending_keepsJoin (s : State) : KeepsJoin s (takePending s) := by
  unfold takePending
  dsimp only
  split <;> split
  · exact (changePresence_keepsJoin _ _).trans (changePresence_keepsJoin _ _)
  · exact changePresence_keepsJoin _ _
  · exact changePresence_keepsJoin _ _
  · exact .refl s

theorem releaseQueue_keepsRest (s : State) : KeepsRest s (releaseQueue s) := by
  unfold releaseQueue
  split
  · exact .refl s
  · dsimp only
    refine KeepsRest.trans ?_ (formHeadcount_keepsRest _)
    refine KeepsRest.trans (KeepsRest.trans ?_ ((takeEach_keepsRest _ _).trans (takePending_keepsRest _)))
      (t := takePending (takeEach s.presence.queue
        { s with presence := { s.presence with held := false, queue := [] } })) ?_
    · exact ⟨by constructor <;> rfl, ⟨.refl, le_refl _, fun b hb => ⟨b, hb, rfl⟩, Nat.zero_le _, .inr (le_refl _),
        fun h => h, fun g hg => .inr ⟨g, hg, le_refl _⟩⟩⟩
    · exact ⟨by constructor <;> rfl, .ofSame rfl rfl rfl rfl rfl⟩

theorem releaseQueue_keepsJoin (s : State) : KeepsJoin s (releaseQueue s) := by
  unfold releaseQueue
  split
  · exact .refl s
  · dsimp only
    refine KeepsJoin.trans ?_ (formHeadcount_keepsJoin _)
    refine KeepsJoin.trans (t := takePending (takeEach s.presence.queue
      { s with presence := { s.presence with held := false, queue := [] } })) ?_ (.ofSame rfl)
    exact KeepsJoin.trans (t := { s with presence := { s.presence with held := false, queue := [] } }) (.ofSame rfl) ((takeEach_keepsJoin _ _).trans (takePending_keepsJoin _))

theorem updateHold_keepsRest (s : State) : KeepsRest s (updateHold s) := by
  unfold updateHold
  split
  · exact releaseQueue_keepsRest s
  · exact ⟨by constructor <;> rfl, .ofSame rfl rfl rfl rfl rfl⟩

theorem updateHold_keepsJoin (s : State) : KeepsJoin s (updateHold s) := by
  unfold updateHold
  split
  · exact releaseQueue_keepsJoin s
  · exact .ofSame rfl

/-! ### Joins -/

theorem changePartition_keepsRest (p : Nat) (f : Partition → Partition) (s : State) :
    KeepsRest s (changePartition p f s) := ⟨by constructor <;> rfl, .ofSame rfl rfl rfl rfl rfl⟩

theorem roleChanged_handedOn (old : Occupancy) (s : State) : HandedOn s (roleChanged old s) :=
  ((endLightHold_handedOn s).trans (occHanded_handedOn _ _)).trans (settle_handedOn _)

theorem setRecount_keepsDoors (p : Presence) : KeepsDoors p (recomputeH (setRecount p)) := by
  unfold setRecount
  split <;> exact ⟨rfl, rfl, rfl, rfl, rfl, rfl, rfl, .inr (le_refl _)⟩

theorem leaveJoin_keepsRest (p : Nat) (st : PartitionState) (r : Retry) (s : State) :
    KeepsRest s (leaveJoin p st r s) := by
  unfold leaveJoin
  dsimp only
  refine KeepsRest.trans ?_ (roleChanged_handedOn _ _).toKeepsRest
  refine KeepsRest.trans (t := { changePartition p (restPartition st r) s with
    join := { (changePartition p (restPartition st r) s).join with relation := none, group := none, follower := none } })
    ⟨by constructor <;> rfl, .ofJoin rfl rfl (le_refl _) rfl (by intro g hg; cases hg)⟩ ?_
  exact (setRecount_keepsDoors _).keepsRest

theorem leaveJoin_partitions (p : Nat) (st : PartitionState) (r : Retry) (s : State) :
    (leaveJoin p st r s).join.partitions = update1 s.join.partitions p (restPartition st r) :=
  (roleChanged_handedOn _ _).partitions

theorem beginClaim_keepsRest (p : Nat) (s : State) : KeepsRest s (beginClaim p s) := by
  unfold beginClaim
  refine KeepsRest.trans ?_ (sendJoin_handedOn _ _ _ _).toKeepsRest
  exact ⟨by constructor <;> rfl, .ofSame rfl rfl rfl rfl rfl⟩

theorem tryClaim_keepsRest (s : State) : KeepsRest s (tryClaim s) := by
  unfold tryClaim
  split
  · split
    · exact .refl s
    · exact beginClaim_keepsRest _ s
  · exact .refl s

theorem returnSolo_keepsRest (p : Nat) (st : PartitionState) (r : Retry) (s : State) :
    KeepsRest s (returnSolo p st r s) := by
  unfold returnSolo
  dsimp only
  refine (leaveJoin_keepsRest p st r s).trans ?_
  split
  · exact (releaseQueue_keepsRest _).trans (tryClaim_keepsRest _)
  · exact tryClaim_keepsRest _

theorem enterFollow_keepsRest (p q : Nat) (s : State) : KeepsRest s (enterFollow p q s) := by
  unfold enterFollow
  dsimp only
  refine KeepsRest.trans ?_ (roleChanged_handedOn _ _).toKeepsRest
  refine KeepsRest.trans ?_ (sendJoin_handedOn _ _ _ _).toKeepsRest
  exact ⟨by constructor <;> rfl, .ofJoin rfl rfl (le_refl _) rfl (by intro g hg; cases hg)⟩

theorem enterFollow_partitions (p q : Nat) (s : State) :
    (enterFollow p q s).join.partitions = update1 s.join.partitions p (restPartition .follow .none) :=
  (roleChanged_handedOn _ _).partitions.trans (sendJoin_handedOn _ _ _ _).partitions

theorem enterLead_keepsRest (p : Nat) (a : AcceptFields) (s : State) : KeepsRest s (enterLead p a s) := by
  unfold enterLead
  dsimp only
  refine KeepsRest.trans ?_ (roleChanged_handedOn _ _).toKeepsRest
  refine ⟨by constructor <;> rfl, .ofJoin rfl rfl (le_refl _) rfl ?_⟩
  intro g hg
  cases hg
  exact (formGroupOccupancy_gn s.presence (groupFrom s a)).trans (Nat.min_le_left _ _)

theorem enterLead_partitions (p : Nat) (a : AcceptFields) (s : State) :
    (enterLead p a s).join.partitions = update1 s.join.partitions p (restPartition .lead .none) :=
  (roleChanged_handedOn _ _).partitions

theorem sendRelease_handedOn (p : Nat) (s : State) : HandedOn s (sendRelease p s) := sendJoin_handedOn _ _ _ _

theorem sendRefuse_handedOn (p r : Nat) (s : State) : HandedOn s (sendRefuse p r s) := sendJoin_handedOn _ _ _ _

theorem hearPartner_keepsRest (s : State) : KeepsRest s (hearPartner s) :=
  ⟨by constructor <;> rfl, .ofSame rfl rfl rfl rfl rfl⟩

theorem recordSeq_keepsRest (q : Nat) (s : State) : KeepsRest s (recordSeq q s) :=
  ⟨by constructor <;> rfl, .ofSame rfl rfl rfl rfl rfl⟩

theorem claimAgain_keepsRest (p : Nat) (s : State) : KeepsRest s (claimAgain p s) := by
  unfold claimAgain
  refine KeepsRest.trans ?_ (sendJoin_handedOn _ _ _ _).toKeepsRest
  exact ⟨by constructor <;> rfl, .ofSame rfl rfl rfl rfl rfl⟩

theorem claimFails_keepsRest (p : Nat) (s : State) : KeepsRest s (claimFails p s) :=
  (changePartition_keepsRest _ _ _).trans (tryClaim_keepsRest _)

/-! ### The STATUS change sequence

Only the end of an event steps it (R191): the operations that hand on a change leave it. -/

theorem sendAll_statusSeq (l : List OutTelegram) (s : State) : (sendAll l s).statusSeq = s.statusSeq := by
  induction l generalizing s with
  | nil => rfl
  | cons t rest ih => exact ih (send t s)

theorem overRecordsAt_statusSeq (f : EvalCtx → Booking → RecordResult) (s : State) :
    (overRecordsAt f s).statusSeq = s.statusSeq := by
  unfold overRecordsAt
  split
  · rfl
  · exact sendAll_statusSeq _ _

theorem refreshSession_statusSeq (s : State) : (refreshSession s).statusSeq = s.statusSeq := by
  unfold refreshSession checkHoldSession
  dsimp only
  repeat' split
  all_goals rfl

theorem announce_statusSeq (s : State) : (announce s).statusSeq = s.statusSeq := by
  unfold announce
  repeat' split
  all_goals rfl

theorem airPass_statusSeq (s : State) : (airPass s).statusSeq = s.statusSeq :=
  (announce_statusSeq { refreshSession s with air := { (refreshSession s).air with own := demandRow (refreshSession s) } }).trans
    (refreshSession_statusSeq s)

theorem airLoop_statusSeq (n : Nat) (s : State) : (airLoop n s).statusSeq = s.statusSeq := by
  induction n generalizing s with
  | zero => exact refreshSession_statusSeq s
  | succ n ih =>
    unfold airLoop
    dsimp only
    split
    · split
      · exact (overRecordsAt_statusSeq _ _).trans (airPass_statusSeq s)
      · exact (ih _).trans ((overRecordsAt_statusSeq _ _).trans (airPass_statusSeq s))
    · exact airPass_statusSeq s

theorem firstForms_statusSeq (s : State) : (firstForms s).statusSeq = s.statusSeq := by
  refine Eq.trans ?_ (airPass_statusSeq s)
  unfold firstForms selectScene
  split <;> rfl

theorem settle_statusSeq (s : State) : (settle s).statusSeq = s.statusSeq := by
  refine Eq.trans ?_ (airLoop_statusSeq 33 s)
  unfold settle selectScene
  split <;> rfl

end Sys2Proof.Machine
end

