-- ==== Sys2Proof/Laws/Events.lean ====
section
/-! SUPPORT. The event of a telegram: what `telegramEvent` answers for each verdict of the filter, and the end of an event. -/

namespace Sys2Proof.Machine

/-- The end of a telegram's event: a deferral where a telegram waits, the join telegrams, the STATUS change sequence. -/
def finishTelegram (before after : State) : State := endEvent before (deferIfWaiting after)

theorem finishTelegram_handedOn (before after : State) : HandedOn after (finishTelegram before after) :=
  (deferIfWaiting_handedOn after).trans (endEvent_handedOn _ _)

theorem verdict_hearFrame (s : State) (t : Telegram) (b : Bus) : verdict { s with bus := b } t = verdict s t := rfl

/-- A frame that is heard and not bad goes through the filter, in the state the line leaves. -/
theorem telegramEvent_hears {s : State} {payload : List Byte} (r : Hears s payload) (kind : Nat) (h : RxHeader)
    (hand : State → State) :
    telegramEvent kind h payload hand s =
      finishTelegram s (filterTelegram hand { kind := kind, hdr := h, payload := payload }
        { s with bus := hearFrame s.bus }) := by
  have hp : powered s = true := by unfold powered; rw [r.phase]
  have hf : payloadFits payload = true := decide_eq_true r.fits
  unfold telegramEvent frameEvent takeFrame
  rw [if_pos hf, hp, r.sending, r.ownFrame]
  rfl

/-- A telegram that reaches its block: the block acts in the state `heard s`, and the event ends. -/
theorem telegramEvent_reaches {s : State} {kind : Nat} {h : RxHeader} {payload : List Byte}
    (r : Reaches s kind h payload) (hand : State → State) :
    telegramEvent kind h payload hand s = finishTelegram s (hand (heard s)) := by
  rw [telegramEvent_hears r.toHears]
  unfold filterTelegram
  have hs : takesTelegrams { s with bus := hearFrame s.bus } = true := by
    unfold takesTelegrams started
    dsimp only
    rw [r.phase, r.image]
    rfl
  rw [verdict_hearFrame, r.passed, hs, if_pos ⟨rfl, rfl⟩]
  rfl

/-- The counts of a telegram that the filter stops (R169, R178). -/
theorem telegramEvent_stopped {s : State} {payload : List Byte} (r : Hears s payload) (kind : Nat) (h : RxHeader)
    (hand : State → State) (hv : verdict s { kind := kind, hdr := h, payload := payload } ≠ .passed) :
    telegramEvent kind h payload hand s =
      finishTelegram s (countVerdict (verdict s { kind := kind, hdr := h, payload := payload })
        { s with bus := hearFrame s.bus }) := by
  rw [telegramEvent_hears r]
  unfold filterTelegram
  rw [verdict_hearFrame, if_neg (fun x => hv x.1)]

/-- A part that is unpowered, held or sending takes no telegram. -/
theorem telegramEvent_deaf {s : State} (hs : powered s = false ∨ s.bus.sending.isSome = true) (kind : Nat)
    (h : RxHeader) (payload : List Byte) (hand : State → State) : telegramEvent kind h payload hand s = s := by
  unfold telegramEvent frameEvent
  rw [if_pos]
  rcases hs with h | h <;> simp [h]

/-- What `heard` leaves. -/
theorem heard_bus (s : State) : (heard s).bus = { hearFrame s.bus with good := s.bus.good.succ } := by
  have e : (hearFrame s.bus).good = s.bus.good := by
    unfold hearFrame
    split
    · unfold hearStart
      dsimp only
      split
      · rfl
      · rename_i d _
        cases d.cls <;> rfl
    · rfl
  unfold heard countGood
  dsimp only
  rw [e]

end Sys2Proof.Machine
end

