-- ==== Sys2Proof/Laws/Memory.lean ====
section
/-! SUPPORT. The EEPROM memory: read after write, and every operation keeps the canonical form. -/

namespace Sys2Proof.Machine

/-! ### The canonical form -/

theorem memAbove_weaken {a b : Nat} (h : a ≤ b) {m : List Host.Cell} (hm : memAbove b m = true) :
    memAbove a m = true := by
  induction m with
  | nil => rfl
  | cons c rest ih =>
    obtain ⟨k, v⟩ := c
    simp only [memAbove, Bool.and_eq_true, decide_eq_true_eq] at hm ⊢
    exact ⟨h.trans_lt hm.1, ih hm.2⟩

theorem memWf_tail {c : Host.Cell} {m : List Host.Cell} (h : memWf (c :: m) = true) : memWf m = true := by
  obtain ⟨k, v⟩ := c
  simp only [memWf, Bool.and_eq_true] at h
  exact h.2

theorem memAbove_write {k a : Nat} {m : List Host.Cell} {b : Byte} (hk : k < a) (h : memAbove k m = true) :
    memAbove k (memWrite m a b) = true := by
  induction m with
  | nil =>
    simp only [memWrite]
    split
    · rfl
    · simp [memAbove, hk]
  | cons c rest ih =>
    obtain ⟨x, v⟩ := c
    simp only [memAbove, Bool.and_eq_true, decide_eq_true_eq] at h
    unfold memWrite
    split
    · split
      · simp [memAbove, h]
      · simp [memAbove, hk, h]
    · split
      · split
        · exact h.2
        · simp [memAbove, hk, h.2]
      · simp [memAbove, h.1, ih h.2]

/-- A write keeps the canonical form. -/
theorem memWf_write {m : List Host.Cell} (a : Nat) (b : Byte) (h : memWf m = true) : memWf (memWrite m a b) = true := by
  induction m with
  | nil =>
    simp only [memWrite]
    split
    · rfl
    · rename_i hb; simp [memWf, memAbove, hb]
  | cons c rest ih =>
    obtain ⟨x, v⟩ := c
    have ht := memWf_tail h
    simp only [memWf, Bool.and_eq_true, bne_iff_ne] at h
    unfold memWrite
    split
    · rename_i hx
      split
      · simp [memWf, h]
      · rename_i hb
        simp [memWf, h, hb, memAbove, hx, memAbove_weaken hx.le h.1.2]
    · rename_i hx
      split
      · rename_i he
        subst he
        split
        · exact ht
        · rename_i hb; simp [memWf, hb, h]
      · rename_i he
        have hlt : x < a := by omega
        simp [memWf, h.1.1, memAbove_write hlt h.1.2, ih ht]

theorem memWf_writeList {m : List Host.Cell} (a : Nat) (l : List Byte) (h : memWf m = true) :
    memWf (memWriteList m a l) = true := by
  induction l generalizing m a with
  | nil => exact h
  | cons b rest ih => exact ih (a + 1) (memWf_write a b h)

theorem memWf_withImage {m : List Host.Cell} (b : List Byte) (h : memWf m = true) : memWf (memWithImage m b) = true :=
  memWf_writeList 0 _ h

/-! ### Reading -/

theorem memRead_above {k a : Nat} {m : List Host.Cell} (h : memAbove k m = true) (ha : a ≤ k) :
    memRead m a = erasedByte := by
  induction m with
  | nil => rfl
  | cons c rest ih =>
    obtain ⟨x, v⟩ := c
    simp only [memAbove, Bool.and_eq_true, decide_eq_true_eq] at h
    unfold memRead
    rw [if_neg (by omega)]
    exact ih h.2

/-- A write leaves every other address as it is. -/
theorem memRead_write_other (m : List Host.Cell) {a a' : Nat} (b : Byte) (hne : a' ≠ a) :
    memRead (memWrite m a b) a' = memRead m a' := by
  induction m with
  | nil =>
    simp only [memWrite]
    split
    · rfl
    · simp [memRead, hne]
  | cons c rest ih =>
    obtain ⟨x, v⟩ := c
    unfold memWrite
    split
    · split
      · rfl
      · simp [memRead, hne]
    · split
      · rename_i he
        subst he
        split
        · simp [memRead, hne]
        · simp [memRead, hne]
      · simp only [memRead]
        split
        · rfl
        · exact ih

/-- A read after a write to the same address gives the byte written. -/
theorem memRead_write_same {m : List Host.Cell} (a : Nat) (b : Byte) (h : memWf m = true) :
    memRead (memWrite m a b) a = b := by
  induction m with
  | nil =>
    simp only [memWrite]
    split
    · rename_i hb; rw [hb]; rfl
    · simp [memRead]
  | cons c rest ih =>
    obtain ⟨x, v⟩ := c
    have ht := memWf_tail h
    simp only [memWf, Bool.and_eq_true, bne_iff_ne] at h
    unfold memWrite
    split
    · rename_i hx
      split
      · rename_i hb
        simp only [memRead]
        rw [if_neg (by omega), hb]
        exact memRead_above h.1.2 hx.le
      · simp [memRead]
    · split
      · rename_i he
        subst he
        split
        · rename_i hb
          rw [hb]
          exact memRead_above h.1.2 (le_refl _)
        · simp [memRead]
      · rename_i hx he
        simp only [memRead]
        rw [if_neg he]
        exact ih ht

/-- Writing bytes at rising addresses leaves every address outside them as it is. -/
theorem memRead_writeList_other (m : List Host.Cell) {a a' : Nat} (l : List Byte)
    (h : a' < a ∨ a + l.length ≤ a') : memRead (memWriteList m a l) a' = memRead m a' := by
  induction l generalizing m a with
  | nil => rfl
  | cons b rest ih =>
    rw [List.length_cons] at h
    unfold memWriteList
    rw [ih _ (by omega), memRead_write_other m b (by omega)]

/-- The bytes written read back. -/
theorem memRead_writeList_same {m : List Host.Cell} (a : Nat) (l : List Byte) (h : memWf m = true) (i : Nat)
    (hi : i < l.length) : memRead (memWriteList m a l) (a + i) = l[i] := by
  induction l generalizing m a i with
  | nil => cases hi
  | cons b rest ih =>
    unfold memWriteList
    cases i with
    | zero =>
      rw [memRead_writeList_other _ rest (.inl (by omega))]
      exact memRead_write_same a b h
    | succ i =>
      have hi' : i < rest.length := by simpa using hi
      have := ih (a + 1) (memWf_write a b h) i hi'
      simpa [Nat.add_assoc, Nat.add_comm 1 i] using this

end Sys2Proof.Machine
end

