-- ==== Sys2Proof/Laws/Queues.lean ====
section
/-! SUPPORT. The transmit queues: no operation takes a queue over 8 entries (R173), and nothing is sent, nor a deferral begun, in a
listen-in or without a number (R175, R184). -/

namespace Sys2Proof.Machine

/-! ### Queue lengths -/

/-- Both queues hold at most 8 entries. -/
def BusBounded (b : Bus) : Prop := b.control.length ≤ 8 ∧ b.routine.length ≤ 8

theorem queueOf_bounded {b : Bus} (h : BusBounded b) (c : TxClass) : (queueOf b c).length ≤ 8 := by
  cases c
  · exact h.1
  · exact h.2

theorem setQueue_bounded {b : Bus} (h : BusBounded b) (c : TxClass) {q : List QueueEntry} (hq : q.length ≤ 8) :
    BusBounded (setQueue b c q) := by
  cases c
  · exact ⟨hq, h.2⟩
  · exact ⟨h.1, hq⟩

theorem length_coalesce {t : OutTelegram} {l r : List QueueEntry} (h : coalesce t l = some r) :
    r.length = l.length := by
  induction l generalizing r with
  | nil => cases h
  | cons e rest ih =>
    unfold coalesce at h
    split at h
    · cases h; rfl
    · cases hc : coalesce t rest with
      | none => rw [hc] at h; cases h
      | some x => rw [hc] at h; cases h; simp [ih hc]

theorem length_dropKeep {l r : List QueueEntry} (h : dropKeep l = some r) : r.length + 1 = l.length := by
  induction l generalizing r with
  | nil => cases h
  | cons e rest ih =>
    unfold dropKeep at h
    split at h
    · cases h; rfl
    · cases hc : dropKeep rest with
      | none => rw [hc] at h; cases h
      | some x => rw [hc] at h; cases h; simp [ih hc]

theorem length_joinQueue (c : TxClass) (t : OutTelegram) (w : List QueueEntry) (room : Nat) (hw : w.length ≤ room)
    (hr : 1 ≤ room) : (joinQueue c t w room).1.length ≤ room := by
  unfold joinQueue
  dsimp only
  split
  · rename_i r hr'
    exact (length_coalesce hr').trans_le hw
  · split
    · simp; omega
    · split
      · simp; omega
      · split
        · rename_i x hx
          have := length_dropKeep hx
          simp; omega
        · exact hw

theorem beginAttempt_bounded (st : Nat) {b : Bus} (h : BusBounded b) (c : TxClass) : BusBounded (beginAttempt st c b) := by
  have h' : BusBounded (spendYield b c) := by cases c <;> exact h
  have hq : ∀ q : List QueueEntry, q.length ≤ 8 → (match q with
      | [] => []
      | e :: rest => { e with backoff := 0 } :: rest : List QueueEntry).length ≤ 8 := by
    intro q hq
    cases q <;> exact hq
  exact setQueue_bounded h' c (hq _ (queueOf_bounded h' c))

theorem startDeferral_bounded (st : Nat) (li : Bool) {b : Bus} (h : BusBounded b) :
    BusBounded (startDeferral st li b) := by
  unfold startDeferral
  split
  · exact h
  · split <;> exact h

theorem reclassDeferral_bounded (st : Nat) {b : Bus} (h : BusBounded b) : BusBounded (reclassDeferral st b) := by
  unfold reclassDeferral
  split
  · split
    · dsimp only
      split
      · exact beginAttempt_bounded st h _
      · exact h
    · exact h
  · exact h

theorem enqueue_bounded (st : Nat) (li : Bool) (t : OutTelegram) {b : Bus} (h : BusBounded b) :
    BusBounded (enqueue st li t b) := by
  unfold enqueue
  split
  · exact h
  · dsimp only
    apply reclassDeferral_bounded
    apply startDeferral_bounded
    have hq := queueOf_bounded h (txClassOf t.kind)
    have hb : BusBounded (setQueue b (txClassOf t.kind) (sendingOf b (txClassOf t.kind)
        ++ (joinQueue (txClassOf t.kind) t (waitingOf b (txClassOf t.kind))
          (8 - (sendingOf b (txClassOf t.kind)).length)).1)) := by
      apply setQueue_bounded h
      rw [List.length_append]
      have hs : (sendingOf b (txClassOf t.kind)).length ≤ 1 := by
        unfold sendingOf; split <;> simp
      have hw : (waitingOf b (txClassOf t.kind)).length ≤ 8 - (sendingOf b (txClassOf t.kind)).length := by
        unfold waitingOf sendingOf; split <;> simp <;> omega
      have := length_joinQueue (txClassOf t.kind) t _ _ hw (by omega)
      omega
    split <;> exact hb

theorem Sends.bounded {st : Nat} {li : Bool} {a b : Bus} (h : Sends st li a b) (ha : BusBounded a) : BusBounded b := by
  induction h with
  | refl => exact ha
  | enqueue t _ ih => exact enqueue_bounded st li t ih
  | defer _ ih => exact startDeferral_bounded st li ih

/-! ### Silence -/

/-- Nothing is being sent and no deferral runs. -/
def BusSilent (b : Bus) : Prop := b.sending = none ∧ b.deferral = none

theorem startDeferral_silent {st : Nat} {li : Bool} (hq : li = true ∨ st = 0) (b : Bus) :
    startDeferral st li b = b := by
  unfold startDeferral
  rw [if_pos]
  rcases hq with h | h <;> simp [h]

theorem enqueue_silent {st : Nat} {li : Bool} (hq : li = true ∨ st = 0) (t : OutTelegram) {b : Bus}
    (h : BusSilent b) : BusSilent (enqueue st li t b) := by
  unfold enqueue
  split
  · exact h
  · dsimp only
    rw [startDeferral_silent hq]
    have hb : ∀ q : List QueueEntry, BusSilent (setQueue b (txClassOf t.kind) q) := by
      intro q
      cases txClassOf t.kind <;> exact h
    unfold reclassDeferral
    split
    · rename_i d hd
      exfalso
      split at hd
      · exact absurd ((hb _).2.symm.trans hd) (by simp)
      · exact absurd ((hb _).2.symm.trans hd) (by simp)
    · split
      · exact hb _
      · exact hb _

theorem Sends.silent {st : Nat} {li : Bool} (hq : li = true ∨ st = 0) {a b : Bus} (h : Sends st li a b)
    (ha : BusSilent a) : BusSilent b := by
  induction h with
  | refl => exact ha
  | enqueue t _ ih => exact enqueue_silent hq t ih
  | defer _ ih => rw [startDeferral_silent hq]; exact ih

/-! ### What coalescing and overflow find -/

theorem coalesce_none {t : OutTelegram} {l : List QueueEntry} (h : ∀ x ∈ l, sameKey x.telegram t = false) : coalesce t l = none := by
  induction l with
  | nil => rfl
  | cons x r ih => unfold coalesce; rw [h x (by simp), ih (fun y hy => h y (by simp [hy]))]; rfl

theorem coalesce_some {t : OutTelegram} {w q : List QueueEntry} {e} (h : ∀ x ∈ w, sameKey x.telegram t = false) (hk : sameKey e.telegram t = true) :
    coalesce t (w ++ e :: q) = some (w ++ { e with telegram := t } :: q) := by
  induction w with
  | nil => simp [coalesce, hk]
  | cons x r ih => simp only [List.cons_append]; unfold coalesce; rw [h x (by simp), ih (fun y hy => h y (by simp [hy]))]; rfl

theorem dropKeep_none {l : List QueueEntry} (h : ∀ x ∈ l, x.telegram.kind ≠ kJoinKeep) : dropKeep l = none := by
  induction l with
  | nil => rfl
  | cons x r ih => unfold dropKeep; rw [if_neg (h x (by simp)), ih (fun y hy => h y (by simp [hy]))]; rfl

theorem dropKeep_some {u v : List QueueEntry} {k} (h : ∀ x ∈ u, x.telegram.kind ≠ kJoinKeep) (hk : k.telegram.kind = kJoinKeep) :
    dropKeep (u ++ k :: v) = some (u ++ v) := by
  induction u with
  | nil => simp [dropKeep, hk]
  | cons x r ih => simp only [List.cons_append]; unfold dropKeep; rw [if_neg (h x (by simp)), ih (fun y hy => h y (by simp [hy]))]; rfl

theorem takeSame_none {t : OutTelegram} {l : List QueueEntry} (h : ∀ x ∈ l, sameKey x.telegram t = false) : takeSame t l = none := by
  induction l with
  | nil => rfl
  | cons x r ih => unfold takeSame; rw [h x (by simp), ih (fun y hy => h y (by simp [hy]))]; rfl

theorem takeSame_some {t : OutTelegram} {u v : List QueueEntry} {k} (h : ∀ x ∈ u, sameKey x.telegram t = false) (hk : sameKey k.telegram t = true) :
    takeSame t (u ++ k :: v) = some (k.telegram, u ++ v) := by
  induction u with
  | nil => simp [takeSame, hk]
  | cons x r ih => simp only [List.cons_append]; unfold takeSame; rw [h x (by simp), ih (fun y hy => h y (by simp [hy]))]; rfl

/-! ### Counts -/

/-- The counts that only their own events step: all of R178 but the dropped ones. -/
structure SameCounts (a b : Bus) : Prop where
  good : b.good = a.good
  bad : b.bad = a.bad
  malformed : b.malformed = a.malformed
  unusable : b.unusable = a.unusable
  sent : b.sent = a.sent
  collisions : b.collisions = a.collisions
  duplicates : b.duplicates = a.duplicates
  lfsr : b.lfsr = a.lfsr

theorem SameCounts.refl (b : Bus) : SameCounts b b := by constructor <;> rfl

theorem SameCounts.trans {a b c : Bus} (x : SameCounts a b) (y : SameCounts b c) : SameCounts a c :=
  ⟨y.good.trans x.good, y.bad.trans x.bad, y.malformed.trans x.malformed, y.unusable.trans x.unusable,
    y.sent.trans x.sent, y.collisions.trans x.collisions, y.duplicates.trans x.duplicates, y.lfsr.trans x.lfsr⟩

theorem setQueue_counts (b : Bus) (c : TxClass) (q : List QueueEntry) : SameCounts b (setQueue b c q) := by
  cases c <;> constructor <;> rfl

theorem spendYield_counts (b : Bus) (c : TxClass) : SameCounts b (spendYield b c) := by
  cases c <;> constructor <;> rfl

theorem beginAttempt_counts (st : Nat) (b : Bus) (c : TxClass) : SameCounts b (beginAttempt st c b) := by
  have h := (spendYield_counts b c).trans (setQueue_counts (spendYield b c) c
    (match queueOf (spendYield b c) c with
      | [] => []
      | e :: rest => { e with backoff := 0 } :: rest))
  exact h.trans (by constructor <;> rfl)

theorem startDeferral_counts (st : Nat) (li : Bool) (b : Bus) : SameCounts b (startDeferral st li b) := by
  unfold startDeferral
  split
  · exact .refl b
  · split <;> constructor <;> rfl

theorem reclassDeferral_counts (st : Nat) (b : Bus) : SameCounts b (reclassDeferral st b) := by
  unfold reclassDeferral
  split
  · split
    · dsimp only
      split
      · exact beginAttempt_counts st b _
      · constructor <;> rfl
    · exact .refl b
  · exact .refl b

theorem enqueue_counts (st : Nat) (li : Bool) (t : OutTelegram) (b : Bus) : SameCounts b (enqueue st li t b) := by
  unfold enqueue
  split
  · exact .refl b
  · dsimp only
    refine SameCounts.trans ?_ (reclassDeferral_counts st _)
    refine SameCounts.trans ?_ (startDeferral_counts st li _)
    split
    · exact (setQueue_counts b _ _).trans (by constructor <;> rfl)
    · exact setQueue_counts b _ _

theorem Sends.counts {st : Nat} {li : Bool} {a b : Bus} (h : Sends st li a b) : SameCounts a b := by
  induction h with
  | refl => exact .refl a
  | enqueue t _ ih => exact ih.trans (enqueue_counts st li t _)
  | defer _ ih => exact ih.trans (startDeferral_counts st li _)

end Sys2Proof.Machine
end

