-- ==== Sys2Proof/Laws/Invariant.lean ====
section
/-! SUPPORT. The invariants of Safety.lean under the shared operations: what a meeting event does to them, and the operations that
change more than a meeting event does. -/

namespace Sys2Proof.Machine

theorem Inv.ofKeepsRest {s t : State} (h : Inv s) (k : KeepsRest s t) : Inv t := by
  constructor
  · unfold MemoryOk; rw [k.eeprom]; exact h.memory
  · exact k.bus.bounded h.queues
  · exact k.queue.trans h.eventQueue
  · unfold PeersBounded; rw [k.peers]; exact h.peers
  · unfold WriteQueueBounded; rw [k.journal]; exact h.writeQueue
  · refine ⟨k.records.trans h.list.1, ?_⟩
    unfold heldRecords; rw [k.phase]; exact h.list.2
  · refine ⟨?_, ?_⟩
    · rcases k.count with x | x
      · exact x
      · exact x.trans h.counts.1
    · intro g hg
      rcases k.groupCount g hg with x | ⟨a, ha, x⟩
      · exact x
      · exact x.trans (h.counts.2 a ha)
  · unfold CalendarOk; rw [k.cal]; exact h.calendar
  · intro hp
    have hp' : powered s = true := by unfold powered at hp ⊢; rwa [k.phase] at hp
    rw [k.faults, k.cal]
    exact h.clockFault hp'
  · intro hq
    rw [k.listening, k.station] at hq
    exact k.bus.silent hq (h.silent hq)
  · unfold BackupOk powered
    rw [k.phase, k.backup, k.cal]
    exact h.backup

/-- A change of the bus alone that keeps both queues and the silence. -/
theorem Inv.ofBus {s : State} (h : Inv s) (b : Bus) (hb : BusBounded b)
    (hs : s.listening = true ∨ s.station = 0 → BusSilent b) : Inv { s with bus := b } :=
  ⟨h.memory, hb, h.eventQueue, h.peers, h.writeQueue, h.list, h.counts, h.calendar, h.clockFault, hs, h.backup⟩

/-! ### The receive side -/

theorem spendYield_fields (b : Bus) (c : TxClass) :
    (spendYield b c).control = b.control ∧ (spendYield b c).routine = b.routine
      ∧ (spendYield b c).sending = b.sending ∧ (spendYield b c).deferral = b.deferral := by
  cases c <;> exact ⟨rfl, rfl, rfl, rfl⟩

theorem hearStart_fields (b : Bus) :
    (hearStart b).control = b.control ∧ (hearStart b).routine = b.routine
      ∧ (hearStart b).sending = b.sending ∧ (hearStart b).deferral = none := by
  unfold hearStart
  dsimp only
  split
  · exact ⟨rfl, rfl, rfl, rfl⟩
  · rename_i d _
    exact ⟨(spendYield_fields b d.cls).1, (spendYield_fields b d.cls).2.1, (spendYield_fields b d.cls).2.2.1, rfl⟩

theorem hearFrame_fields (b : Bus) :
    (hearFrame b).control = b.control ∧ (hearFrame b).routine = b.routine
      ∧ (hearFrame b).sending = b.sending ∧ ((hearFrame b).deferral = none ∨ (hearFrame b).deferral = b.deferral) := by
  unfold hearFrame
  split
  · exact ⟨(hearStart_fields b).1, (hearStart_fields b).2.1, (hearStart_fields b).2.2.1, .inl (hearStart_fields b).2.2.2⟩
  · exact ⟨rfl, rfl, rfl, .inr rfl⟩

/-- A bus with the queues, the attempt and the deferral of another, or no deferral. -/
theorem Inv.ofLine {s : State} (h : Inv s) {b : Bus} (h1 : b.control = s.bus.control)
    (h2 : b.routine = s.bus.routine) (h3 : b.sending = s.bus.sending)
    (h4 : b.deferral = none ∨ b.deferral = s.bus.deferral) : Inv { s with bus := b } := by
  refine h.ofBus b ⟨h1 ▸ h.queues.1, h2 ▸ h.queues.2⟩ (fun hq => ⟨h3.trans (h.silent hq).1, ?_⟩)
  rcases h4 with x | x
  · exact x
  · exact x.trans (h.silent hq).2

theorem inv_hearFrame {s : State} (h : Inv s) : Inv { s with bus := hearFrame s.bus } :=
  h.ofLine (hearFrame_fields s.bus).1 (hearFrame_fields s.bus).2.1 (hearFrame_fields s.bus).2.2.1
    (hearFrame_fields s.bus).2.2.2

theorem inv_countUnusable {s : State} (h : Inv s) : Inv (countUnusable s) := h.ofLine rfl rfl rfl (.inr rfl)

theorem inv_countMalformed {s : State} (h : Inv s) : Inv (countMalformed s) := h.ofLine rfl rfl rfl (.inr rfl)

theorem inv_countGood {s : State} (h : Inv s) : Inv (countGood s) := h.ofLine rfl rfl rfl (.inr rfl)

theorem inv_countBad {s : State} (h : Inv s) : Inv (countBad s) := h.ofLine rfl rfl rfl (.inr rfl)

/-- A change of the fault set that leaves CLOCK-STOPPED as it is. -/
theorem Inv.ofFaults {s : State} (h : Inv s) (f : Faults) (hf : f.clockStopped = s.faults.clockStopped) :
    Inv { s with faults := f } :=
  ⟨h.memory, h.queues, h.eventQueue, h.peers, h.writeQueue, h.list, h.counts, h.calendar,
    fun hp => hf.trans (h.clockFault hp), h.silent, h.backup⟩

theorem inv_catchDuplicate {s : State} (h : Inv s) : Inv (catchDuplicate s) :=
  Inv.ofFaults (s := { s with bus := { s.bus with duplicates := s.bus.duplicates.succ } })
    (h.ofLine rfl rfl rfl (.inr rfl)) _ rfl

theorem inv_countVerdict {s : State} (h : Inv s) (v : Verdict) : Inv (countVerdict v s) := by
  cases v
  · exact inv_countMalformed h
  · exact inv_countGood h
  · exact inv_countUnusable (inv_countGood h)
  · exact inv_catchDuplicate (inv_countGood h)
  · exact inv_countGood h

theorem inv_endEvent {s : State} (before : State) (h : Inv s) : Inv (endEvent before s) :=
  h.ofKeepsRest (endEvent_handedOn before s).toKeepsRest

theorem inv_finishTelegram {s : State} (before : State) (h : Inv s) : Inv (finishTelegram before s) :=
  h.ofKeepsRest (finishTelegram_handedOn before s).toKeepsRest

theorem inv_settle {s : State} (h : Inv s) : Inv (settle s) := h.ofKeepsRest (settle_handedOn s).toKeepsRest

theorem inv_filterTelegram {s : State} (h : Inv s) (hand : State → State) (t : Telegram)
    (hh : ∀ x, Inv x → Inv (hand x)) : Inv (filterTelegram hand t s) := by
  unfold filterTelegram
  dsimp only
  split
  · exact hh _ (inv_countVerdict h _)
  · exact inv_countVerdict h _

/-- The event of a frame keeps the invariants where the block it is handed to does. -/
theorem inv_frameEvent {s : State} (h : Inv s) (hand : State → State) (t : Option Telegram)
    (hh : ∀ x, Inv x → Inv (hand x)) : Inv (frameEvent hand t s) := by
  unfold frameEvent
  split
  · exact h
  · apply inv_finishTelegram
    unfold takeFrame
    dsimp only
    split
    · exact inv_hearFrame h
    · split
      · exact inv_countBad (inv_hearFrame h)
      · exact inv_filterTelegram (inv_hearFrame h) hand _ hh

theorem inv_telegramEvent {s : State} (h : Inv s) (kind : Nat) (hd : RxHeader) (payload : List Byte)
    (hand : State → State) (hh : ∀ x, Inv x → Inv (hand x)) : Inv (telegramEvent kind hd payload hand s) :=
  inv_frameEvent h hand _ hh

/-! ### The journal -/

/-- A change of the journal whose queue holds at most 4 entries. -/
theorem Inv.ofJournal {s : State} (h : Inv s) (j : Journal) (hj : j.queue.length ≤ 4) : Inv { s with journal := j } :=
  ⟨h.memory, h.queues, h.eventQueue, h.peers, hj, h.list, h.counts, h.calendar, h.clockFault, h.silent, h.backup⟩

/-- A change of the EEPROM bytes in canonical form. -/
theorem Inv.ofCells {s : State} (h : Inv s) (c : List Host.Cell) (a : Bool) (used : Nat) (hc : memWf c = true) :
    Inv { s with eeprom := { cells := c, answers := a }, freeUsed := used } :=
  ⟨hc, h.queues, h.eventQueue, h.peers, h.writeQueue, h.list, h.counts, h.calendar, h.clockFault, h.silent, h.backup⟩

theorem sendAnswerIf_handedOn (a : Option Answer) (d : Nat) (s : State) : HandedOn s (sendAnswerIf a d s) := by
  unfold sendAnswerIf
  split
  · exact .refl s
  · exact send_handedOn _ _

theorem reportNotWritten_handedOn (q : List JournalEntry) (s : State) : HandedOn s (reportNotWritten q s) := by
  induction q generalizing s with
  | nil => exact .refl s
  | cons e rest ih => exact (sendAnswerIf_handedOn _ _ s).trans (ih _)

theorem inv_raiseJournalFull {s : State} (h : Inv s) : Inv (raiseJournalFull s) := by
  unfold raiseJournalFull
  refine Inv.ofKeepsRest ?_ (reportNotWritten_handedOn _ _).toKeepsRest
  exact Inv.ofJournal (s := { s with faults := { s.faults with journalFull := true } }) (h.ofFaults _ rfl) _
    (Nat.zero_le 4)

theorem inv_startWrite {s : State} (h : Inv s) : Inv (startWrite s) := by
  unfold startWrite
  split
  · split
    · exact h.ofJournal _ h.writeQueue
    · exact inv_raiseJournalFull h
  · exact h

theorem inv_handEntries {s : State} (h : Inv s) (es : List JournalEntry) (a : Answer) : Inv (handEntries es a s) := by
  unfold handEntries
  split
  · exact h.ofKeepsRest (send_handedOn _ _).toKeepsRest
  · rename_i hc
    apply inv_startWrite
    apply h.ofJournal
    simp only [Bool.or_eq_true, decide_eq_true_eq, not_or, not_lt] at hc
    rw [List.length_append]
    exact hc.2

theorem memWf_writeSlot (w : SlotWrite) {c : List Host.Cell} (h : memWf c = true) : memWf (writeSlot w c) = true :=
  memWf_writeList _ _ h

theorem inv_spoilSlot {s : State} (h : Inv s) (w : SlotWrite) : Inv (spoilSlot w s) :=
  h.ofCells _ _ _ (memWf_writeSlot _ h.memory)

theorem journalAfterWrite_queue (w : SlotWrite) (rest : List SlotWrite) (now : Stamp) (j : Journal) :
    (journalAfterWrite w rest now j).queue = j.queue := by
  unfold journalAfterWrite
  split <;> rfl

theorem inv_slotWritten {s : State} (h : Inv s) : Inv (slotWritten s) := by
  unfold slotWritten
  split
  · exact h
  · rename_i w rest hplan
    have hj : (journalAfterWrite w rest (nowOf s) s.journal).queue.length ≤ 4 := by
      rw [journalAfterWrite_queue]; exact h.writeQueue
    have h1 : Inv { s with
        eeprom := { s.eeprom with cells := writeSlot w s.eeprom.cells }
        journal := journalAfterWrite w rest (nowOf s) s.journal } :=
      Inv.ofJournal (s := { s with eeprom := { s.eeprom with cells := writeSlot w s.eeprom.cells } })
        (h.ofCells _ _ s.freeUsed (memWf_writeSlot w h.memory)) _ hj
    dsimp only
    split
    · rename_i e q hq
      apply inv_startWrite
      refine Inv.ofKeepsRest ?_ (sendAnswerIf_handedOn _ _ _).toKeepsRest
      refine h1.ofJournal _ ?_
      have : (e :: q).length ≤ 4 := hq ▸ hj
      simp only [List.length_cons] at this
      change q.length ≤ 4
      omega
    · exact h1

theorem inv_headNotWritten {s : State} (h : Inv s) : Inv (headNotWritten s) := by
  unfold headNotWritten
  split
  · exact h
  · rename_i e q hq
    dsimp only
    refine Inv.ofKeepsRest ?_ (sendAnswerIf_handedOn _ _ _).toKeepsRest
    refine h.ofJournal _ ?_
    have : (e :: q).length ≤ 4 := hq ▸ h.writeQueue
    simp only [List.length_cons] at this
    change List.length (if e.pairFirst then _ else _) ≤ 4
    split
    · rw [List.length_modify]; omega
    · omega

theorem inv_slotFailed {s : State} (h : Inv s) : Inv (slotFailed s) := by
  unfold slotFailed
  split
  · exact h
  · dsimp only
    split
    · exact inv_raiseJournalFull (inv_spoilSlot h _)
    · exact inv_startWrite (inv_headNotWritten (inv_spoilSlot h _))

theorem inv_tearWrites {s : State} (h : Inv s) : Inv (tearWrites s) := by
  unfold tearWrites
  dsimp only
  split
  · exact h.ofJournal _ (Nat.zero_le 4)
  · exact (inv_spoilSlot h _).ofJournal _ (Nat.zero_le 4)

end Sys2Proof.Machine
end

