-- ==== Sys2Proof/Laws/InvariantOps.lean ====
section
/-! SUPPORT. The invariants of Safety.lean under the operations of the Timetable, the Calendar, the Presence Unit, the Join Unit and the
starts. -/

namespace Sys2Proof.Machine

/-! ### The Timetable -/

/-- A change of the booking list that holds at most 32 records, and of the capture. -/
theorem Inv.ofTimetable {s : State} (h : Inv s) (t : Timetable) (ht : t.records.length ≤ 32) : Inv { s with tt := t } :=
  ⟨h.memory, h.queues, h.eventQueue, h.peers, h.writeQueue, ⟨ht, h.list.2⟩, h.counts, h.calendar, h.clockFault, h.silent, h.backup⟩

theorem length_replaceRecord {l : List Booking} {b : Booking} {x : Booking} (hx : x ∈ l) (hid : x.id = b.id) :
    (replaceRecord l b).length ≤ l.length := by
  unfold replaceRecord
  rw [length_insertBooking]
  have : (l.filter (fun y => y.id != b.id)).length < l.length := by
    rw [List.length_filter_lt_length_iff_exists]
    exact ⟨x, hx, by simp [hid]⟩
  omega

theorem length_putNew {l : List Booking} (b : Booking) (hl : l.length ≤ 32) : (putNew l b).records.length ≤ 32 := by
  unfold putNew
  split
  · simp only [length_insertBooking]; omega
  · split
    · exact hl
    · rename_i z hz
      split
      · simp only [length_insertBooking, List.length_dropLast]
        omega
      · exact hl

theorem adjustLive_id (now : Option Nat) (f : DateTime) (hc : Nat) (nr : Bool) (b : Booking) :
    (adjustLive now f hc nr b).id = b.id := by
  unfold adjustLive
  dsimp only
  split <;> rfl

theorem length_putLive {s : State} (p : PutFields) {held : Booking} (hh : held ∈ s.tt.records)
    (hl : s.tt.records.length ≤ 32) : (putLive s p held).records.length ≤ 32 := by
  unfold putLive
  dsimp only
  split
  · exact hl
  · split
    · exact hl
    · exact (length_replaceRecord hh (adjustLive_id _ _ _ _ held).symm).trans hl

theorem length_decidePut {s : State} (k : BookingKind) (p : PutFields) (hl : s.tt.records.length ≤ 32) :
    (decidePut s k p).records.length ≤ 32 := by
  unfold decidePut
  dsimp only
  split
  · split
    · exact hl
    · exact length_putNew _ hl
  · rename_i held hf
    have hm := List.mem_of_find?_eq_some hf
    have hid : held.id = p.id := by simpa using List.find?_some hf
    split
    · exact length_putLive p hm hl
    · split
      · exact hl
      · split
        · exact hl
        · exact (length_replaceRecord hm hid).trans hl

theorem length_decideDrop (l : List Booking) (id : Nat) (hl : l.length ≤ 32) :
    (decideDrop l id).records.length ≤ 32 := by
  unfold decideDrop
  split
  · exact (List.length_filter_le _ _).trans hl
  · exact hl

theorem inv_applyDecision {s : State} (h : Inv s) (src id : Nat) (d : Decision) (hd : d.records.length ≤ 32) :
    Inv (applyDecision src id d s) := by
  unfold applyDecision
  dsimp only
  split
  · exact Inv.ofKeepsRest (h.ofTimetable _ hd) (send_handedOn _ _).toKeepsRest
  · exact inv_handEntries (h.ofTimetable _ hd) _ _

theorem inv_evaluateStored {s : State} (h : Inv s) (id : Nat) : Inv (evaluateStored id s) :=
  h.ofKeepsRest (overRecordsAt_handedOn _ (fun c => evaluateOne_keepsId id c) s).toKeepsRest

theorem inv_ttPut {s : State} (h : Inv s) (t : Telegram) : Inv (ttPut t s) := by
  unfold ttPut
  split
  · exact inv_countUnusable h
  · split
    · exact inv_countUnusable h
    · split
      · exact inv_countUnusable h
      · dsimp only
        split
        · exact inv_evaluateStored (inv_applyDecision h _ _ _ (length_decidePut _ _ h.list.1)) _
        · exact inv_applyDecision h _ _ _ (length_decidePut _ _ h.list.1)

theorem inv_ttDrop {s : State} (h : Inv s) (t : Telegram) : Inv (ttDrop t s) := by
  unfold ttDrop
  split
  · exact inv_countUnusable h
  · split
    · exact inv_countUnusable h
    · exact inv_applyDecision h _ _ _ (length_decideDrop _ _ h.list.1)

theorem inv_overRecordsAt {s : State} (h : Inv s) (f : EvalCtx → Booking → RecordResult) (hf : ∀ c, KeepsId (f c)) :
    Inv (overRecordsAt f s) := h.ofKeepsRest (overRecordsAt_handedOn f hf s).toKeepsRest

/-! ### The Calendar -/

theorem monthLength_pos {y m : Nat} (h : 1 ≤ m) (h' : m ≤ 12) : 28 ≤ monthLength y m := by
  unfold monthLength
  split
  · split <;> omega
  · split
    · omega
    · rw [if_pos ⟨h, h'⟩]; omega

theorem validTime_iff (t : CalTime) : validTime t = true ↔
    (2000 ≤ t.year ∧ t.year ≤ 2199 ∧ 1 ≤ t.month ∧ t.month ≤ 12 ∧ 1 ≤ t.day ∧ t.day ≤ monthLength t.year t.month)
      ∧ (t.hour ≤ 23 ∧ t.minute ≤ 59 ∧ t.second ≤ 59) := by
  unfold validTime validDate
  simp only [Bool.and_eq_true, decide_eq_true_eq]

/-- An advance within the calendar range leaves a date and time of the calendar (R4, R6). -/
theorem validTime_advance {t u : CalTime} (h : validTime t = true) (ha : advanceFields t = some u) :
    validTime u = true := by
  rw [validTime_iff] at h ⊢
  obtain ⟨⟨y1, y2, m1, m2, d1, d2⟩, h1, h2, h3⟩ := h
  have m28 := monthLength_pos (y := t.year) (m := t.month + 1)
  have j28 := monthLength_pos (y := t.year + 1) (m := 1) (by omega) (by omega)
  unfold advanceFields at ha
  repeat' split at ha
  all_goals cases ha
  all_goals dsimp only
  all_goals omega

/-- A change of calendar and backup domain in a part without CLOCK-STOPPED at stake, or with it as it must be. -/
theorem Inv.ofCalendar {s : State} (h : Inv s) (c : Calendar) (b : Backup) (f : Faults)
    (hc : if c.running then validTime c.time = true else c.time = calZero)
    (hf : powered s = true → f.clockStopped = !c.running)
    (hb : powered s = false → b.valid = true → c.running = true) : Inv { s with cal := c, backup := b, faults := f } :=
  ⟨h.memory, h.queues, h.eventQueue, h.peers, h.writeQueue, h.list, h.counts, hc, hf, h.silent, hb⟩

theorem advanceDue_running {c : Calendar} (h : advanceDue c = true) : c.running = true := by
  unfold advanceDue at h
  simp only [Bool.and_eq_true] at h
  exact h.1

/-- What an advance of a RUNNING calendar leaves (R6, R8). -/
theorem advanceCalendar_ok {c : Calendar} (hr : c.running = true) (hv : validTime c.time = true) :
    if (advanceCalendar c).running then validTime (advanceCalendar c).time = true
    else (advanceCalendar c).time = calZero := by
  unfold advanceCalendar
  split
  · rename_i t ht
    simp only [hr, if_true]
    exact validTime_advance hv ht
  · rfl

/-! ### The Presence Unit -/

/-- A change of the Presence Unit within the bounds of its queue and its count. -/
theorem Inv.ofPresence {s : State} (h : Inv s) (p : Presence) (hq : p.queue.length ≤ 16) (hn : p.n ≤ 300) :
    Inv { s with presence := p } :=
  ⟨h.memory, h.queues, hq, h.peers, h.writeQueue, h.list, ⟨hn, h.counts.2⟩, h.calendar, h.clockFault, h.silent, h.backup⟩

theorem length_dropMotion {l r : List QueueEvent} (h : dropMotion l = some r) : r.length + 1 = l.length := by
  induction l generalizing r with
  | nil => cases h
  | cons e rest ih =>
    cases e with
    | motion z t => cases h; rfl
    | pass i d t =>
      unfold dropMotion at h
      cases hc : dropMotion rest with
      | none => rw [hc] at h; cases h
      | some x => rw [hc] at h; cases h; simp [ih hc]

/-- A held queue of at most 16 entries holds at most 16 after an arrival (R53). -/
theorem length_appendHeld (e : QueueEvent) {q : List QueueEvent} (h : q.length ≤ 16) :
    (appendHeld e q).1.length ≤ 16 := by
  unfold appendHeld
  split
  · simp; omega
  · split
    · exact h
    · split
      · rename_i r hr
        have := length_dropMotion hr
        simp; omega
      · simp; omega

theorem inv_takeOne {s : State} (h : Inv s) (e : QueueEvent) : Inv (takeOne e s) := h.ofKeepsRest (takeOne_keepsRest e s)

theorem inv_formHeadcount {s : State} (h : Inv s) : Inv (formHeadcount s) := h.ofKeepsRest (formHeadcount_keepsRest s)

theorem inv_formOccupancy {s : State} (h : Inv s) : Inv (formOccupancy s) :=
  h.ofKeepsRest (formOccupancy_handedOn s).toKeepsRest

theorem inv_arriveEntry {s : State} (h : Inv s) (e : QueueEvent) : Inv (arriveEntry e s) := by
  unfold arriveEntry
  split
  · exact h.ofPresence _ (length_appendHeld e h.eventQueue) h.counts.1
  · exact inv_formHeadcount (inv_takeOne h e)

/-! ### The Air Share Unit -/

/-- A change of the Air Share Unit with at most 24 peers. -/
theorem Inv.ofAir {s : State} (h : Inv s) (a : Air) (ha : a.peers.length ≤ 24) : Inv { s with air := a } :=
  ⟨h.memory, h.queues, h.eventQueue, ha, h.writeQueue, h.list, h.counts, h.calendar, h.clockFault, h.silent, h.backup⟩

theorem length_insertPeer (p : Peer) (l : List Peer) : (insertPeer p l).length = l.length + 1 := by
  induction l with
  | nil => rfl
  | cons x rest ih =>
    unfold insertPeer
    split
    · rfl
    · simp [ih]

theorem oldestStale_mem {now : Stamp} {l : List Peer} {x : Peer} (h : oldestStale now l = some x) : x ∈ l := by
  induction l generalizing x with
  | nil => cases h
  | cons p rest ih =>
    unfold oldestStale at h
    split at h
    · split at h
      · cases h; exact List.mem_cons_self ..
      · cases h
    · rename_i y hy
      split at h
      · cases h; exact List.mem_cons_self ..
      · cases h; exact List.mem_cons_of_mem _ (ih hy)

theorem length_updatePeers {now : Stamp} {st : Nat} {c : DemandContent} {q : Nat} {l r : List Peer}
    (hl : l.length ≤ 24) (h : updatePeers now st c q l = some r) : r.length ≤ 24 := by
  unfold updatePeers at h
  split at h
  · split at h <;> cases h <;> simpa [replacePeer] using hl
  · split at h
    · cases h; rw [length_insertPeer]; omega
    · split at h
      · rename_i x hx
        cases h
        rw [length_insertPeer]
        have : (l.filter (fun p => p.station != x.station)).length < l.length := by
          rw [List.length_filter_lt_length_iff_exists]
          exact ⟨x, oldestStale_mem hx, by simp⟩
        omega
      · cases h

/-! ### Starts -/

theorem memWf_makeWrites (ws : List SlotWrite) {c : List Host.Cell} (h : memWf c = true) :
    memWf (makeWrites ws c) = true := by
  induction ws generalizing c with
  | nil => exact h
  | cons w rest ih => exact ih (memWf_writeSlot w h)

theorem length_replayList (s : State) : (replayList s).length ≤ 32 := by
  unfold replayList
  dsimp only
  exact List.length_take_le _ _

/-- A change of phase alone. -/
theorem Inv.ofPhase {s : State} (h : Inv s) (p : Phase) (hl : (heldRecords { s with phase := p }).length ≤ 32)
    (hp : powered { s with phase := p } = true → s.faults.clockStopped = !s.cal.running)
    (hb : powered { s with phase := p } = false → s.backup.valid = true → s.cal.running = true) :
    Inv { s with phase := p } :=
  ⟨h.memory, h.queues, h.eventQueue, h.peers, h.writeQueue, ⟨h.list.1, hl⟩, h.counts, h.calendar,
    hp, h.silent, hb⟩

/-- A loss leaves a valid backup domain only with a RUNNING calendar (R15). -/
theorem recordLoss_backup (s : State) (h : (recordLoss s).backup.valid = true) : (recordLoss s).cal.running = true := by
  change (s.backup.valid && s.cal.running) = true at h
  rw [Bool.and_eq_true] at h
  exact h.2

theorem inv_recordLoss {s : State} (h : Inv s) : Inv (recordLoss s) :=
  ⟨h.memory, h.queues, h.eventQueue, h.peers, h.writeQueue, h.list, h.counts, h.calendar, h.clockFault, h.silent,
    fun _ => recordLoss_backup s⟩

theorem inv_cutWrites {s : State} (h : Inv s) : Inv (cutWrites s) := by
  unfold cutWrites
  split
  · exact inv_tearWrites (inv_spoilSlot h _)
  · exact inv_tearWrites h

theorem tearWrites_backup (s : State) : (tearWrites s).backup = s.backup ∧ (tearWrites s).cal = s.cal := by
  unfold tearWrites
  cases s.journal.plan with
  | nil => exact ⟨rfl, rfl⟩
  | cons w rest => exact ⟨rfl, rfl⟩

theorem cutWrites_backup (s : State) : (cutWrites s).backup = s.backup ∧ (cutWrites s).cal = s.cal := by
  unfold cutWrites
  split
  · exact tearWrites_backup _
  · exact tearWrites_backup s

theorem inv_busOff {s : State} (h : Inv s) : Inv (busOff s) :=
  h.ofBus _ h.queues (fun _ => ⟨rfl, rfl⟩)

theorem inv_holdPart {s : State} (h : Inv s) : Inv (holdPart s) :=
  (inv_busOff (inv_cutWrites (inv_recordLoss h))).ofPhase _ (Nat.zero_le 32) (fun x => by cases x)
    (fun _ => by
      have e := cutWrites_backup (recordLoss s)
      change (cutWrites (recordLoss s)).backup.valid = true → (cutWrites (recordLoss s)).cal.running = true
      rw [e.1, e.2]
      exact recordLoss_backup s)

theorem inv_writeSlots {s : State} (h : Inv s) (ws : List SlotWrite) : Inv (writeSlots ws s) :=
  h.ofCells _ _ s.freeUsed (memWf_makeWrites ws h.memory)

theorem inv_compactionDone {s : State} (h : Inv s) (l : List Booking) : Inv (compactionDone l s) := by
  refine h.ofJournal _ ?_
  unfold compactedJournal
  split <;> exact h.writeQueue

theorem inv_compactionFailed {s : State} (h : Inv s) (w : SlotWrite) : Inv (compactionFailed w s) :=
  Inv.ofJournal (s := { spoilSlot w s with faults := { (spoilSlot w s).faults with journalFull := true } })
    ((inv_spoilSlot h w).ofFaults _ rfl) _ h.writeQueue

theorem onForward_derive (s : State) : HandedOn s (derive s) := by
  unfold derive
  split
  · exact .refl s
  · exact overRecords_handedOn _ (onForward_keepsId _) s

theorem inv_finishStart {s : State} (h : Inv s) (hf : s.faults.clockStopped = !s.cal.running) {l : List Booking}
    (hl : l.length ≤ 32) : Inv (finishStart l s) := by
  unfold finishStart
  apply inv_settle
  refine Inv.ofKeepsRest ?_ (onForward_derive _).toKeepsRest
  exact Inv.ofTimetable (s := { s with phase := .running }) (h.ofPhase _ (Nat.zero_le 32) (fun _ => hf) (fun x => by cases x)) _ hl

end Sys2Proof.Machine
end

