-- ==== Sys2Proof/Laws/InvariantHands.lean ====
section
/-! SUPPORT. Every hand of a telegram, every start and every timer keeps `Inv`: one lemma for each operation that a command runs. -/

namespace Sys2Proof.Machine

theorem Inv.ofLight {s : State} (h : Inv s) (l : Light) : Inv { s with light := l } :=
  ⟨h.memory, h.queues, h.eventQueue, h.peers, h.writeQueue, h.list, h.counts, h.calendar, h.clockFault, h.silent, h.backup⟩
theorem Inv.ofBlind {s : State} (h : Inv s) (l : Blind) : Inv { s with blind := l } :=
  ⟨h.memory, h.queues, h.eventQueue, h.peers, h.writeQueue, h.list, h.counts, h.calendar, h.clockFault, h.silent, h.backup⟩
theorem Inv.ofService {s : State} (h : Inv s) (l : Service) : Inv { s with service := l } :=
  ⟨h.memory, h.queues, h.eventQueue, h.peers, h.writeQueue, h.list, h.counts, h.calendar, h.clockFault, h.silent, h.backup⟩
theorem Inv.ofPins {s : State} (h : Inv s) (l : Pins) : Inv { s with pins := l } :=
  ⟨h.memory, h.queues, h.eventQueue, h.peers, h.writeQueue, h.list, h.counts, h.calendar, h.clockFault, h.silent, h.backup⟩
theorem Inv.ofJoin {s : State} (h : Inv s) (j : Join) (hj : ∀ g, j.group = some g → g.gn ≤ 300) : Inv { s with join := j } :=
  ⟨h.memory, h.queues, h.eventQueue, h.peers, h.writeQueue, h.list, ⟨h.counts.1, hj⟩, h.calendar, h.clockFault, h.silent, h.backup⟩

theorem inv_overRecords {s : State} (h : Inv s) (f) (hf : ∀ c, KeepsId (f c)) : Inv (overRecordsAt f s) := inv_overRecordsAt h f hf

theorem inv_takeTime (p) {s : State} (h : Inv s) : Inv (takeTime p s) := by
  unfold takeTime
  have hr : Inv (refuseTime s) := ⟨h.memory, h.queues, h.eventQueue, h.peers, h.writeQueue, h.list, h.counts, h.calendar, h.clockFault, h.silent, h.backup⟩
  split
  · exact hr
  · split
    · rename_i hv
      simp only [Bool.and_eq_true] at hv
      apply inv_settle
      have hs : Inv (setCalendar _ s) := h.ofCalendar _ _ _ (by simpa using hv.1) (fun _ => rfl) (fun _ _ => rfl)
      unfold handSet
      repeat' split
      · exact inv_overRecordsAt hs _ onForward_keepsId
      · exact inv_overRecordsAt hs _ onForward_keepsId
      · exact inv_overRecordsAt hs _ onBackward_keepsId
      · exact hs
    · exact hr

theorem inv_takePut (hd p) {s : State} (h : Inv s) : Inv (takePut hd p s) := inv_settle (inv_ttPut h _)
theorem inv_takeDrop (hd p) {s : State} (h : Inv s) : Inv (takeDrop hd p s) := inv_settle (inv_ttDrop h _)

theorem inv_takeDemand (hd p) {s : State} (h : Inv s) : Inv (takeDemand hd p s) := by
  unfold takeDemand
  split
  · exact h
  · split
    · exact inv_countUnusable h
    · unfold admitPeer
      split
      · rename_i l hl
        exact inv_settle (h.ofAir _ (length_updatePeers h.peers hl))
      · exact h.ofAir _ h.peers

theorem inv_takeCapacity (hd p) {s : State} (h : Inv s) : Inv (takeCapacity hd p s) := by
  unfold takeCapacity
  split
  · split
    · exact inv_countUnusable h
    · refine inv_settle ?_
      exact ⟨h.memory, h.queues, h.eventQueue, h.peers, h.writeQueue, h.list, h.counts, h.calendar, h.clockFault, h.silent, h.backup⟩
  · exact h

theorem inv_facadesTaken (hd f) {s : State} (h : Inv s) : Inv (facadesTaken hd f s) := by
  unfold facadesTaken
  split
  · exact (h.ofBlind _).ofKeepsRest (formBlinds_handedOn _).toKeepsRest
  · exact (h.ofBlind _).ofKeepsRest (formFacade_handedOn _ _).toKeepsRest

theorem inv_takeSunTelegram (hd p) {s : State} (h : Inv s) : Inv (takeSunTelegram hd p s) := by
  unfold takeSunTelegram
  split
  · split
    · exact inv_countUnusable h
    · exact inv_facadesTaken _ _ h
  · exact h
theorem inv_takeWindTelegram (hd p) {s : State} (h : Inv s) : Inv (takeWindTelegram hd p s) := by
  unfold takeWindTelegram
  split
  · split
    · exact inv_countUnusable h
    · exact inv_facadesTaken _ _ h
  · exact h

theorem inv_panelTaken (r) {s : State} (h : Inv s) : Inv (panelTaken r s) := by
  unfold panelTaken
  have hl : ∀ a, Inv (panelLevelTaken r a s) := by
    intro a
    unfold panelLevelTaken
    apply inv_settle
    have h1 : Inv (beginLevelHold s) := by
      unfold beginLevelHold; split
      · exact h
      · exact h.ofLight _
    unfold setOverrides
    split
    · exact h1
    · exact h1.ofLight _
  split
  · unfold panelSceneTaken
    split
    · exact h.ofJoin _ h.counts.2
    · exact inv_settle (h.ofLight _)
  · exact hl _
  · exact hl _
  · unfold panelBlindTaken
    split
    · exact (h.ofBlind _).ofKeepsRest (formBlinds_handedOn _).toKeepsRest
    · split
      · exact (h.ofBlind _).ofKeepsRest (formBlinds_handedOn _).toKeepsRest
      · exact inv_countUnusable h
  · exact inv_settle ((h.ofLight _).ofBlind _)

theorem inv_takePanel (hd p) {s : State} (h : Inv s) : Inv (takePanel hd p s) := by
  unfold takePanel
  split
  · split
    · exact inv_countUnusable h
    · exact inv_panelTaken _ h
  · exact h

theorem inv_takeJoin (hd use) {s : State} (h : Inv s) (hu : ∀ p, Inv (use p s)) : Inv (takeJoin hd use s) := by
  unfold takeJoin
  split
  · exact h
  · split
    · exact inv_countUnusable h
    · exact (hu _).ofKeepsRest (updateHold_keepsRest _)

theorem inv_hearPartner {s : State} (h : Inv s) : Inv (hearPartner s) := h.ofKeepsRest (hearPartner_keepsRest _)
theorem inv_sendJoin (p k b) {s : State} (h : Inv s) : Inv (sendJoin p k b s) := h.ofKeepsRest (sendJoin_handedOn _ _ _ _).toKeepsRest
theorem inv_enterFollow (p q) {s : State} (h : Inv s) : Inv (enterFollow p q s) := h.ofKeepsRest (enterFollow_keepsRest _ _ _)
theorem inv_leaveJoin (p q r) {s : State} (h : Inv s) : Inv (leaveJoin p q r s) := h.ofKeepsRest (leaveJoin_keepsRest _ _ _ _)

theorem inv_useClaim (src pl p) {s : State} (h : Inv s) : Inv (useClaim src pl p s) := by
  unfold useClaim
  split
  · unfold claimTaken
    repeat' split
    · exact inv_sendJoin _ _ _ h
    · exact inv_sendJoin _ _ _ h
    · exact h
    · exact inv_enterFollow _ _ h
    · unfold claimAtFollow
      repeat' split
      · exact inv_hearPartner (inv_sendJoin _ _ _ h)
      · exact inv_enterFollow _ _ (inv_leaveJoin _ _ _ h)
      · exact h
    · exact inv_enterFollow _ _ (inv_leaveJoin _ _ _ h)
    · exact inv_enterFollow _ _ h
    · exact h
    · exact h
  · exact inv_countUnusable h

theorem inv_useAccept (pl p) {s : State} (h : Inv s) : Inv (useAccept pl p s) := by
  unfold useAccept
  repeat' split
  · exact inv_countUnusable h
  · exact h.ofKeepsRest (enterLead_keepsRest _ _ _)
  · exact inv_hearPartner h
  · exact inv_sendJoin _ _ _ h

theorem inv_useRefuse (pl p) {s : State} (h : Inv s) : Inv (useRefuse pl p s) := by
  unfold useRefuse
  repeat' split
  · exact inv_countUnusable h
  · exact h.ofKeepsRest (claimFails_keepsRest _ _)
  · exact h
  · exact inv_countUnusable h

theorem inv_useRelease (pl p) {s : State} (h : Inv s) : Inv (useRelease pl p s) := by
  unfold useRelease
  repeat' split
  · exact h.ofKeepsRest (returnSolo_keepsRest _ _ _ _)
  · exact h
  · exact inv_countUnusable h

theorem inv_keepRepair (t) {s : State} (h : Inv s) : Inv (keepRepair t s) := by
  unfold keepRepair
  repeat' split
  · exact h
  · exact h
  · exact h.ofKeepsRest ((composeOrder_handedOn _).trans (composeState_handedOn _)).toKeepsRest

theorem inv_useKeep (pl p) {s : State} (h : Inv s) : Inv (useKeep pl p s) := by
  unfold useKeep
  repeat' split
  · exact h
  · exact inv_keepRepair _ (inv_hearPartner h)
  · exact inv_keepRepair _ (inv_hearPartner h)
  · exact inv_sendJoin _ _ _ h
  · exact inv_countUnusable h

theorem inv_changeGroup (f : Group → Group) (hf : ∀ g, (f g).gn ≤ 300 ∨ (f g).gn ≤ g.gn) {s : State} (h : Inv s) :
    Inv (changeGroup f s) := by
  refine h.ofKeepsRest ⟨by constructor <;> rfl, ⟨.refl, le_refl _, fun b hb => ⟨b, hb, rfl⟩, le_refl _, .inr (le_refl _), fun h => h, ?_⟩⟩
  intro g hg
  change s.join.group.map f = some g at hg
  cases hs : s.join.group with
  | none => rw [hs] at hg; cases hg
  | some a =>
    rw [hs] at hg
    cases hg
    exact (hf a).imp id (fun h => ⟨a, rfl, h⟩)

theorem inv_stateTaken (f) {s : State} (h : Inv s) : Inv (stateTaken f s) := by
  unfold stateTaken
  dsimp only
  have h1 : Inv (changeGroup (fun g => takeReport f (applyDeltas f.inTotal f.outTotal g)) s) :=
    inv_changeGroup _ (fun g => .inl ((Nat.sub_le _ _).trans (Nat.min_le_left _ _))) h
  have h2 : Inv (occHanded (occRead s) (formOccupancy (if co2Differs f s then
      formHc (changeGroup (fun g => takeReport f (applyDeltas f.inTotal f.outTotal g)) s) else
      (changeGroup (fun g => takeReport f (applyDeltas f.inTotal f.outTotal g)) s)))) := by
    refine Inv.ofKeepsRest ?_ (occHanded_handedOn _ _).toKeepsRest
    apply inv_formOccupancy
    split
    · exact h1.ofKeepsRest (formHc_handedOn _).toKeepsRest
    · exact h1
  have h3 := fun f' hf' => inv_settle (inv_changeGroup f' hf' h2)
  have h4 : ∀ x : State, Inv x → Inv (requestTaken f.request f.requestScene x) := by
    intro x hx
    unfold requestTaken
    repeat' split
    · exact hx
    · exact hx
    · exact inv_settle (Inv.ofLight (inv_changeGroup _ (by intro g; exact .inr (le_refl _)) hx) _)
  apply h4
  apply inv_settle
  apply inv_changeGroup _ (by intro g; exact .inr (le_refl _))
  exact h3 _ (by intro g; exact .inr (le_refl _))

theorem inv_useState (src pl p) {s : State} (h : Inv s) : Inv (useState src pl p s) := by
  unfold useState
  repeat' split
  · exact inv_countUnusable h
  · exact h
  · exact inv_stateTaken _ ((inv_hearPartner h).ofKeepsRest (recordSeq_keepsRest _ _))
  · exact inv_hearPartner h
  · exact inv_sendJoin _ _ _ h

theorem inv_useOrder (pl p) {s : State} (h : Inv s) : Inv (useOrder pl p s) := by
  unfold useOrder
  repeat' split
  · exact inv_countUnusable h
  · exact h
  · rename_i f _ _ _ _
    unfold orderTaken
    dsimp only
    have h0 : Inv (recordSeq f.seq (hearPartner s)) := (inv_hearPartner h).ofKeepsRest (recordSeq_keepsRest _ _)
    apply inv_settle
    refine Inv.ofKeepsRest ?_ (occHanded_handedOn _ _).toKeepsRest
    exact h0.ofJoin _ h0.counts.2
  · exact inv_hearPartner h
  · exact inv_sendJoin _ _ _ h

theorem inv_takeSafety (hd p) {s : State} (h : Inv s) : Inv (takeSafety hd p s) := by
  have hc : ∀ u, Inv (changeSafety u s) := by
    intro u; unfold changeSafety; split
    · exact h
    · exact inv_settle (h.ofService _)
  unfold takeSafety safetyContent
  repeat' split
  all_goals first | exact inv_countMalformed h | exact inv_countUnusable h | exact hc _

theorem inv_loadConfiguration {s : State} (h : Inv s) : Inv (loadConfiguration s) :=
  ⟨h.memory, h.queues, h.eventQueue, h.peers, h.writeQueue, h.list, h.counts, h.calendar, h.clockFault, h.silent, h.backup⟩

theorem inv_firstForms {s : State} (h : Inv s) : Inv (firstForms s) := h.ofKeepsRest (firstForms_handedOn s).toKeepsRest

theorem inv_restartBlocks (old c) {s : State} (h : Inv s) : Inv (restartBlocks old c s) :=
  ⟨h.memory, h.queues, Nat.zero_le 16, Nat.zero_le 24, h.writeQueue, h.list, ⟨Nat.zero_le 300, fun g hg => by cases hg⟩, h.calendar,
    h.clockFault, h.silent, h.backup⟩

theorem Inv.ofImageWait {s : State} (h : Inv s) (b : Bool) : Inv { s with imageWait := b } :=
  ⟨h.memory, h.queues, h.eventQueue, h.peers, h.writeQueue, h.list, h.counts, h.calendar, h.clockFault, h.silent, h.backup⟩

theorem inv_rereadImage (old) {s : State} (h : Inv s) : Inv (rereadImage old s) :=
  inv_firstForms (inv_restartBlocks _ _ (inv_loadConfiguration (h.ofImageWait false)))

theorem inv_serviceRestartNow {s : State} (h : Inv s) : Inv (serviceRestartNow s) := by
  have h1 : Inv (restartKept (journalRestart { s with clock := clockZero, listening := true, statusSeq := s.statusSeq.succ })) := by
    refine ⟨h.memory, ⟨Nat.zero_le 8, Nat.zero_le 8⟩, h.eventQueue, h.peers, ?_, ⟨?_, h.list.2⟩, h.counts, h.calendar, h.clockFault,
      fun _ => ⟨rfl, rfl⟩, h.backup⟩
    · change (List.map _ s.journal.queue).length ≤ 4
      rw [List.length_map]; exact h.writeQueue
    · change (List.map _ s.tt.records).length ≤ 32
      rw [List.length_map]; exact h.list.1
  unfold serviceRestartNow
  dsimp only
  split
  · exact inv_rereadImage _ h1
  · exact (inv_restartBlocks _ _ (h1.ofImageWait true)).ofKeepsRest (refreshSession_handedOn _).toKeepsRest

theorem inv_takeService (hd p) {s : State} (h : Inv s) : Inv (takeService hd p s) := by
  have hs : ∀ f, Inv (serviceTaken f s) := by
    intro f
    unfold serviceTaken
    have h1 : Inv (maskStep f s) := by
      unfold maskStep
      repeat' split
      · exact h
      · exact h.ofService _
      · exact inv_settle (h.ofService _)
    have h2 : Inv (lockStep f (maskStep f s)) := h1.ofService _
    unfold restartStep
    repeat' split
    · exact h2
    · exact h2.ofService _
    · exact inv_serviceRestartNow h2
  unfold takeService
  repeat' split
  all_goals first | exact inv_countUnusable h | exact hs _ | exact h

theorem inv_takeQuery (hd p) {s : State} (h : Inv s) : Inv (takeQuery hd p s) := by
  have ha : ∀ i k c, Inv (answerQuery hd i k c s) := fun i k c => h.ofKeepsRest (sendAll_handedOn _ _).toKeepsRest
  unfold takeQuery
  repeat' split
  all_goals first | exact ha _ _ _ | exact inv_countUnusable h

theorem inv_ite (c : Prop) [Decidable c] {a b : State} (ha : Inv a) (hb : Inv b) : Inv (if c then a else b) := by
  split
  · exact ha
  · exact hb

theorem inv_handTelegram (t) {s : State} (h : Inv s) : Inv (handTelegram t s) := by
  unfold handTelegram
  refine inv_ite _ (inv_takeTime _ h) ?_
  refine inv_ite _ (inv_takePut _ _ h) ?_
  refine inv_ite _ (inv_takeDrop _ _ h) ?_
  refine inv_ite _ (inv_takeDemand _ _ h) ?_
  refine inv_ite _ (inv_takeCapacity _ _ h) ?_
  refine inv_ite _ (inv_takeSunTelegram _ _ h) ?_
  refine inv_ite _ (inv_takeWindTelegram _ _ h) ?_
  refine inv_ite _ (inv_takePanel _ _ h) ?_
  refine inv_ite _ (inv_takeJoin _ _ h (fun p => inv_useClaim _ _ p h)) ?_
  refine inv_ite _ (inv_takeJoin _ _ h (fun p => inv_useAccept _ p h)) ?_
  refine inv_ite _ (inv_takeJoin _ _ h (fun p => inv_useRefuse _ p h)) ?_
  refine inv_ite _ (inv_takeJoin _ _ h (fun p => inv_useRelease _ p h)) ?_
  refine inv_ite _ (inv_takeJoin _ _ h (fun p => inv_useKeep _ p h)) ?_
  refine inv_ite _ (inv_takeJoin _ _ h (fun p => inv_useState _ _ p h)) ?_
  refine inv_ite _ (inv_takeJoin _ _ h (fun p => inv_useOrder _ p h)) ?_
  refine inv_ite _ (inv_takeSafety _ _ h) ?_
  refine inv_ite _ (inv_takeService _ _ h) ?_
  exact inv_ite _ (inv_takeQuery _ _ h) h

theorem inv_startBlocks {s : State} (hmem : MemoryOk s) (hlist : (heldRecords s).length ≤ 32) (hcal : CalendarOk s) (hback : BackupOk s) (hp : powered s = false) : Inv (startBlocks s) := by
  unfold startBlocks
  dsimp only
  apply inv_firstForms
  refine ⟨hmem, ⟨Nat.zero_le 8, Nat.zero_le 8⟩, Nat.zero_le 16, Nat.zero_le 24, ?_, ⟨Nat.zero_le 32, hlist⟩,
    ⟨Nat.zero_le 300, fun g hg => by cases hg⟩, ?_, fun _ => rfl, fun _ => ⟨rfl, rfl⟩, fun _ x => x⟩
  · unfold WriteQueueBounded replayJournal
    dsimp only
    split <;> exact Nat.zero_le 4
  · have hc := hcal
    have hb := hback hp
    unfold CalendarOk at hc ⊢
    unfold restoreCalendar
    dsimp only
    split
    · rename_i hv
      rw [hb hv] at hc
      simpa using hc
    · rfl

theorem compactionFailed_calendar (w) (s : State) : (compactionFailed w s).faults.clockStopped = s.faults.clockStopped ∧ (compactionFailed w s).cal = s.cal := ⟨rfl, rfl⟩

theorem compactionDone_calendar (l) (s : State) : (compactionDone l s).faults = s.faults ∧ (compactionDone l s).cal = s.cal := ⟨rfl, rfl⟩
theorem writeSlots_calendar (l) (s : State) : (writeSlots l s).faults = s.faults ∧ (writeSlots l s).cal = s.cal := ⟨rfl, rfl⟩

theorem inv_finishStart_of {s : State} (h : Inv s) (c f) (hc : s.cal = c) (hff : s.faults = f) (hf : f.clockStopped = !c.running) {l : List Booking}
   (hl : l.length ≤ 32) : Inv (finishStart l s) := inv_finishStart h (by rw [hff, hc, hf]) hl

theorem inv_compact {s : State} (h : Inv s) (hf : s.faults.clockStopped = !s.cal.running) {l : List Booking} (hl : l.length ≤ 32)
    (run) : Inv (compact l run s) := by
  unfold compact
  dsimp only
  have hd : ∀ ws, Inv (finishStart l (compactionDone l (writeSlots ws s))) := fun ws =>
    inv_finishStart_of (inv_compactionDone (inv_writeSlots h ws) l) s.cal s.faults rfl rfl hf hl
  have he : ∀ ws w, Inv (finishStart l (compactionFailed w (writeSlots ws s))) := fun ws w =>
    inv_finishStart (inv_compactionFailed (inv_writeSlots h ws) w) (by
      rw [(compactionFailed_calendar _ _).1, (compactionFailed_calendar _ _).2, (writeSlots_calendar _ _).1, (writeSlots_calendar _ _).2]; exact hf) hl
  have hg : ∀ ws q, Inv { writeSlots ws s with
      phase := Phase.compacting l q false
      journal := { (writeSlots ws s).journal with since := some (nowOf (writeSlots ws s)) } } := by
    intro ws q
    have h2 := inv_writeSlots h ws
    exact ⟨h2.memory, h2.queues, h2.eventQueue, h2.peers, h2.writeQueue, ⟨h2.list.1, hl⟩, h2.counts, h2.calendar,
        fun _ => hf, h2.silent, fun x => by cases x⟩
  generalize compactionPlan l = ws
  cases run with
  | completes => exact hd ws
  | failsAt k =>
    dsimp only
    cases ws.drop k with
    | nil => exact hd ws
    | cons w r => exact he _ w
  | runningAt k =>
    dsimp only
    cases ws.drop k with
    | nil => exact hd ws
    | cons w r => exact hg _ _

theorem inv_coldStart {s : State} (h : Inv s) (hp : powered s = false) (w : StartWorld) : Inv (coldStart w s) := by
  unfold coldStart
  dsimp only
  have hm : MemoryOk (startRead w s) := by
    unfold startRead loadConfiguration startEeprom MemoryOk
    dsimp only
    split
    · exact h.memory
    · exact memWf_withImage _ h.memory
  have hb : Inv (startBlocks (startRead w s)) := inv_startBlocks hm h.list.2 h.calendar h.backup hp
  have hf : (startBlocks (startRead w s)).faults.clockStopped = !(startBlocks (startRead w s)).cal.running := by
    unfold startBlocks
    dsimp only
    rw [(firstForms_handedOn _).faults, (firstForms_handedOn _).cal]
    rfl
  have hp' : powered (startBlocks (startRead w s)) = false := by
    unfold startBlocks powered
    dsimp only
    rw [(firstForms_handedOn _).phase]
    exact hp
  split
  · exact inv_compact hb hf (length_replayList _) _
  · exact inv_finishStart hb hf (length_replayList _)

theorem inv_powerReturns {s : State} (h : Inv s) (w) : Inv (powerReturns w s) := by
  unfold powerReturns
  split
  · rename_i hp
    split
    · exact h.ofPhase _ (Nat.zero_le 32) (fun x => by cases x) (fun _ => h.backup (by unfold powered; rw [hp]))
    · exact inv_coldStart h (by unfold powered; rw [hp]) w
  · exact h

theorem inv_powerFails {s : State} (h : Inv s) : Inv (powerFails s) := by
  unfold powerFails
  split
  · exact h
  · exact (inv_recordLoss h).ofPhase _ (Nat.zero_le 32) (fun x => by cases x) (fun _ => recordLoss_backup s)
  · have h1 := inv_holdPart h
    exact h1.ofPhase _ (Nat.zero_le 32) (fun x => by cases x) (fun _ => h1.backup rfl)

theorem inv_resetAsserted {s : State} (h : Inv s) : Inv (resetAsserted s) := by
  unfold resetAsserted
  split
  · rename_i r q d hp
    have h0 : r.length ≤ 32 := by
      have h0 := h.list.2
      unfold heldRecords at h0
      rw [hp] at h0
      exact h0
    have h1 : Inv { s with phase := .compacting r q true } := h.ofPhase _ h0 (fun _ => h.clockFault (by unfold powered; rw [hp])) (fun x => by cases x)
    exact h1.ofPins _
  · exact (inv_holdPart h).ofPins _
  · exact h.ofPins _

theorem inv_completeCompaction {s : State} (h : Inv s) : Inv (completeCompaction s) := by
  unfold completeCompaction
  split
  · rename_i r q d hp
    have h0 : r.length ≤ 32 := by
      have h0 := h.list.2
      unfold heldRecords at h0
      rw [hp] at h0
      exact h0
    have h2 := inv_writeSlots h q
    exact inv_compactionDone (s := { writeSlots q s with phase := .compacting r [] d }) (h2.ofPhase (.compacting r [] d) h0 (fun _ => h.clockFault (by unfold powered; rw [hp])) (fun x => by cases x)) r
  · exact h

theorem inv_resetReleased {s : State} (h : Inv s) (w) : Inv (resetReleased w s) := by
  unfold resetReleased
  split
  · rename_i hp
    split
    · exact inv_coldStart (s := setResetPin false s) (h.ofPins _) (by unfold powered setResetPin; dsimp only; rw [hp]) w
    · exact h
  · exact inv_coldStart (s := setResetPin false _) ((inv_holdPart (inv_completeCompaction h)).ofPins _) rfl w
  · exact h.ofPins _

theorem inv_deferredReset {s : State} (h : Inv s) : Inv (deferredReset s) := by
  unfold deferredReset
  split
  · exact inv_holdPart h
  · exact h

theorem inv_backupFails {s : State} (h : Inv s) : Inv (backupFails s) := by
  unfold backupFails
  split
  · exact h.ofCalendar _ _ s.faults h.calendar h.clockFault (fun _ x => by cases x)
  · exact h

theorem inv_compactionWritten {s : State} (h : Inv s) : Inv (compactionWritten s) := by
  unfold compactionWritten
  split
  · rename_i r q d hp
    have h0 : r.length ≤ 32 := by
      have h0 := h.list.2
      unfold heldRecords at h0
      rw [hp] at h0
      exact h0
    have hw : powered s = true := by unfold powered; rw [hp]
    have h1 := inv_compactionDone (inv_writeSlots h [q]) r
    dsimp only
    split
    · exact h1.ofPhase _ h0 (fun _ => h.clockFault hw) (fun x => by cases x)
    · exact inv_finishStart h1 (h.clockFault hw) h0
  · rename_i r q rest d hne hp
    have h0 : r.length ≤ 32 := by
      have h0 := h.list.2
      unfold heldRecords at h0
      rw [hp] at h0
      exact h0
    have hw : powered s = true := by unfold powered; rw [hp]
    exact ((inv_writeSlots h [q]).ofPhase (.compacting r rest d) h0 (fun _ => h.clockFault hw) (fun x => by cases x)).ofJournal _ h.writeQueue
  · exact h

theorem inv_compactionBroken {s : State} (h : Inv s) : Inv (compactionBroken s) := by
  unfold compactionBroken
  split
  · rename_i r q rest d hp
    have h0 : r.length ≤ 32 := by
      have h0 := h.list.2
      unfold heldRecords at h0
      rw [hp] at h0
      exact h0
    have hw : powered s = true := by unfold powered; rw [hp]
    have h1 := inv_compactionFailed h q
    dsimp only
    split
    · exact h1.ofPhase _ h0 (fun _ => h.clockFault hw) (fun x => by cases x)
    · exact inv_finishStart h1 (h.clockFault hw) h0
  · exact h

theorem inv_endListen {s : State} (h : Inv s) : Inv (endListen s) := by
  unfold endListen
  dsimp only
  have h1 : Inv (endListenAir s) := by
    unfold endListenAir
    refine Inv.ofKeepsRest ?_ (airLoop_handedOn _ _).toKeepsRest
    exact ⟨h.memory, h.queues, h.eventQueue, h.peers, h.writeQueue, h.list, h.counts, h.calendar, h.clockFault,
      fun hq => h.silent (hq.elim (fun x => by cases x) Or.inr), h.backup⟩
  refine Inv.ofKeepsRest ?_ (deferIfWaiting_handedOn _).toKeepsRest
  refine Inv.ofKeepsRest ?_ (overRecordsAt_handedOn _ onListenEnd_keepsId _).toKeepsRest
  refine Inv.ofKeepsRest ?_ (updateHold_keepsRest _)
  refine Inv.ofKeepsRest ?_ (tryClaim_keepsRest _)
  refine Inv.ofKeepsRest ?_ (formBlinds_handedOn _).toKeepsRest
  refine Inv.ofKeepsRest ?_ (selectScene_handedOn _).toKeepsRest
  unfold settleHoldScene
  repeat' split
  · exact h1
  · exact h1
  · exact h1.ofLight _

theorem inv_afterRecords {s : State} (h : Inv s) : Inv (afterRecords s) := h.ofKeepsRest (afterRecords_handedOn s).toKeepsRest

theorem inv_advancePowered {s : State} (h : Inv s) (hd : advanceDue s.cal = true) (hp : powered s = true) : Inv (advancePowered s) := by
  have hr := advanceDue_running hd
  have hv : validTime s.cal.time = true := by
    have := h.calendar; unfold CalendarOk at this; rwa [hr] at this
  have hc := advanceCalendar_ok hr hv
  unfold advancePowered
  dsimp only
  split
  · rename_i hn
    unfold clockStops
    apply inv_afterRecords
    refine Inv.ofKeepsRest ?_ (ttClockStop_handedOn _).toKeepsRest
    refine h.ofCalendar _ s.backup _ hc (fun _ => ?_) (fun x => by
      change powered s = false at x; rw [hp] at x; cases x)
    simpa using hn
  · rename_i hn
    have hn' : (advanceCalendar s.cal).running = true := by simpa using hn
    have h1 : Inv { s with cal := advanceCalendar s.cal } := by
      refine h.ofCalendar _ s.backup s.faults hc (fun _ => ?_) (fun x => by rw [hp] at x; cases x)
      rw [hn', h.clockFault hp, hr]
    split
    · apply inv_afterRecords
      unfold boundaries
      split
      · exact h1
      · dsimp only
        split
        · exact inv_overRecordsAt (inv_overRecordsAt h1 _ onMinute_keepsId) _ onDay_keepsId
        · exact inv_overRecordsAt h1 _ onMinute_keepsId
    · exact h1

theorem inv_advanceUnpowered {s : State} (h : Inv s) (hd : advanceDue s.cal = true) (hp : powered s = false) : Inv (advanceUnpowered s) := by
  have hr := advanceDue_running hd
  have hv : validTime s.cal.time = true := by
    have := h.calendar; unfold CalendarOk at this; rwa [hr] at this
  refine h.ofCalendar _ _ s.faults (advanceCalendar_ok hr hv) (fun x => by rw [hp] at x; cases x) (fun _ x => ?_)
  simp only [Bool.and_eq_true] at x
  exact x.2

theorem inv_doorTakesBreak (d : Nat) (b : Beam) {s : State} (h : Inv s) : Inv (doorTakesBreak d b s) := by
  unfold doorTakesBreak
  split
  · exact h
  · dsimp only
    split
    · exact h.ofPresence _ h.eventQueue h.counts.1
    · refine inv_arriveEntry ?_ _
      exact ⟨h.memory, h.queues, h.eventQueue, h.peers, h.writeQueue, h.list, h.counts, h.calendar, h.clockFault, h.silent, h.backup⟩

theorem setDoorFault_clockStopped (d r) (f : Faults) : (setDoorFault d r f).clockStopped = f.clockStopped := by
  unfold setDoorFault; repeat' split
  all_goals rfl

theorem inv_doorFails (d) {s : State} (h : Inv s) : Inv (doorFails d s) := by
  unfold doorFails
  dsimp only
  apply inv_formHeadcount; apply inv_formOccupancy
  have h1 := h.ofFaults (setDoorFault d true s.faults) (setDoorFault_clockStopped _ _ _)
  exact h1.ofPresence _ h.eventQueue h.counts.1

theorem inv_doorRecovers (d) {s : State} (h : Inv s) : Inv (doorRecovers d s) := by
  unfold doorRecovers
  apply inv_formHeadcount; apply inv_formOccupancy
  have h1 := h.ofFaults (setDoorFault d false s.faults) (setDoorFault_clockStopped _ _ _)
  exact h1.ofPresence _ h.eventQueue h.counts.1

theorem inv_co2Handed (f : Faults) (p : Presence) {s : State} (h : Inv s) (hf : f.clockStopped = s.faults.clockStopped)
   (hq : p.queue = s.presence.queue) (hn : p.n = s.presence.n) :
    Inv (formHeadcount (settle (formHc { s with presence := p, faults := f }))) := by
  apply inv_formHeadcount; apply inv_settle
  refine Inv.ofKeepsRest ?_ (formHc_handedOn _).toKeepsRest
  exact Inv.ofPresence (s := { s with faults := f }) (h.ofFaults f hf) p (hq ▸ h.eventQueue) (hn ▸ h.counts.1)

theorem inv_changePresence (f) {s : State} (h : Inv s) (hk : KeepsDoors s.presence (f s.presence)) : Inv (changePresence f s) :=
  h.ofKeepsRest (changePresence_keepsRest f s hk)

theorem inv_endImageWait {s : State} (h : Inv s) : Inv (endImageWait s) := by
  unfold endImageWait
  split
  · exact inv_rereadImage _ h
  · exact h

theorem inv_tick {s : State} (h : Inv s) : Inv (tick s) := by
  have key : ∀ (c : Clock) (cal : Calendar) (b : Bus) (l : Blind) (p : List Instr), cal.time = s.cal.time → cal.running = s.cal.running →
      BusBounded b → (s.listening = true ∨ s.station = 0 → BusSilent b) →
      Inv { s with clock := c, cal := cal, bus := b, blind := l, pending := p } := by
    intro c cal b l p h1 h2 h3 h4
    refine ⟨h.memory, h3, h.eventQueue, h.peers, h.writeQueue, h.list, h.counts, ?_, ?_, h4, ?_⟩
    · have := h.calendar; unfold CalendarOk at this ⊢; dsimp only; rw [h1, h2]; exact this
    · intro x; dsimp only; rw [h2]; exact h.clockFault x
    · intro x; dsimp only; rw [h2]; exact h.backup x
  have hc : ∀ b : Bool, (if b then { s.cal with phase := s.cal.phase + 1 } else s.cal).time = s.cal.time ∧
    (if b then { s.cal with phase := s.cal.phase + 1 } else s.cal).running = s.cal.running := by
    intro b; cases b <;> exact ⟨rfl, rfl⟩
  have hq := h.silent
  unfold tick tickClocks
  dsimp only
  split
  · refine key _ _ _ _ _ (hc _).1 (hc _).2 h.queues (fun x => ⟨(hq x).1, ?_⟩)
    change Option.map _ s.bus.deferral = none
    rw [(hq x).2]; rfl
  · exact key _ _ _ s.blind _ (hc _).1 (hc _).2 h.queues hq

theorem inv_beginAttempt (c) {s : State} (h : Inv s) (hm : maySpeak s = true) : Inv { s with bus := beginAttempt s.station c s.bus } := by
  refine h.ofBus _ (beginAttempt_bounded s.station h.queues c) (fun x => ?_)
  unfold maySpeak at hm
  rcases x with x | x <;> simp [x] at hm

theorem length_takeSame {t : OutTelegram} {l : List QueueEntry} {r} (h : takeSame t l = some r) : r.2.length + 1 = l.length := by
  induction l generalizing r with
  | nil => cases h
  | cons e rest ih =>
    unfold takeSame at h
    split at h
    · cases h; rfl
    · cases hc : takeSame t rest with
      | none => rw [hc] at h; cases h
      | some x => rw [hc] at h; cases h; simp [ih hc]

theorem length_collidedQueue (n) {q : List QueueEntry} (h : q.length ≤ 8) : (collidedQueue n q).length ≤ 8 := by
  unfold collidedQueue
  split
  · exact h
  · simp only [List.length_cons] at h
    split
    · omega
    · split
      · rename_i t r hr
        have := length_takeSame hr
        simp at this ⊢; omega
      · simpa using h

end Sys2Proof.Machine
end

