-- ==== Sys2Proof/Laws/Lists.lean ====
section
/-! SUPPORT. Reading and changing a list by the manual's numbers, which count from 1. -/

namespace Sys2Proof.Machine

theorem nth1_update1_same {α : Type} {l : List α} {i : Nat} {x : α} (f : α → α) (h : nth1 l i = some x) :
    nth1 (update1 l i f) i = some (f x) := by
  unfold nth1 at h
  unfold nth1 update1
  split at h
  · cases h
  · rename_i hi
    simp [hi, h]

theorem nth1_update1_other {α : Type} (l : List α) {i j : Nat} (f : α → α) (h : j ≠ i) :
    nth1 (update1 l i f) j = nth1 l j := by
  unfold nth1 update1
  split
  · rfl
  · split
    · rfl
    · rename_i hj hi
      rw [List.getElem?_modify]
      have : i - 1 ≠ j - 1 := by omega
      simp [this]

theorem length_update1 {α : Type} (l : List α) (i : Nat) (f : α → α) : (update1 l i f).length = l.length := by
  unfold update1
  split
  · rfl
  · exact List.length_modify ..

end Sys2Proof.Machine
end

