-- ==== Sys2Proof/Laws/Outputs.lean ====
section
/-! SUPPORT. The end of an event leaves the outputs alone; what forming the light and blind targets leaves; and where the session is up to
date, settling changes neither list, session nor panel hold. -/

namespace Sys2Proof.Machine

/-! ### The end of an event -/

/-- The states agree on the Timetable, the air, the light and the blinds. -/
structure KeepsOutputs (s t : State) : Prop where
  tt : t.tt = s.tt
  air : t.air = s.air
  light : t.light = s.light
  blind : t.blind = s.blind

theorem KeepsOutputs.refl (s : State) : KeepsOutputs s s := ⟨rfl, rfl, rfl, rfl⟩

theorem KeepsOutputs.trans {s t u : State} (a : KeepsOutputs s t) (b : KeepsOutputs t u) : KeepsOutputs s u :=
  ⟨b.tt.trans a.tt, b.air.trans a.air, b.light.trans a.light, b.blind.trans a.blind⟩

theorem send_keepsOutputs (t : OutTelegram) (s : State) : KeepsOutputs s (send t s) := ⟨rfl, rfl, rfl, rfl⟩

theorem sendJoin_keepsOutputs (p k : Nat) (b : List Byte) (s : State) : KeepsOutputs s (sendJoin p k b s) := by
  unfold sendJoin
  dsimp only
  split <;> exact ⟨rfl, rfl, rfl, rfl⟩

theorem composeOrder_keepsOutputs (s : State) : KeepsOutputs s (composeOrder s) := by
  unfold composeOrder
  split
  · split
    · exact .refl s
    · dsimp only
      refine KeepsOutputs.trans ?_ (sendJoin_keepsOutputs _ _ _ _)
      exact ⟨rfl, rfl, rfl, rfl⟩
  · exact .refl s

theorem composeState_keepsOutputs (s : State) : KeepsOutputs s (composeState s) := by
  unfold composeState
  split
  · dsimp only
    refine KeepsOutputs.trans ?_ (sendJoin_keepsOutputs _ _ _ _)
    exact ⟨rfl, rfl, rfl, rfl⟩
  · exact .refl s

theorem composeJoin_keepsOutputs (s : State) : KeepsOutputs s (composeJoin s) := by
  unfold composeJoin
  split
  · exact composeOrder_keepsOutputs s
  · split
    · exact composeState_keepsOutputs s
    · exact .refl s

theorem endEvent_keepsOutputs (before after : State) : KeepsOutputs after (endEvent before after) := by
  refine (composeJoin_keepsOutputs after).trans ?_
  unfold endEvent commit
  split
  · exact .refl _
  · exact ⟨rfl, rfl, rfl, rfl⟩

theorem finishTelegram_keepsOutputs (before after : State) : KeepsOutputs after (finishTelegram before after) :=
  KeepsOutputs.trans (t := deferIfWaiting after) ⟨rfl, rfl, rfl, rfl⟩ (endEvent_keepsOutputs _ _)

/-- What the Join Unit's follower record keeps at the end of an event beside its order, share and request. -/
theorem endEvent_requestScene (before after : State) :
    (endEvent before after).join.follower.map (fun f => f.requestScene) = after.join.follower.map (fun f => f.requestScene) := by
  have hj : ∀ s : State, (composeJoin s).join.follower.map (fun f => f.requestScene) = s.join.follower.map (fun f => f.requestScene) := by
    intro s
    have hs : ∀ (p k : Nat) (b : List Byte) (s : State), (sendJoin p k b s).join.follower = s.join.follower := by
      intro p k b s
      unfold sendJoin
      dsimp only
      split <;> rfl
    unfold composeJoin
    split
    · unfold composeOrder
      split
      · split
        · rfl
        · rw [hs]
      · rfl
    · split
      · unfold composeState
        split
        · rename_i h _
          rw [hs, h]
          rfl
        · rfl
      · rfl
  unfold endEvent commit
  split
  · exact hj after
  · exact hj after

/-! ### The light targets -/

theorem retargetZone_target (now : Stamp) (len target : Nat) (z : Zone) : (retargetZone now len target z).target = target := by
  unfold retargetZone
  split
  · rename_i h
    exact h.symm
  · split <;> rfl

/-- The target of a zone after the room scene has been applied from zone `k` on. -/
theorem fadeZones_target (now : Stamp) (l : Light) (sc : SceneCfg) (k : Nat) (cs : List ZoneCfg) (zs : List Zone) (i : Nat)
    {z : Zone} {c : ZoneCfg} (hz : (fadeZones now l sc k cs zs)[i]? = some z) (hc : cs[i]? = some c) :
    z.target = roomTarget l sc (k + i) c := by
  induction cs generalizing k zs i with
  | nil => simp at hc
  | cons c' cs ih =>
    cases zs with
    | nil => simp [fadeZones] at hz
    | cons z' zs =>
      cases i with
      | zero =>
        simp only [fadeZones, List.getElem?_cons_zero, Option.some.injEq] at hz hc
        subst hz hc
        exact retargetZone_target _ _ _ _
      | succ i =>
        simp only [fadeZones, List.getElem?_cons_succ] at hz hc
        rw [ih (k + 1) zs i hz hc, show k + 1 + i = k + (i + 1) by omega]

theorem roomTarget_zones (l : Light) (zs : List Zone) (o : LightOverride) (sc : SceneCfg) (i : Nat) (c : ZoneCfg) :
    roomTarget { l with override := o, zones := zs } sc i c = roomTarget l sc i c := rfl

/-- The zones after their targets are formed: 1000 under EVACUATE, and under a room scene outside a listen-in its room targets. -/
theorem formZones_spec (s : State) :
    (s.service.evacuate = true → (formZones s).zones = s.light.zones.map (setZone 1000))
    ∧ (s.service.evacuate = false → s.service.maskLight = false → s.listening = false →
        ∀ sc, s.light.scene.bind (sceneOf s.cfg) = some sc →
          (formZones s).zones = fadeZones (nowOf s) { s.light with override := .none } sc 1 s.cfg.zones s.light.zones) := by
  constructor
  · intro h
    unfold formZones lightOverrideOf
    rw [if_pos h]
  · intro h1 h2 h3 sc hsc
    unfold formZones lightOverrideOf
    rw [h1, h2, h3]
    dsimp only
    simp only [Bool.false_eq_true, if_false]
    rw [hsc]

/-! ### Settling where the session is up to date -/

theorem sortBookings_ordered {l : List Booking} (h : l.Pairwise (fun a b => bookingBefore a b = true)) : sortBookings l = l := by
  induction l with
  | nil => rfl
  | cons x r ih =>
    rw [List.pairwise_cons] at h
    change insertBooking x (sortBookings r) = x :: r
    rw [ih h.2]
    cases r with
    | nil => rfl
    | cons y r => unfold insertBooking; rw [if_pos (h.1 y List.mem_cons_self)]

theorem eachRecord_same {f : Booking → RecordResult} {l : List Booking} (h : ∀ b ∈ l, f b = (some b, [])) :
    eachRecord f l = (l, []) := by
  induction l with
  | nil => rfl
  | cons x r ih =>
    unfold eachRecord
    dsimp only
    rw [ih (fun b hb => h b (List.mem_cons_of_mem _ hb)), h x List.mem_cons_self]
    rfl

/-- A grant-change event does nothing to a list in order whose PENDING records are more than an hour away. -/
theorem ttGrant_same {s : State} (ho : s.tt.records.Pairwise (fun a b => bookingBefore a b = true))
    (hp : ∀ now, calInstant s.cal = some now → ∀ b ∈ s.tt.records, b.state = .pending → now + 3600 < dateInstant b.start) :
    ttGrant s = s := by
  unfold ttGrant overRecordsAt
  cases hc : calInstant s.cal with
  | none => rfl
  | some now =>
    dsimp only
    unfold overRecords
    rw [eachRecord_same]
    · dsimp only
      rw [sortBookings_ordered ho]
      rfl
    · intro b hb
      unfold onGrant
      split
      · rename_i h
        rw [if_neg]
        have := hp now hc b hb h
        change ¬ dateInstant b.start ≤ now + 3600
        omega
      · rfl

/-- The session a block reads is formed from the list, and the hold agrees with it. -/
structure Settled (s : State) : Prop where
  summary : s.tt.summary = summarize s.tt.records
  order : s.tt.records.Pairwise (fun a b => bookingBefore a b = true)
  group : ∀ g, s.join.group = some g → g.session = earlierGov (ownGov s) g.fSession
  far : ∀ now, calInstant s.cal = some now → ∀ b ∈ s.tt.records, b.state = .pending → now + 3600 < dateInstant b.start
  hold : ∀ h, s.light.hold = some h → sessionEndsHold h.recorded (govRead s) = false

theorem refreshSession_settled {s : State} (h : Settled s) : refreshSession s = s := by
  have e1 : ({ s with tt := { s.tt with summary := summarize s.tt.records } } : State) = s := by rw [← h.summary]
  have e2 : changeGroup (fun g => { g with session := earlierGov (ownGov s) g.fSession }) s = s := by
    unfold changeGroup
    cases hg : s.join.group with
    | none =>
      have e3 : ({ s.join with group := none } : Join) = s.join := by rw [← hg]
      change ({ s with join := { s.join with group := none } } : State) = s
      rw [e3]
    | some g =>
      have e4 : ({ g with session := earlierGov (ownGov s) g.fSession } : Group) = g := by rw [← h.group g hg]
      have e3 : ({ s.join with group := some g } : Join) = s.join := by rw [← hg]
      change ({ s with join := { s.join with group := some { g with session := earlierGov (ownGov s) g.fSession } } } : State) = s
      rw [e4, e3]
  unfold refreshSession
  dsimp only
  rw [e1, e2]
  unfold checkHoldSession
  cases hl : s.light.hold with
  | none => rfl
  | some x => dsimp only; rw [h.hold x hl]; rfl

/-- The air and the bus are all that forming the demand changes. -/
theorem formDemand_rest (s : State) :
    (formDemand s).tt = s.tt ∧ (formDemand s).light = s.light ∧ (formDemand s).join = s.join ∧ (formDemand s).blind = s.blind
      ∧ (formDemand s).cal = s.cal ∧ (formDemand s).presence = s.presence ∧ (formDemand s).station = s.station := by
  unfold formDemand computeGrant announce composeDemand send
  dsimp only
  repeat' split
  all_goals exact ⟨rfl, rfl, rfl, rfl, rfl, rfl, rfl⟩

theorem airLoop_settled {s : State} (h : Settled s) (n : Nat) :
    (airLoop n s).tt = s.tt ∧ (airLoop n s).light = s.light ∧ (airLoop n s).join = s.join ∧ (airLoop n s).blind = s.blind
      ∧ (airLoop n s).cal = s.cal ∧ (airLoop n s).presence = s.presence ∧ (airLoop n s).station = s.station := by
  cases n with
  | zero => rw [show airLoop 0 s = s from refreshSession_settled h]; exact ⟨rfl, rfl, rfl, rfl, rfl, rfl, rfl⟩
  | succ n =>
    have hp : airPass s = formDemand s := by unfold airPass; rw [refreshSession_settled h]
    have r := formDemand_rest s
    have hg : ttGrant (formDemand s) = formDemand s :=
      ttGrant_same (by rw [r.1]; exact h.order) (by rw [r.1, r.2.2.2.2.1]; exact h.far)
    unfold airLoop
    dsimp only
    rw [hp, hg]
    split
    · rw [if_pos rfl]; exact r
    · exact r

/-- Forming the light targets and choosing the scene leave the hold. -/
theorem selectScene_hold (s : State) : (selectScene s).light.hold = s.light.hold := by
  unfold selectScene
  split
  · exact (formZones_keeps s).2.2.1
  · exact (formZones_keeps _).2.2.1

theorem settle_settled {s : State} (h : Settled s) :
    (settle s).light.hold = s.light.hold ∧ (settle s).tt = s.tt ∧ (settle s).join = s.join := by
  have r := airLoop_settled h 33
  have hs : ∀ u : State, (selectScene u).tt = u.tt ∧ (selectScene u).join = u.join := by
    intro u
    unfold selectScene
    split <;> exact ⟨rfl, rfl⟩
  unfold settle
  refine ⟨?_, ?_, ?_⟩
  · change (selectScene (airLoop 33 s)).light.hold = _
    rw [selectScene_hold, r.2.1]
  · change (selectScene (airLoop 33 s)).tt = _
    rw [(hs _).1, r.1]
  · change (selectScene (airLoop 33 s)).join = _
    rw [(hs _).2, r.2.2.1]

/-! ### The motors -/

/-- A motor change that keeps the panel hold. -/
theorem startMove_keeps (now : Stamp) (c : MotorCfg) (t : Nat) (m : Motor) :
    (startMove now c t m).hold = m.hold ∧ (startMove now c t m).inForce = m.inForce := by
  unfold startMove
  dsimp only
  repeat' split
  all_goals exact ⟨rfl, rfl⟩

theorem stopRun_keeps (now : Stamp) (c : MotorCfg) (m : Motor) :
    (stopRun now c m).hold = m.hold ∧ (stopRun now c m).inForce = m.inForce := by
  unfold stopRun
  split <;> exact ⟨rfl, rfl⟩

theorem changeRun_keeps (now : Stamp) (c : MotorCfg) (d : Dir) (t : Nat) (m : Motor) :
    (changeRun now c d t m).hold = m.hold ∧ (changeRun now c d t m).inForce = m.inForce := by
  unfold changeRun
  dsimp only
  split
  · exact stopRun_keeps now c m
  · split <;> split
    all_goals first | exact ⟨rfl, rfl⟩ | exact stopRun_keeps now c m

theorem takePosition_keeps (now : Stamp) (c : MotorCfg) (t : Nat) (m : Motor) :
    (takePosition now c t m).hold = m.hold ∧ (takePosition now c t m).inForce = some t := by
  unfold takePosition
  split
  · rename_i h
    exact ⟨rfl, h⟩
  · dsimp only
    split
    · exact startMove_keeps now c t _
    · exact startMove_keeps now c t _
    · exact changeRun_keeps now c _ t _
    · exact changeRun_keeps now c _ t _
    · exact ⟨rfl, rfl⟩
    · exact ⟨rfl, rfl⟩
    · exact ⟨rfl, rfl⟩

theorem enterLocked_hold (now : Stamp) (c : MotorCfg) (m : Motor) : (enterLocked now c m).hold = m.hold := by
  have hr : ∀ x : Motor, (lockAtRest now c x).hold = x.hold := by
    intro x
    unfold lockAtRest startLockedRun
    split <;> rfl
  unfold enterLocked
  dsimp only
  split
  · rfl
  · exact hr _
  · exact hr _
  · rfl
  · exact (stopRun_keeps now c _).1
  · rfl
  · rfl

theorem leaveLocked_keeps (m : Motor) : (leaveLocked m).hold = m.hold ∧ (leaveLocked m).inForce = m.inForce := by
  unfold leaveLocked
  dsimp only
  split
  · split <;> exact ⟨rfl, rfl⟩
  · exact ⟨rfl, rfl⟩

theorem applyRow_hold (now : Stamp) (c : MotorCfg) (row : BlindRow) (m : Motor) : (applyRow now c row m).hold = m.hold := by
  unfold applyRow
  split
  · exact enterLocked_hold now c m
  · exact (stopRun_keeps now c m).1
  · exact (takePosition_keeps now c _ _).1.trans (leaveLocked_keeps m).1
  · exact (leaveLocked_keeps m).1

/-- The motor at a place after the motors a test names took their rows. -/
theorem formMotors_get (s : State) (f : MotorCfg → Bool) (cs : List MotorCfg) (ms : List Motor) (i : Nat) :
    (formMotors s f cs ms)[i]? = ms[i]?.map (fun m =>
      match cs[i]? with
      | some c => if f c then applyRow (nowOf s) c (blindRow s c m) m else m
      | none => m) := by
  induction cs generalizing ms i with
  | nil => cases ms <;> cases i <;> simp [formMotors]
  | cons c cs ih =>
    cases ms with
    | nil => simp [formMotors]
    | cons m ms =>
      cases i with
      | zero => simp [formMotors]
      | succ i => simp only [formMotors, List.getElem?_cons_succ]; exact ih ms i

theorem formMotors_hold (s : State) (f : MotorCfg → Bool) (cs : List MotorCfg) (ms : List Motor) :
    (formMotors s f cs ms).map (fun m => m.hold) = ms.map (fun m => m.hold) := by
  apply List.ext_getElem?
  intro i
  simp only [List.getElem?_map, formMotors_get]
  cases ms[i]? with
  | none => rfl
  | some m =>
    simp only [Option.map_some, Option.some.injEq]
    split
    · split
      · exact applyRow_hold _ _ _ _
      · rfl
    · rfl

end Sys2Proof.Machine
end

