-- ==== Sys2Proof/Laws/Partitions.lean ====
section
/-! SUPPORT. Partitions, due claims (R132, R134) and the return to SOLO (R142): which partition claims, and what a station that has left
its join holds. -/

namespace Sys2Proof.Machine

theorem partitionOf_change_same {s : State} {p x} (f : Partition → Partition) (h : partitionOf s p = some x) : partitionOf (changePartition p f s) p = some (f x) :=
  nth1_update1_same f h
theorem partitionOf_change_other {s : State} {p r} (f : Partition → Partition) (h : r ≠ p) : partitionOf (changePartition p f s) r = partitionOf s r :=
  nth1_update1_other _ f h
theorem partitionOf_congr {s t : State} (h : t.join.partitions = s.join.partitions) (r : Nat) : partitionOf t r = partitionOf s r := by
  unfold partitionOf; rw [h]

theorem firstDue_spec {l : List Partition} {i p : Nat} (h : firstDue i l = some p) :
    i ≤ p ∧ ∃ x, l[p - i]? = some x ∧ x.state = .blocked ∧ x.retry = .due := by
  induction l generalizing i with
  | nil => cases h
  | cons x rest ih =>
    unfold firstDue at h
    split at h
    · rename_i hx; cases h; exact ⟨le_refl _, x, by simp, hx⟩
    · obtain ⟨h1, y, hy, h2⟩ := ih h
      refine ⟨by omega, y, ?_, h2⟩
      have : p - i = (p - (i+1)) + 1 := by omega
      rw [this]; exact hy

theorem firstDue_eq {l : List Partition} {i p : Nat} {x : Partition} (hp : i ≤ p) (hx : l[p - i]? = some x) (hb : x.state = .blocked) (hd : x.retry = .due)
   (hl : ∀ r z, i ≤ r → r < p → l[r - i]? = some z → ¬(z.state = .blocked ∧ z.retry = .due)) : firstDue i l = some p := by
  induction l generalizing i with
  | nil => simp at hx
  | cons y rest ih =>
    unfold firstDue
    by_cases e : p = i
    · subst e; simp at hx; subst hx; rw [if_pos ⟨hb, hd⟩]
    · rw [if_neg (hl i y (le_refl _) (by omega) (by simp))]
      refine ih (by omega) ?_ ?_
      · have : p - i = (p - (i+1)) + 1 := by omega
        rw [this] at hx; exact hx
      · intro r z h1 h2 h3
        refine hl r z (by omega) h2 ?_
        have : r - i = (r - (i+1)) + 1 := by omega
        rw [this]; exact h3

theorem beginClaim_partitions (p : Nat) (s : State) : (beginClaim p s).join.partitions = update1 s.join.partitions p (claimingPartition (nowOf s)) :=
  (sendJoin_handedOn _ _ _ _).partitions

theorem tryClaim_partition (s : State) (r : Nat) (y : Partition) (h : partitionOf s r = some y) :
   ∃ z, partitionOf (tryClaim s) r = some z ∧ (z = y ∨ y.state = .blocked ∧ y.retry = .due ∧ z = claimingPartition (nowOf s) y) := by
  unfold tryClaim
  split
  · split
    · exact ⟨y, h, .inl rfl⟩
    · rename_i p hp
      by_cases e : r = p
      · subst e
        obtain ⟨h1, x, hx, h2, h3⟩ := firstDue_spec hp
        have : y = x := by
          unfold partitionOf nth1 at h
          rw [if_neg (by omega)] at h
          exact Option.some.inj (h.symm.trans hx)
        subst this
        refine ⟨claimingPartition (nowOf s) y, ?_, .inr ⟨h2, h3, rfl⟩⟩
        unfold partitionOf; rw [beginClaim_partitions]; exact nth1_update1_same _ h
      · refine ⟨y, ?_, .inl rfl⟩
        unfold partitionOf; rw [beginClaim_partitions, nth1_update1_other _ _ e]; exact h
  · exact ⟨y, h, .inl rfl⟩

theorem tryClaim_claims {s : State} {p : Nat} {x : Partition} (hf : isFree s = true) (hs : maySpeak s = true) (h : partitionOf s p = some x) (hb : x.state = .blocked) (hd : x.retry = .due)
   (hl : ∀ r z, r < p → partitionOf s r = some z → ¬(z.state = .blocked ∧ z.retry = .due)) : tryClaim s = beginClaim p s := by
  have hp : p ≠ 0 := by rintro rfl; simp [partitionOf, nth1] at h
  have : firstDue 1 s.join.partitions = some p := by
    refine firstDue_eq (by omega) (x := x) ?_ hb hd ?_
    · unfold partitionOf nth1 at h; rw [if_neg hp] at h; exact h
    · intro r z h1 h2 h3
      refine hl r z h2 ?_
      unfold partitionOf nth1; rw [if_neg (by omega)]; exact h3
  unfold tryClaim
  rw [hf, hs, this]; rfl

theorem tryClaim_idle {s : State} (h : isFree s = false ∨ maySpeak s = false) : tryClaim s = s := by
  unfold tryClaim
  rw [if_neg]; rcases h with h | h <;> simp [h]

theorem roleFrom_update (l : List Partition) (i p : Nat) (f : Partition → Partition) (x : Partition) (hi : i ≤ p) (h : l[p - i]? = some x)
   (h1 : x.state ≠ .lead) (h2 : x.state ≠ .follow) (h3 : (f x).state ≠ .lead) (h4 : (f x).state ≠ .follow) : roleFrom i (l.modify (p - i) f) = roleFrom i l := by
  induction l generalizing i with
  | nil => simp at h
  | cons y rest ih =>
    by_cases e : p = i
    · subst e; simp at h; subst h
      simp only [Nat.sub_self, List.modify_zero_cons]
      unfold roleFrom
      cases hy : y.state <;> simp_all
    · have e2 : p - i = (p - (i+1)) + 1 := by omega
      rw [e2, List.modify_succ_cons]
      rw [e2] at h
      unfold roleFrom
      rw [ih (i+1) (by omega) h]

theorem isFree_change {s : State} {p : Nat} {x : Partition} (f : Partition → Partition) (h : partitionOf s p = some x)
   (h1 : isEngaged x = false) (h3 : isEngaged (f x) = false) : isFree (changePartition p f s) = isFree s := by
  have hp : p ≠ 0 := by rintro rfl; simp [partitionOf, nth1] at h
  have hx : s.join.partitions[p - 1]? = some x := by unfold partitionOf nth1 at h; rw [if_neg hp] at h; exact h
  have e : (changePartition p f s).join.partitions = s.join.partitions.modify (p-1) f := by
    change update1 s.join.partitions p f = _; unfold update1; rw [if_neg hp]
  have n1 : x.state ≠ .lead ∧ x.state ≠ .follow ∧ x.state ≠ .claiming := by
    refine ⟨?_, ?_, ?_⟩ <;> intro q <;> simp [isEngaged, q] at h1
  have n3 : (f x).state ≠ .lead ∧ (f x).state ≠ .follow ∧ (f x).state ≠ .claiming := by
    refine ⟨?_, ?_, ?_⟩ <;> intro q <;> simp [isEngaged, q] at h3
  unfold isFree roleOf claimingSomewhere
  rw [e, roleFrom_update _ 1 p f x (by omega) hx n1.1 n1.2.1 n3.1 n3.2.1]
  congr 2
  clear e
  generalize hj : p - 1 = j at hx
  generalize s.join.partitions = l at hx
  clear hj h
  induction l generalizing j with
  | nil => simp at hx
  | cons y rest ih =>
    cases j with
    | zero =>
      simp at hx; subst hx
      have a : (y.state == PartitionState.claiming) = false := by simpa using n1.2.2
      have b : ((f y).state == PartitionState.claiming) = false := by simpa using n3.2.2
      simp only [List.modify_zero_cons, List.any_cons, a, b]
    | succ j => simp only [List.modify_succ_cons, List.any_cons]; rw [ih j (by simpa using hx)]

theorem Sends.ofKeepsRest {s t u : State} (h : KeepsRest t u) (hs : t.station = s.station) (hl : t.listening = s.listening) {b : Bus} (hb : Sends s.station s.listening b t.bus) : Sends s.station s.listening b u.bus := by
  have := h.bus; rw [hs, hl] at this; exact hb.trans this

/-- The station holds no relation, group or follower record. -/
structure Alone (s : State) : Prop where
  relation : s.join.relation = none
  group : s.join.group = none
  follower : s.join.follower = none

theorem Alone.keeps {s t : State} (h : Alone s) (k : KeepsJoin s t) : Alone t := by
  obtain ⟨h1, h2, h3⟩ := h
  have a := k.partnerSeq; have b := k.report; have c := k.order
  rw [h1] at a; rw [h2] at b; rw [h3] at c
  exact ⟨by simpa using a, by simpa using b, by simpa using c⟩

theorem Alone.tryClaim {s : State} (h : Alone s) : Alone (tryClaim s) := by
  unfold Machine.tryClaim
  split
  · split
    · exact h
    · unfold beginClaim
      refine Alone.keeps (s := changePartition _ _ { s with join := { s.join with claimSeq := _ } }) ⟨h.relation, h.group, h.follower⟩ (sendJoin_handedOn _ _ _ _).joins
  · exact h

theorem leaveJoin_alone (p st r) (s : State) : Alone (leaveJoin p st r s) :=
  Alone.keeps (s := { changePartition p (restPartition st r) s with
    join := { (changePartition p (restPartition st r) s).join with relation := none, group := none, follower := none }
    presence := recomputeH (setRecount s.presence) }) ⟨rfl, rfl, rfl⟩ (roleChanged_handedOn _ _).joins

theorem afterLeave_keepsJoin (s : State) : KeepsJoin s (if allSettled s then releaseQueue s else s) := by
  split
  · exact releaseQueue_keepsJoin s
  · exact .refl s

theorem returnSolo_alone (p st r) (s : State) : Alone (returnSolo p st r s) :=
  ((leaveJoin_alone p st r s).keeps (afterLeave_keepsJoin _)).tryClaim

theorem tryClaim_keeps {u : State} {p : Nat} {x : Partition} (h : partitionOf u p = some x) (hd : x.retry ≠ .due) : partitionOf (tryClaim u) p = some x := by
  obtain ⟨z, hz, e⟩ := tryClaim_partition u p x h
  rcases e with e | ⟨_, e, _⟩
  · rw [e] at hz; exact hz
  · exact absurd e hd

end Sys2Proof.Machine
end

