-- ==== Sys2Proof/WellFormed.lean ====
section
/-! DEFINITION. Which commands are well formed: every operand lies in the range the rules give it, and the operands of a row are
those the row names. The meanings are total all the same: a command that is not well formed has the effect its rules give, or
none. -/

namespace Sys2Proof

/-- A payload of 0 to 24 bytes (R168). -/
def payloadInRange (p : List Byte) : Bool := decide (p.length ≤ 24)

/-- A number from 1 to a bound. -/
def oneTo (bound n : Nat) : Bool := decide (1 ≤ n ∧ n ≤ bound)

/-- The image area holds 512 bytes at most (R183). -/
def StartWorld.wf (w : StartWorld) : Bool :=
  match w.image with
  | none => true
  | some b => decide (b.length ≤ 512)

/-- A SERVICE payload carries a mark in the given bit (R193). -/
def serviceMark (bit : Nat) (p : List Byte) : Bool :=
  match p with
  | [f] => f.getLsbD bit
  | _ => false

/-- An item and page that R190 does not name: an item code outside the table, or a page outside the item's range. -/
def itemUnknownTo (item page : Byte) : Bool :=
  let i := item.toNat
  let p := page.toNat
  if i = 1 then decide (15 < p) else if i = 2 then decide (7 < p) else if i ≤ 5 then decide (0 < p) else true

/-- Well-formed commands. -/
def Instr.wf : Instr → Bool
  | .powerUp w => w.wf
  | .powerLoss => true
  | .pinResetAssert => true
  | .pinResetRelease w => w.wf
  | .deferredResetEffect => true
  | .backupSupplyLoss => true
  | .listenInEnd => true
  | .calendarAdvance => true
  | .time _ p => payloadInRange p
  | .bookingPut _ p => payloadInRange p
  | .bookingDrop _ p => payloadInRange p
  | .noShowWindowExpiry id => oneTo 65535 id
  | .runoutCapExpiry id => oneTo 65535 id
  | .slotWriteComplete => true
  | .slotWriteFail => true
  | .beamBreak d _ => oneTo 2 d
  | .beamClear d _ => oneTo 2 d
  | .passLimitExpiry d => oneTo 2 d
  | .doorFaultTimeout d _ => oneTo 2 d
  | .doorRecovery d => oneTo 2 d
  | .motionPulse z => oneTo 4 z
  | .motionAgeExpiry z => oneTo 4 z
  | .co2Sample _ => true
  | .co2HoldExpiry => true
  | .vacancyTimerExpiry => true
  | .vacatingHoldExpiry => true
  | .demand _ p => payloadInRange p
  | .capacity _ p => payloadInRange p
  | .peerStale st => oneTo 62 st
  | .peerRemove st => oneTo 62 st
  | .capacityAgeExpiry => true
  | .demandRefreshExpiry => true
  | .damperRefreshExpiry => true
  | .luxSample _ => true
  | .luxHoldExpiry => true
  | .fadeEnd z => oneTo 6 z
  | .panelScene _ r => decide (r.length ≤ 23)
  | .panelLevel _ r => decide (r.length ≤ 23)
  | .panelBlind _ r => decide (r.length ≤ 23)
  | .panelRelease _ r => decide (r.length ≤ 23)
  | .blindHoldExpiry m => oneTo 4 m
  | .runComplete m => oneTo 4 m
  | .referencingComplete m => oneTo 4 m
  | .lockedRunComplete m => oneTo 4 m
  | .pauseEnd m => oneTo 4 m
  | .sun _ p => payloadInRange p
  | .sunAgeExpiry f => oneTo 15 f
  | .wind _ p => payloadInRange p
  | .windHoldingExpiry f => oneTo 15 f
  | .partitionContactChange p _ => oneTo 2 p
  | .debounceExpiry p => oneTo 2 p
  | .claimTimerExpiry p => oneTo 2 p
  | .retryTimerExpiry p => oneTo 2 p
  | .joinClaim _ p => payloadInRange p
  | .joinAccept _ p => payloadInRange p
  | .joinRefuse _ p => payloadInRange p
  | .joinRelease _ p => payloadInRange p
  | .joinKeep _ p => payloadInRange p
  | .joinState _ p => payloadInRange p
  | .joinOrder _ p => payloadInRange p
  | .keepTimerExpiry => true
  | .orphanTimerExpiry => true
  | .safetySet _ r => decide (r.length ≤ 23)
  | .safetyClear _ r => decide (r.length ≤ 23)
  | .serviceMask _ p => serviceMark 0 p
  | .serviceLock _ p => serviceMark 4 p
  | .serviceRestart _ p => serviceMark 5 p
  | .queryStatus _ => true
  | .queryBookings _ page => decide (page.toNat ≤ 15)
  | .queryPeers _ page => decide (page.toNat ≤ 7)
  | .queryCounters _ => true
  | .queryOutputs _ => true
  | .queryIdentity _ => true
  | .queryUnknownItem _ item page => itemUnknownTo item page
  | .unhandledTelegram _ => true
  | .idleEvent _ => true
  | .deferralExpiry => true
  | .transmitComplete => true
  | .collision => true
  | .startBit => true

end Sys2Proof
end

