-- ==== Sys2Proof/Laws/PerInstr.lean ====
section
/-! SUPPORT. Laws stated for each command: the whole payload of a well-formed telegram command, the byte that its row fixes included,
fits a telegram (R168). -/

namespace Sys2Proof

/-- The whole payload that a telegram command stands for; none for a command that is no telegram of a known kind. -/
def telegramPayload : Instr → Option (List Byte)
  | .powerUp _ => none
  | .powerLoss => none
  | .pinResetAssert => none
  | .pinResetRelease _ => none
  | .deferredResetEffect => none
  | .backupSupplyLoss => none
  | .listenInEnd => none
  | .calendarAdvance => none
  | .time _ payload => some payload
  | .bookingPut _ payload => some payload
  | .bookingDrop _ payload => some payload
  | .noShowWindowExpiry _ => none
  | .runoutCapExpiry _ => none
  | .slotWriteComplete => none
  | .slotWriteFail => none
  | .beamBreak _ _ => none
  | .beamClear _ _ => none
  | .passLimitExpiry _ => none
  | .doorFaultTimeout _ _ => none
  | .doorRecovery _ => none
  | .motionPulse _ => none
  | .motionAgeExpiry _ => none
  | .co2Sample _ => none
  | .co2HoldExpiry => none
  | .vacancyTimerExpiry => none
  | .vacatingHoldExpiry => none
  | .demand _ payload => some payload
  | .capacity _ payload => some payload
  | .peerStale _ => none
  | .peerRemove _ => none
  | .capacityAgeExpiry => none
  | .demandRefreshExpiry => none
  | .damperRefreshExpiry => none
  | .luxSample _ => none
  | .luxHoldExpiry => none
  | .fadeEnd _ => none
  | .panelScene _ rest => some (0x00#8 :: rest)
  | .panelLevel _ rest => some (0x01#8 :: rest)
  | .panelBlind _ rest => some (0x02#8 :: rest)
  | .panelRelease _ rest => some (0x03#8 :: rest)
  | .blindHoldExpiry _ => none
  | .runComplete _ => none
  | .referencingComplete _ => none
  | .lockedRunComplete _ => none
  | .pauseEnd _ => none
  | .sun _ payload => some payload
  | .sunAgeExpiry _ => none
  | .wind _ payload => some payload
  | .windHoldingExpiry _ => none
  | .partitionContactChange _ _ => none
  | .debounceExpiry _ => none
  | .claimTimerExpiry _ => none
  | .retryTimerExpiry _ => none
  | .joinClaim _ payload => some payload
  | .joinAccept _ payload => some payload
  | .joinRefuse _ payload => some payload
  | .joinRelease _ payload => some payload
  | .joinKeep _ payload => some payload
  | .joinState _ payload => some payload
  | .joinOrder _ payload => some payload
  | .keepTimerExpiry => none
  | .orphanTimerExpiry => none
  | .safetySet _ rest => some (0x00#8 :: rest)
  | .safetyClear _ rest => some (0x01#8 :: rest)
  | .serviceMask _ payload => some payload
  | .serviceLock _ payload => some payload
  | .serviceRestart _ payload => some payload
  | .queryStatus _ => some [0x00#8, 0x00#8]
  | .queryBookings _ page => some [0x01#8, page]
  | .queryPeers _ page => some [0x02#8, page]
  | .queryCounters _ => some [0x03#8, 0x00#8]
  | .queryOutputs _ => some [0x04#8, 0x00#8]
  | .queryIdentity _ => some [0x05#8, 0x00#8]
  | .queryUnknownItem _ item page => some [item, page]
  | .unhandledTelegram _ => none
  | .idleEvent _ => none
  | .deferralExpiry => none
  | .transmitComplete => none
  | .collision => none
  | .startBit => none

/-- The whole payload of a well-formed command has at most 24 bytes. -/
def Laws.PayloadFits.Statement (i : Instr) : Prop := i.wf = true → ∀ p, telegramPayload i = some p → p.length ≤ 24

/-- A payload operand that is in range fits. -/
theorem fits_of_inRange {l p : List Byte} (h : payloadInRange l = true) (e : some l = some p) : p.length ≤ 24 :=
  Option.some.inj e ▸ of_decide_eq_true h

/-- A payload whose first byte the row fixes fits. -/
theorem fits_of_rest {b : Byte} {l p : List Byte} (h : decide (l.length ≤ 23) = true) (e : some (b :: l) = some p) : p.length ≤ 24 :=
  Option.some.inj e ▸ Nat.succ_le_succ (of_decide_eq_true h)

/-- The two bytes of a QUERY fit. -/
theorem fits_of_query {a b : Byte} {p : List Byte} (e : some [a, b] = some p) : p.length ≤ 24 :=
  Option.some.inj e ▸ Nat.le_of_ble_eq_true rfl

/-- A SERVICE payload with a mark is one byte. -/
theorem fits_of_mark {n : Nat} {l p : List Byte} (h : serviceMark n l = true) (e : some l = some p) : p.length ≤ 24 := by
  cases Option.some.inj e
  unfold serviceMark at h
  split at h
  · exact Nat.le_of_ble_eq_true rfl
  · cases h

theorem Laws.PayloadFits.powerUp (w : StartWorld) : Laws.PayloadFits.Statement (.powerUp w) := fun _ _ e => nomatch e
theorem Laws.PayloadFits.powerLoss : Laws.PayloadFits.Statement (.powerLoss) := fun _ _ e => nomatch e
theorem Laws.PayloadFits.pinResetAssert : Laws.PayloadFits.Statement (.pinResetAssert) := fun _ _ e => nomatch e
theorem Laws.PayloadFits.pinResetRelease (w : StartWorld) : Laws.PayloadFits.Statement (.pinResetRelease w) := fun _ _ e => nomatch e
theorem Laws.PayloadFits.deferredResetEffect : Laws.PayloadFits.Statement (.deferredResetEffect) := fun _ _ e => nomatch e
theorem Laws.PayloadFits.backupSupplyLoss : Laws.PayloadFits.Statement (.backupSupplyLoss) := fun _ _ e => nomatch e
theorem Laws.PayloadFits.listenInEnd : Laws.PayloadFits.Statement (.listenInEnd) := fun _ _ e => nomatch e
theorem Laws.PayloadFits.calendarAdvance : Laws.PayloadFits.Statement (.calendarAdvance) := fun _ _ e => nomatch e
theorem Laws.PayloadFits.time (hd : RxHeader) (payload : List Byte) : Laws.PayloadFits.Statement (.time hd payload) := fun h _ e => fits_of_inRange h e
theorem Laws.PayloadFits.bookingPut (hd : RxHeader) (payload : List Byte) : Laws.PayloadFits.Statement (.bookingPut hd payload) := fun h _ e => fits_of_inRange h e
theorem Laws.PayloadFits.bookingDrop (hd : RxHeader) (payload : List Byte) : Laws.PayloadFits.Statement (.bookingDrop hd payload) := fun h _ e => fits_of_inRange h e
theorem Laws.PayloadFits.noShowWindowExpiry (id : Nat) : Laws.PayloadFits.Statement (.noShowWindowExpiry id) := fun _ _ e => nomatch e
theorem Laws.PayloadFits.runoutCapExpiry (id : Nat) : Laws.PayloadFits.Statement (.runoutCapExpiry id) := fun _ _ e => nomatch e
theorem Laws.PayloadFits.slotWriteComplete : Laws.PayloadFits.Statement (.slotWriteComplete) := fun _ _ e => nomatch e
theorem Laws.PayloadFits.slotWriteFail : Laws.PayloadFits.Statement (.slotWriteFail) := fun _ _ e => nomatch e
theorem Laws.PayloadFits.beamBreak (door : Nat) (beam : Beam) : Laws.PayloadFits.Statement (.beamBreak door beam) := fun _ _ e => nomatch e
theorem Laws.PayloadFits.beamClear (door : Nat) (beam : Beam) : Laws.PayloadFits.Statement (.beamClear door beam) := fun _ _ e => nomatch e
theorem Laws.PayloadFits.passLimitExpiry (door : Nat) : Laws.PayloadFits.Statement (.passLimitExpiry door) := fun _ _ e => nomatch e
theorem Laws.PayloadFits.doorFaultTimeout (door : Nat) (beam : Beam) : Laws.PayloadFits.Statement (.doorFaultTimeout door beam) := fun _ _ e => nomatch e
theorem Laws.PayloadFits.doorRecovery (door : Nat) : Laws.PayloadFits.Statement (.doorRecovery door) := fun _ _ e => nomatch e
theorem Laws.PayloadFits.motionPulse (zone : Nat) : Laws.PayloadFits.Statement (.motionPulse zone) := fun _ _ e => nomatch e
theorem Laws.PayloadFits.motionAgeExpiry (zone : Nat) : Laws.PayloadFits.Statement (.motionAgeExpiry zone) := fun _ _ e => nomatch e
theorem Laws.PayloadFits.co2Sample (ppm : Option Nat) : Laws.PayloadFits.Statement (.co2Sample ppm) := fun _ _ e => nomatch e
theorem Laws.PayloadFits.co2HoldExpiry : Laws.PayloadFits.Statement (.co2HoldExpiry) := fun _ _ e => nomatch e
theorem Laws.PayloadFits.vacancyTimerExpiry : Laws.PayloadFits.Statement (.vacancyTimerExpiry) := fun _ _ e => nomatch e
theorem Laws.PayloadFits.vacatingHoldExpiry : Laws.PayloadFits.Statement (.vacatingHoldExpiry) := fun _ _ e => nomatch e
theorem Laws.PayloadFits.demand (hd : RxHeader) (payload : List Byte) : Laws.PayloadFits.Statement (.demand hd payload) := fun h _ e => fits_of_inRange h e
theorem Laws.PayloadFits.capacity (hd : RxHeader) (payload : List Byte) : Laws.PayloadFits.Statement (.capacity hd payload) := fun h _ e => fits_of_inRange h e
theorem Laws.PayloadFits.peerStale (station : Nat) : Laws.PayloadFits.Statement (.peerStale station) := fun _ _ e => nomatch e
theorem Laws.PayloadFits.peerRemove (station : Nat) : Laws.PayloadFits.Statement (.peerRemove station) := fun _ _ e => nomatch e
theorem Laws.PayloadFits.capacityAgeExpiry : Laws.PayloadFits.Statement (.capacityAgeExpiry) := fun _ _ e => nomatch e
theorem Laws.PayloadFits.demandRefreshExpiry : Laws.PayloadFits.Statement (.demandRefreshExpiry) := fun _ _ e => nomatch e
theorem Laws.PayloadFits.damperRefreshExpiry : Laws.PayloadFits.Statement (.damperRefreshExpiry) := fun _ _ e => nomatch e
theorem Laws.PayloadFits.luxSample (lux : Option Nat) : Laws.PayloadFits.Statement (.luxSample lux) := fun _ _ e => nomatch e
theorem Laws.PayloadFits.luxHoldExpiry : Laws.PayloadFits.Statement (.luxHoldExpiry) := fun _ _ e => nomatch e
theorem Laws.PayloadFits.fadeEnd (zone : Nat) : Laws.PayloadFits.Statement (.fadeEnd zone) := fun _ _ e => nomatch e
theorem Laws.PayloadFits.panelScene (hd : RxHeader) (rest : List Byte) : Laws.PayloadFits.Statement (.panelScene hd rest) := fun h _ e => fits_of_rest h e
theorem Laws.PayloadFits.panelLevel (hd : RxHeader) (rest : List Byte) : Laws.PayloadFits.Statement (.panelLevel hd rest) := fun h _ e => fits_of_rest h e
theorem Laws.PayloadFits.panelBlind (hd : RxHeader) (rest : List Byte) : Laws.PayloadFits.Statement (.panelBlind hd rest) := fun h _ e => fits_of_rest h e
theorem Laws.PayloadFits.panelRelease (hd : RxHeader) (rest : List Byte) : Laws.PayloadFits.Statement (.panelRelease hd rest) := fun h _ e => fits_of_rest h e
theorem Laws.PayloadFits.blindHoldExpiry (motor : Nat) : Laws.PayloadFits.Statement (.blindHoldExpiry motor) := fun _ _ e => nomatch e
theorem Laws.PayloadFits.runComplete (motor : Nat) : Laws.PayloadFits.Statement (.runComplete motor) := fun _ _ e => nomatch e
theorem Laws.PayloadFits.referencingComplete (motor : Nat) : Laws.PayloadFits.Statement (.referencingComplete motor) := fun _ _ e => nomatch e
theorem Laws.PayloadFits.lockedRunComplete (motor : Nat) : Laws.PayloadFits.Statement (.lockedRunComplete motor) := fun _ _ e => nomatch e
theorem Laws.PayloadFits.pauseEnd (motor : Nat) : Laws.PayloadFits.Statement (.pauseEnd motor) := fun _ _ e => nomatch e
theorem Laws.PayloadFits.sun (hd : RxHeader) (payload : List Byte) : Laws.PayloadFits.Statement (.sun hd payload) := fun h _ e => fits_of_inRange h e
theorem Laws.PayloadFits.sunAgeExpiry (facade : Nat) : Laws.PayloadFits.Statement (.sunAgeExpiry facade) := fun _ _ e => nomatch e
theorem Laws.PayloadFits.wind (hd : RxHeader) (payload : List Byte) : Laws.PayloadFits.Statement (.wind hd payload) := fun h _ e => fits_of_inRange h e
theorem Laws.PayloadFits.windHoldingExpiry (facade : Nat) : Laws.PayloadFits.Statement (.windHoldingExpiry facade) := fun _ _ e => nomatch e
theorem Laws.PayloadFits.partitionContactChange (partition : Nat) (high : Bool) : Laws.PayloadFits.Statement (.partitionContactChange partition high) := fun _ _ e => nomatch e
theorem Laws.PayloadFits.debounceExpiry (partition : Nat) : Laws.PayloadFits.Statement (.debounceExpiry partition) := fun _ _ e => nomatch e
theorem Laws.PayloadFits.claimTimerExpiry (partition : Nat) : Laws.PayloadFits.Statement (.claimTimerExpiry partition) := fun _ _ e => nomatch e
theorem Laws.PayloadFits.retryTimerExpiry (partition : Nat) : Laws.PayloadFits.Statement (.retryTimerExpiry partition) := fun _ _ e => nomatch e
theorem Laws.PayloadFits.joinClaim (hd : RxHeader) (payload : List Byte) : Laws.PayloadFits.Statement (.joinClaim hd payload) := fun h _ e => fits_of_inRange h e
theorem Laws.PayloadFits.joinAccept (hd : RxHeader) (payload : List Byte) : Laws.PayloadFits.Statement (.joinAccept hd payload) := fun h _ e => fits_of_inRange h e
theorem Laws.PayloadFits.joinRefuse (hd : RxHeader) (payload : List Byte) : Laws.PayloadFits.Statement (.joinRefuse hd payload) := fun h _ e => fits_of_inRange h e
theorem Laws.PayloadFits.joinRelease (hd : RxHeader) (payload : List Byte) : Laws.PayloadFits.Statement (.joinRelease hd payload) := fun h _ e => fits_of_inRange h e
theorem Laws.PayloadFits.joinKeep (hd : RxHeader) (payload : List Byte) : Laws.PayloadFits.Statement (.joinKeep hd payload) := fun h _ e => fits_of_inRange h e
theorem Laws.PayloadFits.joinState (hd : RxHeader) (payload : List Byte) : Laws.PayloadFits.Statement (.joinState hd payload) := fun h _ e => fits_of_inRange h e
theorem Laws.PayloadFits.joinOrder (hd : RxHeader) (payload : List Byte) : Laws.PayloadFits.Statement (.joinOrder hd payload) := fun h _ e => fits_of_inRange h e
theorem Laws.PayloadFits.keepTimerExpiry : Laws.PayloadFits.Statement (.keepTimerExpiry) := fun _ _ e => nomatch e
theorem Laws.PayloadFits.orphanTimerExpiry : Laws.PayloadFits.Statement (.orphanTimerExpiry) := fun _ _ e => nomatch e
theorem Laws.PayloadFits.safetySet (hd : RxHeader) (rest : List Byte) : Laws.PayloadFits.Statement (.safetySet hd rest) := fun h _ e => fits_of_rest h e
theorem Laws.PayloadFits.safetyClear (hd : RxHeader) (rest : List Byte) : Laws.PayloadFits.Statement (.safetyClear hd rest) := fun h _ e => fits_of_rest h e
theorem Laws.PayloadFits.serviceMask (hd : RxHeader) (payload : List Byte) : Laws.PayloadFits.Statement (.serviceMask hd payload) := fun h _ e => fits_of_mark h e
theorem Laws.PayloadFits.serviceLock (hd : RxHeader) (payload : List Byte) : Laws.PayloadFits.Statement (.serviceLock hd payload) := fun h _ e => fits_of_mark h e
theorem Laws.PayloadFits.serviceRestart (hd : RxHeader) (payload : List Byte) : Laws.PayloadFits.Statement (.serviceRestart hd payload) := fun h _ e => fits_of_mark h e
theorem Laws.PayloadFits.queryStatus (hd : RxHeader) : Laws.PayloadFits.Statement (.queryStatus hd) := fun _ _ e => fits_of_query e
theorem Laws.PayloadFits.queryBookings (hd : RxHeader) (page : Byte) : Laws.PayloadFits.Statement (.queryBookings hd page) := fun _ _ e => fits_of_query e
theorem Laws.PayloadFits.queryPeers (hd : RxHeader) (page : Byte) : Laws.PayloadFits.Statement (.queryPeers hd page) := fun _ _ e => fits_of_query e
theorem Laws.PayloadFits.queryCounters (hd : RxHeader) : Laws.PayloadFits.Statement (.queryCounters hd) := fun _ _ e => fits_of_query e
theorem Laws.PayloadFits.queryOutputs (hd : RxHeader) : Laws.PayloadFits.Statement (.queryOutputs hd) := fun _ _ e => fits_of_query e
theorem Laws.PayloadFits.queryIdentity (hd : RxHeader) : Laws.PayloadFits.Statement (.queryIdentity hd) := fun _ _ e => fits_of_query e
theorem Laws.PayloadFits.queryUnknownItem (hd : RxHeader) (item : Byte) (page : Byte) : Laws.PayloadFits.Statement (.queryUnknownItem hd item page) := fun _ _ e => fits_of_query e
theorem Laws.PayloadFits.unhandledTelegram (frame : List RxChar) : Laws.PayloadFits.Statement (.unhandledTelegram frame) := fun _ _ e => nomatch e
theorem Laws.PayloadFits.idleEvent (frame : Option (List RxChar)) : Laws.PayloadFits.Statement (.idleEvent frame) := fun _ _ e => nomatch e
theorem Laws.PayloadFits.deferralExpiry : Laws.PayloadFits.Statement (.deferralExpiry) := fun _ _ e => nomatch e
theorem Laws.PayloadFits.transmitComplete : Laws.PayloadFits.Statement (.transmitComplete) := fun _ _ e => nomatch e
theorem Laws.PayloadFits.collision : Laws.PayloadFits.Statement (.collision) := fun _ _ e => nomatch e
theorem Laws.PayloadFits.startBit : Laws.PayloadFits.Statement (.startBit) := fun _ _ e => nomatch e

end Sys2Proof
end

