-- ==== Sys2Proof/Laws/Session.lean ====
section
/-! SUPPORT. The booking list and the session summary over an event: what handing on a change does to the list (R29, R37, R83), and which
records it leaves. -/

namespace Sys2Proof.Machine

/-! ### One event over the list -/

theorem sendAll_tt (l : List OutTelegram) (s : State) : (sendAll l s).tt = s.tt := by
  induction l generalizing s with
  | nil => rfl
  | cons t rest ih => exact ih (send t s)

theorem sendAll_cal (l : List OutTelegram) (s : State) : (sendAll l s).cal = s.cal := (sendAll_handedOn l s).cal

/-- One event over the list changes of the Timetable the records alone. -/
theorem overRecords_tt (f : Booking → RecordResult) (s : State) :
    (overRecords f s).tt = { s.tt with records := listAfter f s.tt.records } := by
  unfold overRecords
  dsimp only
  rw [sendAll_tt]
  rfl

theorem overRecordsAt_tt (f : EvalCtx → Booking → RecordResult) {s : State} {now : Nat} (h : calInstant s.cal = some now) :
    (overRecordsAt f s).tt = { s.tt with records := listAfter (f (evalCtx s now false)) s.tt.records } := by
  unfold overRecordsAt
  rw [h]
  exact overRecords_tt _ s

theorem overRecordsAt_stopped (f : EvalCtx → Booking → RecordResult) {s : State} (h : calInstant s.cal = none) :
    overRecordsAt f s = s := by
  unfold overRecordsAt
  rw [h]

theorem ttGrant_list {now : Option Nat} {l : List Booking} {s : State} (hc : calInstant s.cal = now)
    (h : GrantsFollow now l s.tt.records) : GrantsFollow now l (ttGrant s).tt.records := by
  unfold ttGrant
  cases hn : calInstant s.cal with
  | none => rw [overRecordsAt_stopped _ hn]; exact h
  | some n =>
    rw [overRecordsAt_tt _ hn]
    exact .step (evalCtx s n false) (hc ▸ hn) rfl h

/-! ### Handing on -/

/-- Refreshing the session forms the summary from the list, and leaves the list. -/
theorem refreshSession_tt (s : State) :
    (refreshSession s).tt = { s.tt with summary := summarize s.tt.records } := by
  unfold refreshSession checkHoldSession changeGroup endLightHold
  dsimp only
  repeat' split
  all_goals rfl

theorem airPass_tt (s : State) : (airPass s).tt = { s.tt with summary := summarize s.tt.records } :=
  (formDemand_rest (refreshSession s)).1.trans (refreshSession_tt s)

theorem airPass_list {now : Option Nat} {l : List Booking} {s : State} (h : GrantsFollow now l s.tt.records) :
    ListIs now l (airPass s) := by
  refine ⟨?_, ?_⟩ <;> rw [airPass_tt]
  exact h

theorem airLoop_list {now : Option Nat} {l : List Booking} (n : Nat) {s : State} (hc : calInstant s.cal = now)
    (h : GrantsFollow now l s.tt.records) : ListIs now l (airLoop n s) := by
  induction n generalizing s with
  | zero =>
    change ListIs now l (refreshSession s)
    refine ⟨?_, ?_⟩ <;> rw [refreshSession_tt]
    exact h
  | succ n ih =>
    have hp := airPass_list h
    have hcal : calInstant (airPass s).cal = now := by rw [(airPass_handedOn s).cal]; exact hc
    have hg := ttGrant_list hcal hp.records
    unfold airLoop
    dsimp only
    split
    · split
      · rename_i e
        refine ⟨hg, ?_⟩
        have : (ttGrant (airPass s)).tt.summary = (airPass s).tt.summary := by
          unfold ttGrant
          cases hn : calInstant (airPass s).cal with
          | none => rw [overRecordsAt_stopped _ hn]
          | some m => rw [overRecordsAt_tt _ hn]
        rw [this, e]
        exact hp.summary
      · exact ih ((congrArg calInstant (overRecordsAt_handedOn _ onGrant_keepsId _).cal).trans hcal) hg
    · exact hp

theorem selectScene_tt (s : State) : (selectScene s).tt = s.tt := by
  unfold selectScene
  split <;> rfl

theorem ListIs.ofTt {now : Option Nat} {l : List Booking} {s t : State} (h : ListIs now l s) (e : t.tt = s.tt) : ListIs now l t :=
  ⟨e ▸ h.records, by rw [e]; exact h.summary⟩

/-- Handing on a change leaves the list but for grant-change events, and forms the summary from it. -/
theorem settle_list {now : Option Nat} {l : List Booking} {s : State} (hc : calInstant s.cal = now)
    (h : GrantsFollow now l s.tt.records) : ListIs now l (settle s) :=
  (airLoop_list 33 hc h).ofTt (selectScene_tt (airLoop 33 s))

/-- The first computations of a start leave the list, and form the summary from it. -/
theorem firstForms_tt (s : State) : (firstForms s).tt = { s.tt with summary := summarize s.tt.records } :=
  (selectScene_tt (airPass s)).trans (airPass_tt s)

theorem afterRecords_list {now : Option Nat} {l : List Booking} {s : State} (hc : calInstant s.cal = now)
    (h : GrantsFollow now l s.tt.records) : ListIs now l (afterRecords s) := by
  unfold afterRecords
  split
  · refine ⟨?_, ?_⟩ <;> rw [refreshSession_tt]
    exact h
  · exact settle_list hc h

theorem endEvent_list {now : Option Nat} {l : List Booking} {s : State} (b : State) (h : ListIs now l s) : ListIs now l (endEvent b s) :=
  h.ofTt (endEvent_keepsOutputs b s).tt

theorem finishTelegram_list {now : Option Nat} {l : List Booking} {s : State} (b : State) (h : ListIs now l s) :
    ListIs now l (finishTelegram b s) :=
  h.ofTt (finishTelegram_keepsOutputs b s).tt

/-! ### Which records a list holds after an event -/

theorem mem_eachRecord_iff {f : Booking → RecordResult} {x : Booking} {l : List Booking} :
    x ∈ (eachRecord f l).1 ↔ ∃ b ∈ l, (f b).1 = some x := by
  induction l with
  | nil => simp [eachRecord]
  | cons a rest ih =>
    unfold eachRecord
    dsimp only
    rw [List.mem_append, ih]
    simp

/-- The list after an event holds what the event leaves of each record, and nothing else. -/
theorem mem_listAfter {f : Booking → RecordResult} {x : Booking} {l : List Booking} :
    x ∈ listAfter f l ↔ ∃ b ∈ l, (f b).1 = some x := by
  unfold listAfter
  rw [mem_sortBookings, mem_eachRecord_iff]

/-- Grant-change events leave every record that is not PENDING. -/
theorem GrantsFollow.keeps {now : Option Nat} {l m : List Booking} (h : GrantsFollow now l m) {b : Booking} (hb : b ∈ l)
    (hs : b.state ≠ .pending) : b ∈ m := by
  induction h with
  | refl => exact hb
  | step c _ _ _ ih =>
    refine mem_listAfter.mpr ⟨b, ih, ?_⟩
    unfold onGrant
    split
    · rename_i e; exact absurd e hs
    · rfl

/-- Grant-change events leave every record that starts more than 60 minutes after the calendar instant, and with a STOPPED calendar
every record. -/
theorem GrantsFollow.far {now : Option Nat} {l m : List Booking} (h : GrantsFollow now l m) {b : Booking} (hb : b ∈ l)
    (hs : ∀ n, now = some n → n + 3600 < dateInstant b.start) : b ∈ m := by
  induction h with
  | refl => exact hb
  | step c hn _ _ ih =>
    refine mem_listAfter.mpr ⟨b, ih, ?_⟩
    unfold onGrant
    split
    · rw [if_neg]
      have := hs c.now hn
      omega
    · rfl

/-- Under a STOPPED calendar a list stays as it is. -/
theorem GrantsFollow.stopped {l m : List Booking} (h : GrantsFollow none l m) : m = l := by
  cases h with
  | refl => rfl
  | step c hn _ _ => cases hn

end Sys2Proof.Machine
end

