-- ==== Sys2Proof/Laws/Starts.lean ====
section
/-! SUPPORT. Starts: what the compaction and the derivation of the list leave alone, the phase they leave and the bound of the list. -/

namespace Sys2Proof.Machine

/-! ### The image reading of a service restart -/

/-- The image reading makes the blocks restart under the configuration that the image gives, and changes nothing else (R181). -/
theorem rereadImage_reads (old : Stamp) (s : State) : ImageRead s (rereadImage old s) := by
  have h := firstForms_handedOn (restartBlocks old s.cfg (loadConfiguration { s with imageWait := false }))
  have e := firstForms_tt (restartBlocks old s.cfg (loadConfiguration { s with imageWait := false }))
  have hr : (rereadImage old s).tt.records = s.tt.records := by
    have x := congrArg Timetable.records e
    exact x
  exact
    { occupancy := by rw [show (rereadImage old s).presence = _ from h.presence]; exact ⟨rfl, rfl, rfl⟩
      vacancy := by rw [show (rereadImage old s).presence = _ from h.presence]; rfl
      doors := by
        rw [show (rereadImage old s).presence = _ from h.presence, show (rereadImage old s).cfg = _ from h.cfg]; rfl
      presenceCounts := by rw [show (rereadImage old s).presence = _ from h.presence]; exact ⟨rfl, rfl, rfl, rfl⟩
      air := ⟨h.peers, h.capacity, h.overflows⟩
      lux := ⟨h.lux, h.discardedLux⟩
      join := by
        refine ⟨?_, ?_, ?_, h.joins.claimSeq⟩
        · have := h.joins.partnerSeq
          exact Option.map_eq_none_iff.mp this
        · exact Option.map_eq_none_iff.mp h.joins.report
        · exact Option.map_eq_none_iff.mp h.joins.order
      partitions := by
        rw [show (rereadImage old s).cfg = _ from h.cfg]; exact h.joins.partitions
      cfg := by rw [show (rereadImage old s).eeprom = _ from h.eeprom]; exact h.cfg
      fault := by rw [show (rereadImage old s).eeprom = _ from h.eeprom]; exact congrArg Faults.config h.faults
      format := by rw [show (rereadImage old s).eeprom = _ from h.eeprom]; exact h.formatRead
      imageWait := h.imageWait
      phase := h.phase
      pins := h.pins
      clock := h.clock
      listening := h.listening
      station := h.station
      calendar := ⟨h.cal, h.backup⟩
      list := ⟨hr, h.captured, by
        have x := congrArg Timetable.summary e
        rw [hr]; exact x⟩
      service := h.service
      pending := h.pending }

/-- Where no image reading is awaited, the end of a slot write reads none. -/
theorem endImageWait_idle {s : State} (h : s.imageWait = false) : endImageWait s = s := by
  unfold endImageWait
  rw [h]
  rfl

/-- Where one is awaited, the end of a slot write reads it. -/
theorem endImageWait_reads {s : State} (h : s.imageWait = true) : ImageRead s (endImageWait s) := by
  unfold endImageWait
  rw [h]
  exact rereadImage_reads _ s

/-! ### The start sequence -/

/-- What steps 5 and 6 of a start (R180, R189) leave alone. -/
structure KeepsStart (a b : State) : Prop where
  pins : b.pins = a.pins
  clock : b.clock = a.clock
  station : b.station = a.station
  listening : b.listening = a.listening
  cfg : b.cfg = a.cfg
  formatRead : b.formatRead = a.formatRead
  answers : b.eeprom.answers = a.eeprom.answers
  image : ∀ x, x < 512 → memRead b.eeprom.cells x = memRead a.eeprom.cells x
  torn : b.journal.torn = a.journal.torn
  cal : b.cal = a.cal
  captured : b.tt.captured = a.tt.captured
  presence : b.presence = a.presence
  peers : b.air.peers = a.air.peers
  capacity : b.air.capacity = a.air.capacity
  overflows : b.air.overflows = a.air.overflows
  lux : b.light.lux = a.light.lux
  discarded : b.light.discarded = a.light.discarded
  service : b.service = a.service
  faults : { b.faults with journalFull := false } = { a.faults with journalFull := false }
  bus : Sends a.station a.listening a.bus b.bus
  queue : b.journal.queue = a.journal.queue
  statusSeq : b.statusSeq = a.statusSeq
  imageWait : b.imageWait = a.imageWait
  pending : b.pending = a.pending

theorem KeepsStart.trans {a b c} (x : KeepsStart a b) (y : KeepsStart b c) : KeepsStart a c :=
  ⟨y.pins.trans x.pins, y.clock.trans x.clock, y.station.trans x.station, y.listening.trans x.listening,
   y.cfg.trans x.cfg, y.formatRead.trans x.formatRead, y.answers.trans x.answers, fun a h => (y.image a h).trans (x.image a h),
   y.torn.trans x.torn, y.cal.trans x.cal,
   y.captured.trans x.captured, y.presence.trans x.presence, y.peers.trans x.peers, y.capacity.trans x.capacity, y.overflows.trans x.overflows,
   y.lux.trans x.lux, y.discarded.trans x.discarded, y.service.trans x.service, y.faults.trans x.faults, x.bus.trans (x.station ▸ x.listening ▸ y.bus),
   y.queue.trans x.queue, y.statusSeq.trans x.statusSeq, y.imageWait.trans x.imageWait, y.pending.trans x.pending⟩

theorem settle_keepsStart (s : State) : KeepsStart s (settle s) := by
  have h := settle_handedOn s
  exact ⟨h.pins, h.clock, h.station, h.listening, h.cfg, h.formatRead, by rw [h.eeprom], fun _ _ => by rw [h.eeprom],
    by rw [h.journal], h.cal, h.captured, h.presence, h.peers, h.capacity, h.overflows, h.lux, h.discardedLux, h.service, by rw [h.faults], h.bus, by rw [h.journal], settle_statusSeq s, h.imageWait, h.pending⟩
theorem derive_statusSeq (s : State) : (derive s).statusSeq = s.statusSeq := by
  unfold derive; split
  · rfl
  · exact sendAll_statusSeq _ _
theorem derive_keepsStart (s : State) : KeepsStart s (derive s) := by
  have h := onForward_derive s
  exact ⟨h.pins, h.clock, h.station, h.listening, h.cfg, h.formatRead, by rw [h.eeprom], fun _ _ => by rw [h.eeprom],
    by rw [h.journal], h.cal, h.captured, h.presence, h.peers, h.capacity, h.overflows, h.lux, h.discardedLux, h.service, by rw [h.faults], h.bus, by rw [h.journal], derive_statusSeq s, h.imageWait, h.pending⟩

theorem finishStart_keepsStart (l) (s : State) : KeepsStart s (finishStart l s) := by
  unfold finishStart
  refine KeepsStart.trans ?_ ((derive_keepsStart _).trans (settle_keepsStart _))
  exact ⟨rfl, rfl, rfl, rfl, rfl, rfl, rfl, fun _ _ => rfl, rfl, rfl, rfl, rfl, rfl, rfl, rfl, rfl, rfl, rfl, rfl, .refl, rfl, rfl, rfl, rfl⟩

theorem compactedJournal_torn (l j) : (compactedJournal l j).torn = j.torn := by unfold compactedJournal; split <;> rfl
theorem compactedJournal_queue (l j) : (compactedJournal l j).queue = j.queue := by unfold compactedJournal; split <;> rfl

/-- A write leaves the image area. -/
theorem memRead_writeSlot_image (w : SlotWrite) (m : List Host.Cell) {x : Nat} (h : x < 512) :
    memRead (writeSlot w m) x = memRead m x :=
  memRead_writeList_other m w.bytes (.inl (by unfold slotAddress; omega))

theorem memRead_makeWrites_image (ws : List SlotWrite) (m : List Host.Cell) {x : Nat} (h : x < 512) :
    memRead (makeWrites ws m) x = memRead m x := by
  induction ws generalizing m with
  | nil => rfl
  | cons w rest ih => exact (ih (writeSlot w m)).trans (memRead_writeSlot_image w m h)

theorem KeepsStart.ofJournal (s : State) (m : List Host.Cell) (j : Journal) (u : Nat) (b : Bool) (p : Phase)
    (hj : j.queue = s.journal.queue) (ht : j.torn = s.journal.torn)
    (hm : ∀ x, x < 512 → memRead m x = memRead s.eeprom.cells x) :
    KeepsStart s { s with eeprom := { s.eeprom with cells := m }, journal := j, freeUsed := u,
                          faults := { s.faults with journalFull := b }, phase := p } :=
  ⟨rfl, rfl, rfl, rfl, rfl, rfl, rfl, hm, ht, rfl, rfl, rfl, rfl, rfl, rfl, rfl, rfl, rfl, rfl, .refl, hj, rfl, rfl, rfl⟩

theorem writeSlots_keepsStart (ws) (s : State) : KeepsStart s (writeSlots ws s) :=
  KeepsStart.ofJournal s _ s.journal s.freeUsed s.faults.journalFull s.phase rfl rfl (fun _ h => memRead_makeWrites_image ws _ h)

theorem compactionDone_keepsStart (l) (s : State) : KeepsStart s (compactionDone l s) :=
  KeepsStart.ofJournal s s.eeprom.cells _ s.freeUsed s.faults.journalFull s.phase (compactedJournal_queue l s.journal)
    (compactedJournal_torn l s.journal) (fun _ _ => rfl)

theorem compactionFailed_keepsStart (w) (s : State) : KeepsStart s (compactionFailed w s) := by
  unfold compactionFailed spoilSlot
  exact KeepsStart.ofJournal s _ _ _ true s.phase rfl rfl (fun _ h => memRead_writeSlot_image _ _ h)

theorem compact_keepsStart (l run) (s : State) : KeepsStart s (compact l run s) := by
  unfold compact
  dsimp only
  have hd : ∀ ws, KeepsStart s (finishStart l (compactionDone l (writeSlots ws s))) := fun ws =>
    ((writeSlots_keepsStart _ _).trans (compactionDone_keepsStart _ _)).trans (finishStart_keepsStart _ _)
  have he : ∀ ws w, KeepsStart s (finishStart l (compactionFailed w (writeSlots ws s))) := fun ws w =>
    ((writeSlots_keepsStart _ _).trans (compactionFailed_keepsStart _ _)).trans (finishStart_keepsStart _ _)
  generalize hw : compactionPlan l = ws at *
  cases run with
  | completes => exact hd ws
  | failsAt k =>
    dsimp only
    cases ws.drop k with
    | nil => exact hd ws
    | cons w r => exact he _ w
  | runningAt k =>
    dsimp only
    cases ws.drop k with
    | nil => exact hd ws
    | cons w r => exact (writeSlots_keepsStart _ _).trans (KeepsStart.ofJournal _ _ _ _ _ _ rfl rfl (fun _ _ => rfl))

theorem finishStart_phase (l) (s : State) : (finishStart l s).phase = .running := by
  unfold finishStart; rw [(settle_handedOn _).phase, (onForward_derive _).phase]

theorem compact_phase (l run) (s : State) : (compact l run s).phase = .running ∨ ∃ l' rest, (compact l run s).phase = .compacting l' rest false := by
  unfold compact; dsimp only
  cases run with
  | completes => exact .inl (finishStart_phase _ _)
  | failsAt k =>
    dsimp only
    split
    · exact .inl (finishStart_phase _ _)
    · exact .inl (finishStart_phase _ _)
  | runningAt k =>
    dsimp only
    split
    · exact .inl (finishStart_phase _ _)
    · exact .inr ⟨_, _, rfl⟩

theorem finishStart_records (l : List Booking) (hl : l.length ≤ 32) (s : State) : (finishStart l s).tt.records.length ≤ 32 := by
  unfold finishStart
  exact (settle_handedOn _).records.trans ((onForward_derive _).records.trans hl)

theorem compact_records (l : List Booking) (hl : l.length ≤ 32) (run) (s : State) (h0 : s.tt.records.length ≤ 32) : (compact l run s).tt.records.length ≤ 32 := by
  unfold compact; dsimp only
  generalize hw : compactionPlan l = ws at *
  cases run with
  | completes => exact finishStart_records _ hl _
  | failsAt k =>
    dsimp only
    cases ws.drop k with
    | nil => exact finishStart_records _ hl _
    | cons w r => exact finishStart_records _ hl _
  | runningAt k =>
    dsimp only
    cases ws.drop k with
    | nil => exact finishStart_records _ hl _
    | cons w r => exact h0

end Sys2Proof.Machine
end

