-- ==== Sys2Proof/Laws/State.lean ====
section
/-! SUPPORT. Beside `State`: for each plain update, one lemma for each field it leaves alone, true by `rfl`. -/

namespace Sys2Proof.Machine

/-! ### `send` -/

@[simp] theorem send_phase (t : OutTelegram) (s : State) : (send t s).phase = s.phase := rfl
@[simp] theorem send_pins (t : OutTelegram) (s : State) : (send t s).pins = s.pins := rfl
@[simp] theorem send_clock (t : OutTelegram) (s : State) : (send t s).clock = s.clock := rfl
@[simp] theorem send_station (t : OutTelegram) (s : State) : (send t s).station = s.station := rfl
@[simp] theorem send_listening (t : OutTelegram) (s : State) : (send t s).listening = s.listening := rfl
@[simp] theorem send_cfg (t : OutTelegram) (s : State) : (send t s).cfg = s.cfg := rfl
@[simp] theorem send_formatRead (t : OutTelegram) (s : State) : (send t s).formatRead = s.formatRead := rfl
@[simp] theorem send_cal (t : OutTelegram) (s : State) : (send t s).cal = s.cal := rfl
@[simp] theorem send_backup (t : OutTelegram) (s : State) : (send t s).backup = s.backup := rfl
@[simp] theorem send_tt (t : OutTelegram) (s : State) : (send t s).tt = s.tt := rfl
@[simp] theorem send_presence (t : OutTelegram) (s : State) : (send t s).presence = s.presence := rfl
@[simp] theorem send_air (t : OutTelegram) (s : State) : (send t s).air = s.air := rfl
@[simp] theorem send_light (t : OutTelegram) (s : State) : (send t s).light = s.light := rfl
@[simp] theorem send_blind (t : OutTelegram) (s : State) : (send t s).blind = s.blind := rfl
@[simp] theorem send_join (t : OutTelegram) (s : State) : (send t s).join = s.join := rfl
@[simp] theorem send_service (t : OutTelegram) (s : State) : (send t s).service = s.service := rfl
@[simp] theorem send_faults (t : OutTelegram) (s : State) : (send t s).faults = s.faults := rfl
@[simp] theorem send_eeprom (t : OutTelegram) (s : State) : (send t s).eeprom = s.eeprom := rfl
@[simp] theorem send_journal (t : OutTelegram) (s : State) : (send t s).journal = s.journal := rfl
@[simp] theorem send_statusSeq (t : OutTelegram) (s : State) : (send t s).statusSeq = s.statusSeq := rfl
@[simp] theorem send_freeUsed (t : OutTelegram) (s : State) : (send t s).freeUsed = s.freeUsed := rfl
@[simp] theorem send_pending (t : OutTelegram) (s : State) : (send t s).pending = s.pending := rfl

/-! ### `countUnusable` -/

@[simp] theorem countUnusable_phase (s : State) : (countUnusable s).phase = s.phase := rfl
@[simp] theorem countUnusable_pins (s : State) : (countUnusable s).pins = s.pins := rfl
@[simp] theorem countUnusable_clock (s : State) : (countUnusable s).clock = s.clock := rfl
@[simp] theorem countUnusable_station (s : State) : (countUnusable s).station = s.station := rfl
@[simp] theorem countUnusable_listening (s : State) : (countUnusable s).listening = s.listening := rfl
@[simp] theorem countUnusable_cfg (s : State) : (countUnusable s).cfg = s.cfg := rfl
@[simp] theorem countUnusable_formatRead (s : State) : (countUnusable s).formatRead = s.formatRead := rfl
@[simp] theorem countUnusable_cal (s : State) : (countUnusable s).cal = s.cal := rfl
@[simp] theorem countUnusable_backup (s : State) : (countUnusable s).backup = s.backup := rfl
@[simp] theorem countUnusable_tt (s : State) : (countUnusable s).tt = s.tt := rfl
@[simp] theorem countUnusable_presence (s : State) : (countUnusable s).presence = s.presence := rfl
@[simp] theorem countUnusable_air (s : State) : (countUnusable s).air = s.air := rfl
@[simp] theorem countUnusable_light (s : State) : (countUnusable s).light = s.light := rfl
@[simp] theorem countUnusable_blind (s : State) : (countUnusable s).blind = s.blind := rfl
@[simp] theorem countUnusable_join (s : State) : (countUnusable s).join = s.join := rfl
@[simp] theorem countUnusable_service (s : State) : (countUnusable s).service = s.service := rfl
@[simp] theorem countUnusable_faults (s : State) : (countUnusable s).faults = s.faults := rfl
@[simp] theorem countUnusable_eeprom (s : State) : (countUnusable s).eeprom = s.eeprom := rfl
@[simp] theorem countUnusable_journal (s : State) : (countUnusable s).journal = s.journal := rfl
@[simp] theorem countUnusable_statusSeq (s : State) : (countUnusable s).statusSeq = s.statusSeq := rfl
@[simp] theorem countUnusable_freeUsed (s : State) : (countUnusable s).freeUsed = s.freeUsed := rfl
@[simp] theorem countUnusable_pending (s : State) : (countUnusable s).pending = s.pending := rfl

/-! ### `countMalformed` -/

@[simp] theorem countMalformed_phase (s : State) : (countMalformed s).phase = s.phase := rfl
@[simp] theorem countMalformed_pins (s : State) : (countMalformed s).pins = s.pins := rfl
@[simp] theorem countMalformed_clock (s : State) : (countMalformed s).clock = s.clock := rfl
@[simp] theorem countMalformed_station (s : State) : (countMalformed s).station = s.station := rfl
@[simp] theorem countMalformed_listening (s : State) : (countMalformed s).listening = s.listening := rfl
@[simp] theorem countMalformed_cfg (s : State) : (countMalformed s).cfg = s.cfg := rfl
@[simp] theorem countMalformed_formatRead (s : State) : (countMalformed s).formatRead = s.formatRead := rfl
@[simp] theorem countMalformed_cal (s : State) : (countMalformed s).cal = s.cal := rfl
@[simp] theorem countMalformed_backup (s : State) : (countMalformed s).backup = s.backup := rfl
@[simp] theorem countMalformed_tt (s : State) : (countMalformed s).tt = s.tt := rfl
@[simp] theorem countMalformed_presence (s : State) : (countMalformed s).presence = s.presence := rfl
@[simp] theorem countMalformed_air (s : State) : (countMalformed s).air = s.air := rfl
@[simp] theorem countMalformed_light (s : State) : (countMalformed s).light = s.light := rfl
@[simp] theorem countMalformed_blind (s : State) : (countMalformed s).blind = s.blind := rfl
@[simp] theorem countMalformed_join (s : State) : (countMalformed s).join = s.join := rfl
@[simp] theorem countMalformed_service (s : State) : (countMalformed s).service = s.service := rfl
@[simp] theorem countMalformed_faults (s : State) : (countMalformed s).faults = s.faults := rfl
@[simp] theorem countMalformed_eeprom (s : State) : (countMalformed s).eeprom = s.eeprom := rfl
@[simp] theorem countMalformed_journal (s : State) : (countMalformed s).journal = s.journal := rfl
@[simp] theorem countMalformed_statusSeq (s : State) : (countMalformed s).statusSeq = s.statusSeq := rfl
@[simp] theorem countMalformed_freeUsed (s : State) : (countMalformed s).freeUsed = s.freeUsed := rfl
@[simp] theorem countMalformed_pending (s : State) : (countMalformed s).pending = s.pending := rfl

/-! ### `countGood` -/

@[simp] theorem countGood_phase (s : State) : (countGood s).phase = s.phase := rfl
@[simp] theorem countGood_pins (s : State) : (countGood s).pins = s.pins := rfl
@[simp] theorem countGood_clock (s : State) : (countGood s).clock = s.clock := rfl
@[simp] theorem countGood_station (s : State) : (countGood s).station = s.station := rfl
@[simp] theorem countGood_listening (s : State) : (countGood s).listening = s.listening := rfl
@[simp] theorem countGood_cfg (s : State) : (countGood s).cfg = s.cfg := rfl
@[simp] theorem countGood_formatRead (s : State) : (countGood s).formatRead = s.formatRead := rfl
@[simp] theorem countGood_cal (s : State) : (countGood s).cal = s.cal := rfl
@[simp] theorem countGood_backup (s : State) : (countGood s).backup = s.backup := rfl
@[simp] theorem countGood_tt (s : State) : (countGood s).tt = s.tt := rfl
@[simp] theorem countGood_presence (s : State) : (countGood s).presence = s.presence := rfl
@[simp] theorem countGood_air (s : State) : (countGood s).air = s.air := rfl
@[simp] theorem countGood_light (s : State) : (countGood s).light = s.light := rfl
@[simp] theorem countGood_blind (s : State) : (countGood s).blind = s.blind := rfl
@[simp] theorem countGood_join (s : State) : (countGood s).join = s.join := rfl
@[simp] theorem countGood_service (s : State) : (countGood s).service = s.service := rfl
@[simp] theorem countGood_faults (s : State) : (countGood s).faults = s.faults := rfl
@[simp] theorem countGood_eeprom (s : State) : (countGood s).eeprom = s.eeprom := rfl
@[simp] theorem countGood_journal (s : State) : (countGood s).journal = s.journal := rfl
@[simp] theorem countGood_statusSeq (s : State) : (countGood s).statusSeq = s.statusSeq := rfl
@[simp] theorem countGood_freeUsed (s : State) : (countGood s).freeUsed = s.freeUsed := rfl
@[simp] theorem countGood_pending (s : State) : (countGood s).pending = s.pending := rfl

/-! ### `countBad` -/

@[simp] theorem countBad_phase (s : State) : (countBad s).phase = s.phase := rfl
@[simp] theorem countBad_pins (s : State) : (countBad s).pins = s.pins := rfl
@[simp] theorem countBad_clock (s : State) : (countBad s).clock = s.clock := rfl
@[simp] theorem countBad_station (s : State) : (countBad s).station = s.station := rfl
@[simp] theorem countBad_listening (s : State) : (countBad s).listening = s.listening := rfl
@[simp] theorem countBad_cfg (s : State) : (countBad s).cfg = s.cfg := rfl
@[simp] theorem countBad_formatRead (s : State) : (countBad s).formatRead = s.formatRead := rfl
@[simp] theorem countBad_cal (s : State) : (countBad s).cal = s.cal := rfl
@[simp] theorem countBad_backup (s : State) : (countBad s).backup = s.backup := rfl
@[simp] theorem countBad_tt (s : State) : (countBad s).tt = s.tt := rfl
@[simp] theorem countBad_presence (s : State) : (countBad s).presence = s.presence := rfl
@[simp] theorem countBad_air (s : State) : (countBad s).air = s.air := rfl
@[simp] theorem countBad_light (s : State) : (countBad s).light = s.light := rfl
@[simp] theorem countBad_blind (s : State) : (countBad s).blind = s.blind := rfl
@[simp] theorem countBad_join (s : State) : (countBad s).join = s.join := rfl
@[simp] theorem countBad_service (s : State) : (countBad s).service = s.service := rfl
@[simp] theorem countBad_faults (s : State) : (countBad s).faults = s.faults := rfl
@[simp] theorem countBad_eeprom (s : State) : (countBad s).eeprom = s.eeprom := rfl
@[simp] theorem countBad_journal (s : State) : (countBad s).journal = s.journal := rfl
@[simp] theorem countBad_statusSeq (s : State) : (countBad s).statusSeq = s.statusSeq := rfl
@[simp] theorem countBad_freeUsed (s : State) : (countBad s).freeUsed = s.freeUsed := rfl
@[simp] theorem countBad_pending (s : State) : (countBad s).pending = s.pending := rfl

/-! ### `deferIfWaiting` -/

@[simp] theorem deferIfWaiting_phase (s : State) : (deferIfWaiting s).phase = s.phase := rfl
@[simp] theorem deferIfWaiting_pins (s : State) : (deferIfWaiting s).pins = s.pins := rfl
@[simp] theorem deferIfWaiting_clock (s : State) : (deferIfWaiting s).clock = s.clock := rfl
@[simp] theorem deferIfWaiting_station (s : State) : (deferIfWaiting s).station = s.station := rfl
@[simp] theorem deferIfWaiting_listening (s : State) : (deferIfWaiting s).listening = s.listening := rfl
@[simp] theorem deferIfWaiting_cfg (s : State) : (deferIfWaiting s).cfg = s.cfg := rfl
@[simp] theorem deferIfWaiting_formatRead (s : State) : (deferIfWaiting s).formatRead = s.formatRead := rfl
@[simp] theorem deferIfWaiting_cal (s : State) : (deferIfWaiting s).cal = s.cal := rfl
@[simp] theorem deferIfWaiting_backup (s : State) : (deferIfWaiting s).backup = s.backup := rfl
@[simp] theorem deferIfWaiting_tt (s : State) : (deferIfWaiting s).tt = s.tt := rfl
@[simp] theorem deferIfWaiting_presence (s : State) : (deferIfWaiting s).presence = s.presence := rfl
@[simp] theorem deferIfWaiting_air (s : State) : (deferIfWaiting s).air = s.air := rfl
@[simp] theorem deferIfWaiting_light (s : State) : (deferIfWaiting s).light = s.light := rfl
@[simp] theorem deferIfWaiting_blind (s : State) : (deferIfWaiting s).blind = s.blind := rfl
@[simp] theorem deferIfWaiting_join (s : State) : (deferIfWaiting s).join = s.join := rfl
@[simp] theorem deferIfWaiting_service (s : State) : (deferIfWaiting s).service = s.service := rfl
@[simp] theorem deferIfWaiting_faults (s : State) : (deferIfWaiting s).faults = s.faults := rfl
@[simp] theorem deferIfWaiting_eeprom (s : State) : (deferIfWaiting s).eeprom = s.eeprom := rfl
@[simp] theorem deferIfWaiting_journal (s : State) : (deferIfWaiting s).journal = s.journal := rfl
@[simp] theorem deferIfWaiting_statusSeq (s : State) : (deferIfWaiting s).statusSeq = s.statusSeq := rfl
@[simp] theorem deferIfWaiting_freeUsed (s : State) : (deferIfWaiting s).freeUsed = s.freeUsed := rfl
@[simp] theorem deferIfWaiting_pending (s : State) : (deferIfWaiting s).pending = s.pending := rfl

/-! ### `heard` -/

@[simp] theorem heard_phase (s : State) : (heard s).phase = s.phase := rfl
@[simp] theorem heard_pins (s : State) : (heard s).pins = s.pins := rfl
@[simp] theorem heard_clock (s : State) : (heard s).clock = s.clock := rfl
@[simp] theorem heard_station (s : State) : (heard s).station = s.station := rfl
@[simp] theorem heard_listening (s : State) : (heard s).listening = s.listening := rfl
@[simp] theorem heard_cfg (s : State) : (heard s).cfg = s.cfg := rfl
@[simp] theorem heard_formatRead (s : State) : (heard s).formatRead = s.formatRead := rfl
@[simp] theorem heard_cal (s : State) : (heard s).cal = s.cal := rfl
@[simp] theorem heard_backup (s : State) : (heard s).backup = s.backup := rfl
@[simp] theorem heard_tt (s : State) : (heard s).tt = s.tt := rfl
@[simp] theorem heard_presence (s : State) : (heard s).presence = s.presence := rfl
@[simp] theorem heard_air (s : State) : (heard s).air = s.air := rfl
@[simp] theorem heard_light (s : State) : (heard s).light = s.light := rfl
@[simp] theorem heard_blind (s : State) : (heard s).blind = s.blind := rfl
@[simp] theorem heard_join (s : State) : (heard s).join = s.join := rfl
@[simp] theorem heard_service (s : State) : (heard s).service = s.service := rfl
@[simp] theorem heard_faults (s : State) : (heard s).faults = s.faults := rfl
@[simp] theorem heard_eeprom (s : State) : (heard s).eeprom = s.eeprom := rfl
@[simp] theorem heard_journal (s : State) : (heard s).journal = s.journal := rfl
@[simp] theorem heard_statusSeq (s : State) : (heard s).statusSeq = s.statusSeq := rfl
@[simp] theorem heard_freeUsed (s : State) : (heard s).freeUsed = s.freeUsed := rfl
@[simp] theorem heard_pending (s : State) : (heard s).pending = s.pending := rfl

/-! ### `setResetPin` -/

@[simp] theorem setResetPin_phase (b : Bool) (s : State) : (setResetPin b s).phase = s.phase := rfl
@[simp] theorem setResetPin_clock (b : Bool) (s : State) : (setResetPin b s).clock = s.clock := rfl
@[simp] theorem setResetPin_station (b : Bool) (s : State) : (setResetPin b s).station = s.station := rfl
@[simp] theorem setResetPin_listening (b : Bool) (s : State) : (setResetPin b s).listening = s.listening := rfl
@[simp] theorem setResetPin_cfg (b : Bool) (s : State) : (setResetPin b s).cfg = s.cfg := rfl
@[simp] theorem setResetPin_formatRead (b : Bool) (s : State) : (setResetPin b s).formatRead = s.formatRead := rfl
@[simp] theorem setResetPin_cal (b : Bool) (s : State) : (setResetPin b s).cal = s.cal := rfl
@[simp] theorem setResetPin_backup (b : Bool) (s : State) : (setResetPin b s).backup = s.backup := rfl
@[simp] theorem setResetPin_tt (b : Bool) (s : State) : (setResetPin b s).tt = s.tt := rfl
@[simp] theorem setResetPin_presence (b : Bool) (s : State) : (setResetPin b s).presence = s.presence := rfl
@[simp] theorem setResetPin_air (b : Bool) (s : State) : (setResetPin b s).air = s.air := rfl
@[simp] theorem setResetPin_light (b : Bool) (s : State) : (setResetPin b s).light = s.light := rfl
@[simp] theorem setResetPin_blind (b : Bool) (s : State) : (setResetPin b s).blind = s.blind := rfl
@[simp] theorem setResetPin_join (b : Bool) (s : State) : (setResetPin b s).join = s.join := rfl
@[simp] theorem setResetPin_service (b : Bool) (s : State) : (setResetPin b s).service = s.service := rfl
@[simp] theorem setResetPin_faults (b : Bool) (s : State) : (setResetPin b s).faults = s.faults := rfl
@[simp] theorem setResetPin_bus (b : Bool) (s : State) : (setResetPin b s).bus = s.bus := rfl
@[simp] theorem setResetPin_eeprom (b : Bool) (s : State) : (setResetPin b s).eeprom = s.eeprom := rfl
@[simp] theorem setResetPin_journal (b : Bool) (s : State) : (setResetPin b s).journal = s.journal := rfl
@[simp] theorem setResetPin_statusSeq (b : Bool) (s : State) : (setResetPin b s).statusSeq = s.statusSeq := rfl
@[simp] theorem setResetPin_freeUsed (b : Bool) (s : State) : (setResetPin b s).freeUsed = s.freeUsed := rfl
@[simp] theorem setResetPin_pending (b : Bool) (s : State) : (setResetPin b s).pending = s.pending := rfl

/-! ### `changePartition` -/

@[simp] theorem changePartition_phase (p : Nat) (f : Partition → Partition) (s : State) : (changePartition p f s).phase = s.phase := rfl
@[simp] theorem changePartition_pins (p : Nat) (f : Partition → Partition) (s : State) : (changePartition p f s).pins = s.pins := rfl
@[simp] theorem changePartition_clock (p : Nat) (f : Partition → Partition) (s : State) : (changePartition p f s).clock = s.clock := rfl
@[simp] theorem changePartition_station (p : Nat) (f : Partition → Partition) (s : State) : (changePartition p f s).station = s.station := rfl
@[simp] theorem changePartition_listening (p : Nat) (f : Partition → Partition) (s : State) : (changePartition p f s).listening = s.listening := rfl
@[simp] theorem changePartition_cfg (p : Nat) (f : Partition → Partition) (s : State) : (changePartition p f s).cfg = s.cfg := rfl
@[simp] theorem changePartition_formatRead (p : Nat) (f : Partition → Partition) (s : State) : (changePartition p f s).formatRead = s.formatRead := rfl
@[simp] theorem changePartition_cal (p : Nat) (f : Partition → Partition) (s : State) : (changePartition p f s).cal = s.cal := rfl
@[simp] theorem changePartition_backup (p : Nat) (f : Partition → Partition) (s : State) : (changePartition p f s).backup = s.backup := rfl
@[simp] theorem changePartition_tt (p : Nat) (f : Partition → Partition) (s : State) : (changePartition p f s).tt = s.tt := rfl
@[simp] theorem changePartition_presence (p : Nat) (f : Partition → Partition) (s : State) : (changePartition p f s).presence = s.presence := rfl
@[simp] theorem changePartition_air (p : Nat) (f : Partition → Partition) (s : State) : (changePartition p f s).air = s.air := rfl
@[simp] theorem changePartition_light (p : Nat) (f : Partition → Partition) (s : State) : (changePartition p f s).light = s.light := rfl
@[simp] theorem changePartition_blind (p : Nat) (f : Partition → Partition) (s : State) : (changePartition p f s).blind = s.blind := rfl
@[simp] theorem changePartition_service (p : Nat) (f : Partition → Partition) (s : State) : (changePartition p f s).service = s.service := rfl
@[simp] theorem changePartition_faults (p : Nat) (f : Partition → Partition) (s : State) : (changePartition p f s).faults = s.faults := rfl
@[simp] theorem changePartition_bus (p : Nat) (f : Partition → Partition) (s : State) : (changePartition p f s).bus = s.bus := rfl
@[simp] theorem changePartition_eeprom (p : Nat) (f : Partition → Partition) (s : State) : (changePartition p f s).eeprom = s.eeprom := rfl
@[simp] theorem changePartition_journal (p : Nat) (f : Partition → Partition) (s : State) : (changePartition p f s).journal = s.journal := rfl
@[simp] theorem changePartition_statusSeq (p : Nat) (f : Partition → Partition) (s : State) : (changePartition p f s).statusSeq = s.statusSeq := rfl
@[simp] theorem changePartition_freeUsed (p : Nat) (f : Partition → Partition) (s : State) : (changePartition p f s).freeUsed = s.freeUsed := rfl
@[simp] theorem changePartition_pending (p : Nat) (f : Partition → Partition) (s : State) : (changePartition p f s).pending = s.pending := rfl

/-! ### `changeGroup` -/

@[simp] theorem changeGroup_phase (f : Group → Group) (s : State) : (changeGroup f s).phase = s.phase := rfl
@[simp] theorem changeGroup_pins (f : Group → Group) (s : State) : (changeGroup f s).pins = s.pins := rfl
@[simp] theorem changeGroup_clock (f : Group → Group) (s : State) : (changeGroup f s).clock = s.clock := rfl
@[simp] theorem changeGroup_station (f : Group → Group) (s : State) : (changeGroup f s).station = s.station := rfl
@[simp] theorem changeGroup_listening (f : Group → Group) (s : State) : (changeGroup f s).listening = s.listening := rfl
@[simp] theorem changeGroup_cfg (f : Group → Group) (s : State) : (changeGroup f s).cfg = s.cfg := rfl
@[simp] theorem changeGroup_formatRead (f : Group → Group) (s : State) : (changeGroup f s).formatRead = s.formatRead := rfl
@[simp] theorem changeGroup_cal (f : Group → Group) (s : State) : (changeGroup f s).cal = s.cal := rfl
@[simp] theorem changeGroup_backup (f : Group → Group) (s : State) : (changeGroup f s).backup = s.backup := rfl
@[simp] theorem changeGroup_tt (f : Group → Group) (s : State) : (changeGroup f s).tt = s.tt := rfl
@[simp] theorem changeGroup_presence (f : Group → Group) (s : State) : (changeGroup f s).presence = s.presence := rfl
@[simp] theorem changeGroup_air (f : Group → Group) (s : State) : (changeGroup f s).air = s.air := rfl
@[simp] theorem changeGroup_light (f : Group → Group) (s : State) : (changeGroup f s).light = s.light := rfl
@[simp] theorem changeGroup_blind (f : Group → Group) (s : State) : (changeGroup f s).blind = s.blind := rfl
@[simp] theorem changeGroup_service (f : Group → Group) (s : State) : (changeGroup f s).service = s.service := rfl
@[simp] theorem changeGroup_faults (f : Group → Group) (s : State) : (changeGroup f s).faults = s.faults := rfl
@[simp] theorem changeGroup_bus (f : Group → Group) (s : State) : (changeGroup f s).bus = s.bus := rfl
@[simp] theorem changeGroup_eeprom (f : Group → Group) (s : State) : (changeGroup f s).eeprom = s.eeprom := rfl
@[simp] theorem changeGroup_journal (f : Group → Group) (s : State) : (changeGroup f s).journal = s.journal := rfl
@[simp] theorem changeGroup_statusSeq (f : Group → Group) (s : State) : (changeGroup f s).statusSeq = s.statusSeq := rfl
@[simp] theorem changeGroup_freeUsed (f : Group → Group) (s : State) : (changeGroup f s).freeUsed = s.freeUsed := rfl
@[simp] theorem changeGroup_pending (f : Group → Group) (s : State) : (changeGroup f s).pending = s.pending := rfl

/-! ### `formOccupancy` -/

@[simp] theorem formOccupancy_phase (s : State) : (formOccupancy s).phase = s.phase := rfl
@[simp] theorem formOccupancy_pins (s : State) : (formOccupancy s).pins = s.pins := rfl
@[simp] theorem formOccupancy_clock (s : State) : (formOccupancy s).clock = s.clock := rfl
@[simp] theorem formOccupancy_station (s : State) : (formOccupancy s).station = s.station := rfl
@[simp] theorem formOccupancy_listening (s : State) : (formOccupancy s).listening = s.listening := rfl
@[simp] theorem formOccupancy_cfg (s : State) : (formOccupancy s).cfg = s.cfg := rfl
@[simp] theorem formOccupancy_formatRead (s : State) : (formOccupancy s).formatRead = s.formatRead := rfl
@[simp] theorem formOccupancy_cal (s : State) : (formOccupancy s).cal = s.cal := rfl
@[simp] theorem formOccupancy_backup (s : State) : (formOccupancy s).backup = s.backup := rfl
@[simp] theorem formOccupancy_tt (s : State) : (formOccupancy s).tt = s.tt := rfl
@[simp] theorem formOccupancy_presence (s : State) : (formOccupancy s).presence = s.presence := rfl
@[simp] theorem formOccupancy_air (s : State) : (formOccupancy s).air = s.air := rfl
@[simp] theorem formOccupancy_light (s : State) : (formOccupancy s).light = s.light := rfl
@[simp] theorem formOccupancy_blind (s : State) : (formOccupancy s).blind = s.blind := rfl
@[simp] theorem formOccupancy_service (s : State) : (formOccupancy s).service = s.service := rfl
@[simp] theorem formOccupancy_faults (s : State) : (formOccupancy s).faults = s.faults := rfl
@[simp] theorem formOccupancy_bus (s : State) : (formOccupancy s).bus = s.bus := rfl
@[simp] theorem formOccupancy_eeprom (s : State) : (formOccupancy s).eeprom = s.eeprom := rfl
@[simp] theorem formOccupancy_journal (s : State) : (formOccupancy s).journal = s.journal := rfl
@[simp] theorem formOccupancy_statusSeq (s : State) : (formOccupancy s).statusSeq = s.statusSeq := rfl
@[simp] theorem formOccupancy_freeUsed (s : State) : (formOccupancy s).freeUsed = s.freeUsed := rfl
@[simp] theorem formOccupancy_pending (s : State) : (formOccupancy s).pending = s.pending := rfl

/-! ### `hearPartner` -/

@[simp] theorem hearPartner_phase (s : State) : (hearPartner s).phase = s.phase := rfl
@[simp] theorem hearPartner_pins (s : State) : (hearPartner s).pins = s.pins := rfl
@[simp] theorem hearPartner_clock (s : State) : (hearPartner s).clock = s.clock := rfl
@[simp] theorem hearPartner_station (s : State) : (hearPartner s).station = s.station := rfl
@[simp] theorem hearPartner_listening (s : State) : (hearPartner s).listening = s.listening := rfl
@[simp] theorem hearPartner_cfg (s : State) : (hearPartner s).cfg = s.cfg := rfl
@[simp] theorem hearPartner_formatRead (s : State) : (hearPartner s).formatRead = s.formatRead := rfl
@[simp] theorem hearPartner_cal (s : State) : (hearPartner s).cal = s.cal := rfl
@[simp] theorem hearPartner_backup (s : State) : (hearPartner s).backup = s.backup := rfl
@[simp] theorem hearPartner_tt (s : State) : (hearPartner s).tt = s.tt := rfl
@[simp] theorem hearPartner_presence (s : State) : (hearPartner s).presence = s.presence := rfl
@[simp] theorem hearPartner_air (s : State) : (hearPartner s).air = s.air := rfl
@[simp] theorem hearPartner_light (s : State) : (hearPartner s).light = s.light := rfl
@[simp] theorem hearPartner_blind (s : State) : (hearPartner s).blind = s.blind := rfl
@[simp] theorem hearPartner_service (s : State) : (hearPartner s).service = s.service := rfl
@[simp] theorem hearPartner_faults (s : State) : (hearPartner s).faults = s.faults := rfl
@[simp] theorem hearPartner_bus (s : State) : (hearPartner s).bus = s.bus := rfl
@[simp] theorem hearPartner_eeprom (s : State) : (hearPartner s).eeprom = s.eeprom := rfl
@[simp] theorem hearPartner_journal (s : State) : (hearPartner s).journal = s.journal := rfl
@[simp] theorem hearPartner_statusSeq (s : State) : (hearPartner s).statusSeq = s.statusSeq := rfl
@[simp] theorem hearPartner_freeUsed (s : State) : (hearPartner s).freeUsed = s.freeUsed := rfl
@[simp] theorem hearPartner_pending (s : State) : (hearPartner s).pending = s.pending := rfl

/-! ### `recordSeq` -/

@[simp] theorem recordSeq_phase (q : Nat) (s : State) : (recordSeq q s).phase = s.phase := rfl
@[simp] theorem recordSeq_pins (q : Nat) (s : State) : (recordSeq q s).pins = s.pins := rfl
@[simp] theorem recordSeq_clock (q : Nat) (s : State) : (recordSeq q s).clock = s.clock := rfl
@[simp] theorem recordSeq_station (q : Nat) (s : State) : (recordSeq q s).station = s.station := rfl
@[simp] theorem recordSeq_listening (q : Nat) (s : State) : (recordSeq q s).listening = s.listening := rfl
@[simp] theorem recordSeq_cfg (q : Nat) (s : State) : (recordSeq q s).cfg = s.cfg := rfl
@[simp] theorem recordSeq_formatRead (q : Nat) (s : State) : (recordSeq q s).formatRead = s.formatRead := rfl
@[simp] theorem recordSeq_cal (q : Nat) (s : State) : (recordSeq q s).cal = s.cal := rfl
@[simp] theorem recordSeq_backup (q : Nat) (s : State) : (recordSeq q s).backup = s.backup := rfl
@[simp] theorem recordSeq_tt (q : Nat) (s : State) : (recordSeq q s).tt = s.tt := rfl
@[simp] theorem recordSeq_presence (q : Nat) (s : State) : (recordSeq q s).presence = s.presence := rfl
@[simp] theorem recordSeq_air (q : Nat) (s : State) : (recordSeq q s).air = s.air := rfl
@[simp] theorem recordSeq_light (q : Nat) (s : State) : (recordSeq q s).light = s.light := rfl
@[simp] theorem recordSeq_blind (q : Nat) (s : State) : (recordSeq q s).blind = s.blind := rfl
@[simp] theorem recordSeq_service (q : Nat) (s : State) : (recordSeq q s).service = s.service := rfl
@[simp] theorem recordSeq_faults (q : Nat) (s : State) : (recordSeq q s).faults = s.faults := rfl
@[simp] theorem recordSeq_bus (q : Nat) (s : State) : (recordSeq q s).bus = s.bus := rfl
@[simp] theorem recordSeq_eeprom (q : Nat) (s : State) : (recordSeq q s).eeprom = s.eeprom := rfl
@[simp] theorem recordSeq_journal (q : Nat) (s : State) : (recordSeq q s).journal = s.journal := rfl
@[simp] theorem recordSeq_statusSeq (q : Nat) (s : State) : (recordSeq q s).statusSeq = s.statusSeq := rfl
@[simp] theorem recordSeq_freeUsed (q : Nat) (s : State) : (recordSeq q s).freeUsed = s.freeUsed := rfl
@[simp] theorem recordSeq_pending (q : Nat) (s : State) : (recordSeq q s).pending = s.pending := rfl

/-! ### `endLightHold` -/

@[simp] theorem endLightHold_phase (s : State) : (endLightHold s).phase = s.phase := rfl
@[simp] theorem endLightHold_pins (s : State) : (endLightHold s).pins = s.pins := rfl
@[simp] theorem endLightHold_clock (s : State) : (endLightHold s).clock = s.clock := rfl
@[simp] theorem endLightHold_station (s : State) : (endLightHold s).station = s.station := rfl
@[simp] theorem endLightHold_listening (s : State) : (endLightHold s).listening = s.listening := rfl
@[simp] theorem endLightHold_cfg (s : State) : (endLightHold s).cfg = s.cfg := rfl
@[simp] theorem endLightHold_formatRead (s : State) : (endLightHold s).formatRead = s.formatRead := rfl
@[simp] theorem endLightHold_cal (s : State) : (endLightHold s).cal = s.cal := rfl
@[simp] theorem endLightHold_backup (s : State) : (endLightHold s).backup = s.backup := rfl
@[simp] theorem endLightHold_tt (s : State) : (endLightHold s).tt = s.tt := rfl
@[simp] theorem endLightHold_presence (s : State) : (endLightHold s).presence = s.presence := rfl
@[simp] theorem endLightHold_air (s : State) : (endLightHold s).air = s.air := rfl
@[simp] theorem endLightHold_blind (s : State) : (endLightHold s).blind = s.blind := rfl
@[simp] theorem endLightHold_join (s : State) : (endLightHold s).join = s.join := rfl
@[simp] theorem endLightHold_service (s : State) : (endLightHold s).service = s.service := rfl
@[simp] theorem endLightHold_faults (s : State) : (endLightHold s).faults = s.faults := rfl
@[simp] theorem endLightHold_bus (s : State) : (endLightHold s).bus = s.bus := rfl
@[simp] theorem endLightHold_eeprom (s : State) : (endLightHold s).eeprom = s.eeprom := rfl
@[simp] theorem endLightHold_journal (s : State) : (endLightHold s).journal = s.journal := rfl
@[simp] theorem endLightHold_statusSeq (s : State) : (endLightHold s).statusSeq = s.statusSeq := rfl
@[simp] theorem endLightHold_freeUsed (s : State) : (endLightHold s).freeUsed = s.freeUsed := rfl
@[simp] theorem endLightHold_pending (s : State) : (endLightHold s).pending = s.pending := rfl

/-! ### `formTargets` -/

@[simp] theorem formTargets_phase (s : State) : (formTargets s).phase = s.phase := rfl
@[simp] theorem formTargets_pins (s : State) : (formTargets s).pins = s.pins := rfl
@[simp] theorem formTargets_clock (s : State) : (formTargets s).clock = s.clock := rfl
@[simp] theorem formTargets_station (s : State) : (formTargets s).station = s.station := rfl
@[simp] theorem formTargets_listening (s : State) : (formTargets s).listening = s.listening := rfl
@[simp] theorem formTargets_cfg (s : State) : (formTargets s).cfg = s.cfg := rfl
@[simp] theorem formTargets_formatRead (s : State) : (formTargets s).formatRead = s.formatRead := rfl
@[simp] theorem formTargets_cal (s : State) : (formTargets s).cal = s.cal := rfl
@[simp] theorem formTargets_backup (s : State) : (formTargets s).backup = s.backup := rfl
@[simp] theorem formTargets_tt (s : State) : (formTargets s).tt = s.tt := rfl
@[simp] theorem formTargets_presence (s : State) : (formTargets s).presence = s.presence := rfl
@[simp] theorem formTargets_air (s : State) : (formTargets s).air = s.air := rfl
@[simp] theorem formTargets_blind (s : State) : (formTargets s).blind = s.blind := rfl
@[simp] theorem formTargets_join (s : State) : (formTargets s).join = s.join := rfl
@[simp] theorem formTargets_service (s : State) : (formTargets s).service = s.service := rfl
@[simp] theorem formTargets_faults (s : State) : (formTargets s).faults = s.faults := rfl
@[simp] theorem formTargets_bus (s : State) : (formTargets s).bus = s.bus := rfl
@[simp] theorem formTargets_eeprom (s : State) : (formTargets s).eeprom = s.eeprom := rfl
@[simp] theorem formTargets_journal (s : State) : (formTargets s).journal = s.journal := rfl
@[simp] theorem formTargets_statusSeq (s : State) : (formTargets s).statusSeq = s.statusSeq := rfl
@[simp] theorem formTargets_freeUsed (s : State) : (formTargets s).freeUsed = s.freeUsed := rfl
@[simp] theorem formTargets_pending (s : State) : (formTargets s).pending = s.pending := rfl

/-! ### `endBlindHolds` -/

@[simp] theorem endBlindHolds_phase (s : State) : (endBlindHolds s).phase = s.phase := rfl
@[simp] theorem endBlindHolds_pins (s : State) : (endBlindHolds s).pins = s.pins := rfl
@[simp] theorem endBlindHolds_clock (s : State) : (endBlindHolds s).clock = s.clock := rfl
@[simp] theorem endBlindHolds_station (s : State) : (endBlindHolds s).station = s.station := rfl
@[simp] theorem endBlindHolds_listening (s : State) : (endBlindHolds s).listening = s.listening := rfl
@[simp] theorem endBlindHolds_cfg (s : State) : (endBlindHolds s).cfg = s.cfg := rfl
@[simp] theorem endBlindHolds_formatRead (s : State) : (endBlindHolds s).formatRead = s.formatRead := rfl
@[simp] theorem endBlindHolds_cal (s : State) : (endBlindHolds s).cal = s.cal := rfl
@[simp] theorem endBlindHolds_backup (s : State) : (endBlindHolds s).backup = s.backup := rfl
@[simp] theorem endBlindHolds_tt (s : State) : (endBlindHolds s).tt = s.tt := rfl
@[simp] theorem endBlindHolds_presence (s : State) : (endBlindHolds s).presence = s.presence := rfl
@[simp] theorem endBlindHolds_air (s : State) : (endBlindHolds s).air = s.air := rfl
@[simp] theorem endBlindHolds_light (s : State) : (endBlindHolds s).light = s.light := rfl
@[simp] theorem endBlindHolds_join (s : State) : (endBlindHolds s).join = s.join := rfl
@[simp] theorem endBlindHolds_service (s : State) : (endBlindHolds s).service = s.service := rfl
@[simp] theorem endBlindHolds_faults (s : State) : (endBlindHolds s).faults = s.faults := rfl
@[simp] theorem endBlindHolds_bus (s : State) : (endBlindHolds s).bus = s.bus := rfl
@[simp] theorem endBlindHolds_eeprom (s : State) : (endBlindHolds s).eeprom = s.eeprom := rfl
@[simp] theorem endBlindHolds_journal (s : State) : (endBlindHolds s).journal = s.journal := rfl
@[simp] theorem endBlindHolds_statusSeq (s : State) : (endBlindHolds s).statusSeq = s.statusSeq := rfl
@[simp] theorem endBlindHolds_freeUsed (s : State) : (endBlindHolds s).freeUsed = s.freeUsed := rfl
@[simp] theorem endBlindHolds_pending (s : State) : (endBlindHolds s).pending = s.pending := rfl

/-! ### `formBlinds` -/

@[simp] theorem formBlinds_phase (s : State) : (formBlinds s).phase = s.phase := rfl
@[simp] theorem formBlinds_pins (s : State) : (formBlinds s).pins = s.pins := rfl
@[simp] theorem formBlinds_clock (s : State) : (formBlinds s).clock = s.clock := rfl
@[simp] theorem formBlinds_station (s : State) : (formBlinds s).station = s.station := rfl
@[simp] theorem formBlinds_listening (s : State) : (formBlinds s).listening = s.listening := rfl
@[simp] theorem formBlinds_cfg (s : State) : (formBlinds s).cfg = s.cfg := rfl
@[simp] theorem formBlinds_formatRead (s : State) : (formBlinds s).formatRead = s.formatRead := rfl
@[simp] theorem formBlinds_cal (s : State) : (formBlinds s).cal = s.cal := rfl
@[simp] theorem formBlinds_backup (s : State) : (formBlinds s).backup = s.backup := rfl
@[simp] theorem formBlinds_tt (s : State) : (formBlinds s).tt = s.tt := rfl
@[simp] theorem formBlinds_presence (s : State) : (formBlinds s).presence = s.presence := rfl
@[simp] theorem formBlinds_air (s : State) : (formBlinds s).air = s.air := rfl
@[simp] theorem formBlinds_light (s : State) : (formBlinds s).light = s.light := rfl
@[simp] theorem formBlinds_join (s : State) : (formBlinds s).join = s.join := rfl
@[simp] theorem formBlinds_service (s : State) : (formBlinds s).service = s.service := rfl
@[simp] theorem formBlinds_faults (s : State) : (formBlinds s).faults = s.faults := rfl
@[simp] theorem formBlinds_bus (s : State) : (formBlinds s).bus = s.bus := rfl
@[simp] theorem formBlinds_eeprom (s : State) : (formBlinds s).eeprom = s.eeprom := rfl
@[simp] theorem formBlinds_journal (s : State) : (formBlinds s).journal = s.journal := rfl
@[simp] theorem formBlinds_statusSeq (s : State) : (formBlinds s).statusSeq = s.statusSeq := rfl
@[simp] theorem formBlinds_freeUsed (s : State) : (formBlinds s).freeUsed = s.freeUsed := rfl
@[simp] theorem formBlinds_pending (s : State) : (formBlinds s).pending = s.pending := rfl

/-! ### `countRefusal` -/

@[simp] theorem countRefusal_phase (s : State) : (countRefusal s).phase = s.phase := rfl
@[simp] theorem countRefusal_pins (s : State) : (countRefusal s).pins = s.pins := rfl
@[simp] theorem countRefusal_clock (s : State) : (countRefusal s).clock = s.clock := rfl
@[simp] theorem countRefusal_station (s : State) : (countRefusal s).station = s.station := rfl
@[simp] theorem countRefusal_listening (s : State) : (countRefusal s).listening = s.listening := rfl
@[simp] theorem countRefusal_cfg (s : State) : (countRefusal s).cfg = s.cfg := rfl
@[simp] theorem countRefusal_formatRead (s : State) : (countRefusal s).formatRead = s.formatRead := rfl
@[simp] theorem countRefusal_cal (s : State) : (countRefusal s).cal = s.cal := rfl
@[simp] theorem countRefusal_backup (s : State) : (countRefusal s).backup = s.backup := rfl
@[simp] theorem countRefusal_tt (s : State) : (countRefusal s).tt = s.tt := rfl
@[simp] theorem countRefusal_presence (s : State) : (countRefusal s).presence = s.presence := rfl
@[simp] theorem countRefusal_air (s : State) : (countRefusal s).air = s.air := rfl
@[simp] theorem countRefusal_light (s : State) : (countRefusal s).light = s.light := rfl
@[simp] theorem countRefusal_blind (s : State) : (countRefusal s).blind = s.blind := rfl
@[simp] theorem countRefusal_join (s : State) : (countRefusal s).join = s.join := rfl
@[simp] theorem countRefusal_faults (s : State) : (countRefusal s).faults = s.faults := rfl
@[simp] theorem countRefusal_bus (s : State) : (countRefusal s).bus = s.bus := rfl
@[simp] theorem countRefusal_eeprom (s : State) : (countRefusal s).eeprom = s.eeprom := rfl
@[simp] theorem countRefusal_journal (s : State) : (countRefusal s).journal = s.journal := rfl
@[simp] theorem countRefusal_statusSeq (s : State) : (countRefusal s).statusSeq = s.statusSeq := rfl
@[simp] theorem countRefusal_freeUsed (s : State) : (countRefusal s).freeUsed = s.freeUsed := rfl
@[simp] theorem countRefusal_pending (s : State) : (countRefusal s).pending = s.pending := rfl

/-! ### `writeSlots` -/

@[simp] theorem writeSlots_phase (w : List SlotWrite) (s : State) : (writeSlots w s).phase = s.phase := rfl
@[simp] theorem writeSlots_pins (w : List SlotWrite) (s : State) : (writeSlots w s).pins = s.pins := rfl
@[simp] theorem writeSlots_clock (w : List SlotWrite) (s : State) : (writeSlots w s).clock = s.clock := rfl
@[simp] theorem writeSlots_station (w : List SlotWrite) (s : State) : (writeSlots w s).station = s.station := rfl
@[simp] theorem writeSlots_listening (w : List SlotWrite) (s : State) : (writeSlots w s).listening = s.listening := rfl
@[simp] theorem writeSlots_cfg (w : List SlotWrite) (s : State) : (writeSlots w s).cfg = s.cfg := rfl
@[simp] theorem writeSlots_formatRead (w : List SlotWrite) (s : State) : (writeSlots w s).formatRead = s.formatRead := rfl
@[simp] theorem writeSlots_cal (w : List SlotWrite) (s : State) : (writeSlots w s).cal = s.cal := rfl
@[simp] theorem writeSlots_backup (w : List SlotWrite) (s : State) : (writeSlots w s).backup = s.backup := rfl
@[simp] theorem writeSlots_tt (w : List SlotWrite) (s : State) : (writeSlots w s).tt = s.tt := rfl
@[simp] theorem writeSlots_presence (w : List SlotWrite) (s : State) : (writeSlots w s).presence = s.presence := rfl
@[simp] theorem writeSlots_air (w : List SlotWrite) (s : State) : (writeSlots w s).air = s.air := rfl
@[simp] theorem writeSlots_light (w : List SlotWrite) (s : State) : (writeSlots w s).light = s.light := rfl
@[simp] theorem writeSlots_blind (w : List SlotWrite) (s : State) : (writeSlots w s).blind = s.blind := rfl
@[simp] theorem writeSlots_join (w : List SlotWrite) (s : State) : (writeSlots w s).join = s.join := rfl
@[simp] theorem writeSlots_service (w : List SlotWrite) (s : State) : (writeSlots w s).service = s.service := rfl
@[simp] theorem writeSlots_faults (w : List SlotWrite) (s : State) : (writeSlots w s).faults = s.faults := rfl
@[simp] theorem writeSlots_bus (w : List SlotWrite) (s : State) : (writeSlots w s).bus = s.bus := rfl
@[simp] theorem writeSlots_journal (w : List SlotWrite) (s : State) : (writeSlots w s).journal = s.journal := rfl
@[simp] theorem writeSlots_statusSeq (w : List SlotWrite) (s : State) : (writeSlots w s).statusSeq = s.statusSeq := rfl
@[simp] theorem writeSlots_freeUsed (w : List SlotWrite) (s : State) : (writeSlots w s).freeUsed = s.freeUsed := rfl
@[simp] theorem writeSlots_pending (w : List SlotWrite) (s : State) : (writeSlots w s).pending = s.pending := rfl

end Sys2Proof.Machine
end

