-- ==== Sys2Proof/Tests/Slice0.lean ====
section
/-! SUPPORT. Tests: what the well-formedness checks refuse, one or two steps of each command against the manual's rules and worked
sequences, and for every statement about states that meet conditions a state that meets them. -/

namespace Sys2Proof.Tests

open Sys2Proof Sys2Proof.Machine

set_option Elab.async false

/-! ### Helpers -/

/-- What a step leaves, looked at through `f`; none where it does not answer a next state. -/
def after {α : Type} (o : Host.Outcome State Fault Refusal) (f : State → α) : Option α :=
  match o with
  | .next t => some (f t)
  | _ => none

/-- A timebase value in whole seconds. -/
def sec (n : Nat) : Stamp := { sec := BitVec.ofNat 16 n, ms := 0 }

/-- A header. -/
def hdr (cls role source scope dest : Nat) : RxHeader :=
  { cls := BitVec.ofNat 2 cls, role := BitVec.ofNat 2 role, source := BitVec.ofNat 6 source,
    scope := BitVec.ofNat 2 scope, dest := BitVec.ofNat 6 dest }

/-- Bytes from numbers. -/
def bytes (l : List Nat) : List Byte := l.map (BitVec.ofNat 8)

/-- Headers of the plant's CONTROL telegrams to ALL, of the gateway's bookings to station 5, of a panel's requests to station 5, of the
neighbour's joins, of a safety order to ALL, of a service tool, and of a query to station 5. -/
def plant : RxHeader := hdr 1 2 60 3 0
def gateway : RxHeader := hdr 2 2 60 0 5
def panel : RxHeader := hdr 1 1 40 0 5
def peer (source : Nat) : RxHeader := hdr 1 0 source 1 2
def partner (source : Nat) : RxHeader := hdr 1 0 source 0 5
def fire : RxHeader := hdr 0 2 61 3 0
def tool : RxHeader := hdr 1 3 50 0 5
def asker : RxHeader := hdr 2 3 50 0 5

/-- A configuration with a door, two zones of light, a motor on façade 3 and two partitions, in air group 2. -/
def testCfg : StationConfig :=
  { StationConfig.configValues with
    doors := 1, motionZones := 1, airGroup := 2
    area := 120, volume := 420, fset := 50, fmin := 150, fmax := 900
    zones := [{ role := .board, linked := false, k := 0, minDim := 0, dimToOff := false, startLevel := 500, idleLevel := 500 },
              { role := .window, linked := true, k := 8, minDim := 150, dimToOff := false, startLevel := 500, idleLevel := 500 }]
    scenes := [configScene 0, configScene 500, { configScene 700 with et := 500, blind := some 400 }, configScene 800,
               configScene 1000, { configScene 150 with levels := [100, 150, 150, 150, 150, 150] }, configScene 1000,
               configScene 800]
    motors := [{ facade := 3, td := 60, tu := 50, glare := 700, afterHours := 0 }]
    partitions := [{ neighbour := 9, openHigh := true }, { neighbour := 12, openHigh := true }] }

def shut : Partition :=
  { raw := false, debounced := false, debounce := none, state := .closed, attempts := 0, claimTimer := none, retry := .none }

def opened (st : PartitionState) : Partition := { shut with raw := true, debounced := true, state := st }

def atRest : Motor :=
  { state := .idle, estimate := some 0, inForce := some 0, pending := none, lockPending := false, run := none,
    lastDir := some .up, lastStop := some (sec 100), count := 3, hold := none }

def clearDoor : Door := { decoder := .ready, outerTimer := none, innerTimer := none, recovery := none }

/-- A room: station 5, 2000 s after its start, on Tuesday 2031-04-08 at 10:15:00, VACANT, the door count reliable. -/
def room : State :=
  { State.reset with
    station := 5, listening := false, cfg := testCfg
    clock := { sec := 2000, ms := 0, sub := 0 }
    cal := { time := { year := 2031, month := 4, day := 8, hour := 10, minute := 15, second := 0 }, running := true,
             phase := 0, setSeq := 17, refused := 2, offTime := none }
    backup := { valid := true, lossTime := 0, lossRunning := false }
    tt := { records := [], summary := none, captured := some 60 }
    presence := { State.reset.presence with
      doors := [clearDoor], zones := [{ seen := none, counts := false }], occupancy := .vacant, recount := false
      vacancy := none, co2 := { State.reset.presence.co2 with hold := none } }
    air := { State.reset.air with
      own := { d := 50, m := 50, w := 1, mark := .none }, g := 50, ge := 900, lead := 12
      output := 56, applied := 50, rewrite := some (sec 1990) }
    light := { State.reset.light with
      zones := [{ level := 0, target := 0, fade := none }, { level := 0, target := 0, fade := none }]
      scene := some 0, source := .none, lux := { State.reset.light.lux with hold := none } }
    blind := { motors := [atRest], facades := [{ number := 3, sun := .none, sunSince := none, wind := .clear }] }
    join := { State.reset.join with partitions := [shut, shut] }
    faults := { State.reset.faults with clockStopped := false, config := false }
    bus := { State.reset.bus with lineIdle := true } }

/-- The booking 402 of the manual's Tuesday morning (section 2.8), as it became ACTIVE in an empty room. -/
def booking402 : Booking :=
  { id := 402, kind := .discussion, joined := false, noRelease := false
    start := { year := 2031, month := 4, day := 8, hour := 10, minute := 0 }
    finish := { year := 2031, month := 4, day := 8, hour := 11, minute := 30 }
    headcount := 24, weeks := 3, partner := 0, adjusted := false, state := .active, window := .running (sec 1100)
    attended := false, runout := none }

/-- The same room with the records given, and the summary they give. -/
def withRecords (l : List Booking) (s : State) : State :=
  { s with tt := { s.tt with records := l, summary := summarize l } }

/-- A room with people: OCCUPIED, N people counted. -/
def occupied (n : Nat) (s : State) : State :=
  { s with presence := { s.presence with occupancy := .occupied, n := n, h := n, vacancy := some (sec 1950) } }

def withDoor (d : Door) (s : State) : State := { s with presence := { s.presence with doors := [d] } }
def withMotor (m : Motor) (s : State) : State := { s with blind := { s.blind with motors := [m] } }
def withPartition (x : Partition) (s : State) : State := { s with join := { s.join with partitions := [x, shut] } }

/-- What is in force without power: the room with its main power absent. -/
def dark : State := { room with phase := .off }

/-- The straps of a number, an EEPROM that answers, no new image, a compaction that completes. -/
def straps (n : Nat) : StartWorld :=
  { straps := BitVec.ofNat 6 n, eepromAnswers := true, image := none, compaction := .completes }

def relation : Relation := { ownSeq := 1, partnerSeq := 4, keep := sec 1960, orphan := sec 1870, claimSeq := 7 }

def group : Group :=
  { area := 180, volume := 600, fset := 70, fmin := 210, fmax := 1140, followerFmax := 240, gn := 17, recount := false
    ownReliable := true, fOccupancy := .occupied, fFloor := 1, fCo2 := none, fReliable := true, fSession := none
    baseIn := 0, baseOut := 0, occupancy := .occupied, hc := 0, h := 17, session := none, lastRequest := 0, lastOrder := none }

/-- Joined on partition 1 with station 9, as the lead and as the follower. -/
def leading : State :=
  let s := withPartition (opened .lead) (occupied 12 room)
  { s with join := { s.join with relation := some relation, group := some group } }

def following : State :=
  let s := withPartition (opened .follow) (occupied 5 room)
  { s with join := { s.join with relation := some relation, follower := some newFollower } }

def claiming : State :=
  withPartition { opened .claiming with attempts := 1, claimTimer := some (sec 1998) } (occupied 12 room)

def blocked (r : Retry) : State := withPartition { opened .blocked with retry := r } room

/-! ### Well-formedness: what each check refuses -/

theorem test_wf_image_too_long : (StartWorld.wf { straps 5 with image := some (List.replicate 513 0) }) = false := by decide +kernel
theorem test_wf_image_fits : (Instr.powerUp { straps 5 with image := some (List.replicate 512 0) }).wf = true := by decide +kernel
theorem test_wf_payload_too_long : (Instr.demand plant (List.replicate 25 0)).wf = false := by decide
theorem test_wf_booking_id_zero : (Instr.noShowWindowExpiry 0).wf = false ∧ (Instr.runoutCapExpiry 65536).wf = false := by decide
theorem test_wf_door_three : (Instr.beamBreak 3 .outer).wf = false ∧ (Instr.doorRecovery 0).wf = false := by decide
theorem test_wf_motion_zone_five : (Instr.motionPulse 5).wf = false ∧ (Instr.motionAgeExpiry 0).wf = false := by decide
theorem test_wf_peer_63 : (Instr.peerStale 63).wf = false ∧ (Instr.peerRemove 0).wf = false := by decide
theorem test_wf_light_zone_seven : (Instr.fadeEnd 7).wf = false := by decide
theorem test_wf_motor_five : (Instr.runComplete 5).wf = false ∧ (Instr.blindHoldExpiry 0).wf = false := by decide
theorem test_wf_facade_sixteen : (Instr.sunAgeExpiry 16).wf = false ∧ (Instr.windHoldingExpiry 0).wf = false := by decide
theorem test_wf_partition_three : (Instr.partitionContactChange 3 true).wf = false ∧ (Instr.debounceExpiry 0).wf = false := by decide
theorem test_wf_rest_of_24 :
    (Instr.panelScene panel (List.replicate 24 0)).wf = false ∧ (Instr.safetySet fire (List.replicate 24 0)).wf = false := by decide
theorem test_wf_service_without_its_mark :
    (Instr.serviceMask tool (bytes [0x10])).wf = false ∧ (Instr.serviceLock tool (bytes [0x01])).wf = false
      ∧ (Instr.serviceRestart tool (bytes [0x01])).wf = false ∧ (Instr.serviceRestart tool []).wf = false := by decide
theorem test_wf_pages : (Instr.queryBookings asker 16).wf = false ∧ (Instr.queryPeers asker 8).wf = false := by decide
theorem test_wf_known_item_is_not_unknown :
    (Instr.queryUnknownItem asker 0 0).wf = false ∧ (Instr.queryUnknownItem asker 1 15).wf = false
      ∧ (Instr.queryUnknownItem asker 1 16).wf = true ∧ (Instr.queryUnknownItem asker 2 8).wf = true
      ∧ (Instr.queryUnknownItem asker 6 0).wf = true := by decide

/-! ### Starts, power and reset (R15, R180 to R184) -/

/-- R182, R166: the straps give the number, R6 and R8: with the backup domain lost the calendar is STOPPED. -/
theorem test_powerUp_lost_backup :
    after (exec (.powerUp (straps 41)) { dark with backup := { dark.backup with valid := false } })
      (fun t => (t.station, t.listening, t.faults.clockStopped, t.faults.unnumbered)) = some (41, true, true, false) := by decide +kernel
/-- Section 1.9: the off-time of a holiday weekend is 393 310 s, reported as 6555 MINUTES. -/
theorem test_powerUp_off_time :
    after (exec (.powerUp (straps 63)) { dark with
      cal := { dark.cal with time := { year := 2031, month := 4, day := 7, hour := 7, minute := 45, second := 10 } }
      backup := { valid := true, lossRunning := true,
                  lossTime := instantOf { year := 2031, month := 4, day := 2, hour := 18, minute := 30, second := 0 } } })
      (fun t => (t.cal.offTime, offTimeReport t.cal.offTime, t.cal.running, t.station, t.faults.unnumbered))
      = some (some 393310, (2, 6555), true, 0, true) := by decide +kernel
theorem test_powerLoss :
    after (exec .powerLoss room) (fun t => (decide (t.phase = .off), t.backup.lossTime, t.backup.valid))
      = some (true, instantOf room.cal.time, true) := by decide +kernel
theorem test_pinResetAssert :
    after (exec .pinResetAssert room) (fun t => (decide (t.phase = .held), t.pins.resetAsserted)) = some (true, true) := by decide +kernel
theorem test_pinResetRelease :
    after (exec (.pinResetRelease (straps 5)) { room with phase := .held, pins := { room.pins with resetAsserted := true } })
      (fun t => (decide (t.phase = .running), t.pins.resetAsserted, t.cal.time.minute, t.tt.captured)) = some (true, false, 15, none) := by
  decide +kernel
theorem test_deferredResetEffect :
    after (exec .deferredResetEffect { room with phase := .compacting [] [] true }) (fun t => decide (t.phase = .held)) = some true := by
  decide +kernel
theorem test_backupSupplyLoss : after (exec .backupSupplyLoss dark) (fun t => t.backup.valid) = some false := by decide +kernel
/-- R72: the first DEMAND after a start carries sequence 0; R79: no CAPACITY was heard. The DEMAND is D 50, M 50, headcount 0, w 1,
VACANT, the CO2 and CAPACITY-DEFAULT marks of the faults held, lead 0 (R193). -/
theorem test_listenInEnd :
    after (exec .listenInEnd { room with listening := true, clock := { sec := 20, ms := 0, sub := 0 } })
      (fun t => (t.listening, t.faults.capacityDefault, t.bus.control.map (fun e => (e.telegram.kind, e.telegram.payload))))
      = some (false, true, [(0x08, bytes [0, 50, 0, 50, 0, 0, 1, 1, 0x20, 0, 0])]) := by decide +kernel

/-! ### Calendar (section 1) -/

/-- Section 1.10: 2100 is no leap year. -/
theorem test_calendarAdvance_2100 :
    after (exec .calendarAdvance { room with cal := { room.cal with
      phase := 3840, time := { year := 2100, month := 2, day := 28, hour := 23, minute := 59, second := 59 } } })
      (fun t => (t.cal.time, calWeekday t.cal))
      = some ({ year := 2100, month := 3, day := 1, hour := 0, minute := 0, second := 0 }, 0) := by decide +kernel
theorem test_calendarAdvance_2096 :
    after (exec .calendarAdvance { room with cal := { room.cal with
      phase := 3840, time := { year := 2096, month := 2, day := 28, hour := 23, minute := 59, second := 59 } } })
      (fun t => (t.cal.time.month, t.cal.time.day, calWeekday t.cal)) = some (2, 29, 2) := by decide +kernel
/-- Section 1.8: 30 February is refused and counted. -/
theorem test_time_30_february :
    after (exec (.time plant (bytes [31, 2, 30, 4, 0, 0, 0])) room) (fun t => (t.cal.refused, t.cal.setSeq, t.cal.time))
      = some (3, 17, room.cal.time) := by decide +kernel
/-- Section 1.8: an hour ahead with the STEP mark is set. -/
theorem test_time_step :
    after (exec (.time plant (bytes [31, 4, 8, 11, 15, 1, 1])) room) (fun t => (t.cal.refused, t.cal.setSeq, t.cal.time.hour))
      = some (2, 18, 11) := by decide +kernel

/-! ### Bookings (sections 2.8 and 10.4) -/

/-- PUT 403 of section 2.8: the end is earlier than the start, so it becomes start plus 120 minutes, ADJUSTED; its entry is handed to
the journal. -/
theorem test_bookingPut_adjusted :
    after (exec (.bookingPut gateway (bytes [1, 0x93, 3, 0, 31, 4, 8, 12, 0, 11, 0, 0, 40, 0xFF, 0])) room)
      (fun t => (t.tt.records.map (fun b => (b.id, b.finish.hour, b.finish.minute, b.adjusted)), t.journal.queue.length, t.bus.routine.length))
      = some ([(403, 14, 0, true)], 1, 0) := by decide +kernel
/-- R22, R27: a PUT whose end is past is answered REFUSED-PAST at once: id, status 6, detail NONE, and 0 for what does not apply. -/
theorem test_bookingPut_past :
    after (exec (.bookingPut gateway (bytes [1, 0x91, 0, 0, 31, 4, 8, 8, 15, 9, 45, 0, 80, 0xFF, 0])) room)
      (fun t => (t.tt.records.length, t.bus.routine.map (fun e => (e.telegram.dest, e.telegram.payload))))
      = some (0, [(60, bytes ([1, 0x91, 6, 0, 0, 0] ++ List.replicate 17 0))]) := by decide +kernel
/-- R26, R27: a DROP of an id not held is answered UNKNOWN-ID; the captured source stays (R28). -/
theorem test_bookingDrop_unknown :
    after (exec (.bookingDrop { gateway with source := 30 } (bytes [1, 0x92])) room)
      (fun t => (t.tt.captured, t.bus.routine.map (fun e => e.telegram.payload)))
      = some (some 60, [bytes ([1, 0x92, 5, 0, 0, 0] ++ List.replicate 17 0)]) := by decide +kernel
theorem test_bookingDrop_held :
    after (exec (.bookingDrop gateway (bytes [1, 0x92])) (withRecords [booking402] room))
      (fun t => (t.tt.records.length, t.tt.summary.isNone, t.journal.plan.map (fun w => [w.page, w.slot]), t.journal.plan.map (fun w => w.bytes.take 3)))
      = some (0, true, [[1, 0], [1, 1]], [bytes [0, 0, 1], bytes [0xC0, 1, 0x92]]) := by decide +kernel
/-- Section 2.8 at 10:15: 402 recurs on 2031-04-15 with 2 weeks left, and a NOSHOW notice goes to station 60. -/
theorem test_noShowWindowExpiry :
    after (exec (.noShowWindowExpiry 402) (withRecords [booking402] room))
      (fun t => (t.tt.records.map (fun b => (b.state, b.start.day, b.weeks)), t.tt.summary.isNone,
        t.bus.routine.map (fun e => (e.telegram.dest, e.telegram.payload))))
      = some ([(.pending, 15, 2)], true, [(60, bytes [0, 1, 0x92, 31, 4, 8, 10, 0, 1])]) := by decide +kernel
/-- R43, log entry 33: an expiry that a restart left in the queue finds the window DEFERRED, and no demand or grant is formed. -/
theorem test_noShowWindowExpiry_awaited :
    after (exec (.noShowWindowExpiry 402)
      (let s := withRecords [{ booking402 with window := .deferred }] room
       { s with imageWait := true, air := { s.air with g := 777, lead := 7 } }))
      (fun t => (t.tt.records, t.air.g, t.air.lead)) = some ([{ booking402 with window := .deferred }], 777, 7) := by decide +kernel
/-- R34, R38: the cap ends a run-out with an OVERRUN notice. -/
theorem test_runoutCapExpiry :
    after (exec (.runoutCapExpiry 402)
      (withRecords [{ booking402 with state := .runout, window := .none, runout := some (sec 200), weeks := 0 }] (occupied 3 room)))
      (fun t => (t.tt.records, t.bus.routine.map (fun e => e.telegram.payload)))
      = some ([], [bytes [1, 1, 0x92, 31, 4, 8, 10, 0, 1]]) := by decide +kernel

/-- The write queue with a DROP of 402 whose answer waits, its slot write in progress. -/
def writing : State :=
  { room with journal := { room.journal with
      page := 1, slot := 5, seq := 1, since := some (sec 2000)
      queue := [{ body := .drop 402, pairFirst := false,
                  answer := some { dest := 60, id := 402, status := .dropped, evicted := 0, record := none } }]
      plan := [{ page := 1, slot := 5, bytes := slotOf (bytes [0xC0, 1, 0x92, 0, 0, 0, 0]) }] } }

/-- R185, R186: the slot lies at 512 + 5 × 8; the answer goes out with RETAINED. -/
theorem test_slotWriteComplete :
    after (exec .slotWriteComplete writing)
      (fun t => (memReadList t.eeprom.cells 552 3, t.journal.queue.length, t.journal.slot,
        t.bus.routine.map (fun e => e.telegram.payload.take 4)))
      = some (bytes [0xC0, 1, 0x92], 0, 6, [bytes [1, 0x92, 4, 1]]) := by decide +kernel
/-- The items of a configuration image by their addresses in R183: one door, one motion zone, a room of 120 m2 and 420 m3 with flows of 50,
150 and 900, air group 2 and one light zone, everything else 0. -/
def imageBody : List Byte :=
  bytes ([1, 1, 0x0B, 90, 90, 120, 120, 15, 1, 1, 10, 1, 164, 0, 120, 1, 164, 5, 10, 0, 50, 0, 150, 3, 132, 3, 232, 2, 0, 0, 0, 0, 0, 1, 0]
    ++ List.replicate 230 0)

theorem test_imageItems :
    (imageItems imageBody).map (fun c => [c.doors, c.motionZones, c.noShowW, c.volume, c.fmin, c.fmax, c.airGroup, c.zones.length])
      = some [1, 1, 15, 420, 150, 900, 2, 1] := by decide +kernel
/-- R181: the image reading of a restart waited for this write; a blank image gives the CONFIG values, which configure no door. -/
theorem test_slotWriteComplete_ends_wait :
    after (exec .slotWriteComplete { writing with imageWait := true })
      (fun t => (t.imageWait, t.faults.config, t.presence.doors.length, t.cfg.airGroup)) = some (false, true, 0, 1) := by decide +kernel
/-- R45: a beam found BROKEN at a start has its fault timer run from the start instant. -/
theorem test_startDoors :
    (startDoors stampZero testCfg { room.pins with door1Outer := true }).map (fun d => d.outerTimer) = [some (sec 0)] := by decide +kernel
/-- R187: the answer goes out with NOT-RETAINED, and the page in use is closed. -/
theorem test_slotWriteFail :
    after (exec .slotWriteFail writing)
      (fun t => (t.journal.closed, t.journal.queue.length, t.faults.journalFull, t.bus.routine.map (fun e => e.telegram.payload.take 4)))
      = some (true, 0, false, [bytes [1, 0x92, 4, 2]]) := by decide +kernel

/-! ### Presence (sections 3.11 and 3.13) -/

/-- Section 3.11 at 100.0 and 100.8: an outer break, then an inner break: IN. -/
theorem test_beamBreak_waits :
    after (exec (.beamBreak 1 .outer) room) (fun t => (t.presence.doors.map (fun d => d.decoder), t.presence.occupancy, t.pins.door1Outer))
      = some ([.outerWait (sec 2000)], .vacant, true) := by decide +kernel
theorem test_beamBreak_in :
    after (exec (.beamBreak 1 .inner) (withDoor { clearDoor with decoder := .outerWait (sec 1999) } room))
      (fun t => (t.presence.occupancy, t.presence.n, t.presence.h, t.presence.doors.map (fun d => d.decoder)))
      = some (.occupied, 1, 1, [.ready]) := by decide +kernel
theorem test_beamClear :
    after (exec (.beamClear 1 .outer) (withDoor { clearDoor with outerTimer := some (sec 1990) }
      { room with pins := { room.pins with door1Outer := true } }))
      (fun t => (t.presence.doors.map (fun d => d.outerTimer), t.pins.door1Outer)) = some ([none], false) := by decide +kernel
/-- Section 3.11 at 131.5. -/
theorem test_passLimitExpiry :
    after (exec (.passLimitExpiry 1) (withDoor { clearDoor with decoder := .outerWait { sec := 1998, ms := 500 } } room))
      (fun t => (t.presence.halfPasses, t.presence.doors.map (fun d => d.decoder))) = some (1, [.ready]) := by decide +kernel
/-- Section 3.13 at 5060: the door count is no longer trusted, and H falls back on CO2. -/
theorem test_doorFaultTimeout :
    after (exec (.doorFaultTimeout 1 .outer)
      (let s := occupied 81 (withDoor { clearDoor with decoder := .outerWait (sec 1940), outerTimer := some (sec 1940) } room)
       { s with presence := { s.presence with co2 := { s.presence.co2 with value := 1150, hc := 79, valid := true, hold := some (sec 1992) } } }))
      (fun t => (t.faults.door1, t.presence.recount, t.presence.n, t.presence.h)) = some (true, true, 81, 79) := by decide +kernel
/-- Section 3.13 at 5410: the fault clears, RECOUNT stays. -/
theorem test_doorRecovery :
    after (exec (.doorRecovery 1)
      (let s := occupied 81 (withDoor { clearDoor with decoder := .fault, recovery := some (sec 1990) } room)
       { s with presence := { s.presence with recount := true }, faults := { s.faults with door1 := true } }))
      (fun t => (t.faults.door1, t.presence.recount, t.presence.doors.map (fun d => d.decoder))) = some (false, true, [.ready]) := by
  decide +kernel
/-- Section 3.11 at 300.0: motion in a VACATING room brings it back to OCCUPIED with N = 1 and one correction. -/
theorem test_motionPulse_vacating :
    after (exec (.motionPulse 1) { room with presence := { room.presence with occupancy := .vacating, vacating := some (sec 1960) } })
      (fun t => (t.presence.occupancy, t.presence.n, t.presence.corrections, t.presence.vacating, t.presence.h))
      = some (.occupied, 1, 1, none, 1) := by decide +kernel
/-- Section 3.11 at 440.0: a stamp 300 s old stops counting. -/
theorem test_motionAgeExpiry :
    after (exec (.motionAgeExpiry 1) { room with presence := { room.presence with
      occupancy := .vacating, vacating := some (sec 1960), h := 1, zones := [{ seen := some (sec 1700), counts := true }] } })
      (fun t => (t.presence.h, t.presence.zones.map (fun z => z.counts))) = some (0, [false]) := by decide +kernel
/-- R50: 1150 ppm with Cout 420 and an applied grant of 545 l/s gives 79. -/
theorem test_co2Sample :
    after (exec (.co2Sample (some 1150)) (let s := occupied 3 room; { s with
      air := { s.air with applied := 545 }, presence := { s.presence with recount := true, h := 0 } }))
      (fun t => (t.presence.co2.hc, t.presence.h)) = some (79, 79) := by decide +kernel
theorem test_co2Sample_discarded :
    after (exec (.co2Sample (some 5001)) room) (fun t => (t.presence.discardedCo2, t.presence.co2.valid)) = some (1, false) := by
  decide +kernel
theorem test_co2HoldExpiry :
    after (exec .co2HoldExpiry { room with presence := { room.presence with
      co2 := { room.presence.co2 with valid := true, hold := some (sec 1940) } } })
      (fun t => (t.faults.co2, t.presence.co2.valid)) = some (true, false) := by decide +kernel
theorem test_vacancyTimerExpiry :
    after (exec .vacancyTimerExpiry (let s := occupied 3 room; { s with presence := { s.presence with vacancy := some (sec 1400) } }))
      (fun t => (t.presence.occupancy, t.presence.n, t.presence.corrections)) = some (.vacant, 0, 1) := by decide +kernel
/-- Section 3.11 at 450.7: the VACATING hold ends the occupancy, uncounted. -/
theorem test_vacatingHoldExpiry :
    after (exec .vacatingHoldExpiry { room with presence := { room.presence with
      occupancy := .vacating, vacating := some (sec 1880), h := 1 } })
      (fun t => (t.presence.occupancy, t.presence.h, t.presence.corrections)) = some (.vacant, 0, 0) := by decide +kernel

/-! ### Air (sections 4.7 and 4.11) -/

/-- Station 14's room of section 4.7: a lecture ACTIVE with 45 people at 1150 ppm, its three peers, 1400 l/s of capacity. -/
def peerEntry (station d m w : Nat) (stale : Bool) (since : Stamp) : Peer :=
  { station := station, content := { d := d, m := m, headcount := 0, w := w, occupancy := .occupied, marks := 0, lead := 0 }
    seq := 1, since := since, stale := stale }

def theatre : State :=
  let s := withRecords [{ booking402 with kind := .lecture, window := .none, attended := true }] (occupied 45 room)
  { s with
    station := 14
    presence := { s.presence with h := 45, co2 := { s.presence.co2 with value := 1150, hc := 79, valid := true } }
    air := { s.air with
      own := { d := 615, m := 150, w := 3, mark := .none }, g := 545, ge := 561, lead := 19
      last := some { d := 615, m := 150, headcount := 45, w := 3, occupancy := .occupied, marks := 0, lead := 0 }, seq := 1
      peers := [peerEntry 11 700 150 3 false (sec 1990), peerEntry 16 300 100 1 false (sec 1990), peerEntry 19 260 80 3 true (sec 1700)]
      capacity := some { flow := 1400, running := true, since := sec 1990 }
      output := 606, applied := 545, rewrite := some (sec 1980), refresh := some (sec 1980) } }

/-- The first table of section 4.7, and the what-if grant and lead below it. -/
theorem test_demand_row_and_grant :
    (demandRow theatre, grantOf theatre, damperCommand 545 900, leadMinutes 420 561) = ({ d := 615, m := 150, w := 3, mark := .none }, 545, 606, 19) := by
  decide +kernel
/-- Section 4.7 at 4012: peer 19 is removed, G 579, command 643. -/
theorem test_peerRemove :
    after (exec (.peerRemove 19) theatre) (fun t => (t.air.peers.map (fun p => p.station), t.air.g, t.air.output, t.air.applied))
      = some ([11, 16], 579, 643, 579) := by decide +kernel

/-- The theatre after 4012. -/
def theatre2 : State :=
  { theatre with air := { theatre.air with peers := theatre.air.peers.take 2, g := 579, output := 643, applied := 579 } }

/-- Section 4.7 at 4020: the peer's D becomes 310; G 578, but the command 642 is within 4 of the output. -/
theorem test_demand :
    after (exec (.demand (peer 16) (bytes [1, 54, 0, 100, 0, 0, 1, 2, 0, 0, 2])) theatre2)
      (fun t => (t.air.g, t.air.output, t.air.applied)) = some (578, 643, 579) := by decide +kernel
/-- Section 4.7 at 4050: case 3, the whole demand. -/
theorem test_capacity :
    after (exec (.capacity plant (bytes [0x07, 0xD0, 0])) theatre2) (fun t => (t.air.g, t.air.output, t.air.applied))
      = some (615, 683, 615) := by decide +kernel
/-- R76: a STALE peer counts at its minimum, so its 150 l/s of excess are shared. -/
theorem test_peerStale :
    after (exec (.peerStale 11) { theatre2 with air := { theatre2.air with peers := [peerEntry 11 700 150 3 false (sec 1910)] } })
      (fun t => (t.air.peers.map (fun p => p.stale), t.air.g)) = some ([true], 615) := by decide +kernel
/-- R79: at 120 s the default holds again; a default of 0 means no limit. -/
theorem test_capacityAgeExpiry :
    after (exec .capacityAgeExpiry { theatre2 with air := { theatre2.air with capacity := some { flow := 1400, running := true, since := sec 1880 } } })
      (fun t => (t.air.capacity.isNone, t.faults.capacityDefault, t.air.g)) = some (true, true, 615) := by decide +kernel
/-- R71: an unchanged content goes out with the same sequence. -/
theorem test_demandRefreshExpiry :
    after (exec .demandRefreshExpiry { theatre with air := { theatre.air with refresh := some (sec 1970) } })
      (fun t => (t.air.seq, t.air.refresh, t.bus.control.map (fun e => e.telegram.payload)))
      = some (1, some (sec 2000), [bytes [2, 103, 0, 150, 0, 45, 3, 2, 0, 0, 1]]) := by decide +kernel
/-- Section 4.7 at 4042: the 30 s rewrite takes the command 642. -/
theorem test_damperRefreshExpiry :
    after (exec .damperRefreshExpiry { theatre2 with air := { theatre2.air with g := 578, rewrite := some (sec 1970) } })
      (fun t => (t.air.output, t.air.applied)) = some (642, 578) := by decide +kernel

/-! ### Light (sections 5.9 and 5.10) -/

/-- The window zone of section 5.9 under LECTURE: level 700, Et 500, k 8, minimum 150, and a lux in use. -/
def window (level : Nat) (lu : Option Nat) : State :=
  { room with light := { room.light with
      scene := some 2, source := .session
      zones := [{ level := 700, target := 700, fade := none }, { level := level, target := level, fade := none }]
      lux := { value := lu.getD 0, arrived := sec 1990, valid := lu.isSome, hold := some (sec 1990), lu := lu } } }

def targets (t : State) : List Nat := t.light.zones.map (fun z => z.target)

/-- The first rows of section 5.9. -/
theorem test_luxSample_600 : after (exec (.luxSample (some 600)) (window 700 none)) targets = some [700, 280] := by decide +kernel
theorem test_luxSample_band :
    after (exec (.luxSample (some 619)) (window 280 (some 600))) targets = some [700, 280]
      ∧ after (exec (.luxSample (some 620)) (window 280 (some 600))) targets = some [700, 266]
      ∧ after (exec (.luxSample (some 950)) (window 266 (some 620))) targets = some [700, 150] := by decide +kernel
theorem test_luxHoldExpiry :
    after (exec .luxHoldExpiry (window 686 (some 20))) (fun t => (targets t, t.faults.lux)) = some ([700, 700], true) := by decide +kernel
/-- R105: the quotient is rounded toward zero: 532 − 88 = 444. -/
theorem test_fadeLevel : fadeLevel 700 280 1200 3000 = 532 ∧ fadeLevel 532 266 1000 3000 = 444 := by decide
theorem test_fadeEnd :
    after (exec (.fadeEnd 2) { room with light := { room.light with
      zones := [{ level := 0, target := 0, fade := none },
                { level := 700, target := 280, fade := some { start := 700, since := sec 1997, len := 3000 } }] } })
      (fun t => t.light.zones.map (fun z => (z.level, z.fade.isNone))) = some [(0, true), (280, true)] := by decide +kernel
/-- Section 5.10 at 10:20 and 10:21: SCREENING by the panel, then the role BOARD a step of 200 up from 100. -/
theorem test_panelScene :
    after (exec (.panelScene panel (bytes [5])) (withRecords [{ booking402 with window := .none }] (occupied 3 room)))
      (fun t => (targets t, t.light.scene, t.light.source, (t.light.hold.bind (fun h => h.recorded)).map (fun r => [r.1, r.2])))
      = some ([100, 150], some 5, .panel, some [402, 5]) := by decide +kernel
theorem test_panelLevel :
    after (exec (.panelLevel panel (bytes [1, 0, 1, 0, 200])) (let s := occupied 3 room; { s with light := { s.light with
      scene := some 5, source := .panel
      zones := [{ level := 100, target := 100, fade := none }, { level := 150, target := 150, fade := none }]
      hold := some { scene := some 5, overrides := [none, none, none, none, none, none], recorded := none } } }))
      targets = some [300, 150] := by decide +kernel
theorem test_panelBlind :
    after (exec (.panelBlind panel (bytes [1, 1, 44])) (occupied 3 room))
      (fun t => t.blind.motors.map (fun m => (m.state, m.run.map (fun r => (r.target, r.len))))) = some [(.movingDown, some (300, 18000))] := by
  decide +kernel
theorem test_panelRelease :
    after (exec (.panelRelease panel []) (withMotor { atRest with hold := some { position := 300, since := sec 1990 } } (occupied 3 room)))
      (fun t => (t.light.hold.isNone, t.blind.motors.map (fun m => m.hold.isNone))) = some (true, [true]) := by decide +kernel

/-! ### Blinds (sections 6.9 and 6.10) -/

/-- Motor 1 of section 6.9 in its run down to 700, begun 25 s ago. -/
def runningDown : Motor :=
  { atRest with
    state := .movingDown, inForce := some 700
    run := some { dir := .down, start := some 0, since := sec 1975, len := 42000, kind := .normal, target := 700 } }

def motorView (t : State) : List (MotorState × Option Nat × Nat) := t.blind.motors.map (fun m => (m.state, m.estimate, m.count.toNat))

/-- Section 6.9 at 1025.000: the wind stops the run at 416, the count steps, and the motor waits in PAUSE. -/
theorem test_wind_on :
    after (exec (.wind (hdr 1 2 60 2 3) (bytes [1])) (withMotor runningDown (occupied 3 room)))
      (fun t => (motorView t, t.blind.facades.map (fun f => f.wind))) = some ([(.pause, some 416, 4)], [.on]) := by decide +kernel
/-- Section 6.9 at 1025.500: the locked run up from 416 lasts 25 800 ms. -/
theorem test_pauseEnd_locked :
    after (exec (.pauseEnd 1) (withMotor { atRest with
      state := .pause, estimate := some 416, lockPending := true, pending := some 0, lastDir := some .down
      lastStop := some { sec := 1999, ms := 500 } } room))
      (fun t => t.blind.motors.map (fun m => (m.state, m.run.map (fun r => r.len)))) = some [(.locked, some 25800)] := by decide +kernel
theorem test_lockedRunComplete :
    after (exec (.lockedRunComplete 1) (withMotor { atRest with
      state := .locked, estimate := some 416
      run := some { dir := .up, start := some 416, since := { sec := 1974, ms := 200 }, len := 25800, kind := .endStop, target := 0 } } room))
      motorView = some [(.locked, some 0, 0)] := by decide +kernel
/-- Section 6.9 at 1900.000: the lock clears and the panel hold sends the blind to 300 in 18 000 ms. -/
theorem test_windHoldingExpiry :
    after (exec (.windHoldingExpiry 3)
      (let s := withMotor { atRest with state := .locked, hold := some { position := 300, since := sec 1140 }, count := 0 } (occupied 3 room)
       { s with blind := { s.blind with facades := [{ number := 3, sun := .high, sunSince := some (sec 1900), wind := .holding (sec 1400) }] } }))
      (fun t => t.blind.motors.map (fun m => (m.state, m.run.map (fun r => r.len)))) = some [(.movingDown, some 18000)] := by decide +kernel
/-- Section 6.9 at 1918.000: the run completes at 300, count 1. -/
theorem test_runComplete :
    after (exec (.runComplete 1) (withMotor { atRest with
      state := .movingDown, count := 0
      run := some { dir := .down, start := some 0, since := sec 1982, len := 18000, kind := .normal, target := 300 } } room))
      motorView = some [(.idle, some 300, 1)] := by decide +kernel
/-- Section 6.9 at 2840.000: the panel hold ends and glare sends the blind to 700 in 24 000 ms. -/
theorem test_blindHoldExpiry :
    after (exec (.blindHoldExpiry 1)
      (let s := withMotor { atRest with estimate := some 300, inForce := some 300, hold := some { position := 300, since := sec 200 } }
         (occupied 3 (window 700 none))
       { s with blind := { s.blind with facades := [{ number := 3, sun := .high, sunSince := some (sec 1900), wind := .clear }] } }))
      (fun t => t.blind.motors.map (fun m => (m.state, m.run.map (fun r => (r.target, r.len))))) = some [(.movingDown, some (700, 24000))] := by
  decide +kernel
/-- Section 6.10: referencing completes at 0 and the pending move to 250 waits in PAUSE. -/
theorem test_referencingComplete :
    after (exec (.referencingComplete 1) (withMotor { atRest with
      state := .referencing, estimate := some 550, pending := some 250, count := 20
      run := some { dir := .up, start := some 550, since := { sec := 1945, ms := 0 }, len := 55000, kind := .referencing, target := 0 } } room))
      motorView = some [(.pause, some 0, 0)] := by decide +kernel
/-- R118, section 6.10: with twenty partial moves made, a target of 250 from 550 brings a referencing run of 1100 thousandths up. -/
theorem test_referencing_due :
    (let m := takePosition (sec 2000) { facade := 4, td := 40, tu := 36, glare := 0, afterHours := 0 } 250
       { atRest with estimate := some 550, count := 20, lastDir := some .down }
     (m.state, m.pending, m.run.map (fun r => r.len))) = (.referencing, some 250, some 39600) := by decide +kernel
theorem test_sun :
    after (exec (.sun (hdr 2 2 60 2 3) (bytes [2])) (occupied 3 room))
      (fun t => (t.blind.facades.map (fun f => f.sun), t.blind.motors.map (fun m => m.inForce))) = some ([.high], [some 700]) := by
  decide +kernel
theorem test_sun_bad_level :
    after (exec (.sun (hdr 2 2 60 2 3) (bytes [3])) room) (fun t => (t.bus.unusable, t.blind.facades.map (fun f => f.sun))) = some (1, [.none]) := by
  decide +kernel
theorem test_sunAgeExpiry :
    after (exec (.sunAgeExpiry 3) { room with blind := { room.blind with
      facades := [{ number := 3, sun := .high, sunSince := some (sec 1100), wind := .clear }] } })
      (fun t => t.blind.facades.map (fun f => f.sun)) = some [.none] := by decide +kernel

/-! ### Joins (section 7.9) -/

/-- Section 7.9 at 0.0: the queue is held while the wall moves. -/
theorem test_partitionContactChange :
    after (exec (.partitionContactChange 1 true) room)
      (fun t => (t.join.partitions.map (fun x => (x.raw, x.debounce)), t.presence.held))
      = some ([(true, some (sec 2000)), (false, none)], true) := by decide +kernel
/-- Section 7.9 at 5.0: a free station claims with sequence 1. -/
theorem test_debounceExpiry :
    after (exec (.debounceExpiry 1) (withPartition { shut with raw := true, debounce := some (sec 1995) } room))
      (fun t => (t.join.partitions.map (fun x => (x.state, x.attempts)), t.bus.control.map (fun e => (e.telegram.kind, e.telegram.dest, e.telegram.payload))))
      = some ([(.claiming, 1), (.closed, 0)], [(0x14, 9, bytes [1])]) := by decide +kernel
theorem test_claimTimerExpiry :
    after (exec (.claimTimerExpiry 1) claiming) (fun t => t.join.partitions.map (fun x => (x.state, x.attempts)))
      = some [(.claiming, 2), (.closed, 0)] := by decide +kernel
theorem test_retryTimerExpiry :
    after (exec (.retryTimerExpiry 1) (blocked (.timed (sec 1940)))) (fun t => t.join.partitions.map (fun x => x.state))
      = some [.claiming, .closed] := by decide +kernel
/-- Section 7.9 at 5.1: the higher number follows: by R137 the ACCEPT, the DEMAND of the new role, and the first JOIN-STATE. At 5.2
the lower number ignores the crossing claim. -/
theorem test_joinClaim_follows :
    after (exec (.joinClaim (partner 3) (bytes [1])) { claiming with cfg := { testCfg with partitions := [{ neighbour := 3, openHigh := true }] } })
      (fun t => (t.join.partitions.map (fun x => x.state), t.join.relation.map (fun r => r.claimSeq), t.bus.control.map (fun e => e.telegram.kind)))
      = some ([.follow, .closed], some 1, [0x15, 0x08, 0x19]) := by decide +kernel
theorem test_joinClaim_crossing :
    after (exec (.joinClaim (partner 9) (bytes [1])) claiming) (fun t => t.join.partitions.map (fun x => x.state)) = some [.claiming, .closed] := by
  decide +kernel
/-- Section 7.9 at 5.3: the sums, GN 12 + 5 and the group H of the two counts. -/
theorem test_joinAccept :
    after (exec (.joinAccept (partner 9) (bytes [1, 0, 60, 0, 180, 0, 20, 0, 60, 0, 240, 0, 5, 0, 0, 0, 0, 1])) claiming)
      (fun t => (t.join.group.map (fun g => [g.area, g.volume, g.fset, g.fmin, g.fmax, g.followerFmax, g.gn, g.h]),
        t.join.partitions.map (fun x => x.state)))
      = some (some [180, 600, 70, 210, 1140, 240, 17, 17], [.lead, .closed]) := by decide +kernel
theorem test_joinRefuse :
    after (exec (.joinRefuse (partner 9) (bytes [1])) claiming) (fun t => t.join.partitions.map (fun x => (x.state, x.retry)))
      = some [(.blocked, .timed (sec 2000)), (.closed, .none)] := by decide +kernel
/-- R139, R142: the lead is SOLO again, RECOUNT set. -/
theorem test_joinRelease :
    after (exec (.joinRelease (partner 9) []) leading)
      (fun t => (t.join.partitions.map (fun x => x.state), t.join.group.isNone, t.presence.recount)) = some ([.blocked, .closed], true, true) := by
  decide +kernel
/-- R140: the partner has not taken our content: it is composed again. -/
theorem test_joinKeep_repair :
    after (exec (.joinKeep (partner 9) (bytes [0])) following)
      (fun t => (t.join.relation.map (fun r => r.orphan), t.bus.control.map (fun e => e.telegram.kind))) = some (some (sec 2000), [0x19]) := by
  decide +kernel
/-- Section 7.9 at 400.1: two people in the follower's room: GN 19. -/
theorem test_joinState :
    after (exec (.joinState (partner 9) (bytes ([5, 1, 2, 1, 0, 2, 0, 0, 0, 0, 2] ++ List.replicate 11 0))) leading)
      (fun t => (t.join.group.map (fun g => (g.gn, g.h, g.baseIn)), t.join.relation.map (fun r => r.partnerSeq)))
      = some (some (19, 19, 2), some 5) := by decide +kernel
/-- Section 7.9 at 5.5: the share is held, and the damper follows it: 114 of 240 l/s is 475. -/
theorem test_joinOrder :
    after (exec (.joinOrder (partner 9) (bytes ([1, 0, 3, 0, 114, 2] ++ List.replicate 10 0 ++ [0, 17])))
      { following with cfg := { testCfg with fmin := 60, fmax := 240 } })
      (fun t => (t.join.follower.map (fun f => f.share), t.light.scene, t.air.output, t.air.applied)) = some (some (some 114), some 3, 475, 114) := by
  decide +kernel
theorem test_keepTimerExpiry :
    after (exec .keepTimerExpiry { following with join := { following.join with relation := some { relation with keep := sec 1970 } } })
      (fun t => t.bus.control.map (fun e => (e.telegram.kind, e.telegram.payload))) = some [(0x18, bytes [4])] := by decide +kernel
theorem test_orphanTimerExpiry :
    after (exec .orphanTimerExpiry { following with join := { following.join with relation := some { relation with orphan := sec 1880 } } })
      (fun t => (t.join.partitions.map (fun x => x.state), t.bus.control.map (fun e => e.telegram.kind)))
      = some ([.blocked, .closed], [0x17, 0x08]) := by decide +kernel

/-! ### Safety and service (section 8.5) -/

def safetySet (s : State) (air : AirMode) (evacuate : Bool) : State :=
  { s with service := { s.service with air := air, evacuate := evacuate } }

/-- Section 8.5 at 5300: EVACUATE acts on disabled blinds; the zones are at 1000 at once. -/
theorem test_safetySet_evacuate :
    after (exec (.safetySet fire (bytes [4])) { withMotor { atRest with estimate := some 700, inForce := none } room with
      service := { room.service with maskBlind := true } })
      (fun t => (t.service.evacuate, t.light.zones.map (fun z => z.level), t.blind.motors.map (fun m => m.state)))
      = some (true, [1000, 1000], [.locked]) := by decide +kernel
/-- Section 8.5 at 5400: PURGE replaces SMOKE-HOLD, EVACUATE stays, the damper is at 1000 at once. -/
theorem test_safetySet_purge :
    after (exec (.safetySet fire (bytes [2])) { safetySet room .smokeHold true with
      air := { room.air with mode := .smokeHold, output := 0, applied := 0 } })
      (fun t => (t.service.air, t.service.evacuate, t.air.output, t.air.applied)) = some (.purge, true, 1000, 900) := by decide +kernel
/-- Section 8.5 at 5900: the CLEAR empties the set, and the damper takes the command of the grant: 50 of 900 l/s is 56. -/
theorem test_safetyClear :
    after (exec (.safetyClear fire (bytes [0])) { safetySet room .purge true with
      air := { room.air with mode := .purge, output := 1000, applied := 900, g := 900, own := { d := 900, m := 900, w := 1, mark := .purge } } })
      (fun t => (t.service.air, t.service.evacuate, t.air.output)) = some (.none, false, 56) := by decide +kernel
/-- R153: a SET that names both air modes is malformed. -/
theorem test_safetySet_both :
    after (exec (.safetySet fire (bytes [3])) room) (fun t => (t.bus.malformed, t.bus.good, t.service.air)) = some (1, 1, .none) := by
  decide +kernel
/-- R153: it is malformed before its length is looked at. -/
theorem test_safetySet_both_wrong_length :
    after (exec (.safetySet fire (bytes [3, 0])) room) (fun t => (t.bus.malformed, t.bus.unusable)) = some (1, 0) := by decide +kernel
/-- R157: a wrong length counts unusable whatever the scope, here station 63. -/
theorem test_serviceRestart_wrong_length :
    after (exec (.serviceRestart { tool with dest := 63 } (bytes [0x20, 0])) room) (fun t => (t.bus.unusable, t.listening)) = some (1, false) := by
  decide +kernel
/-- R181: with a slot write in progress the restart keeps the configuration in use until the write has ended. -/
theorem test_serviceRestart_waits :
    after (exec (.serviceRestart tool (bytes [0x20])) writing) (fun t => (t.imageWait, decide (t.cfg = testCfg), t.presence.doors.length))
      = some (true, true, 1) := by decide +kernel
theorem test_serviceMask :
    after (exec (.serviceMask tool (bytes [0x09])) room) (fun t => (t.service.maskAir, t.service.maskLight, t.service.maskBlind))
      = some (false, false, true) := by decide +kernel
/-- Section 8.5 at 5500: the lock refuses the empty mask. -/
theorem test_serviceMask_locked :
    after (exec (.serviceMask tool (bytes [0x01])) { room with service := { room.service with maskBlind := true, lock := true } })
      (fun t => (t.service.maskBlind, t.service.refusals)) = some (true, 1) := by decide +kernel
theorem test_serviceLock :
    after (exec (.serviceLock tool (bytes [0x19])) { room with service := { room.service with maskBlind := true } })
      (fun t => (t.service.lock, t.service.maskBlind, t.service.refusals)) = some (true, true, 0) := by decide +kernel
/-- Section 8.5 at 6000: a restart keeps mask, lock and the damper output, and its timebase begins again. -/
theorem test_serviceRestart :
    after (exec (.serviceRestart tool (bytes [0x20])) { room with service := { room.service with maskBlind := true, lock := true, refusals := 1 } })
      (fun t => (t.listening, t.clock.sec, t.service.lock, t.service.maskBlind, t.service.refusals)) = some (true, 0, true, true, 1) := by
  decide +kernel
/-- Section 8.5, 4 s after the restart: refused and counted. -/
theorem test_serviceRestart_refused :
    after (exec (.serviceRestart tool (bytes [0x20])) { room with listening := true, clock := { sec := 4, ms := 0, sub := 0 } })
      (fun t => (t.clock.sec, t.service.refusals)) = some (4, 1) := by decide +kernel

/-! ### Queries (section 11) -/

/-- The payloads in the ROUTINE queue. -/
def reports (t : State) : List (List Byte) := t.bus.routine.map (fun e => e.telegram.payload)

/-- Both parts of STATUS by R193: Tuesday is weekday 1, RUNNING bit 3, set sequence 17, the captured source 60, both partitions CLOSED,
no fault; plant RUNNING with the default in use, which is no limit. -/
theorem test_queryStatus :
    after (exec (.queryStatus asker) room) reports
      = some [bytes [0, 0, 0x12, 31, 4, 8, 10, 15, 0, 9, 0, 17, 0, 0, 0, 0, 1, 0, 0, 60, 0, 0, 0, 0],
              bytes [0, 0, 0x22, 0, 0, 0, 0, 0, 0, 0, 0, 0, 0, 0, 0, 0, 50, 0, 50, 0, 50, 0, 0, 6]] := by decide +kernel
/-- A record of BOOKINGS by R193: DISCUSSION, ACTIVE, its window RUNNING. -/
theorem test_queryBookings :
    after (exec (.queryBookings asker 0) (withRecords [booking402] room)) reports
      = some [bytes [1, 0, 0x11, 1, 1, 0x92, 1, 2, 0x10, 31, 4, 8, 10, 0, 31, 4, 8, 11, 30, 0, 24, 3, 0]] := by decide +kernel
theorem test_queryBookings_empty : after (exec (.queryBookings asker 3) room) reports = some [bytes [1, 3, 0x11, 0]] := by decide +kernel
/-- The third peer of section 4.7, STALE, 300 s old. -/
theorem test_queryPeers :
    after (exec (.queryPeers { asker with dest := 14 } 0) theatre) (fun t => ((reports t).length, (reports t).drop 2))
      = some (3, [bytes [2, 0, 0x33, 3, 19, 1, 4, 0, 80, 3, 0, 0, 0x80, 0, 1, 1, 0x2C]]) := by decide +kernel
/-- The counts of R178 and R190 in their order; the QUERY itself is counted good first. -/
theorem test_queryCounters :
    after (exec (.queryCounters asker) { room with bus := { room.bus with good := 0x1FF }, presence := { room.presence with halfPasses := 3 } }) reports
      = some [bytes ([3, 0, 0x12, 2, 0] ++ List.replicate 14 0), bytes ([3, 0, 0x22, 0, 2, 0, 3] ++ List.replicate 14 0)] := by decide +kernel
/-- Levels, roles BOARD and WINDOW, scene 0 with source NONE (row 7), damper 56; targets; motor IDLE at 0 and three not configured. -/
theorem test_queryOutputs :
    after (exec (.queryOutputs asker) room) reports
      = some [bytes ([4, 0, 0x13] ++ List.replicate 12 0 ++ [0x40, 0xFF, 0xFF, 0x50, 7, 0, 56]),
              bytes ([4, 0, 0x23] ++ List.replicate 12 0),
              bytes [4, 0, 0x33, 1, 0, 0, 7, 0xFF, 0xFF, 7, 0xFF, 0xFF, 7, 0xFF, 0xFF]] := by decide +kernel
theorem test_queryIdentity :
    after (exec (.queryIdentity asker) room) reports = some [bytes [5, 0, 0x11, 0x0C, 0x44, 1, 0]] := by decide +kernel
theorem test_queryUnknownItem :
    after (exec (.queryUnknownItem asker 9 2) room) reports = some [bytes [0xFF, 0, 0x11, 9, 2]] := by decide +kernel

/-! ### The wing bus (sections 9.8 and 9.9) -/

def entry (kind : Nat) : QueueEntry := { telegram := { kind := kind, scope := 0, dest := 9, payload := [] }, attempts := 0, backoff := 0 }

/-- The CRC-16 of R168 over the nine digits, its known check value. -/
theorem test_crc16 : crc16 (bytes [0x31, 0x32, 0x33, 0x34, 0x35, 0x36, 0x37, 0x38, 0x39]) = 0x29B1#16 := by decide +kernel
/-- A frame too short is bad (R169). -/
theorem test_unhandledTelegram_bad :
    after (exec (.unhandledTelegram (goodChars (bytes [1, 2]))) room) (fun t => (t.bus.bad, t.bus.good)) = some (1, 0) := by decide +kernel
/-- R171: a REPORT from another room passes and is set aside; it is counted good. The header bytes are written out by R192. -/
theorem test_idleEvent_report :
    after (exec (.idleEvent (some (goodChars (bytes [0xA9, 9, 5, 3, 0xFF, 0, 0x11] ++ be2 (crc16 (bytes [0xA9, 9, 5, 3, 0xFF, 0, 0x11])).toNat)))) room)
      (fun t => (t.bus.good, t.bus.unusable, t.bus.bad)) = some (1, 0, 0) := by decide +kernel
/-- A TIME written out by R192 and R193 acts as the command TIME does: kind 01h in class CONTROL, role PLANT, station 60, scope ALL. -/
theorem test_idleEvent_time :
    after (exec (.idleEvent (some (goodChars
      (bytes [0x41, 0xBC, 0xC0, 7, 31, 2, 30, 4, 0, 0, 0] ++ be2 (crc16 (bytes [0x41, 0xBC, 0xC0, 7, 31, 2, 30, 4, 0, 0, 0])).toNat)))) room)
      (fun t => (t.bus.good, t.cal.refused)) = some (1, 3) := by decide +kernel
/-- Section 9.8, station 5 at slot 0: CONTROL, 4 + 5. -/
theorem test_idleEvent_deferral :
    after (exec (.idleEvent none) { room with bus := { room.bus with lineIdle := false, control := [entry kJoinKeep] } })
      (fun t => t.bus.deferral) = some (some { cls := .control, elapsed := 0, len := 9 }) := by decide +kernel
/-- Section 9.8, station 14 with the CONTROL yield owed: 4 + 14 + 64; station 21 with a notice: 68 + 21. -/
theorem test_deferralLength :
    deferralLength 14 { room.bus with control := [entry kDemand], yieldControl := true } .control = 82
      ∧ deferralLength 21 { room.bus with routine := [entry kSessionNotice] } .routine = 89 := by decide +kernel
theorem test_deferralExpiry :
    after (exec .deferralExpiry { room with bus := { room.bus with
      control := [entry kJoinKeep], deferral := some { cls := .control, elapsed := 9, len := 9 } } })
      (fun t => (t.bus.sending, t.bus.deferral.isNone)) = some (some .control, true) := by decide +kernel
/-- R173, R192: what goes onto the line begins with the class CONTROL and the kind 18h, the role ROOM and the own number 5, the destination
9, and the length 0; the check follows. -/
theorem test_deferralExpiry_frame :
    after (exec .deferralExpiry { room with bus := { room.bus with
      control := [entry kJoinKeep], deferral := some { cls := .control, elapsed := 9, len := 9 } } })
      (fun t => (t.bus.frame.take 4, t.bus.frame.length)) = some (bytes [0x58, 0x05, 0x09, 0x00], 6) := by decide +kernel
theorem test_transmitComplete :
    after (exec .transmitComplete { room with bus := { room.bus with lineIdle := false, control := [entry kJoinKeep], sending := some .control } })
      (fun t => (t.bus.sending, t.bus.control.length, t.bus.sent, t.bus.yieldControl)) = some (none, 0, 1, true) := by decide +kernel
/-- Section 9.9: station 30's first draw is 28, station 43's 22. -/
theorem test_collision :
    after (exec .collision { room with bus := { room.bus with lineIdle := false, lfsr := 30, control := [entry kJoinState], sending := some .control } })
      (fun t => (t.bus.collisions, t.bus.control.map (fun e => (e.attempts, e.backoff)))) = some (1, [(1, 28)])
      ∧ backoffOf (lfsrStep 43) = 22 := by decide +kernel
/-- Section 9.8: a start bit cancels station 14's deferral, which spends its yield. -/
theorem test_startBit :
    after (exec .startBit { room with bus := { room.bus with
      control := [entry kDemand], yieldControl := true, deferral := some { cls := .control, elapsed := 9, len := 82 } } })
      (fun t => (t.bus.deferral.isNone, t.bus.yieldControl, t.bus.lineIdle)) = some (true, false, false) := by decide +kernel

/-! ### Decoding -/

/-- The table gives its rows no bits, so a word spells no command. -/
theorem test_decodeTableWord : decodeTableWord 16 0x0101 = none := by decide
/-- `step` takes the front of the queue. -/
theorem test_step_front :
    after (step { dark with pending := [.backupSupplyLoss, .powerLoss] }) (fun t => (t.backup.valid, t.pending.length)) = some (false, 1) := by
  decide +kernel

/-! ### Witnesses: for every statement with hypotheses, states and operands that meet them, clause by clause -/

/-- How a concrete telegram is shown to reach its block. -/
theorem reaches_of {s : State} {kind : Nat} {h : RxHeader} {p : List Byte}
    (e : s.phase = .running ∧ s.imageWait = false ∧ s.bus.sending = none ∧ s.bus.ownFrame = false ∧ p.length ≤ 24
      ∧ verdict s { kind := kind, hdr := h, payload := p } = .passed) : Reaches s kind h p :=
  { phase := e.1, image := e.2.1, sending := e.2.2.1, ownFrame := e.2.2.2.1, fits := e.2.2.2.2.1, passed := e.2.2.2.2.2 }

/-- How a concrete JOIN telegram is shown to reach the Join Unit. -/
theorem joinReaches_of {s : State} {kind : Nat} {h : RxHeader} {pl : List Byte} {p : Nat} {x : Partition}
    (e : s.phase = .running ∧ s.imageWait = false ∧ s.bus.sending = none ∧ s.bus.ownFrame = false ∧ pl.length ≤ 24
      ∧ verdict s { kind := kind, hdr := h, payload := pl } = .passed)
    (e' : joinDeaf s = false ∧ partitionFrom s h.source.toNat = some p ∧ partitionOf s p = some x) :
    JoinReaches s kind h pl p x :=
  { reaches_of e with hears := e'.1, neighbour := e'.2.1, record := e'.2.2 }

/-- A condition on both parts of the pair an option holds. -/
theorem forall_pair {α β : Type} {o : Option (α × β)} {P : α → β → Prop} (h : ∀ x ∈ o, P x.1 x.2) :
    ∀ a b, o = some (a, b) → P a b := fun a b e => h (a, b) e

/-- Idle states, and one in which the next slot brings the full second, the end of a deferral, of a listen-in of 20 s, and of a window. -/
theorem witness_EmptyQueuePassesOneSlot :
    (room.pending = [] ∧ dark.pending = [])
    ∧ (let s := { withRecords [booking402] room with
         clock := { sec := 1999, ms := 999, sub := 71 }, cal := { room.cal with phase := 3839 }
         bus := { room.bus with deferral := some { cls := .control, elapsed := 8, len := 9 } } }
       after (step s) (fun t => [powered t, t.cal.running, t.cal.phase == 3840, t.bus.lineIdle, maySpeak t,
         t.bus.deferral == some { cls := .control, elapsed := 9, len := 9 }, t.clock.sub == 0, t.tt.records == [booking402],
         elapsed (sec 1100) (nowOf t) == t.cfg.noShowW * 60000]) = some (List.replicate 9 true))
    ∧ (let s := { withRecords [{ booking402 with state := .runout, window := .none, runout := some (sec 200) }] room with
         listening := true, clock := { sec := 1999, ms := 999, sub := 71 } }
       after (step s) (fun t => [t.phase == .running, t.listening, decide (20 ≤ t.clock.sec.toNat), t.clock.sub == 0,
         elapsed (sec 200) (nowOf t) == 1800000]) = some (List.replicate 5 true)) := by decide +kernel
theorem witness_ClockTickAdvancesOneSlot :
    let c : Clock := { sec := 65535, ms := 999, sub := 95 }
    c.ms < 1000 ∧ c.sub < 96 ∧ clockUnits c = 65536 * 1000 * 96 - 1 := by decide +kernel
/-- An EEPROM with 97 slots consumed: four pages opened, and four entries in the last. -/
def worn : List Host.Cell :=
  makeWrites (([1, 2, 3, 4].map (fun p => { page := p, slot := 0, bytes := headerSlot (BitVec.ofNat 16 p) }))
    ++ [1, 2, 3, 4].map (fun n => { page := 4, slot := n, bytes := slotOf (bytes [0xC0, 0, n, 0, 0, 0, 0]) })) []

/-- Both starts, a new image among what they find; and an EEPROM whose compaction completes, fails at its last write or still runs there. -/
theorem witness_StartSequenceRuns :
    (dark.phase = .off ∧ dark.pins.resetAsserted = false)
      ∧ (let s := { room with phase := .held, pins := { room.pins with resetAsserted := true } }
         s.phase = .held ∧ s.pins.resetAsserted = true)
      ∧ (let s := { dark with eeprom := { dark.eeprom with cells := worn } }
         s.phase = .off ∧ consumedSlots (startEeprom (straps 5) s.eeprom).cells = 97)
      ∧ consumedSlots (startEeprom (straps 5) dark.eeprom).cells ≤ 96
      ∧ ((compactionPlan [booking402]).length = 131 ∧ ((compactionPlan [booking402])[130]?).isSome = true
        ∧ (compactionWrites [booking402] 0 0).getLast?.isSome = true) := by decide +kernel
theorem witness_LossesAreRecorded :
    (powered writing = true ∧ writing.phase = .running ∧ (slotInProgress writing).isSome = true)
      ∧ ({ room with phase := .held } : State).phase = .held
      ∧ (let s := { room with phase := .compacting [booking402] [] true }
         s.phase = .compacting [booking402] [] true ∧ s.journal.plan = []) := by decide +kernel
theorem witness_ResetWaitsForCompaction :
    let w : SlotWrite := { page := 1, slot := 1, bytes := [] }
    ({ room with phase := .compacting [] [w] false } : State).phase = .compacting [] [w] false := rfl
theorem witness_BackupSupplyLossEndsValidity : dark.phase = .off ∧ dark.backup.valid = true := by decide +kernel

/-- A room at the end of its listen-in. -/
def listened : State := { room with listening := true, clock := { sec := 20, ms := 0, sub := 0 } }

/-- A free station with a retry due on its first partition and a DEFERRED window; one without a number, and one that is joined. -/
theorem witness_ListenInEnds :
    (listened.phase = .running ∧ listened.listening = true ∧ 20 ≤ listened.clock.sec.toNat ∧ listened.station ≠ 0)
    ∧ (let x : Partition := { opened .blocked with retry := .due }
       let s := withRecords [{ booking402 with window := .deferred }] (withPartition x listened)
       s.phase = .running ∧ s.listening = true ∧ 20 ≤ s.clock.sec.toNat ∧ s.station ≠ 0 ∧ isFree s = true
        ∧ partitionOf s 1 = some x ∧ x.state = .blocked ∧ x.retry = .due ∧ partitionOf s 0 = none
        ∧ s.cal.running = true ∧ s.presence.held = false
        ∧ (∀ b ∈ s.tt.records, b.state = .active ∧ b.window = .deferred))
    ∧ ({ listened with station := 0 } : State).station = 0
    ∧ isFree { leading with listening := true, clock := listened.clock } = false := by decide +kernel

/-- A second is over on a calendar that shows the time given. -/
def secondOver (t : CalTime) : State := { room with cal := { room.cal with time := t, phase := 3840 } }

theorem witness_CalendarAdvancesOneSecond :
    let s := secondOver { year := 2199, month := 12, day := 31, hour := 23, minute := 59, second := 58 }
    s.cal.running = true ∧ 3840 ≤ s.cal.phase ∧ validTime s.cal.time = true
      ∧ s.cal.time ≠ { year := 2199, month := 12, day := 31, hour := 23, minute := 59, second := 59 }
      ∧ powered s = true ∧ powered { s with phase := .off } = false := by decide +kernel

/-- The record of section 2.8 in a state, its window done. -/
def at402 (st : BookingState) : Booking := { booking402 with state := st, window := .none }

/-- The context in which the room meets an instant. -/
def meets (s : State) (now : Nat) : EvalCtx := evalCtx s now false

/-- For the rows of a record's life: the instants at which they meet. An evaluation at the start, at the lead L before it and one second
earlier, and 60 minutes and a second before it; an end in a room that reads VACANT or OCCUPIED, with a window and without; a DISABLED
record at its start and a second later, with weeks and without; the records that only stay. -/
theorem witness_recordRows :
    let start := dateInstant booking402.start
    let finish := dateInstant booking402.finish
    ((at402 .pending).state = .pending ∧ start < finish
      ∧ start ≤ (meets room start).now
      ∧ (start ≤ start - 720 + 3600 ∧ start = start - 720 + (meets room (start - 720)).lead * 60)
      ∧ start - 721 + (meets room (start - 721)).lead * 60 < start ∧ start - 3601 + 3600 < start)
    ∧ (finish ≤ (meets room finish).now ∧ ({ at402 .pending with weeks := 0 } : Booking).weeks = 0)
    ∧ (windowRunning booking402 = true ∧ windowRunning (at402 .active) = false ∧ (at402 .active).state = .active
      ∧ (meets room finish).occupancy = .vacant ∧ (meets (occupied 3 room) finish).occupancy = .occupied)
    ∧ (booking402.noRelease = false ∧ ({ booking402 with noRelease := true } : Booking).noRelease = true
      ∧ (evalCtx room start true).derivation = true ∧ (meets room start).derivation = false)
    ∧ (weekLater (at402 .disabled)).map (fun x => decide (start + 1 < dateInstant x.start)) = some true
    ∧ ((at402 .preconditioning).state = .preconditioning ∧ (at402 .runout).state = .runout ∧ (at402 .disabled).state = .disabled) := by
  decide +kernel

/-- A minute boundary, a midnight, and an advance onto no full minute. -/
theorem witness_CalendarAdvancesOneSecond_boundaries :
    ∀ x ∈ [(59, 59, 23, 0), (59, 14, 10, 0), (58, 14, 10, 59)],
      let s := secondOver { year := 2031, month := 4, day := 8, hour := x.2.2.1, minute := x.2.1, second := x.1 }
      s.phase = .running ∧ s.cal.running = true ∧ validTime s.cal.time = true
        ∧ after (exec .calendarAdvance s) (fun t => t.cal.time.second) = some x.2.2.2 := by decide +kernel
theorem witness_CalendarStopsAtEndOfRange :
    let s := secondOver { year := 2199, month := 12, day := 31, hour := 23, minute := 59, second := 59 }
    s.cal.running = true ∧ 3840 ≤ s.cal.phase
      ∧ s.cal.time = { year := 2199, month := 12, day := 31, hour := 23, minute := 59, second := 59 }
      ∧ powered s = true := by decide +kernel
theorem witness_WeekdayFollowsTheDate : validDate 2199 12 31 = true ∧ validDate 2000 2 29 = true ∧ validDate 2100 2 28 = true := by decide +kernel

/-- 10:30:00, exactly 900 s ahead; 10:30:01, over 900 s, without and with STEP; any valid time while STOPPED; and 10:00:00, exactly
900 s back. -/
theorem witness_TimeSetsTheCalendar :
    (Reaches room kTime plant (bytes [31, 4, 8, 10, 30, 0, 0])
      ∧ ∃ u, rdTime (bytes [31, 4, 8, 10, 30, 0, 0]) = some (u, false) ∧ validTime u = true
        ∧ distance (instantOf u) (instantOf room.cal.time) = 900)
    ∧ (Reaches room kTime plant (bytes [31, 4, 8, 10, 30, 1, 1])
      ∧ ∃ u, rdTime (bytes [31, 4, 8, 10, 30, 1, 1]) = some (u, true) ∧ validTime u = true)
    ∧ (Reaches { room with cal := State.reset.cal } kTime plant (bytes [199, 12, 31, 23, 59, 59, 0])
      ∧ ({ room with cal := State.reset.cal } : State).cal.running = false
      ∧ ∃ u, rdTime (bytes [199, 12, 31, 23, 59, 59, 0]) = some (u, false) ∧ validTime u = true)
    ∧ (Reaches room kTime plant (bytes [31, 4, 8, 10, 30, 1, 0])
      ∧ ∃ u, rdTime (bytes [31, 4, 8, 10, 30, 1, 0]) = some (u, false) ∧ validTime u = true ∧ room.cal.running = true
        ∧ 900 < distance (instantOf u) (instantOf room.cal.time))
    ∧ (Reaches room kTime plant (bytes [31, 4, 8, 10, 0, 0, 0])
      ∧ ∃ u, rdTime (bytes [31, 4, 8, 10, 0, 0, 0]) = some (u, false) ∧ validTime u = true
        ∧ distance (instantOf u) (instantOf room.cal.time) = 900 ∧ instantOf u < instantOf room.cal.time) :=
  ⟨⟨reaches_of (by decide +kernel), _, rfl, by decide +kernel, by decide +kernel⟩,
   ⟨reaches_of (by decide +kernel), _, rfl, by decide +kernel⟩,
   ⟨reaches_of (by decide +kernel), rfl, _, rfl, by decide +kernel⟩,
   ⟨reaches_of (by decide +kernel), _, rfl, by decide +kernel, rfl, by decide +kernel⟩,
   reaches_of (by decide +kernel), _, rfl, by decide +kernel, by decide +kernel, by decide +kernel⟩

/-- 901 s ahead without STEP, a date that does not exist, a length that differs. -/
theorem witness_TimeRefused :
    ∀ p ∈ [bytes [31, 4, 8, 10, 30, 1, 0], bytes [31, 2, 30, 4, 0, 0, 1], bytes [31, 4, 8]],
      Reaches room kTime plant p
      ∧ ∀ u st, rdTime p = some (u, st) → validTime u = false
        ∨ (room.cal.running = true ∧ st = false ∧ 900 < distance (instantOf u) (instantOf room.cal.time)) := by
  intro p hp
  have h : (room.phase = .running ∧ room.imageWait = false ∧ room.bus.sending = none ∧ room.bus.ownFrame = false ∧ p.length ≤ 24
      ∧ verdict room { kind := kTime, hdr := plant, payload := p } = .passed)
      ∧ ∀ x ∈ rdTime p, validTime x.1 = false
        ∨ (room.cal.running = true ∧ x.2 = false ∧ 900 < distance (instantOf x.1) (instantOf room.cal.time)) := by
    revert p; decide +kernel
  exact ⟨reaches_of h.1, forall_pair h.2⟩

/-- PUT 403 of section 2.8. -/
def put403 : List Byte := bytes [1, 0x93, 3, 0, 31, 4, 8, 12, 0, 11, 0, 0, 40, 0xFF, 0]

/-- A write queue of three entries, the first being written: one more makes four. -/
def writingThree : State := { writing with journal := { writing.journal with
  queue := List.replicate 3 { body := .drop 402, answer := none, pairFirst := false } } }

theorem witness_BookingsTakeEffect :
    (Reaches writingThree kBookingPut gateway put403
      ∧ ∃ p, rdPut put403 = some p ∧ putUsable p = true ∧ kindOfCode p.kind = some .screening
        ∧ (decidePut writingThree .screening p).entries ≠ []
        ∧ writingThree.faults.journalFull = false ∧ writingThree.journal.plan ≠ []
        ∧ writingThree.journal.queue.length + (decidePut writingThree .screening p).entries.length = 4)
    ∧ (Reaches (withRecords [booking402] room) kBookingDrop gateway (bytes [1, 0x92])
      ∧ rdDrop (bytes [1, 0x92]) = some 402 ∧ (decideDrop (withRecords [booking402] room).tt.records 402).entries ≠ [])
    ∧ (Reaches room kBookingDrop gateway (bytes [0xFF, 0xFF]) ∧ rdDrop (bytes [0xFF, 0xFF]) = some 65535
      ∧ (decideDrop room.tt.records 65535).entries = []) :=
  ⟨⟨reaches_of (by decide +kernel), _, rfl, by decide +kernel, rfl, by decide +kernel, by decide +kernel, by decide +kernel, by decide +kernel⟩,
   ⟨reaches_of (by decide +kernel), rfl, by decide +kernel⟩, ⟨reaches_of (by decide +kernel), rfl, by decide +kernel⟩⟩

/-- A PUT of 404, a LECTURE of 30 minutes on the day at the hour and minute given. -/
def put404 (hour minute : Nat) : List Byte := bytes [1, 0x94, 0, 0, 31, 4, 8, hour, minute, hour + 1, minute, 0, 0, 0xFF, 0]

/-- What a PUT decides in a state, where its content can be read. -/
def decided (s : State) (l : List Byte) : Option Decision :=
  (rdPut l).bind (fun p => (kindOfCode p.kind).map (fun k => decidePut s k p))

/-- The record of a PUT far ahead, within the lead of 12 minutes, and starting now; DISABLED through weeks, and in a STOPPED calendar. -/
theorem witness_BookingsTakeEffect_records :
    (∀ x ∈ [(12, 0), (10, 27), (10, 15)], Reaches room kBookingPut gateway (put404 x.1 x.2)
      ∧ (decided room (put404 x.1 x.2)).map (fun d => (d.status != .unchanged, d.record.map (fun b => (b.state, b.start.hour, b.start.minute))))
        = some (true, some (.pending, x.1, x.2)))
    ∧ (instantOf room.cal.time + 3600 < dateInstant { year := 2031, month := 4, day := 8, hour := 12, minute := 0 }
      ∧ dateInstant { year := 2031, month := 4, day := 8, hour := 10, minute := 27 } = instantOf room.cal.time + room.air.lead * 60
      ∧ dateInstant { year := 2031, month := 4, day := 8, hour := 10, minute := 15 } = instantOf room.cal.time)
    ∧ (∀ b ∈ [booking402], b.id ≠ 404 ∧ b.state ≠ .pending) := by
  refine ⟨?_, by decide +kernel, by decide +kernel⟩
  intro x hx
  have h : (room.phase = .running ∧ room.imageWait = false ∧ room.bus.sending = none ∧ room.bus.ownFrame = false ∧ (put404 x.1 x.2).length ≤ 24
      ∧ verdict room { kind := kBookingPut, hdr := gateway, payload := put404 x.1 x.2 } = .passed)
      ∧ (decided room (put404 x.1 x.2)).map (fun d => (d.status != .unchanged, d.record.map (fun b => (b.state, b.start.hour, b.start.minute))))
        = some (true, some (.pending, x.1, x.2)) := by
    revert x; decide +kernel
  exact ⟨reaches_of h.1, h.2⟩

/-- The ways of an answer: JOURNAL-FULL, a write queue of four and a fifth entry, a queue of none with a page to write on and with none. -/
theorem witness_BookingsTakeEffect_answers :
    (let d := decided room (put404 12 0)
     (d.map (fun d => d.entries.length) = some 1
      ∧ d.map (fun d => (d.entries.head?.bind (entryPlan room.journal)).isSome) = some true
      ∧ d.map (fun d => (d.entries.head?.bind (entryPlan { room.journal with page := 4, slot := 32 })).isNone) = some true))
    ∧ (room.faults.journalFull = false ∧ room.journal.queue = [] ∧ room.journal.plan = [])
    ∧ (let s := { room with faults := { room.faults with journalFull := true } }
       s.faults.journalFull = true ∧ (decided s (put404 12 0)).map (fun d => d.entries.length) = some 1)
    ∧ (let s := { writingThree with journal := { writingThree.journal with queue := (writingThree.journal.queue ++ writing.journal.queue) } }
       s.journal.queue.length + 1 = 5 ∧ (decided s (put404 12 0)).map (fun d => d.entries.length) = some 1) := by decide +kernel

/-- Contents that fail R20: the id 0, an hour that does not exist, a length that differs. -/
theorem witness_BookingsTakeEffect_unusable :
    (∀ l ∈ [bytes [0, 0, 0, 0, 31, 4, 8, 12, 0, 13, 0, 0, 0, 0xFF, 0], bytes [1, 0x94, 0, 0, 31, 4, 8, 24, 0, 13, 0, 0, 0, 0xFF, 0], bytes [1, 0x94]],
      Reaches room kBookingPut gateway l ∧ ∀ p, rdPut l = some p → putUsable p = false)
    ∧ (∀ l ∈ [bytes [0, 0], bytes [1, 0x92, 0]], Reaches room kBookingDrop gateway l ∧ ∀ id, rdDrop l = some id → id = 0) := by
  constructor
  · intro l hl
    have h : (room.phase = .running ∧ room.imageWait = false ∧ room.bus.sending = none ∧ room.bus.ownFrame = false ∧ l.length ≤ 24
        ∧ verdict room { kind := kBookingPut, hdr := gateway, payload := l } = .passed) ∧ ∀ p ∈ rdPut l, putUsable p = false := by
      revert l; decide +kernel
    exact ⟨reaches_of h.1, h.2⟩
  · intro l hl
    have h : (room.phase = .running ∧ room.imageWait = false ∧ room.bus.sending = none ∧ room.bus.ownFrame = false ∧ l.length ≤ 24
        ∧ verdict room { kind := kBookingDrop, hdr := gateway, payload := l } = .passed) ∧ ∀ id ∈ rdDrop l, id = 0 := by
      revert l; decide +kernel
    exact ⟨reaches_of h.1, h.2⟩

/-- A full list, in order, one record for each id. -/
def fullList : List Booking := (List.range 32).map (fun i => { booking402 with id := i + 1, state := .pending, window := .none })

theorem witness_DecisionsKeepTheList :
    inListOrder fullList ∧ (fullList.map (fun b => b.id)).Nodup ∧ fullList.length = 32 := by
  unfold inListOrder; decide +kernel

/-- A PUT whose end, 10:15, is exactly now. -/
def putToNow : PutFields :=
  { id := 402, kind := 0, joined := false, noRelease := false, nextDayMark := false
    start := { year := 2031, month := 4, day := 8, hour := 9, minute := 15 }, endHour := 10, endMinute := 15
    headcount := 0, weeks := 255, partner := 0 }

theorem witness_PutRefusedPast :
    let s := withRecords [{ booking402 with state := .pending, window := .none }] room
    s.cal.running = true ∧ (∀ b ∈ s.tt.records, b.id = putToNow.id → isLive b = false)
      ∧ dateInstant (formEnd s.cfg .lecture putToNow.start putToNow).1 = instantOf s.cal.time := by decide +kernel

theorem witness_RecordTimersEndRecords :
    (let s := withRecords [{ booking402 with weeks := 0 }] room
     s.phase = .running ∧ s.cal.running = true ∧ occRead s ≠ .occupied
      ∧ ∀ b ∈ s.tt.records, b.id = 402 → b.state = .active ∧ b.weeks = 0
        ∧ ∃ since, b.window = .running since ∧ s.cfg.noShowW * 60000 = elapsed since (nowOf s))
    ∧ (let s := withRecords [{ booking402 with state := .runout, window := .none, runout := some (sec 200), weeks := 0 }] (occupied 3 room)
       s.phase = .running ∧ s.cal.running = true
      ∧ ∀ b ∈ s.tt.records, b.id = 402 → b.state = .runout ∧ b.weeks = 0
        ∧ ∃ since, b.runout = some since ∧ 1800000 = elapsed since (nowOf s)) := by
  refine ⟨⟨rfl, rfl, by decide +kernel, ?_⟩, rfl, rfl, ?_⟩
  · intro b hb _
    cases List.mem_singleton.mp hb
    exact ⟨rfl, rfl, sec 1100, rfl, by decide +kernel⟩
  · intro b hb _
    cases List.mem_singleton.mp hb
    exact ⟨rfl, rfl, sec 200, rfl, by decide +kernel⟩

/-- A window that ends in an OCCUPIED room, one of a record whose weeks go past 2199, one that recurs a week later; a run-out that does. -/
theorem witness_RecordTimersEndRecords_recurs :
    (occRead (withRecords [booking402] (occupied 3 room)) = .occupied ∧ occRead (withRecords [booking402] room) ≠ .occupied)
    ∧ (let start := addDays 7 booking402.start
       0 < booking402.weeks ∧ start.year ≤ 2199 ∧ instantOf room.cal.time + 3600 < dateInstant start
        ∧ instantOf room.cal.time < dateInstant (addDays 7 booking402.finish))
    ∧ 2199 < (addDays 7 { year := 2199, month := 12, day := 25, hour := 10, minute := 0 }).year
    ∧ (∀ x ∈ [booking402], x.id = 402 → x = booking402)
    ∧ ((meets room 0).occupancy = .vacant ∧ ({ at402 .runout with weeks := 0 } : Booking).weeks = 0) := by decide +kernel

theorem witness_SlotWriteCompletes :
    (let s := { writing with journal := { writing.journal with plan := writing.journal.plan ++ [({ page := 1, slot := 6, bytes := [] } : SlotWrite)] } }
     s.phase = .running ∧ (∃ w rest, s.journal.plan = w :: rest ∧ rest ≠ []) ∧ memWf s.eeprom.cells = true)
    ∧ (let w : SlotWrite := { page := 4, slot := 31, bytes := headerSlot 1 }
       ({ room with phase := .compacting [] [w, w] true } : State).phase = .compacting [] (w :: w :: []) true)
    ∧ (let s := { writing with imageWait := true }
       s.phase = .running ∧ s.imageWait = true ∧ (∃ w rest, s.journal.plan = w :: rest) ∧ memWf s.eeprom.cells = true)
    ∧ (∀ d : Bool, let w : SlotWrite := { page := 1, slot := 2, bytes := headerSlot 1 }
       ({ room with phase := .compacting [booking402] [w] d } : State).phase = .compacting [booking402] [w] d)
    ∧ ((compactionWrites [booking402] 0 0).getLast?).map (fun w => (w.page, w.slot)) = some (1, 2) :=
  ⟨⟨rfl, ⟨_, _, rfl, by decide +kernel⟩, rfl⟩, rfl, ⟨rfl, rfl, ⟨_, _, rfl⟩, rfl⟩, fun _ => rfl, by decide +kernel⟩
/-- The write queue at a page and slot, with an entry behind the DROP that is being written. -/
def writingTwo (page slot : Nat) (body : JournalBody) : State :=
  let w : SlotWrite := { page := page, slot := slot, bytes := slotOf (bytes [0xC0, 1, 0x92, 0, 0, 0, 0]) }
  { writing with journal := { writing.journal with
      page := page, slot := slot, plan := [w], queue := writing.journal.queue ++ [{ body := body, answer := none, pairFirst := false }] } }

/-- The last slot of an entry: the last entry of the queue; one behind that the page can take, and page 4 up to its last slot; and one of two
slots that page 4 can no longer take. -/
theorem witness_SlotWriteCompletes_entry :
    (writing.phase = .running ∧ ∃ w e, writing.journal.plan = [w] ∧ writing.journal.queue = [e] ∧ e.answer.isSome = true)
    ∧ (∀ x ∈ [(1, 5, JournalBody.put booking402), (4, 30, .drop 403)],
        let s := writingTwo x.1 x.2.1 x.2.2
        s.phase = .running ∧ s.journal.queue.length = 2 ∧ memWf s.eeprom.cells = true
        ∧ s.journal.plan.all (fun w => (entryPlan (journalAfterWrite w [] (nowOf s) s.journal) x.2.2).isSome) = true)
    ∧ (let s := writingTwo 4 30 (.put booking402)
       s.phase = .running ∧ s.journal.queue.length = 2
        ∧ s.journal.plan.all (fun w => (entryPlan (journalAfterWrite w [] (nowOf s) s.journal) (.put booking402)).isNone) = true) :=
  ⟨⟨rfl, _, _, rfl, rfl, rfl⟩, by decide +kernel, by decide +kernel⟩

/-- An eviction whose DROP is being written, its answer waiting with the PUT. -/
def writingPair (page : Nat) : State :=
  let s := writingTwo page 5 (.put booking402)
  { s with journal := { s.journal with queue := [{ body := .drop 403, answer := none, pairFirst := true },
      { body := .put booking402, pairFirst := false,
        answer := some { dest := 60, id := 402, status := .replacedOther, evicted := 403, record := some booking402 } }] } }

/-- R187, R27: the answer of the eviction goes out NOT-RETAINED as its DROP fails, and the PUT goes to the next page. -/
theorem test_slotWriteFail_pair :
    after (exec .slotWriteFail (writingPair 1))
      (fun t => (t.journal.queue.map (fun e => e.answer.isSome), t.journal.plan.map (fun w => (w.page, w.slot)),
        t.bus.routine.map (fun e => e.telegram.payload.take 4)))
      = some ([false], [(2, 0), (2, 1), (2, 2)], [bytes [1, 0x92, 3, 2]]) := by decide +kernel

/-- The DROP of an eviction, on page 1 and on page 4, and an entry that a page of its own cannot follow. -/
theorem witness_SlotWriteFails_entry :
    (let s := writingPair 1
     s.phase = .running ∧ ∃ w e x, s.journal.plan = [w] ∧ w.slot ≠ 0 ∧ s.journal.queue = [e, x] ∧ e.pairFirst = true
      ∧ after (exec .slotWriteFail s) (fun t => t.faults.journalFull) = some false)
    ∧ (let s := writingPair 4
       s.phase = .running ∧ 4 ≤ s.journal.page ∧ ∃ w e x, s.journal.plan = [w] ∧ w.slot ≠ 0 ∧ s.journal.queue = [e, x] ∧ e.pairFirst = true)
    ∧ (let s := writingTwo 4 30 (.drop 403)
       s.phase = .running ∧ 4 ≤ s.journal.page ∧ ∃ w e x, s.journal.plan = [w] ∧ w.slot ≠ 0 ∧ s.journal.queue = [e, x] ∧ e.pairFirst = false) :=
  ⟨⟨rfl, _, _, _, rfl, by decide, rfl, rfl, by decide +kernel⟩, ⟨rfl, by decide, _, _, _, rfl, by decide, rfl, rfl⟩,
   ⟨rfl, by decide, _, _, _, rfl, by decide, rfl, rfl⟩⟩
theorem witness_SlotWriteFails :
    (writing.phase = .running ∧ ∃ w rest, writing.journal.plan = w :: rest ∧ w.slot ≠ 0
      ∧ after (exec .slotWriteFail writing) (fun t => t.faults.journalFull) = some false
      ∧ ∃ e q, writing.journal.queue = e :: q ∧ e.pairFirst = false)
    ∧ (let s := { writing with journal := { writing.journal with plan := [{ page := 2, slot := 0, bytes := headerSlot 2 }] } }
       s.phase = .running ∧ ∃ w rest, s.journal.plan = w :: rest ∧ w.slot = 0)
    ∧ (let s := { writing with imageWait := true }
       s.phase = .running ∧ s.imageWait = true ∧ ∃ w rest, s.journal.plan = w :: rest)
    ∧ (∀ d : Bool, let w : SlotWrite := { page := 4, slot := 31, bytes := List.replicate 8 erasedByte }
       ({ room with phase := .compacting [booking402] [w] d } : State).phase = .compacting [booking402] [w] d) :=
  ⟨⟨rfl, _, _, rfl, by decide +kernel, by decide +kernel, _, _, rfl, rfl⟩, ⟨rfl, _, _, rfl, rfl⟩, ⟨rfl, rfl, _, _, rfl⟩, fun _ => rfl⟩
theorem witness_JournalEntriesReadBack :
    let b := { booking402 with
      id := 65535, weeks := 15, headcount := 65535, partner := 255
      start := { year := 2199, month := 12, day := 30, hour := 23, minute := 59 }
      finish := { year := 2199, month := 12, day := 31, hour := 23, minute := 58 } }
    b.id < 65536 ∧ 2000 ≤ b.start.year ∧ b.start.year ≤ 2255 ∧ b.start.month < 16 ∧ b.start.day < 32 ∧ b.start.hour < 32
      ∧ b.start.minute < 64 ∧ b.weeks < 16 ∧ b.headcount < 65536 ∧ b.partner < 256
      ∧ (dateInstant b.finish - dateInstant b.start) / 60 < 65536 := by decide +kernel

/-- A pass that meets a queue not held, one that meets a held queue, and a break that makes none. -/
theorem witness_BeamBreakIsDecoded :
    let s := withDoor { clearDoor with decoder := .outerWait (sec 1999) } room
    let u := { s with presence := { s.presence with held := true } }
    (takesFields s = true ∧ isDoor 1 = true ∧ beamLevel s.pins 1 .inner = false
      ∧ nth1 s.presence.doors 1 = some { clearDoor with decoder := .outerWait (sec 1999) } ∧ s.presence.held = false
      ∧ (decodeBreak (nowOf s) .inner (.outerWait (sec 1999))).2.2 = some true)
    ∧ (takesFields u = true ∧ beamLevel u.pins 1 .inner = false ∧ u.presence.held = true
      ∧ nth1 u.presence.doors 1 = some { clearDoor with decoder := .outerWait (sec 1999) })
    ∧ (beamLevel s.pins 1 .outer = false ∧ (decodeBreak (nowOf s) .outer (.outerWait (sec 1999))).2.2 = none) := by decide +kernel
theorem witness_DoorTimersMove :
    (let s := withDoor { clearDoor with decoder := .fault, outerTimer := some (sec 1900) }
        { room with pins := { room.pins with door1Outer := true } }
     takesFields s = true ∧ isDoor 1 = true ∧ beamLevel s.pins 1 .outer = true
      ∧ nth1 s.presence.doors 1 = some { clearDoor with decoder := .fault, outerTimer := some (sec 1900) })
    ∧ (let x : Door := { clearDoor with decoder := .outerWait { sec := 1998, ms := 500 } }
       let s := withDoor x room
       powered s = true ∧ nth1 s.presence.doors 1 = some x ∧ pendingBreak x.decoder = some { sec := 1998, ms := 500 }
        ∧ elapsed { sec := 1998, ms := 500 } (nowOf s) = 1500) := by decide +kernel
theorem witness_DoorsFailAndRecover :
    (let x : Door := { clearDoor with outerTimer := some (sec 1940) }
     let s := withDoor x room
     powered s = true ∧ isDoor 1 = true ∧ nth1 s.presence.doors 1 = some x ∧ x.decoder ≠ .fault ∧ beamTimer x .outer = some (sec 1940)
      ∧ elapsed (sec 1940) (nowOf s) = 60000)
    ∧ (let x : Door := { clearDoor with decoder := .fault, recovery := some (sec 1990) }
       let s := withDoor x room
       powered s = true ∧ isDoor 1 = true ∧ nth1 s.presence.doors 1 = some x ∧ x.decoder = .fault ∧ x.recovery = some (sec 1990)
        ∧ elapsed (sec 1990) (nowOf s) = 10000) := by decide +kernel
theorem witness_MotionIsSeenAndAges :
    (takesFields room = true ∧ nth1 room.presence.zones 1 = some { seen := none, counts := false } ∧ room.presence.held = false
      ∧ ({ room with presence := { room.presence with held := true } } : State).presence.held = true)
    ∧ (let x : MotionZone := { seen := some (sec 1700), counts := true }
       let s := { room with presence := { room.presence with zones := [x] } }
       powered s = true ∧ nth1 s.presence.zones 1 = some x ∧ x.counts = true ∧ x.seen = some (sec 1700)
        ∧ elapsed (sec 1700) (nowOf s) = 300000) := by decide +kernel
theorem witness_Co2IsHeld :
    takesFields room = true
    ∧ (∀ ppm ∈ [some 299, some 5001, none], ∀ c ∈ ppm, c < 300 ∨ 5000 < c)
    ∧ (let s := { room with presence := { room.presence with co2 := { room.presence.co2 with valid := true, hold := some (sec 1940) } } }
       powered s = true ∧ s.presence.co2.hold = some (sec 1940) ∧ elapsed (sec 1940) (nowOf s) = 60000) := by decide +kernel
theorem witness_OccupancyTimersExpire :
    (let s := { occupied 3 room with presence := { (occupied 3 room).presence with vacancy := some (sec 1400) } }
     powered s = true ∧ s.presence.vacancy = some (sec 1400) ∧ s.cfg.tv * 60000 = elapsed (sec 1400) (nowOf s)
      ∧ s.presence.held = false ∧ s.presence.occupancy ≠ .vacant)
    ∧ (let s := { room with presence := { room.presence with occupancy := .vacating, vacating := some (sec 1880) } }
       powered s = true ∧ s.presence.vacating = some (sec 1880) ∧ elapsed (sec 1880) (nowOf s) = 120000
        ∧ s.presence.held = false ∧ s.presence.occupancy = .vacating)
    ∧ (let s := { room with presence := { room.presence with held := true, vacancy := some (sec 1400), vacating := some (sec 1880) } }
       powered s = true ∧ s.presence.held = true ∧ s.cfg.tv * 60000 = elapsed (sec 1400) (nowOf s)
        ∧ elapsed (sec 1880) (nowOf s) = 120000) := by decide +kernel

/-- The view of peers of station 5 full, FRESH, and with the STALE entries of stations 3 and 4, equally old. -/
def fullView (stale : Bool) : List Peer :=
  [peerEntry 3 100 50 1 stale (sec 1800), peerEntry 4 100 50 1 stale (sec 1800)]
    ++ (List.range 22).map (fun i => peerEntry (i + 20) 100 50 1 false (sec 1990))

def withPeers (l : List Peer) (s : State) : State := { s with air := { s.air with peers := l } }

def demand16 : List Byte := bytes [1, 54, 0, 100, 0, 0, 1, 2, 0, 0, 2]

theorem witness_DemandsEnterThePeerView :
    (Reaches theatre2 kDemand (peer 16) demand16 ∧ toOwnGroup theatre2 (peer 16) = true ∧ peersAscend theatre2.air.peers
      ∧ (rdDemand demand16).isSome = true ∧ (findPeer 16 theatre2.air.peers).isSome = true)
    ∧ (Reaches theatre2 kDemand (peer 16) [] ∧ rdDemand [] = none)
    ∧ (Reaches (withPeers ((fullView false).take 23) room) kDemand (peer 62) demand16
      ∧ peersAscend (withPeers ((fullView false).take 23) room).air.peers
      ∧ findPeer 62 ((fullView false).take 23) = none ∧ ((fullView false).take 23).length = 23)
    ∧ (Reaches (withPeers (fullView false) room) kDemand (peer 62) demand16 ∧ peersAscend (fullView false)
      ∧ findPeer 62 (fullView false) = none ∧ (fullView false).length = 24 ∧ ∀ x ∈ fullView false, x.stale = false)
    ∧ (Reaches (withPeers (fullView true) room) kDemand (peer 62) demand16 ∧ peersAscend (fullView true)
      ∧ findPeer 62 (fullView true) = none
      ∧ ∃ z ∈ fullView true, z.stale = true ∧ z.station = 3
        ∧ ∀ x ∈ fullView true, x.stale = true → elapsed x.since (sec 2000) < elapsed z.since (sec 2000)
          ∨ elapsed x.since (sec 2000) = elapsed z.since (sec 2000) ∧ z.station ≤ x.station) := by
  refine ⟨⟨reaches_of (by decide +kernel), ?_⟩, ⟨reaches_of (by decide +kernel), ?_⟩, ⟨reaches_of (by decide +kernel), ?_⟩,
    ⟨reaches_of (by decide +kernel), ?_⟩, reaches_of (by decide +kernel), ?_⟩
  all_goals try unfold peersAscend
  all_goals decide +kernel

/-- The greatest flow, one above it, in each of the three scopes; and a plant state that is neither. -/
theorem witness_CapacityIsTaken :
    (∀ x ∈ [(peer 11, bytes [0x4E, 0x20, 0]), (hdr 1 2 60 0 14, bytes [0x4E, 0x21, 1]), (plant, bytes [0, 0, 1])],
      let h : RxHeader := { x.1 with role := 2 }
      Reaches theatre kCapacity h x.2 ∧ (toOwnGroup theatre h || toOwnStation theatre h || toAll h) = true ∧ (rdCapacity x.2).isSome = true)
    ∧ (Reaches theatre kCapacity plant (bytes [0, 0, 2]) ∧ rdCapacity (bytes [0, 0, 2]) = none) := by
  refine ⟨?_, reaches_of (by decide +kernel), rfl⟩
  intro x hx
  have h : (theatre.phase = .running ∧ theatre.imageWait = false ∧ theatre.bus.sending = none ∧ theatre.bus.ownFrame = false ∧ x.2.length ≤ 24
      ∧ verdict theatre { kind := kCapacity, hdr := { x.1 with role := 2 }, payload := x.2 } = .passed)
      ∧ (toOwnGroup theatre { x.1 with role := 2 } || toOwnStation theatre { x.1 with role := 2 } || toAll { x.1 with role := 2 }) = true
      ∧ (rdCapacity x.2).isSome = true := by
    revert x; decide +kernel
  exact ⟨reaches_of h.1, h.2⟩

theorem witness_PeersAndCapacityAge :
    (let p := peerEntry 11 700 150 3 false (sec 1910)
     let s := withPeers [p] room
     powered s = true ∧ findPeer 11 s.air.peers = some p ∧ p.stale = false ∧ elapsed p.since (nowOf s) = 90000)
    ∧ (let p := peerEntry 19 260 80 3 true (sec 1700)
       powered theatre = true ∧ findPeer 19 theatre.air.peers = some p ∧ elapsed p.since (nowOf theatre) = 300000)
    ∧ (let c : CapacityRecord := { flow := 0, running := false, since := sec 1880 }
       let s := { room with air := { room.air with capacity := some c } }
       powered s = true ∧ s.air.capacity = some c ∧ elapsed c.since (nowOf s) = 120000) := by decide +kernel

/-- A state whose DEMAND and rewrite are due, with the safety mode and mask given. -/
def refreshing (air : AirMode) (mask : Bool) (idle : AirIdle) : State :=
  { theatre with
    service := { theatre.service with air := air, maskAir := mask }
    cfg := { theatre.cfg with airIdle := idle }
    air := { theatre.air with refresh := some (sec 1970), rewrite := some (sec 1970) } }

theorem witness_RefreshesRepeat :
    (let s := refreshing .none false .hold
     powered s = true ∧ s.listening = false ∧ s.station ≠ 0 ∧ s.air.refresh = some (sec 1970) ∧ s.air.rewrite = some (sec 1970)
      ∧ elapsed (sec 1970) (nowOf s) = 30000 ∧ (damperFlow s).isSome = true)
    ∧ (refreshing .purge true .hold).service.air = .purge ∧ (refreshing .smokeHold true .hold).service.air = .smokeHold
    ∧ ((refreshing .none true .hold).service.maskAir = true ∧ (refreshing .none true .hold).cfg.airIdle = .hold)
    ∧ (refreshing .none true (.fixed 1000)).cfg.airIdle = .fixed 1000
    ∧ (let s := { following with air := { following.air with rewrite := some (sec 1970) } }
       powered s = true ∧ s.air.rewrite = some (sec 1970) ∧ 30000 ≤ elapsed (sec 1970) (nowOf s) ∧ s.service.air = .none
        ∧ s.service.maskAir = false ∧ damperFlow s = none) := by decide +kernel

theorem witness_GrantWithinDemand :
    fminInUse theatre ≤ fmaxInUse theatre ∧ fsetInUse theatre ≤ fmaxInUse theatre ∧ theatre.air.own = demandRow theatre
      ∧ grantOf theatre < theatre.air.own.d := by decide +kernel

/-- The theatre and two of its peers, each seeing the other two, with 1400 l/s for all (section 4.7 after 4012). -/
def wing : List State :=
  [theatre2,
   { theatre2 with station := 11, air := { theatre2.air with
      own := { d := 700, m := 150, w := 3, mark := .none }, peers := [peerEntry 14 615 150 3 false (sec 1990), peerEntry 16 300 100 1 false (sec 1990)] } },
   { theatre2 with station := 16, air := { theatre2.air with
      own := { d := 300, m := 100, w := 1, mark := .none }, peers := [peerEntry 11 700 150 3 false (sec 1990), peerEntry 14 615 150 3 false (sec 1990)] } }]

theorem witness_GrantsFitTheCapacity :
    (∀ s ∈ wing, s.listening = false ∧ s.station ≠ 0 ∧ s.service.air = .none ∧ s.service.maskAir = false
      ∧ isFollow s = false ∧ plantRunning s = true ∧ noLimit s = false ∧ capacityInUse s = 1400
      ∧ (countOwn s.air.own :: s.air.peers.map countPeer).Perm (wing.map (fun r => countOwn r.air.own)))
    ∧ 0 < (wing.map grantOf).sum := by
  refine ⟨?_, by decide +kernel⟩
  intro s hs
  have h : s.listening = false ∧ s.station ≠ 0 ∧ s.service.air = .none ∧ s.service.maskAir = false
      ∧ isFollow s = false ∧ plantRunning s = true ∧ noLimit s = false ∧ capacityInUse s = 1400
      ∧ (countOwn s.air.own :: s.air.peers.map countPeer).isPerm (wing.map (fun r => countOwn r.air.own)) = true := by
    revert s; decide +kernel
  obtain ⟨a, b, c, d, e, f, g, i, j⟩ := h
  exact ⟨a, b, c, d, e, f, g, i, List.isPerm_iff.mp j⟩

theorem witness_OwnPartFitsTheDamper :
    (let s := { leading with air := { leading.air with g := 1140, share := some 240 } }
     ∃ g, flowGroup s = some g ∧ g.fmax = 900 + g.followerFmax ∧ 0 < g.fmax ∧ s.air.g ≤ g.fmax ∧ s.air.share = shareOf s s.air.g
      ∧ ∃ p, roleOf s = .lead p)
    ∧ (0 < 900 ∧ 900 ≤ 900 ∧ 0 ≤ 900) :=
  ⟨⟨_, rfl, by decide +kernel, by decide +kernel, by decide +kernel, by decide +kernel, 1, by decide +kernel⟩, by decide⟩
theorem witness_LeadTimeSuffices : 0 < 561 ∧ leadMinutes 420 561 < 60 ∧ 5 < leadMinutes 420 561 := by decide

theorem witness_LuxIsHeld :
    (takesFields (window 700 (some 20)) = true ∧ 2000 ≤ 2000 ∧ (window 700 none).light.lux.lu = none
      ∧ (window 700 (some 20)).light.lux.lu = some 20)
    ∧ (∀ lux ∈ [none, some 2001], ∀ v ∈ lux, 2000 < v)
    ∧ ((window 700 none).light.lux.hold = some (sec 1990) ∧ elapsed (sec 1990) (nowOf (window 700 none)) = 10000) := by decide +kernel

def fading : Zone := { level := 700, target := 280, fade := some { start := 700, since := sec 1997, len := 3000 } }

theorem witness_LevelsStayInBounds :
    (let s := { room with light := { room.light with zones := [fading, fading] } }
     powered s = true ∧ nth1 s.light.zones 2 = some fading ∧ fading.fade = some { start := 700, since := sec 1997, len := 3000 }
      ∧ elapsed (sec 1997) (nowOf s) = 3000)
    ∧ 2999 < 3000 ∧ (0 < 500 ∧ 0 < 1000 ∧ 0 ≤ 2000) := by decide +kernel

/-- A room whose session, one that has started, is settled. -/
def seated : State := withRecords [{ booking402 with window := .none, attended := true }] (occupied 3 (window 700 none))

theorem sessionSettled_seated : sessionSettled seated := by
  refine ⟨by decide +kernel, by unfold inListOrder; decide +kernel, ?_, ?_⟩
  · intro g h; cases h
  · intro now _ b hb hp
    cases List.mem_singleton.mp hb
    cases hp

theorem sessionSettled_room : sessionSettled (window 700 none) := by
  refine ⟨by decide +kernel, by unfold inListOrder; decide +kernel, ?_, ?_⟩
  · intro g h; cases h
  · intro now _ b hb; cases hb

theorem witness_PanelScenesAreTaken :
    (Reaches seated kPanel panel (bytes [0, 7]) ∧ (toOwnStation seated panel || toAll panel) = true ∧ isFollow seated = false
      ∧ sessionSettled seated ∧ seated.listening = false)
    ∧ (Reaches following kPanel panel (bytes [0, 0]) ∧ followRecord following = some newFollower)
    ∧ (∀ r ∈ [bytes [8], [], bytes [1, 2]], Reaches seated kPanel panel (0x00#8 :: r) ∧ ∀ n, r = [n] → 7 < n.toNat) := by
  refine ⟨⟨reaches_of (by decide +kernel), by decide +kernel, by decide +kernel, sessionSettled_seated, rfl⟩,
    ⟨reaches_of (by decide +kernel), rfl⟩, ?_⟩
  intro r hr
  have h : seated.phase = .running ∧ seated.imageWait = false ∧ seated.bus.sending = none ∧ seated.bus.ownFrame = false ∧ (0x00#8 :: r).length ≤ 24
      ∧ verdict seated { kind := kPanel, hdr := panel, payload := 0x00#8 :: r } = .passed := by
    revert r; decide +kernel
  refine ⟨reaches_of h, ?_⟩
  intro n hn; subst hn
  simp [bytes] at hr; subst hr; decide

theorem witness_PanelLevelsSetOverrides :
    (Reaches seated kPanel panel (bytes [1, 1, 4, 1, 0xFC, 0x17]) ∧ (toOwnStation seated panel || toAll panel) = true
      ∧ rdPanel seated.cfg.zones (bytes [1, 1, 4, 1, 0xFC, 0x17]) = some (.levelStep (.role .window) (-1000))
      ∧ (∀ x, seated.light.hold = some x → x.overrides.length = 6) ∧ sessionSettled seated
      ∧ (∀ x, seated.light.hold = some x → sessionEndsHold x.recorded (govRead seated) = false)
      ∧ 2 ∈ addressed seated.cfg.zones (.role .window) ∧ 1 ∉ addressed seated.cfg.zones (.role .window))
    ∧ (Reaches seated kPanel panel (bytes [1, 0, 2, 0, 0xFF, 0xFF])
      ∧ rdPanel seated.cfg.zones (bytes [1, 0, 2, 0, 0xFF, 0xFF]) = some (.levelAbs (.zone 2) 65535)) :=
  ⟨⟨reaches_of (by decide +kernel), by decide +kernel, by decide +kernel, fun _ h => (by cases h), sessionSettled_seated,
      fun _ h => by (cases h), by decide +kernel, by decide +kernel⟩, reaches_of (by decide +kernel), by decide +kernel⟩

theorem witness_PanelHoldsOfBlinds :
    (∀ m ∈ bytes [1, 255], Reaches seated kPanel panel [0x02#8, m, 0x03#8, 0xE8#8]
      ∧ (m.toNat = 255 ∨ 1 ≤ m.toNat ∧ m.toNat ≤ seated.blind.motors.length))
    ∧ (toOwnStation seated panel || toAll panel) = true
    ∧ (seated.service.evacuate = false ∧ seated.service.maskBlind = false ∧ windHolds seated.blind 3 = false ∧ seated.listening = false)
    ∧ (∀ m ∈ bytes [0, 2, 254], Reaches seated kPanel panel [0x02#8, m, 0x03#8, 0xE8#8]
      ∧ m.toNat ≠ 255 ∧ (m.toNat = 0 ∨ seated.blind.motors.length < m.toNat))
    ∧ Reaches seated kPanel panel [0x03#8] := by
  have h : ∀ m ∈ bytes [1, 255, 0, 2, 254], seated.phase = .running ∧ seated.imageWait = false ∧ seated.bus.sending = none ∧ seated.bus.ownFrame = false
      ∧ [0x02#8, m, 0x03#8, 0xE8#8].length ≤ 24
      ∧ verdict seated { kind := kPanel, hdr := panel, payload := [0x02#8, m, 0x03#8, 0xE8#8] } = .passed := by decide +kernel
  refine ⟨fun m hm => ⟨reaches_of (h m ?_), ?_⟩, by decide +kernel, by decide +kernel, fun m hm => ⟨reaches_of (h m ?_), ?_⟩,
    reaches_of (by decide +kernel)⟩ <;> (revert m; decide +kernel)

/-- A run that has just reached its length. -/
def runOver (kind : RunKind) (target : Nat) : Run :=
  { dir := .up, start := some 300, since := sec 1985, len := 15000, kind := kind, target := target }

theorem witness_MotorRunsEnd :
    (let m : Motor := { atRest with state := .movingUp, run := some (runOver .normal 20) }
     let s := withMotor m room
     powered s = true ∧ (nth1 s.cfg.motors 1).isSome = true ∧ nth1 s.blind.motors 1 = some m
      ∧ (m.state = .movingUp ∨ m.state = .movingDown) ∧ m.run = some (runOver .normal 20)
      ∧ elapsed (runOver .normal 20).since (nowOf s) = (runOver .normal 20).len)
    ∧ (∀ p ∈ [none, some 1, some 20, some 21, some 1000],
        let m : Motor := { atRest with state := .referencing, pending := p, run := some (runOver .referencing 0) }
        let s := withMotor m room
        powered s = true ∧ nth1 s.blind.motors 1 = some m ∧ m.state = .referencing ∧ m.run = some (runOver .referencing 0)
          ∧ elapsed (runOver .referencing 0).since (nowOf s) = (runOver .referencing 0).len ∧ m.pending ≠ some 0)
    ∧ (let m : Motor := { atRest with state := .locked, run := some (runOver .endStop 0) }
       let s := withMotor m room
       powered s = true ∧ nth1 s.blind.motors 1 = some m ∧ m.state = .locked ∧ m.run = some (runOver .endStop 0)
        ∧ elapsed (runOver .endStop 0).since (nowOf s) = (runOver .endStop 0).len) := by decide +kernel

/-- A motor in PAUSE, 500 ms after its last stop. -/
def paused (estimate : Option Nat) (pending : Option Nat) (lock : Bool) : Motor :=
  { atRest with state := .pause, estimate := estimate, pending := pending, lockPending := lock, lastStop := some { sec := 1999, ms := 500 } }

theorem witness_PausesAndHoldsEnd :
    (∀ m ∈ [paused (some 416) (some 0) true, paused (some 0) (some 250) false, paused none (some 250) false, paused (some 230) (some 250) false,
          { paused (some 550) (some 250) false with count := 20 }],
        powered (withMotor m room) = true ∧ nth1 (withMotor m room).cfg.motors 1 = testCfg.motors.head?
          ∧ nth1 (withMotor m room).blind.motors 1 = some m ∧ m.state = .pause
          ∧ m.lastStop.map (fun u => elapsed u (nowOf (withMotor m room))) = some 500)
    ∧ ((paused (some 0) (some 250) false).count.toNat < 20 ∧ isNear 250 (some 0) = false ∧ isNear 250 (some 230) = true
      ∧ isNear 250 (some 229) = false ∧ isNear 250 (some 550) = false ∧ (20 : BitVec 16).toNat = 20)
    ∧ (let m : Motor := { atRest with hold := some { position := 300, since := sec 200 } }
       powered (withMotor m room) = true ∧ nth1 (withMotor m room).blind.motors 1 = some m
        ∧ m.hold = some { position := 300, since := sec 200 } ∧ elapsed (sec 200) (nowOf (withMotor m room)) = 1800000) := by
  decide +kernel

/-- The room with the façade record given. -/
def withFacade (f : Facade) (s : State) : State := { s with blind := { s.blind with facades := [f] } }
def calm : Facade := { number := 3, sun := .high, sunSince := some (sec 1100), wind := .clear }

theorem witness_SunAndWindAreRecorded :
    (∀ l ∈ bytes [0, 1, 2, 3], Reaches room kSun (hdr 2 2 60 2 3) [l] ∧ Reaches room kSun (hdr 2 2 60 3 0) [l])
    ∧ (∀ l ∈ bytes [0, 1, 2], Reaches (withFacade { calm with wind := .on } room) kWind (hdr 1 2 60 2 3) [l])
    ∧ (blindScope (hdr 2 2 60 2 3) = true ∧ blindScope (hdr 2 2 60 3 0) = true)
    ∧ (rdSun (bytes [2]) = some .high ∧ rdSun (bytes [3]) = none ∧ rdWind (bytes [1]) = some true ∧ rdWind (bytes [0]) = some false
      ∧ rdWind (bytes [2]) = none)
    ∧ (powered room = true ∧ facadeOf (withFacade calm room).blind 3 = some calm ∧ calm.sunSince = some (sec 1100)
      ∧ elapsed (sec 1100) (nowOf room) = 900000)
    ∧ (facadeOf (withFacade { calm with wind := .holding (sec 1400) } room).blind 3 = some { calm with wind := .holding (sec 1400) }
      ∧ elapsed (sec 1400) (nowOf room) = 600000) := by
  have h : ∀ l ∈ bytes [0, 1, 2, 3], room.phase = .running ∧ room.imageWait = false ∧ room.bus.sending = none ∧ room.bus.ownFrame = false ∧ [l].length ≤ 24
      ∧ verdict room { kind := kSun, hdr := hdr 2 2 60 2 3, payload := [l] } = .passed := by decide +kernel
  have h' : ∀ l ∈ bytes [0, 1, 2, 3], room.phase = .running ∧ room.imageWait = false ∧ room.bus.sending = none ∧ room.bus.ownFrame = false ∧ [l].length ≤ 24
      ∧ verdict room { kind := kSun, hdr := hdr 2 2 60 3 0, payload := [l] } = .passed := by decide +kernel
  have h'' : ∀ l ∈ bytes [0, 1, 2],
      let s := withFacade { calm with wind := .on } room
      s.phase = .running ∧ s.imageWait = false ∧ s.bus.sending = none ∧ s.bus.ownFrame = false ∧ [l].length ≤ 24
      ∧ verdict s { kind := kWind, hdr := hdr 1 2 60 2 3, payload := [l] } = .passed := by decide +kernel
  exact ⟨fun l hl => ⟨reaches_of (h l hl), reaches_of (h' l hl)⟩, fun l hl => reaches_of (h'' l hl), by decide +kernel,
    by decide +kernel, by decide +kernel, by decide +kernel⟩

theorem witness_MotorsLockAndStop :
    (let s := safetySet room .none true
     nth1 s.cfg.motors 1 = testCfg.motors.head? ∧ (nth1 (formBlinds s).blind.motors 1).isSome = true ∧ s.service.evacuate = true)
    ∧ (let s := withFacade { calm with wind := .on } room
       (nth1 (formBlinds s).blind.motors 1).isSome = true ∧ s.service.maskBlind = false ∧ windHolds s.blind 3 = true)
    ∧ (let s := { withMotor runningDown room with service := { room.service with maskBlind := true } }
       (nth1 (formBlinds s).blind.motors 1).isSome = true ∧ s.service.evacuate = false ∧ s.service.maskBlind = true)
    ∧ (∀ m ∈ [{ atRest with state := .locked }, { runningDown with state := .movingUp }, { runningDown with state := .referencing }, runningDown,
          paused (some 416) (some 250) false, atRest, { atRest with state := .unreferenced, estimate := none }],
        let s := safetySet (withMotor m room) .none true
        nth1 s.blind.motors 1 = some m ∧ (nth1 (formBlinds s).blind.motors 1).isSome = true ∧ s.service.evacuate = true
          ∧ reversalOwed (nowOf s) .up m = false)
    ∧ (let m : Motor := { atRest with lastDir := some .down, lastStop := some { sec := 1999, ms := 501 } }
       m.state = .idle ∧ reversalOwed (nowOf room) .up m = true)
    ∧ runningDown.run ≠ none := by decide +kernel

/-- A contact that changes, one that returns within the debounce, and the debounces that end a join, begin a claim and make it wait. -/
theorem witness_ContactsDebounce :
    (takesFields room = true ∧ nth1 room.cfg.partitions 1 = some { neighbour := 9, openHigh := true } ∧ partitionOf room 1 = some shut
      ∧ shut.state ≠ .notConfigured ∧ contactOf { neighbour := 9, openHigh := true } true ≠ shut.raw
      ∧ contactOf { neighbour := 9, openHigh := true } false = shut.raw)
    ∧ takesFields dark = false
    ∧ (let x : Partition := { shut with raw := true, debounce := some (sec 1995) }
       let s := withPartition x room
       powered s = true ∧ partitionOf s 1 = some x ∧ x.debounce = some (sec 1995) ∧ elapsed (sec 1995) (nowOf s) = 5000
        ∧ x.raw = true ∧ x.debounced = false ∧ x.state = .closed ∧ isFree s = true ∧ maySpeak s = true
        ∧ maySpeak { s with listening := true } = false)
    ∧ (let x : Partition := { opened .lead with raw := false, debounce := some (sec 1995) }
       let s := { leading with join := { leading.join with partitions := [x, shut] } }
       powered s = true ∧ partitionOf s 1 = some x ∧ elapsed (sec 1995) (nowOf s) = 5000 ∧ x.raw = false ∧ x.debounced = true
        ∧ x.state = .lead)
    ∧ (let x : Partition := { shut with debounce := some (sec 1995) }
       partitionOf (withPartition x room) 1 = some x ∧ x.raw = x.debounced) := by decide +kernel

theorem witness_JoinTimersExpire :
    (∀ n ∈ [1, 2, 3],
      let x : Partition := { opened .claiming with attempts := n, claimTimer := some (sec 1998) }
      let s := withPartition x room
      powered s = true ∧ partitionOf s 1 = some x ∧ x.state = .claiming ∧ x.claimTimer = some (sec 1998)
        ∧ elapsed (sec 1998) (nowOf s) = 2000 ∧ (x.attempts < 3 ∨ 3 ≤ x.attempts))
    ∧ (let x : Partition := { opened .blocked with retry := .timed (sec 1940) }
       let s := withPartition x room
       powered s = true ∧ partitionOf s 1 = some x ∧ x.state = .blocked ∧ x.retry = .timed (sec 1940)
        ∧ elapsed (sec 1940) (nowOf s) = 60000 ∧ isFree s = true ∧ maySpeak s = true ∧ maySpeak { s with station := 0 } = false)
    ∧ (let r : Relation := { relation with keep := sec 1970 }
       let s := { following with join := { following.join with relation := some r } }
       powered s = true ∧ joinedPartition s = some 1 ∧ s.join.relation = some r ∧ elapsed r.keep (nowOf s) = 30000)
    ∧ (let r : Relation := { relation with orphan := sec 1880 }
       let s := { leading with join := { leading.join with relation := some r } }
       powered s = true ∧ joinedPartition s = some 1 ∧ partitionOf s 1 = some (opened .lead) ∧ s.join.relation = some r
        ∧ elapsed r.orphan (nowOf s) = 120000) := by decide +kernel

/-- In a listen-in, from a station that is no neighbour, and with a payload that cannot be read, for each of the seven. -/
theorem witness_JoinTelegramsAreChecked :
    (∀ c ∈ joinCommands (partner 9) [], (Reaches listened c.2 (partner 9) [] ∧ joinDeaf listened = true)
      ∧ (Reaches room c.2 (partner 33) [] ∧ joinDeaf room = false ∧ partitionFrom room (partner 33).source.toNat = none)
      ∧ (c.2 ≠ kJoinRelease → Reaches room c.2 (partner 9) [] ∧ partitionFrom room (partner 9).source.toNat = some 1
          ∧ joinUnreadable c.2 (partner 9).source.toNat []))
    ∧ (Reaches room kJoinRelease (partner 9) [0] ∧ joinUnreadable kJoinRelease (partner 9).source.toNat [0])
    ∧ (Reaches room kJoinRefuse (partner 9) [2] ∧ joinUnreadable kJoinRefuse (partner 9).source.toNat [2]) := by
  have h : ∀ k ∈ [kJoinClaim, kJoinAccept, kJoinRefuse, kJoinRelease, kJoinKeep, kJoinState, kJoinOrder],
      (listened.phase = .running ∧ listened.imageWait = false ∧ listened.bus.sending = none ∧ listened.bus.ownFrame = false ∧ ([] : List Byte).length ≤ 24
        ∧ verdict listened { kind := k, hdr := partner 9, payload := [] } = .passed)
      ∧ (room.phase = .running ∧ room.imageWait = false ∧ room.bus.sending = none ∧ room.bus.ownFrame = false ∧ ([] : List Byte).length ≤ 24
        ∧ verdict room { kind := k, hdr := partner 33, payload := [] } = .passed)
      ∧ (room.phase = .running ∧ room.imageWait = false ∧ room.bus.sending = none ∧ room.bus.ownFrame = false ∧ ([] : List Byte).length ≤ 24
        ∧ verdict room { kind := k, hdr := partner 9, payload := [] } = .passed) := by decide +kernel
  refine ⟨?_, ⟨reaches_of (by decide +kernel), ?_⟩, reaches_of (by decide +kernel), ?_⟩
  · intro c hc
    have hk : c.2 ∈ [kJoinClaim, kJoinAccept, kJoinRefuse, kJoinRelease, kJoinKeep, kJoinState, kJoinOrder] := by
      simp only [joinCommands, List.mem_cons, List.not_mem_nil, or_false] at hc
      rcases hc with rfl | rfl | rfl | rfl | rfl | rfl | rfl <;> decide
    refine ⟨⟨reaches_of (h _ hk).1, by decide +kernel⟩, ⟨reaches_of (h _ hk).2.1, by decide +kernel, by decide +kernel⟩, ?_⟩
    intro hne
    refine ⟨reaches_of (h _ hk).2.2, by decide +kernel, ?_⟩
    exact ⟨fun _ => by decide, fun _ r hr => by (cases hr), fun e => absurd e hne, fun _ => rfl, fun _ => rfl, fun _ => rfl⟩
  · exact ⟨by decide, fun e => absurd e (by decide), fun _ => by decide, fun _ => rfl, fun _ => rfl, fun _ => rfl⟩
  · exact ⟨by decide, fun _ r hr => by (cases hr; decide), fun _ => by decide, fun _ => rfl, fun _ => rfl, fun _ => rfl⟩

/-- A claim behind a closed wall, while engaged elsewhere, crossing with the higher and the lower number, repeated and new at a follower,
at a lead and at a BLOCKED partition. -/
theorem witness_ClaimsAreAnswered :
    (JoinReaches room kJoinClaim (partner 9) (bytes [1]) 1 shut ∧ shut.debounced = false)
    ∧ (let s := { room with join := { room.join with partitions := [opened .blocked, opened .claiming] } }
       JoinReaches s kJoinClaim (partner 9) (bytes [1]) 1 (opened .blocked) ∧ engagedElsewhere s 1 = true)
    ∧ (let x : Partition := { opened .claiming with attempts := 1, claimTimer := some (sec 1998) }
       JoinReaches claiming kJoinClaim (partner 9) (bytes [1]) 1 x ∧ x.debounced = true ∧ engagedElsewhere claiming 1 = false
        ∧ claiming.station < (partner 9).source.toNat
        ∧ JoinReaches { claiming with station := 10 } kJoinClaim { partner 9 with dest := 10 } (bytes [1]) 1 x
        ∧ (partner 9).source.toNat ≤ ({ claiming with station := 10 } : State).station)
    ∧ (∀ q ∈ bytes [7, 8], JoinReaches following kJoinClaim (partner 9) [q] 1 (opened .follow))
    ∧ (engagedElsewhere following 1 = false ∧ following.join.relation = some relation ∧ following.join.follower = some newFollower
      ∧ relation.claimSeq = 7)
    ∧ (JoinReaches leading kJoinClaim (partner 9) (bytes [1]) 1 (opened .lead) ∧ engagedElsewhere leading 1 = false)
    ∧ (JoinReaches (blocked .due) kJoinClaim (partner 9) (bytes [1]) 1 { opened .blocked with retry := .due }
      ∧ engagedElsewhere (blocked .due) 1 = false) := by
  have h : ∀ q ∈ bytes [7, 8], following.phase = .running ∧ following.imageWait = false ∧ following.bus.sending = none ∧ following.bus.ownFrame = false
      ∧ [q].length ≤ 24 ∧ verdict following { kind := kJoinClaim, hdr := partner 9, payload := [q] } = .passed := by decide +kernel
  refine ⟨⟨joinReaches_of (by decide +kernel) (by decide +kernel), rfl⟩,
    ⟨joinReaches_of (by decide +kernel) (by decide +kernel), by decide +kernel⟩,
    ⟨joinReaches_of (by decide +kernel) (by decide +kernel), rfl, by decide +kernel, by decide +kernel,
      joinReaches_of (by decide +kernel) (by decide +kernel), by decide +kernel⟩,
    fun q hq => joinReaches_of (h q hq) (by decide +kernel), by decide +kernel,
    ⟨joinReaches_of (by decide +kernel) (by decide +kernel), by decide +kernel⟩,
    joinReaches_of (by decide +kernel) (by decide +kernel), by decide +kernel⟩

/-- The ACCEPT of section 7.9. -/
def accept41 : List Byte := bytes [1, 0, 60, 0, 180, 0, 20, 0, 60, 0, 240, 0, 5, 0, 0, 0, 0, 1]

theorem witness_JoinsBeginAndEnd :
    (JoinReaches claiming kJoinAccept (partner 9) accept41 1 { opened .claiming with attempts := 1, claimTimer := some (sec 1998) }
      ∧ (rdAccept accept41).isSome = true)
    ∧ JoinReaches leading kJoinAccept (partner 9) accept41 1 (opened .lead)
    ∧ JoinReaches room kJoinAccept (partner 9) accept41 1 shut
    ∧ (∀ r ∈ bytes [0, 1], JoinReaches claiming kJoinRefuse (partner 9) [r] 1 { opened .claiming with attempts := 1, claimTimer := some (sec 1998) }
      ∧ JoinReaches leading kJoinRefuse (partner 9) [r] 1 (opened .lead) ∧ r.toNat ≤ 1)
    ∧ (JoinReaches leading kJoinRelease (partner 9) [] 1 (opened .lead) ∧ joinedOn leading 1 = true)
    ∧ (JoinReaches room kJoinRelease (partner 9) [] 1 shut ∧ joinedOn room 1 = false) := by
  have h : ∀ r ∈ bytes [0, 1],
      (claiming.phase = .running ∧ claiming.imageWait = false ∧ claiming.bus.sending = none ∧ claiming.bus.ownFrame = false ∧ [r].length ≤ 24
        ∧ verdict claiming { kind := kJoinRefuse, hdr := partner 9, payload := [r] } = .passed)
      ∧ (leading.phase = .running ∧ leading.imageWait = false ∧ leading.bus.sending = none ∧ leading.bus.ownFrame = false ∧ [r].length ≤ 24
        ∧ verdict leading { kind := kJoinRefuse, hdr := partner 9, payload := [r] } = .passed) ∧ r.toNat ≤ 1 := by decide +kernel
  exact ⟨⟨joinReaches_of (by decide +kernel) (by decide +kernel), by decide +kernel⟩,
    joinReaches_of (by decide +kernel) (by decide +kernel), joinReaches_of (by decide +kernel) (by decide +kernel),
    fun r hr => ⟨joinReaches_of (h r hr).1 (by decide +kernel), joinReaches_of (h r hr).2.1 (by decide +kernel), (h r hr).2.2⟩,
    ⟨joinReaches_of (by decide +kernel) (by decide +kernel), by decide +kernel⟩,
    joinReaches_of (by decide +kernel) (by decide +kernel), by decide +kernel⟩

/-- A STATE and an ORDER with the sequence given. -/
def state42 (q : Nat) : List Byte := bytes ([q, 1, 2, 1, 0, 2, 0, 0, 0, 0, 2] ++ List.replicate 11 0)
def order41 (q : Nat) : List Byte := bytes ([q, 0, 7, 0, 114, 2] ++ List.replicate 10 0 ++ [0, 17])

theorem witness_PartnersReport :
    (∀ s ∈ [(leading, opened .lead), (following, opened .follow), (room, shut), (blocked .due, { opened .blocked with retry := .due }),
        (claiming, { opened .claiming with attempts := 1, claimTimer := some (sec 1998) })],
      JoinReaches s.1 kJoinKeep (partner 9) (bytes [1]) 1 s.2 ∧ JoinReaches s.1 kJoinState (partner 9) (state42 5) 1 s.2
        ∧ JoinReaches s.1 kJoinState (partner 9) (state42 4) 1 s.2 ∧ JoinReaches s.1 kJoinOrder (partner 9) (order41 5) 1 s.2
        ∧ JoinReaches s.1 kJoinOrder (partner 9) (order41 4) 1 s.2)
    ∧ ((rdJoinState (partner 9).source.toNat (state42 5)).map (fun f => f.seq) = some 5
      ∧ (rdJoinState (partner 9).source.toNat (state42 4)).map (fun f => f.seq) = some 4
      ∧ (rdJoinOrder (order41 5)).map (fun f => f.seq) = some 5 ∧ (rdJoinOrder (order41 4)).map (fun f => f.seq) = some 4)
    ∧ (leading.join.relation = some relation ∧ leading.join.group = some group ∧ following.join.relation = some relation
      ∧ following.join.follower = some newFollower ∧ relation.partnerSeq = 4) := by
  refine ⟨?_, by decide +kernel, by decide +kernel⟩
  intro s hs
  have h : ∀ k ∈ [(kJoinKeep, bytes [1]), (kJoinState, state42 5), (kJoinState, state42 4), (kJoinOrder, order41 5), (kJoinOrder, order41 4)],
      (s.1.phase = .running ∧ s.1.imageWait = false ∧ s.1.bus.sending = none ∧ s.1.bus.ownFrame = false ∧ k.2.length ≤ 24
        ∧ verdict s.1 { kind := k.1, hdr := partner 9, payload := k.2 } = .passed)
      ∧ joinDeaf s.1 = false ∧ partitionFrom s.1 (partner 9).source.toNat = some 1 ∧ partitionOf s.1 1 = some s.2 := by
    revert s; decide +kernel
  exact ⟨joinReaches_of (h (kJoinKeep, bytes [1]) (by decide)).1 (h (kJoinKeep, bytes [1]) (by decide)).2,
    joinReaches_of (h (kJoinState, state42 5) (by decide)).1 (h (kJoinState, state42 5) (by decide)).2,
    joinReaches_of (h (kJoinState, state42 4) (by decide)).1 (h (kJoinState, state42 4) (by decide)).2,
    joinReaches_of (h (kJoinOrder, order41 5) (by decide)).1 (h (kJoinOrder, order41 5) (by decide)).2,
    joinReaches_of (h (kJoinOrder, order41 4) (by decide)).1 (h (kJoinOrder, order41 4) (by decide)).2⟩

theorem witness_SafetyOrdersTake :
    (∀ m ∈ bytes [1, 2, 4, 5, 6, 0xF9], Reaches room kSafety fire [0x00#8, m] ∧ m.toNat % 8 ≠ 0 ∧ (m.getLsbD 0 && m.getLsbD 1) = false)
    ∧ safetyScope room fire ∧ ¬ safetyScope room (hdr 0 2 61 0 5) ∧ room.air.mode = damperModeOf room
    ∧ (∀ m ∈ bytes [0, 0xFF], Reaches room kSafety fire [0x01#8, m])
    ∧ (Reaches room kSafety fire [0x00#8, 3] ∧ Reaches room kSafety (hdr 0 2 61 0 5) [0x00#8, 3] ∧ Reaches room kSafety fire [0x00#8, 3, 0])
    ∧ (Reaches room kSafety fire [0x00#8, 0xF8] ∧ Reaches room kSafety (hdr 0 2 61 0 5) [0x00#8, 4] ∧ Reaches room kSafety fire [0x00#8]
      ∧ Reaches room kSafety fire [0x00#8, 1, 0])
    ∧ (Reaches room kSafety (hdr 0 2 61 0 5) [0x01#8, 0] ∧ Reaches room kSafety fire [0x01#8, 0, 0]) := by
  have h : ∀ m ∈ bytes [1, 2, 4, 5, 6, 0xF9],
      (room.phase = .running ∧ room.imageWait = false ∧ room.bus.sending = none ∧ room.bus.ownFrame = false ∧ [0x00#8, m].length ≤ 24
        ∧ verdict room { kind := kSafety, hdr := fire, payload := [0x00#8, m] } = .passed)
      ∧ m.toNat % 8 ≠ 0 ∧ (m.getLsbD 0 && m.getLsbD 1) = false := by decide +kernel
  have h' : ∀ m ∈ bytes [0, 0xFF], room.phase = .running ∧ room.imageWait = false ∧ room.bus.sending = none ∧ room.bus.ownFrame = false ∧ [0x01#8, m].length ≤ 24
        ∧ verdict room { kind := kSafety, hdr := fire, payload := [0x01#8, m] } = .passed := by decide +kernel
  unfold safetyScope
  exact ⟨fun m hm => ⟨reaches_of (h m hm).1, (h m hm).2⟩, by decide +kernel, by decide +kernel, by decide +kernel,
    fun m hm => reaches_of (h' m hm), ⟨reaches_of (by decide +kernel), reaches_of (by decide +kernel), reaches_of (by decide +kernel)⟩,
    ⟨reaches_of (by decide +kernel), reaches_of (by decide +kernel), reaches_of (by decide +kernel), reaches_of (by decide +kernel)⟩,
    reaches_of (by decide +kernel), reaches_of (by decide +kernel)⟩

/-- Mask, lock and restart; in a listen-in of 9 s and of 10 s; over a façade, to station 63 and with two bytes. -/
theorem witness_ServiceOrdersTake :
    (∀ f ∈ bytes [0x01, 0x10, 0x0F, 0x20, 0x31], Reaches room kService tool [f] ∧ (rdService [f]).isSome = true)
    ∧ serviceScope room tool ∧ ¬ serviceScope room { tool with dest := 63 } ∧ ¬ serviceScope room (hdr 1 3 50 2 3)
    ∧ ((rdService (bytes [0x0F])).map (fun f => f.restart) = some false ∧ (rdService (bytes [0x20])).map (fun f => f.restart) = some true)
    ∧ (∀ n ∈ [9, 10], Reaches { listened with clock := { sec := BitVec.ofNat 16 n, ms := 0, sub := 0 } } kService tool (bytes [0x20]))
    ∧ (Reaches room kService (hdr 1 3 50 2 3) (bytes [0x20]) ∧ (hdr 1 3 50 2 3).scope.toNat = scopeFacade)
    ∧ (Reaches room kService tool (bytes [0x20, 0]) ∧ rdService (bytes [0x20, 0]) = none)
    ∧ (Reaches room kService { tool with dest := 63 } (bytes [0x20]) ∧ ({ tool with dest := 63 } : RxHeader).scope.toNat ≠ scopeFacade)
    ∧ Reaches room kService { tool with dest := 63 } (bytes [0x20, 0])
    ∧ (Reaches writing kService tool (bytes [0x20]) ∧ writing.journal.plan ≠ [] ∧ writing.listening = false ∧ room.journal.plan = []) := by
  have h : ∀ f ∈ bytes [0x01, 0x10, 0x0F, 0x20, 0x31],
      (room.phase = .running ∧ room.imageWait = false ∧ room.bus.sending = none ∧ room.bus.ownFrame = false ∧ [f].length ≤ 24
        ∧ verdict room { kind := kService, hdr := tool, payload := [f] } = .passed) ∧ (rdService [f]).isSome = true := by decide +kernel
  have h' : ∀ n ∈ [9, 10],
      let s := { listened with clock := { sec := BitVec.ofNat 16 n, ms := 0, sub := 0 } }
      s.phase = .running ∧ s.imageWait = false ∧ s.bus.sending = none ∧ s.bus.ownFrame = false ∧ (bytes [0x20]).length ≤ 24
        ∧ verdict s { kind := kService, hdr := tool, payload := bytes [0x20] } = .passed := by decide +kernel
  unfold serviceScope
  exact ⟨fun f hf => ⟨reaches_of (h f hf).1, (h f hf).2⟩, by decide +kernel, by decide +kernel, by decide +kernel, by decide +kernel,
    fun n hn => reaches_of (h' n hn), ⟨reaches_of (by decide +kernel), by decide⟩, ⟨reaches_of (by decide +kernel), rfl⟩,
    ⟨reaches_of (by decide +kernel), by decide⟩, reaches_of (by decide +kernel), reaches_of (by decide +kernel), by decide +kernel⟩

/-- A locked part meets a SERVICE that would clear the mask, and a RESTART. -/
theorem witness_LockLatches :
    ∀ f ∈ bytes [0x01, 0x20],
      let s := { room with service := { room.service with lock := true, maskBlind := true }, pending := [.serviceMask tool [f]] }
      s.service.lock = true ∧ (∀ c, s.pending.head? = some c → startsAnew c = false) ∧ ∃ t, step s = .next t := by
  intro f _
  exact ⟨rfl, fun c hc => by (cases hc; rfl), _, rfl⟩

theorem witness_QueriesAreAnswered :
    (∀ q ∈ [(0, 0), (1, 0), (1, 15), (1, 16), (2, 7), (2, 8), (3, 0), (4, 0), (5, 0), (0, 1), (3, 255), (6, 0), (255, 255)],
      Reaches room kQuery asker (bytes [q.1, q.2]))
    ∧ room.station ≠ 0
    ∧ (let s := { room with bus := { room.bus with routine := List.replicate 5 (entry kSessionNotice) } }
       s.bus.routine.length + [outputsPart1 s, outputsPart2 s, outputsPart3 s].length = 8) := by
  have h : ∀ q ∈ [(0, 0), (1, 0), (1, 15), (1, 16), (2, 7), (2, 8), (3, 0), (4, 0), (5, 0), (0, 1), (3, 255), (6, 0), (255, 255)],
      room.phase = .running ∧ room.imageWait = false ∧ room.bus.sending = none ∧ room.bus.ownFrame = false ∧ (bytes [q.1, q.2]).length ≤ 24
        ∧ verdict room { kind := kQuery, hdr := asker, payload := bytes [q.1, q.2] } = .passed := by decide +kernel
  exact ⟨fun q hq => reaches_of (h q hq), by decide +kernel, by decide +kernel⟩

/-- A frame of the four header bytes and a payload, with its check. -/
def frame (l : List Nat) : List RxChar := goodChars (bytes l ++ be2 (crc16 (bytes l)).toNat)

/-- What the filter makes of a frame. -/
def judged (s : State) (f : List RxChar) : Option Verdict := (parseFrame f).map (verdict s)

/-- A frame of the class SAFETY for a TIME, one to another station, one from the wrong role, one under the own number, a REPORT, a TIME,
and one that is bad. -/
theorem witness_FramesAreJudged :
    (List.replicate 24 (0 : Byte)).length ≤ 24
    ∧ (powered dark = false ∧ powered room = true ∧ room.bus.sending = none ∧ room.bus.ownFrame = false)
    ∧ judged room (frame [0x01, 0xBC, 0xC0, 0]) = some .malformed
    ∧ judged room (frame [0x41, 0xBC, 0x06, 0]) = some .outOfScope
    ∧ judged room (frame [0x41, 0x3C, 0xC0, 0]) = some .unusable
    ∧ judged room (frame [0x41, 0x85, 0xC0, 0]) = some .duplicate
    ∧ (judged room (frame [0xA9, 9, 5, 0]) = some .passed ∧ (parseFrame (frame [0xA9, 9, 5, 0])).map (fun x => x.kind) = some kReport)
    ∧ (judged room (frame [0x41, 0xBC, 0xC0, 0]) = some .passed
      ∧ (parseFrame (frame [0x41, 0xBC, 0xC0, 0])).map (fun x => x.kind) = some kTime)
    ∧ judged room (goodChars (bytes [0x41, 0xBC])) = none := by decide +kernel

/-- The frame of a telegram with a header. -/
def framed (h : RxHeader) (kind : Nat) (l : List Nat) : List RxChar :=
  frame ([64 * h.cls.toNat + kind, 64 * h.role.toNat + h.source.toNat, 64 * h.scope.toNat + h.dest.toNat, l.length] ++ l)

/-- Frames of a PANEL, a SAFETY and a QUERY: each of the table's commands, and contents that stand for none. -/
theorem witness_FramesAreJudged_codes :
    (∀ x ∈ [(panel, kPanel, [0, 5]), (panel, kPanel, [1, 1, 0, 1, 0, 200]), (panel, kPanel, [2, 1, 1, 44]), (panel, kPanel, [3]),
        (fire, kSafety, [0, 4]), (fire, kSafety, [1, 0]), (asker, kQuery, [0, 0]), (asker, kQuery, [1, 15]), (asker, kQuery, [2, 7]),
        (asker, kQuery, [3, 0]), (asker, kQuery, [4, 0]), (asker, kQuery, [5, 0])],
      judged room (framed x.1 x.2.1 x.2.2) = some .passed
        ∧ (parseFrame (framed x.1 x.2.1 x.2.2)).map (fun t => decide (t.kind = x.2.1 ∧ t.payload = bytes x.2.2)) = some true
        ∧ ∃ c ∈ codedCommands { kind := x.2.1, hdr := x.1, payload := bytes x.2.2 }, c.1 = x.2.1 ∧ c.2.1 = bytes x.2.2)
    ∧ (∀ x ∈ [[6, 0], [255, 255], [0, 1], [1, 16], [2, 8]],
      judged room (framed asker kQuery x) = some .passed)
    ∧ (asksUnknown 6 0 ∧ asksUnknown 5 1)
    ∧ (∀ x ∈ [(panel, kPanel, [4]), (panel, kPanel, [0]), (panel, kPanel, []), (fire, kSafety, [2, 0]), (fire, kSafety, [1, 0, 0]),
        (fire, kSafety, [0, 4, 0]), (asker, kQuery, [0]), (asker, kQuery, [0, 0, 0])],
      judged room (framed x.1 x.2.1 x.2.2) = some .passed)
    ∧ contentUnusable room { kind := kPanel, hdr := panel, payload := bytes [4] }
    ∧ contentUnusable room { kind := kPanel, hdr := panel, payload := bytes [0] }
    ∧ contentUnusable room { kind := kSafety, hdr := fire, payload := bytes [2, 0] }
    ∧ contentUnusable room { kind := kSafety, hdr := fire, payload := bytes [0, 4, 0] }
    ∧ contentUnusable room { kind := kQuery, hdr := asker, payload := bytes [0] } := by
  refine ⟨by decide +kernel, by decide +kernel, ?_, by decide +kernel, ?_, ?_, ?_, ?_, ?_⟩
  · unfold asksUnknown; decide
  · exact .inl ⟨rfl, by decide +kernel, fun a r e => by cases e; decide⟩
  · exact .inl ⟨rfl, by decide +kernel, fun a r e => by cases e; decide⟩
  · exact .inr (.inl ⟨rfl, fun a m r e => by cases e; decide⟩)
  · exact .inr (.inl ⟨rfl, fun a m r e => by cases e; decide⟩)
  · exact .inr (.inr ⟨rfl, by decide⟩)

/-- A part that owes a deferral, one whose deferral has run out, and one that is sending, with a key waiting behind. -/
theorem witness_LineAndAttempts :
    (let s := { room with bus := { room.bus with lineIdle := false, control := [entry kDemand], routine := [entry kReport] } }
     powered s = true ∧ s.bus.sending = none ∧ s.bus.lineIdle = false ∧ maySpeak s = true ∧ s.bus.deferral = none
      ∧ s.bus.control ≠ [] ∧ maySpeak { s with listening := true } = false)
    ∧ (let s := { room with bus := { room.bus with lineIdle := false, routine := [entry kReport] } }
       s.bus.control = [] ∧ s.bus.routine ≠ [])
    ∧ (let d : Deferral := { cls := .routine, elapsed := 73, len := 73 }
       let s := { room with bus := { room.bus with routine := [entry kReport], deferral := some d } }
       powered s = true ∧ s.bus.lineIdle = true ∧ maySpeak s = true ∧ s.bus.sending = none ∧ s.bus.deferral = some d ∧ d.len = d.elapsed
        ∧ queueOf s.bus d.cls = [entry kReport])
    ∧ (∀ n ∈ [0, 6, 7],
        let e : QueueEntry := { entry kDemand with attempts := n }
        let s := { room with bus := { room.bus with lineIdle := false, sending := some .control, control := [e, entry kJoinKeep, entry kDemand] } }
        powered s = true ∧ s.bus.sending = some .control ∧ queueOf s.bus .control = e :: [entry kJoinKeep, entry kDemand]
          ∧ (e.attempts < 7 ∨ 7 ≤ e.attempts)
          ∧ (∀ x ∈ [entry kJoinKeep], sameKey x.telegram e.telegram = false) ∧ sameKey (entry kDemand).telegram e.telegram = true)
    ∧ (let x : OutTelegram := { kind := 63, scope := 3, dest := 63, payload := List.replicate 24 0 }
       63 < 64 ∧ x.kind < 64 ∧ x.scope < 4 ∧ x.dest < 64 ∧ x.payload.length = 24)
    ∧ (1 : BitVec 16) ≠ 0 := by decide +kernel

/-- A full queue of a class, whose head is being sent where `busy`. -/
def fullBus (kind : Nat) (busy : Bool) : Bus :=
  { room.bus with
    control := List.replicate 8 (entry kind), routine := List.replicate 8 (entry kReport)
    sending := if busy then some .routine else none }

theorem witness_QueuesKeepTheirRules :
    ((fullBus kJoinClaim false).routine.length = 8 ∧ (fullBus kJoinClaim false).sending ≠ some .routine
      ∧ (fullBus kJoinClaim true).sending = some .routine ∧ room.bus.routine.length < 8 ∧ (entry kReport).telegram.kind = kReport)
    ∧ (waitingOf (fullBus kJoinClaim false) .control = List.replicate 8 (entry kJoinClaim) ++ []
      ∧ (∀ e ∈ List.replicate 8 (entry kJoinClaim), sameKey e.telegram (entry kDemand).telegram = false)
      ∧ (∀ e ∈ List.replicate 8 (entry kJoinClaim), e.telegram.kind ≠ kJoinKeep) ∧ (fullBus kJoinClaim false).control.length = 8)
    ∧ (waitingOf (fullBus kDemand false) .control = [] ++ entry kDemand :: List.replicate 7 (entry kDemand)
      ∧ sameKey (entry kDemand).telegram (entry kDemand).telegram = true)
    ∧ (waitingOf (fullBus kJoinKeep false) .control = ([] ++ entry kJoinKeep :: List.replicate 7 (entry kJoinKeep)) ++ []
      ∧ (entry kJoinKeep).telegram.kind = kJoinKeep)
    ∧ (waitingOf room.bus .control = [] ++ [] ∧ room.bus.control.length < 8) := by decide +kernel

theorem inv_room : Inv room :=
  { memory := rfl
    queues := by unfold QueuesBounded; decide +kernel
    eventQueue := by unfold EventQueueBounded; decide +kernel
    peers := by unfold PeersBounded; decide +kernel
    writeQueue := by unfold WriteQueueBounded; decide +kernel
    list := by unfold ListBounded; decide +kernel
    counts := ⟨by decide +kernel, fun _ h => by cases h⟩
    calendar := by unfold CalendarOk; decide +kernel
    clockFault := fun _ => rfl
    silent := by unfold SilentOk; decide +kernel
    backup := fun h => absurd h (by decide +kernel) }

theorem witness_InvKeptByEveryStep :
    Inv { room with pending := [.beamBreak 1 .outer] } ∧ ∃ t, step { room with pending := [.beamBreak 1 .outer] } = .next t :=
  ⟨{ memory := inv_room.memory, queues := inv_room.queues, eventQueue := inv_room.eventQueue, peers := inv_room.peers
     writeQueue := inv_room.writeQueue, list := inv_room.list, counts := inv_room.counts, calendar := inv_room.calendar
     clockFault := inv_room.clockFault, silent := inv_room.silent, backup := inv_room.backup }, _, rfl⟩

end Sys2Proof.Tests
end

