-- ==== Sys2Proof/Proofs/Weekday.lean ====
section
/-! PROOF. The day number of R5 under the day carry of R4 and R6, and the weekday that STATUS carries (R193). -/

namespace Sys2Proof.Machine

/-! ### Days before a month and before a year -/

theorem daysBeforeMonth_january (y : Nat) : daysBeforeMonth y 1 = 0 := rfl

theorem daysBeforeMonth_succ (y : Nat) {m : Nat} (h : 1 ≤ m) :
    daysBeforeMonth y (m + 1) = daysBeforeMonth y m + monthLength y m := by
  obtain ⟨k, rfl⟩ := Nat.exists_eq_add_of_le' h
  simp [daysBeforeMonth, List.range_succ]

/-- The month lengths of R4 add up to the length of the year. -/
theorem daysBeforeMonth_yearEnd (y : Nat) : daysBeforeMonth y 13 = if isLeap y then 366 else 365 := by
  cases hl : isLeap y <;> simp [daysBeforeMonth, List.range_succ, monthLength, hl]

theorem isLeap_iff (y : Nat) : isLeap y = true ↔ y % 4 = 0 ∧ y ≠ 2100 := by
  simp [isLeap]

/-- Within the range of R4 the closed form of `daysBeforeYear` grows by the length of each year, the common year 2100 included. -/
theorem daysBeforeYear_succ {y : Nat} (h : 2000 ≤ y) (h' : y ≤ 2199) :
    daysBeforeYear (y + 1) = daysBeforeYear y + daysBeforeMonth y 13 := by
  rw [daysBeforeMonth_yearEnd]
  simp only [isLeap_iff, daysBeforeYear]
  by_cases hl : y % 4 = 0 ∧ y ≠ 2100
  · rw [if_pos hl]
    split <;> split <;> omega
  · rw [if_neg hl]
    split <;> split <;> omega

/-! ### The day after -/

theorem validDate_iff (y m d : Nat) : validDate y m d = true ↔
    2000 ≤ y ∧ y ≤ 2199 ∧ 1 ≤ m ∧ m ≤ 12 ∧ 1 ≤ d ∧ d ≤ monthLength y m := by
  simp only [validDate, decide_eq_true_eq]

theorem dayNumber_nextDay {t : DateTime} (h : validDate t.year t.month t.day = true) :
    dayNumber (nextDay t).year (nextDay t).month (nextDay t).day = dayNumber t.year t.month t.day + 1 := by
  obtain ⟨hy, hy', hm, hm', hd, hd'⟩ := (validDate_iff _ _ _).mp h
  have hmonth := daysBeforeMonth_succ t.year hm
  unfold nextDay dayNumber
  split
  case isTrue => dsimp only; omega
  case isFalse hlast =>
    have hday : t.day = monthLength t.year t.month := by omega
    split
    case isTrue => dsimp only; omega
    case isFalse hdec =>
      have hdecember : t.month = 12 := by omega
      rw [hdecember] at hmonth hday ⊢
      dsimp only
      rw [daysBeforeYear_succ hy hy', daysBeforeMonth_january, hmonth]
      omega

/-! ### The weekday in STATUS -/

theorem byteOf_toNat_mod_eight (n : Nat) : (byteOf n).toNat % 8 = n % 8 := by
  simp only [byteOf, BitVec.toNat_ofNat]
  omega

theorem calWeekday_lt (c : Calendar) : calWeekday c < 7 := Nat.mod_lt _ (by decide)

theorem statusPart1_flags (s : State) :
    (statusPart1 s).getD 6 0 = byteOf (calWeekday s.cal + bitIf s.cal.running 8 + 16 * (offTimeReport s.cal.offTime).1) := rfl

/-- The low three bits of the flags byte are the weekday: RUNNING and the off-time unit stand above them. -/
theorem statusPart1_weekday (s : State) : ((statusPart1 s).getD 6 0).toNat % 8 = calWeekday s.cal := by
  rw [statusPart1_flags, byteOf_toNat_mod_eight]
  have hw := calWeekday_lt s.cal
  unfold bitIf
  split <;> omega

/-! ### The statement -/

/-- Settles O11: the day number steps by one along the carries of `nextDay`, and STATUS carries the weekday of that number. -/
theorem weekdayFollowsTheDate : Obligations.WeekdayFollowsTheDate :=
  ⟨rfl, fun _ h => dayNumber_nextDay h, statusPart1_weekday⟩

end Sys2Proof.Machine
end

