-- ==== Sys2Proof/Proofs/Lux.lean ====
section
/-! PROOF. The lux hold and the lux in use (R102, R103), and the zone targets that every change of them forms again (R104). -/

namespace Sys2Proof.Machine

/-! ### Forming the targets -/

/-- A room target reads the panel hold and the lux in use, and nothing else of the Light Unit. -/
theorem roomTarget_congr {l l' : Light} (hhold : l'.hold = l.hold) (hlux : l'.lux = l.lux) (sc : SceneCfg) (i : Nat)
    (c : ZoneCfg) : roomTarget l' sc i c = roomTarget l sc i c := by
  unfold roomTarget overrideOf
  rw [hhold, hlux]

theorem nth1_eq_some_iff {α : Type} {l : List α} {i : Nat} {x : α} : nth1 l i = some x ↔ i ≠ 0 ∧ l[i - 1]? = some x := by
  unfold nth1
  split <;> simp [*]

theorem formTargets_light (s : State) : (formTargets s).light = formZones s := rfl

theorem formTargets_targetsFormed (s : State) : targetsFormed (formTargets s) := by
  obtain ⟨hevacuate, hroom⟩ := formZones_spec s
  obtain ⟨hlux, -, hhold, hscene⟩ := formZones_keeps s
  unfold targetsFormed
  simp only [formTargets_service, formTargets_listening, formTargets_cfg, formTargets_light, hscene, nth1_eq_some_iff]
  constructor
  · intro he z hz
    rw [hevacuate he, List.mem_map] at hz
    obtain ⟨_, -, rfl⟩ := hz
    rfl
  · rintro he hm hl sc i z c hsc ⟨hi, hz⟩ ⟨-, hc⟩
    rw [hroom he hm hl sc hsc] at hz
    have hplace : 1 + (i - 1) = i := by omega
    calc z.target = roomTarget { s.light with override := .none } sc (1 + (i - 1)) c := fadeZones_target _ _ _ _ _ _ _ hz hc
      _ = roomTarget { s.light with override := .none } sc i c := by rw [hplace]
      _ = roomTarget (formZones s) sc i c := (roomTarget_congr hhold hlux sc i c).symm

/-- The end of an event leaves all that the targets are formed from, and the zones. -/
theorem endEvent_targetsFormed (before : State) {s : State} (h : targetsFormed s) : targetsFormed (endEvent before s) := by
  have hand := endEvent_handedOn before s
  unfold targetsFormed
  rw [hand.service, hand.listening, hand.cfg, (endEvent_keepsOutputs before s).light]
  exact h

/-! ### The lux in use -/

theorem takeLux_lu_of_none (now : Stamp) (v : Nat) {l : LuxHold} (h : l.lu = none) : (takeLux now v l).lu = some v := by
  simp [takeLux, h]

/-- The hysteresis of R103: the two truncated differences add up to the distance. -/
theorem takeLux_lu_of_some (now : Stamp) (v : Nat) {l : LuxHold} {u : Nat} (h : l.lu = some u) :
    (takeLux now v l).lu = some (if v + 20 ≤ u ∨ u + 20 ≤ v then v else u) := by
  have hdistance : 20 ≤ (v - u) + (u - v) ↔ v + 20 ≤ u ∨ u + 20 ≤ v := by omega
  simp [takeLux, h, hdistance]

/-! ### A change of the lux hold -/

/-- The state with another lux hold and the LUX fault as given. -/
def withLux (x : LuxHold) (fault : Bool) (s : State) : State :=
  { s with light := { s.light with lux := x }, faults := { s.faults with lux := fault } }

theorem luxArrives_eq (v : Nat) (s : State) :
    luxArrives v s = formTargets (withLux (takeLux (nowOf s) v s.light.lux) false s) := rfl

theorem luxLapses_eq (s : State) : luxLapses s = formTargets (withLux (loseLux s.light.lux) true s) := rfl

/-- `t` is `s` after an event that gave it the lux hold `x` and the LUX fault as given: the targets are formed again, and the rest is
handed on. -/
structure LuxChanged (x : LuxHold) (fault : Bool) (s t : State) : Prop where
  targets : targetsFormed t
  lux : t.light.lux = x
  handed : HandedOn (withLux x fault s) t
  tt : t.tt = s.tt
  air : t.air = s.air
  blind : t.blind = s.blind
  scene : t.light.scene = s.light.scene
  hold : t.light.hold = s.light.hold

theorem endEvent_luxChanged (x : LuxHold) (fault : Bool) (s : State) :
    LuxChanged x fault s (endEvent s (formTargets (withLux x fault s))) := by
  obtain ⟨hlux, -, hhold, hscene⟩ := formZones_keeps (withLux x fault s)
  obtain ⟨htt, hair, hlight, hblind⟩ := endEvent_keepsOutputs s (formTargets (withLux x fault s))
  exact
    { targets := endEvent_targetsFormed s (formTargets_targetsFormed _)
      lux := (congrArg Light.lux hlight).trans hlux
      handed := (formTargets_handedOn _).trans (endEvent_handedOn s _)
      tt := htt
      air := hair
      blind := hblind
      scene := (congrArg Light.scene hlight).trans hscene
      hold := (congrArg Light.hold hlight).trans hhold }

/-! ### The two commands -/

theorem validLux_eq_none_iff (lux : Option Nat) : validLux lux = none ↔ ∀ v, lux = some v → 2000 < v := by
  cases lux <;> simp [validLux]

theorem exec_luxSample_valid {s : State} {v : Nat} (htakes : takesFields s = true) (hv : v ≤ 2000) :
    exec (.luxSample (some v)) s =
      .next (endEvent s (formTargets (withLux (takeLux (nowOf s) v s.light.lux) false s))) := by
  have hvalid : validLux (some v) = some v := if_pos hv
  change execLuxSample (some v) s = _
  simp [execLuxSample, htakes, hvalid, luxArrives_eq]

theorem exec_luxSample_discarded {s : State} {lux : Option Nat} (htakes : takesFields s = true)
    (hlux : ∀ v, lux = some v → 2000 < v) : exec (.luxSample lux) s = .next (luxDiscarded s) := by
  change execLuxSample lux s = _
  simp [execLuxSample, htakes, (validLux_eq_none_iff lux).mpr hlux]

theorem exec_luxHoldExpiry_due {s : State} {since : Stamp} (hpowered : powered s = true)
    (hhold : s.light.lux.hold = some since) (hdue : 10000 ≤ elapsed since (nowOf s)) :
    exec .luxHoldExpiry s = .next (endEvent s (formTargets (withLux (loseLux s.light.lux) true s))) := by
  change execLuxHoldExpiry s = _
  simp [execLuxHoldExpiry, hpowered, ranOut, hhold, hdue, luxLapses_eq]

/-! ### The statement -/

/-- Settles O37: each command that is taken ends an event that set the lux hold and formed the targets, and the hysteresis of
`takeLux` gives the lux in use; a sample that is not valid steps its count alone. -/
theorem luxIsHeld : Obligations.LuxIsHeld := by
  refine ⟨fun s v htakes hv => ?_, fun _ _ htakes hlux => exec_luxSample_discarded htakes hlux,
    fun s since hpowered hrunning hdue => ?_⟩
  · obtain ⟨htargets, hlux, hhanded, htt, hair, hblind, hscene, hhold⟩ :=
      endEvent_luxChanged (takeLux (nowOf s) v s.light.lux) false s
    refine ⟨_, exec_luxSample_valid htakes hv, htargets, ?_, ?_, ?_, ?_, htt, hair, hblind, hscene, hhold⟩ <;> rw [hlux]
    · rfl
    · exact takeLux_lu_of_none _ v
    · exact fun _ => takeLux_lu_of_some _ v
    · exact hhanded
  · obtain ⟨htargets, hlux, hhanded, htt, hair, hblind, hscene, hhold⟩ := endEvent_luxChanged (loseLux s.light.lux) true s
    refine ⟨_, exec_luxHoldExpiry_due hpowered hrunning hdue, htargets, hlux, ?_, htt, hair, hblind, hscene, hhold⟩
    rw [hlux]
    exact hhanded

end Sys2Proof.Machine
end

