-- ==== Sys2Proof/Proofs/Invariants.lean ====
section
/-! PROOF. Every command keeps the invariant, command by command from the invariant lemmas of the operations, and so does every step. -/

namespace Sys2Proof.Machine

/-! ### Pieces of an event -/

/-- A guarded event: where the guard fails nothing changes. -/
theorem inv_eventIf {s x : State} (c : Prop) [Decidable c] (h : Inv s) (hx : Inv x) : Inv (if c then endEvent s x else s) :=
  inv_ite c (inv_endEvent s hx) h

/-- The queue of waiting commands stands in no clause of the invariant. -/
theorem Inv.ofPending {s : State} (h : Inv s) (l : List Instr) : Inv { s with pending := l } :=
  ⟨h.memory, h.queues, h.eventQueue, h.peers, h.writeQueue, h.list, h.counts, h.calendar, h.clockFault, h.silent, h.backup⟩

theorem Inv.ofLightFaults {s : State} (h : Inv s) (l : Light) (f : Faults) (hf : f.clockStopped = s.faults.clockStopped) :
    Inv { s with light := l, faults := f } :=
  Inv.ofLight (h.ofFaults f hf) l

theorem Inv.ofAirFaults {s : State} (h : Inv s) (a : Air) (f : Faults) (ha : a.peers.length ≤ 24)
    (hf : f.clockStopped = s.faults.clockStopped) : Inv { s with air := a, faults := f } :=
  Inv.ofAir (h.ofFaults f hf) a ha

theorem Inv.ofPinsPresence {s : State} (h : Inv s) (x : Pins) (p : Presence) (hq : p.queue.length ≤ 16) (hn : p.n ≤ 300) :
    Inv { s with pins := x, presence := p } :=
  Inv.ofPresence (h.ofPins x) p hq hn

theorem inv_formBlinds {s : State} (h : Inv s) : Inv (formBlinds s) := h.ofKeepsRest (formBlinds_handedOn s).toKeepsRest

theorem inv_formFacade (n : Nat) {s : State} (h : Inv s) : Inv (formFacade n s) :=
  h.ofKeepsRest (formFacade_handedOn n s).toKeepsRest

theorem inv_formTargets {s : State} (h : Inv s) : Inv (formTargets s) := h.ofKeepsRest (formTargets_handedOn s).toKeepsRest

theorem inv_updateHold {s : State} (h : Inv s) : Inv (updateHold s) := h.ofKeepsRest (updateHold_keepsRest s)

theorem inv_tryClaim {s : State} (h : Inv s) : Inv (tryClaim s) := h.ofKeepsRest (tryClaim_keepsRest s)

theorem inv_changePartition (p : Nat) (f : Partition → Partition) {s : State} (h : Inv s) : Inv (changePartition p f s) :=
  h.ofKeepsRest (changePartition_keepsRest p f s)

theorem inv_returnSolo (p st r) {s : State} (h : Inv s) : Inv (returnSolo p st r s) := h.ofKeepsRest (returnSolo_keepsRest p st r s)

theorem inv_sendRelease (p : Nat) {s : State} (h : Inv s) : Inv (sendRelease p s) :=
  h.ofKeepsRest (sendRelease_handedOn p s).toKeepsRest

theorem inv_deferIfWaiting {s : State} (h : Inv s) : Inv (deferIfWaiting s) :=
  h.ofKeepsRest (deferIfWaiting_handedOn s).toKeepsRest

/-! ### The Timetable and the journal -/

theorem inv_slotCompletes {s : State} (h : Inv s) : Inv (slotCompletes s) := by
  unfold slotCompletes
  split
  · exact inv_endImageWait (inv_slotWritten h)
  · exact inv_compactionWritten h
  · exact h

theorem inv_slotFails {s : State} (h : Inv s) : Inv (slotFails s) := by
  unfold slotFails
  split
  · exact inv_endImageWait (inv_slotFailed h)
  · exact inv_compactionBroken h
  · exact h

/-- What CALENDAR_ADVANCE leaves. -/
theorem inv_calendarAdvances {s : State} (h : Inv s) :
    Inv (if !advanceDue s.cal then s else if powered s then endEvent s (advancePowered s) else advanceUnpowered s) := by
  split
  · exact h
  next hdue =>
    have hdue : advanceDue s.cal = true := by simpa using hdue
    split
    next hp => exact inv_endEvent s (inv_advancePowered h hdue hp)
    next hp => exact inv_advanceUnpowered h hdue (by simpa using hp)

/-! ### The Presence Unit -/

theorem inv_beamBreaks (d : Nat) (b : Beam) {s : State} (h : Inv s) : Inv (beamBreaks d b s) := by
  unfold beamBreaks
  refine inv_ite _ h (inv_ite _ (inv_endEvent s (inv_doorTakesBreak d b (h.ofPins _))) (h.ofPins _))

theorem inv_beamClears (d : Nat) (b : Beam) {s : State} (h : Inv s) : Inv (beamClears d b s) := by
  unfold beamClears
  exact inv_ite _ h (inv_ite _ (h.ofPinsPresence _ _ h.eventQueue h.counts.1) (h.ofPins _))

theorem inv_passLimitRunsOut (d : Nat) {s : State} (h : Inv s) : Inv (passLimitRunsOut d s) :=
  h.ofPresence _ h.eventQueue h.counts.1

theorem inv_motionAges (z : Nat) {s : State} (h : Inv s) : Inv (motionAges z s) :=
  inv_formHeadcount (h.ofPresence _ h.eventQueue h.counts.1)

theorem inv_co2Arrives (c : Nat) {s : State} (h : Inv s) : Inv (co2Arrives c s) := inv_co2Handed _ _ h rfl rfl rfl

theorem inv_co2Lapses {s : State} (h : Inv s) : Inv (co2Lapses s) := inv_co2Handed _ _ h rfl rfl rfl

theorem inv_co2Sampled (ppm : Option Nat) {s : State} (h : Inv s) :
    Inv (if !takesFields s then s
      else match validCo2 ppm with
        | some c => endEvent s (co2Arrives c s)
        | none => co2Discarded s) := by
  refine inv_ite _ h ?_
  split
  · exact inv_endEvent s (inv_co2Arrives _ h)
  · exact h.ofPresence _ h.eventQueue h.counts.1

theorem inv_vacancyRunsOut {s : State} (h : Inv s) : Inv (vacancyRunsOut s) :=
  inv_ite _ (h.ofPresence _ h.eventQueue h.counts.1)
    (inv_formHeadcount (inv_changePresence _ h (vacancyExpires_keepsDoors s.presence)))

theorem inv_vacatingRunsOut {s : State} (h : Inv s) : Inv (vacatingRunsOut s) :=
  inv_ite _ (h.ofPresence _ h.eventQueue h.counts.1)
    (inv_formHeadcount (inv_changePresence _ h (vacatingExpires_keepsDoors s.presence)))

/-! ### Air, light and blinds -/

theorem inv_peersMarked (st : Nat) {s : State} (h : Inv s) :
    Inv (settle { s with air := { s.air with peers := markStale st s.air.peers } }) := by
  refine inv_settle (h.ofAir _ ?_)
  rw [markStale, List.length_map]
  exact h.peers

theorem inv_peerRemoved (st : Nat) {s : State} (h : Inv s) :
    Inv (settle { s with air := { s.air with peers := removePeer st s.air.peers } }) :=
  inv_settle (h.ofAir _ ((List.length_filter_le _ _).trans h.peers))

theorem inv_capacityLapses {s : State} (h : Inv s) : Inv (capacityLapses s) :=
  inv_settle (h.ofAirFaults _ _ h.peers rfl)

theorem inv_composeDemand {s : State} (h : Inv s) : Inv (composeDemand s) := h.ofKeepsRest (composeDemand_handedOn s).toKeepsRest

theorem refreshDamper_peers (s : State) : (refreshDamper s).peers = s.air.peers := by
  unfold refreshDamper writeDamper
  split <;> rfl

theorem inv_refreshDamper {s : State} (h : Inv s) : Inv { s with air := refreshDamper s } :=
  h.ofAir _ ((refreshDamper_peers s).symm ▸ h.peers)

theorem inv_luxSampled (lux : Option Nat) {s : State} (h : Inv s) :
    Inv (if !takesFields s then s
      else match validLux lux with
        | some v => endEvent s (luxArrives v s)
        | none => luxDiscarded s) := by
  refine inv_ite _ h ?_
  split
  · exact inv_endEvent s (inv_formTargets (h.ofLightFaults _ _ rfl))
  · exact h.ofLight _

theorem inv_luxLapses {s : State} (h : Inv s) : Inv (luxLapses s) := inv_formTargets (h.ofLightFaults _ _ rfl)

theorem inv_changeMotor (n : Nat) (f : MotorCfg → Motor → Motor) {s : State} (h : Inv s) : Inv (changeMotor s n f) := by
  unfold changeMotor
  split
  · exact h
  · exact h.ofBlind _

/-! ### Joins -/

theorem inv_contactMoves (p : Nat) (high : Bool) {s : State} (h : Inv s) : Inv (contactMoves p high s) := by
  unfold contactMoves
  split
  · exact inv_ite _ h (inv_updateHold (inv_changePartition p _ h))
  · exact h

theorem inv_debouncedOpen (p : Nat) (st : PartitionState) {s : State} (h : Inv s) : Inv (debouncedOpen p st s) := by
  cases st
  case closed => exact inv_tryClaim (inv_changePartition p _ h)
  all_goals exact h

theorem inv_debouncedClosed (p : Nat) (st : PartitionState) {s : State} (h : Inv s) : Inv (debouncedClosed p st s) := by
  cases st
  case claiming => exact inv_tryClaim (inv_changePartition p _ h)
  case blocked => exact inv_changePartition p _ h
  case lead | follow => exact inv_returnSolo p _ _ (inv_sendRelease p h)
  case closed | notConfigured => exact h

theorem inv_debounceEnds (p : Nat) {s : State} (h : Inv s) : Inv (debounceEnds p s) := by
  unfold debounceEnds
  split
  · exact h
  next x _ =>
    have ht := inv_changePartition p debounced h
    exact inv_updateHold (inv_ite _ ht (inv_ite _ (inv_debouncedOpen p x.state ht) (inv_debouncedClosed p x.state ht)))

theorem inv_claimRunsOut (p : Nat) {s : State} (h : Inv s) : Inv (claimRunsOut p s) :=
  inv_updateHold (inv_ite _ (h.ofKeepsRest (claimAgain_keepsRest p s)) (h.ofKeepsRest (claimFails_keepsRest p s)))

theorem inv_retryRunsOut (p : Nat) {s : State} (h : Inv s) : Inv (retryRunsOut p s) :=
  inv_updateHold (inv_tryClaim (inv_changePartition p _ h))

theorem inv_keepRunsOut {s : State} (h : Inv s) : Inv (keepRunsOut s) := by
  unfold keepRunsOut
  split
  · exact inv_ite _ (inv_sendJoin _ _ _ h) h
  · exact h

theorem inv_orphanRunsOut {s : State} (h : Inv s) : Inv (orphanRunsOut s) := by
  unfold orphanRunsOut
  split
  · exact inv_ite _ (inv_updateHold (inv_returnSolo _ _ _ (inv_sendRelease _ h))) h
  · exact h

/-! ### The wing bus -/

theorem inv_charsEvent (frame : List RxChar) {s : State} (h : Inv s) : Inv (charsEvent frame s) := by
  unfold charsEvent
  split
  · exact inv_frameEvent h _ _ (fun _ hx => hx)
  · exact inv_frameEvent h _ _ (fun _ hx => inv_handTelegram _ hx)

theorem inv_emptyIdle {s : State} (h : Inv s) : Inv (emptyIdle s) :=
  inv_ite _ h (inv_deferIfWaiting (h.ofLine rfl rfl rfl (.inr rfl)))

theorem inv_idleEvent (frame : Option (List RxChar)) {s : State} (h : Inv s) :
    Inv (match frame with | none => emptyIdle s | some f => charsEvent f s) := by
  cases frame with
  | none => exact inv_emptyIdle h
  | some f => exact inv_charsEvent f h

theorem deferralDue_speaks {s : State} {c : TxClass} (h : deferralDue s = some c) : maySpeak s = true := by
  unfold deferralDue at h
  split at h
  · cases h
  next hn => simp at hn; exact hn.1.2

theorem inv_attemptDue {s : State} (h : Inv s) :
    Inv (match deferralDue s with | none => s | some c => { s with bus := beginAttempt s.station c s.bus }) := by
  split
  · exact h
  next c hdue => exact inv_beginAttempt c h (deferralDue_speaks hdue)

theorem oweYield_fields (c : TxClass) (b : Bus) :
    (oweYield c b).control = b.control ∧ (oweYield c b).routine = b.routine ∧ (oweYield c b).deferral = b.deferral := by
  cases c <;> exact ⟨rfl, rfl, rfl⟩

theorem setQueue_deferral (b : Bus) (c : TxClass) (q : List QueueEntry) : (setQueue b c q).deferral = b.deferral := by
  cases c <;> rfl

theorem sendDone_bounded {b : Bus} (h : BusBounded b) (c : TxClass) : BusBounded (sendDone c b) := by
  have hq : ((queueOf b c).drop 1).length ≤ 8 := by
    rw [List.length_drop]
    exact (Nat.sub_le _ _).trans (queueOf_bounded h c)
  obtain ⟨hcontrol, hroutine, -⟩ := oweYield_fields c (setQueue b c ((queueOf b c).drop 1))
  have hset := setQueue_bounded h c hq
  exact ⟨hcontrol ▸ hset.1, hroutine ▸ hset.2⟩

/-- An attempt that ends takes BUSDE off; a part that may not speak has none under way. -/
theorem inv_attemptEnds {s : State} (h : Inv s) (f : TxClass → Bus → Bus) (hf : ∀ c, BusBounded (f c s.bus)) :
    Inv (match s.bus.sending with
      | none => s
      | some c => if powered s then { s with bus := f c s.bus } else s) := by
  split
  · exact h
  next c hsending =>
    exact inv_ite _ (h.ofBus _ (hf c) (fun hquiet => by simp [(h.silent hquiet).1] at hsending)) h

theorem collide_bounded {b : Bus} (h : BusBounded b) (c : TxClass) : BusBounded (collide c b) :=
  have hset := setQueue_bounded h c (length_collidedQueue _ (queueOf_bounded h c))
  ⟨hset.1, hset.2⟩

theorem inv_startBit {s : State} (h : Inv s) :
    Inv (if powered s && s.bus.sending.isNone then { s with bus := hearStart s.bus } else s) := by
  obtain ⟨hcontrol, hroutine, hsending, hdeferral⟩ := hearStart_fields s.bus
  exact inv_ite _ (h.ofLine hcontrol hroutine hsending (.inl hdeferral)) h

/-! ### Every command -/

/-- Every command runs to a next state, and that state meets the invariant. -/
theorem inv_exec (c : Instr) {s : State} (h : Inv s) : ∃ t, exec c s = .next t ∧ Inv t := by
  cases c with
  | powerUp w => exact ⟨_, rfl, inv_powerReturns h w⟩
  | powerLoss => exact ⟨_, rfl, inv_powerFails h⟩
  | pinResetAssert => exact ⟨_, rfl, inv_resetAsserted h⟩
  | pinResetRelease w => exact ⟨_, rfl, inv_resetReleased h w⟩
  | deferredResetEffect => exact ⟨_, rfl, inv_deferredReset h⟩
  | backupSupplyLoss => exact ⟨_, rfl, inv_backupFails h⟩
  | listenInEnd => exact ⟨_, rfl, inv_eventIf _ h (inv_endListen h)⟩
  | calendarAdvance => exact ⟨_, rfl, inv_calendarAdvances h⟩
  | time hd p => exact ⟨_, rfl, inv_telegramEvent h _ hd p _ (fun _ => inv_takeTime p)⟩
  | bookingPut hd p => exact ⟨_, rfl, inv_telegramEvent h _ hd p _ (fun _ => inv_takePut hd p)⟩
  | bookingDrop hd p => exact ⟨_, rfl, inv_telegramEvent h _ hd p _ (fun _ => inv_takeDrop hd p)⟩
  | noShowWindowExpiry id =>
    exact ⟨_, rfl, inv_eventIf _ h (inv_afterRecords (inv_overRecordsAt h _ (onWindowExpiry_keepsId id)))⟩
  | runoutCapExpiry id =>
    exact ⟨_, rfl, inv_eventIf _ h (inv_afterRecords (inv_overRecordsAt h _ (onCapExpiry_keepsId id)))⟩
  | slotWriteComplete => exact ⟨_, rfl, inv_eventIf _ h (inv_slotCompletes h)⟩
  | slotWriteFail => exact ⟨_, rfl, inv_eventIf _ h (inv_slotFails h)⟩
  | beamBreak d b => exact ⟨_, rfl, inv_beamBreaks d b h⟩
  | beamClear d b => exact ⟨_, rfl, inv_beamClears d b h⟩
  | passLimitExpiry d => exact ⟨_, rfl, inv_ite _ (inv_passLimitRunsOut d h) h⟩
  | doorFaultTimeout d b => exact ⟨_, rfl, inv_eventIf _ h (inv_doorFails d h)⟩
  | doorRecovery d => exact ⟨_, rfl, inv_eventIf _ h (inv_doorRecovers d h)⟩
  | motionPulse z => exact ⟨_, rfl, inv_eventIf _ h (inv_arriveEntry h _)⟩
  | motionAgeExpiry z => exact ⟨_, rfl, inv_eventIf _ h (inv_motionAges z h)⟩
  | co2Sample ppm => exact ⟨_, rfl, inv_co2Sampled ppm h⟩
  | co2HoldExpiry => exact ⟨_, rfl, inv_eventIf _ h (inv_co2Lapses h)⟩
  | vacancyTimerExpiry => exact ⟨_, rfl, inv_eventIf _ h (inv_vacancyRunsOut h)⟩
  | vacatingHoldExpiry => exact ⟨_, rfl, inv_eventIf _ h (inv_vacatingRunsOut h)⟩
  | demand hd p => exact ⟨_, rfl, inv_telegramEvent h _ hd p _ (fun _ => inv_takeDemand hd p)⟩
  | capacity hd p => exact ⟨_, rfl, inv_telegramEvent h _ hd p _ (fun _ => inv_takeCapacity hd p)⟩
  | peerStale st => exact ⟨_, rfl, inv_eventIf _ h (inv_peersMarked st h)⟩
  | peerRemove st => exact ⟨_, rfl, inv_eventIf _ h (inv_peerRemoved st h)⟩
  | capacityAgeExpiry => exact ⟨_, rfl, inv_eventIf _ h (inv_capacityLapses h)⟩
  | demandRefreshExpiry => exact ⟨_, rfl, inv_ite _ (inv_composeDemand h) h⟩
  | damperRefreshExpiry => exact ⟨_, rfl, inv_ite _ (inv_refreshDamper h) h⟩
  | luxSample lux => exact ⟨_, rfl, inv_luxSampled lux h⟩
  | luxHoldExpiry => exact ⟨_, rfl, inv_eventIf _ h (inv_luxLapses h)⟩
  | fadeEnd z => exact ⟨_, rfl, inv_ite _ (h.ofLight _) h⟩
  | panelScene hd r => exact ⟨_, rfl, inv_telegramEvent h _ hd _ _ (fun _ => inv_takePanel hd _)⟩
  | panelLevel hd r => exact ⟨_, rfl, inv_telegramEvent h _ hd _ _ (fun _ => inv_takePanel hd _)⟩
  | panelBlind hd r => exact ⟨_, rfl, inv_telegramEvent h _ hd _ _ (fun _ => inv_takePanel hd _)⟩
  | panelRelease hd r => exact ⟨_, rfl, inv_telegramEvent h _ hd _ _ (fun _ => inv_takePanel hd _)⟩
  | blindHoldExpiry m => exact ⟨_, rfl, inv_ite _ (inv_formBlinds (h.ofBlind _)) h⟩
  | runComplete m => exact ⟨_, rfl, inv_ite _ (inv_changeMotor m _ h) h⟩
  | referencingComplete m => exact ⟨_, rfl, inv_ite _ (inv_changeMotor m _ h) h⟩
  | lockedRunComplete m => exact ⟨_, rfl, inv_ite _ (inv_changeMotor m _ h) h⟩
  | pauseEnd m => exact ⟨_, rfl, inv_ite _ (inv_changeMotor m _ h) h⟩
  | sun hd p => exact ⟨_, rfl, inv_telegramEvent h _ hd p _ (fun _ => inv_takeSunTelegram hd p)⟩
  | sunAgeExpiry f => exact ⟨_, rfl, inv_ite _ (inv_formFacade f (h.ofBlind _)) h⟩
  | wind hd p => exact ⟨_, rfl, inv_telegramEvent h _ hd p _ (fun _ => inv_takeWindTelegram hd p)⟩
  | windHoldingExpiry f => exact ⟨_, rfl, inv_ite _ (inv_formFacade f (h.ofBlind _)) h⟩
  | partitionContactChange p high =>
    exact ⟨_, rfl, inv_ite _ (inv_endEvent s (inv_contactMoves p high (h.ofPins _))) (h.ofPins _)⟩
  | debounceExpiry p => exact ⟨_, rfl, inv_eventIf _ h (inv_debounceEnds p h)⟩
  | claimTimerExpiry p => exact ⟨_, rfl, inv_eventIf _ h (inv_claimRunsOut p h)⟩
  | retryTimerExpiry p => exact ⟨_, rfl, inv_eventIf _ h (inv_retryRunsOut p h)⟩
  | joinClaim hd p =>
    exact ⟨_, rfl, inv_telegramEvent h _ hd p _ (fun _ hx => inv_takeJoin hd _ hx (fun n => inv_useClaim _ p n hx))⟩
  | joinAccept hd p =>
    exact ⟨_, rfl, inv_telegramEvent h _ hd p _ (fun _ hx => inv_takeJoin hd _ hx (fun n => inv_useAccept p n hx))⟩
  | joinRefuse hd p =>
    exact ⟨_, rfl, inv_telegramEvent h _ hd p _ (fun _ hx => inv_takeJoin hd _ hx (fun n => inv_useRefuse p n hx))⟩
  | joinRelease hd p =>
    exact ⟨_, rfl, inv_telegramEvent h _ hd p _ (fun _ hx => inv_takeJoin hd _ hx (fun n => inv_useRelease p n hx))⟩
  | joinKeep hd p =>
    exact ⟨_, rfl, inv_telegramEvent h _ hd p _ (fun _ hx => inv_takeJoin hd _ hx (fun n => inv_useKeep p n hx))⟩
  | joinState hd p =>
    exact ⟨_, rfl, inv_telegramEvent h _ hd p _ (fun _ hx => inv_takeJoin hd _ hx (fun n => inv_useState _ p n hx))⟩
  | joinOrder hd p =>
    exact ⟨_, rfl, inv_telegramEvent h _ hd p _ (fun _ hx => inv_takeJoin hd _ hx (fun n => inv_useOrder p n hx))⟩
  | keepTimerExpiry => exact ⟨_, rfl, inv_ite _ (inv_keepRunsOut h) h⟩
  | orphanTimerExpiry => exact ⟨_, rfl, inv_eventIf _ h (inv_orphanRunsOut h)⟩
  | safetySet hd r => exact ⟨_, rfl, inv_telegramEvent h _ hd _ _ (fun _ => inv_takeSafety hd _)⟩
  | safetyClear hd r => exact ⟨_, rfl, inv_telegramEvent h _ hd _ _ (fun _ => inv_takeSafety hd _)⟩
  | serviceMask hd p => exact ⟨_, rfl, inv_telegramEvent h _ hd p _ (fun _ => inv_takeService hd p)⟩
  | serviceLock hd p => exact ⟨_, rfl, inv_telegramEvent h _ hd p _ (fun _ => inv_takeService hd p)⟩
  | serviceRestart hd p => exact ⟨_, rfl, inv_telegramEvent h _ hd p _ (fun _ => inv_takeService hd p)⟩
  | queryStatus hd => exact ⟨_, rfl, inv_telegramEvent h _ hd _ _ (fun _ => inv_takeQuery hd _)⟩
  | queryBookings hd page => exact ⟨_, rfl, inv_telegramEvent h _ hd _ _ (fun _ => inv_takeQuery hd _)⟩
  | queryPeers hd page => exact ⟨_, rfl, inv_telegramEvent h _ hd _ _ (fun _ => inv_takeQuery hd _)⟩
  | queryCounters hd => exact ⟨_, rfl, inv_telegramEvent h _ hd _ _ (fun _ => inv_takeQuery hd _)⟩
  | queryOutputs hd => exact ⟨_, rfl, inv_telegramEvent h _ hd _ _ (fun _ => inv_takeQuery hd _)⟩
  | queryIdentity hd => exact ⟨_, rfl, inv_telegramEvent h _ hd _ _ (fun _ => inv_takeQuery hd _)⟩
  | queryUnknownItem hd item page => exact ⟨_, rfl, inv_telegramEvent h _ hd _ _ (fun _ => inv_takeQuery hd _)⟩
  | unhandledTelegram frame => exact ⟨_, rfl, inv_charsEvent frame h⟩
  | idleEvent frame => exact ⟨_, rfl, inv_idleEvent frame h⟩
  | deferralExpiry => exact ⟨_, rfl, inv_attemptDue h⟩
  | transmitComplete => exact ⟨_, rfl, inv_attemptEnds h sendDone (sendDone_bounded h.queues)⟩
  | collision => exact ⟨_, rfl, inv_attemptEnds h collide (collide_bounded h.queues)⟩
  | startBit => exact ⟨_, rfl, inv_startBit h⟩

/-! ### The statements -/

/-- Settles O60: a step without a command is a tick, which keeps the invariant; any other is a command on the state with the queue's
rest, and `inv_exec` has each command. -/
theorem invKeptByEveryStep : Obligations.InvKeptByEveryStep := by
  intro s t h hstep
  unfold step at hstep
  split at hstep
  · cases hstep
    exact inv_tick h
  next c rest _ =>
    obtain ⟨t', hexec, ht⟩ := inv_exec c (h.ofPending rest)
    rw [hexec] at hstep
    cases hstep
    exact ht

/-- Settles O59: the memory and every queue are empty at reset, the counts are 0, and the calendar is STOPPED with its fault raised. -/
theorem invHoldsAtReset : Obligations.InvHoldsAtReset where
  memory := rfl
  queues := ⟨Nat.zero_le _, Nat.zero_le _⟩
  eventQueue := Nat.zero_le _
  peers := Nat.zero_le _
  writeQueue := Nat.zero_le _
  list := ⟨Nat.zero_le _, Nat.zero_le _⟩
  counts := ⟨Nat.zero_le _, fun _ h => nomatch h⟩
  calendar := rfl
  clockFault := fun _ => rfl
  silent := fun _ => ⟨rfl, rfl⟩
  backup := fun h => nomatch h

end Sys2Proof.Machine
end

