-- ==== Sys2Proof/Proofs/LockLatches.lean ====
section
/-! PROOF. The service lock and the mask under it (R158): what each operation leaves of the Safety and Service Unit. -/

namespace Sys2Proof.Machine

/-! ### What latches -/

/-- From `u` to `v` a set lock stays set, and the mask under it as it is. -/
structure Latched (u v : Service) : Prop where
  lock : u.lock = true → v.lock = true
  mask : u.lock = true → v.maskAir = u.maskAir ∧ v.maskLight = u.maskLight ∧ v.maskBlind = u.maskBlind

theorem Latched.refl (u : Service) : Latched u u := ⟨id, fun _ => ⟨rfl, rfl, rfl⟩⟩

theorem Latched.of_eq {u v : Service} (h : v = u) : Latched u v := h ▸ .refl u

theorem Latched.trans {u v w : Service} (a : Latched u v) (b : Latched v w) : Latched u w where
  lock := b.lock ∘ a.lock
  mask h := by
    obtain ⟨h1, h2, h3⟩ := a.mask h
    obtain ⟨k1, k2, k3⟩ := b.mask (a.lock h)
    exact ⟨k1.trans h1, k2.trans h2, k3.trans h3⟩

theorem Latched.ite (c : Prop) [Decidable c] {u : Service} {a b : State} (ha : Latched u a.service) (hb : Latched u b.service) :
    Latched u (if c then a else b).service := by
  split
  · exact ha
  · exact hb

theorem latched_eventIf {u : Service} {s x : State} (c : Prop) [Decidable c] (h : Latched u s.service) (hx : Latched u x.service) :
    Latched u (if c then endEvent s x else s).service :=
  .ite c ((endEvent_handedOn s x).service ▸ hx) h

/-! ### Operations that leave the unit alone -/

@[simp] theorem settle_service (s : State) : (settle s).service = s.service := (settle_handedOn s).service

@[simp] theorem endEvent_service (b s : State) : (endEvent b s).service = s.service := (endEvent_handedOn b s).service

@[simp] theorem afterRecords_service (s : State) : (afterRecords s).service = s.service := (afterRecords_handedOn s).service

@[simp] theorem formHeadcount_service (s : State) : (formHeadcount s).service = s.service := (formHeadcount_keepsRest s).service

@[simp] theorem takeOne_service (e : QueueEvent) (s : State) : (takeOne e s).service = s.service := (takeOne_keepsRest e s).service

@[simp] theorem changePresence_service (f : Presence → Presence) (s : State) : (changePresence f s).service = s.service :=
  (changePresence_handedOn f s).service

@[simp] theorem formHc_service (s : State) : (formHc s).service = s.service := (formHc_handedOn s).service

@[simp] theorem occHanded_service (o : Occupancy) (s : State) : (occHanded o s).service = s.service := (occHanded_handedOn o s).service

@[simp] theorem updateHold_service (s : State) : (updateHold s).service = s.service := (updateHold_keepsRest s).service

@[simp] theorem tryClaim_service (s : State) : (tryClaim s).service = s.service := (tryClaim_keepsRest s).service

@[simp] theorem returnSolo_service (p st r) (s : State) : (returnSolo p st r s).service = s.service :=
  (returnSolo_keepsRest p st r s).service

@[simp] theorem leaveJoin_service (p st r) (s : State) : (leaveJoin p st r s).service = s.service :=
  (leaveJoin_keepsRest p st r s).service

@[simp] theorem enterFollow_service (p q : Nat) (s : State) : (enterFollow p q s).service = s.service :=
  (enterFollow_keepsRest p q s).service

@[simp] theorem enterLead_service (p : Nat) (a : AcceptFields) (s : State) : (enterLead p a s).service = s.service :=
  (enterLead_keepsRest p a s).service

@[simp] theorem sendJoin_service (p k : Nat) (b : List Byte) (s : State) : (sendJoin p k b s).service = s.service :=
  (sendJoin_handedOn p k b s).service

@[simp] theorem sendRelease_service (p : Nat) (s : State) : (sendRelease p s).service = s.service := sendJoin_service _ _ _ _

@[simp] theorem sendRefuse_service (p r : Nat) (s : State) : (sendRefuse p r s).service = s.service := sendJoin_service _ _ _ _

@[simp] theorem claimAgain_service (p : Nat) (s : State) : (claimAgain p s).service = s.service := (claimAgain_keepsRest p s).service

@[simp] theorem claimFails_service (p : Nat) (s : State) : (claimFails p s).service = s.service := (claimFails_keepsRest p s).service

@[simp] theorem composeOrder_service (s : State) : (composeOrder s).service = s.service := (composeOrder_handedOn s).service

@[simp] theorem composeState_service (s : State) : (composeState s).service = s.service := (composeState_handedOn s).service

@[simp] theorem formFacade_service (n : Nat) (s : State) : (formFacade n s).service = s.service := rfl

@[simp] theorem firstForms_service (s : State) : (firstForms s).service = s.service := (firstForms_handedOn s).service

@[simp] theorem refreshSession_service (s : State) : (refreshSession s).service = s.service := (refreshSession_handedOn s).service

@[simp] theorem composeDemand_service (s : State) : (composeDemand s).service = s.service := (composeDemand_handedOn s).service

@[simp] theorem sendAll_service (l : List OutTelegram) (s : State) : (sendAll l s).service = s.service :=
  (sendAll_handedOn l s).service

@[simp] theorem overRecords_service (f : Booking → RecordResult) (s : State) : (overRecords f s).service = s.service :=
  sendAll_service _ _

@[simp] theorem overRecordsAt_service (f : EvalCtx → Booking → RecordResult) (s : State) :
    (overRecordsAt f s).service = s.service := by
  unfold overRecordsAt
  split
  · rfl
  · exact overRecords_service _ s

/-! ### The journal and starts -/

@[simp] theorem sendAnswerIf_service (a : Option Answer) (d : Nat) (s : State) : (sendAnswerIf a d s).service = s.service :=
  (sendAnswerIf_handedOn a d s).service

@[simp] theorem raiseJournalFull_service (s : State) : (raiseJournalFull s).service = s.service :=
  (reportNotWritten_handedOn _ _).service

@[simp] theorem startWrite_service (s : State) : (startWrite s).service = s.service := by
  unfold startWrite
  repeat' split
  all_goals simp

@[simp] theorem spoilSlot_service (w : SlotWrite) (s : State) : (spoilSlot w s).service = s.service := rfl

@[simp] theorem slotWritten_service (s : State) : (slotWritten s).service = s.service := by
  unfold slotWritten
  split
  · rfl
  · dsimp only
    split <;> simp

@[simp] theorem headNotWritten_service (s : State) : (headNotWritten s).service = s.service := by
  unfold headNotWritten
  split <;> simp

@[simp] theorem slotFailed_service (s : State) : (slotFailed s).service = s.service := by
  unfold slotFailed
  split
  · rfl
  · dsimp only
    split <;> simp

@[simp] theorem handEntries_service (es : List JournalEntry) (a : Answer) (s : State) : (handEntries es a s).service = s.service := by
  unfold handEntries
  split
  · rfl
  · simp

@[simp] theorem applyDecision_service (src id : Nat) (d : Decision) (s : State) : (applyDecision src id d s).service = s.service := by
  unfold applyDecision
  dsimp only
  split
  · rfl
  · simp

@[simp] theorem loadConfiguration_service (s : State) : (loadConfiguration s).service = s.service := rfl

@[simp] theorem rereadImage_service (old : Stamp) (s : State) : (rereadImage old s).service = s.service :=
  (rereadImage_reads old s).service

@[simp] theorem endImageWait_service (s : State) : (endImageWait s).service = s.service := by
  unfold endImageWait
  split <;> simp

@[simp] theorem derive_service (s : State) : (derive s).service = s.service := (onForward_derive s).service

@[simp] theorem finishStart_service (l : List Booking) (s : State) : (finishStart l s).service = s.service :=
  (finishStart_keepsStart l s).service

@[simp] theorem tearWrites_service (s : State) : (tearWrites s).service = s.service := by
  unfold tearWrites
  split <;> rfl

@[simp] theorem cutWrites_service (s : State) : (cutWrites s).service = s.service := by
  unfold cutWrites
  split <;> simp

@[simp] theorem holdPart_service (s : State) : (holdPart s).service = s.service := by
  change (cutWrites (recordLoss s)).service = _
  exact cutWrites_service _

@[simp] theorem compactionWritten_service (s : State) : (compactionWritten s).service = s.service := by
  unfold compactionWritten
  split
  · dsimp only
    split
    · rfl
    · exact finishStart_service _ _
  · rfl
  · rfl

@[simp] theorem compactionBroken_service (s : State) : (compactionBroken s).service = s.service := by
  unfold compactionBroken
  split
  · dsimp only
    split
    · rfl
    · exact finishStart_service _ _
  · rfl

@[simp] theorem serviceRestartNow_service (s : State) : (serviceRestartNow s).service = s.service := by
  unfold serviceRestartNow
  dsimp only
  split
  · simp only [rereadImage_service]; rfl
  · simp only [refreshSession_service]; rfl

/-! ### Commands that leave the unit alone -/

theorem powerFails_service (s : State) : (powerFails s).service = s.service := by
  unfold powerFails
  split
  · rfl
  · rfl
  · exact holdPart_service s

theorem resetAsserted_service (s : State) : (resetAsserted s).service = s.service := by
  unfold resetAsserted
  split
  · rfl
  · exact holdPart_service s
  · rfl

theorem deferredReset_service (s : State) : (deferredReset s).service = s.service := by
  unfold deferredReset
  split <;> simp

theorem backupFails_service (s : State) : (backupFails s).service = s.service := by
  unfold backupFails
  split <;> rfl

@[simp] theorem settleHoldScene_service (s : State) : (settleHoldScene s).service = s.service := by
  unfold settleHoldScene
  split
  · rfl
  · split <;> rfl

theorem endListen_service (s : State) : (endListen s).service = s.service := by
  have hair : (endListenAir s).service = s.service := (airLoop_handedOn _ _).service
  have hscene (x : State) : (selectScene x).service = x.service := (selectScene_handedOn x).service
  simp [endListen, hscene, hair]

@[simp] theorem boundaries_service (s : State) : (boundaries s).service = s.service := by
  unfold boundaries
  split
  · rfl
  · dsimp only
    split <;> simp

theorem advancePowered_service (s : State) : (advancePowered s).service = s.service := by
  unfold advancePowered
  dsimp only
  split
  · simp [clockStops, ttClockStop]
  · split <;> simp

theorem calendarAdvances_service (s : State) :
    (if !advanceDue s.cal then s else if powered s then endEvent s (advancePowered s) else advanceUnpowered s).service
      = s.service := by
  split
  · rfl
  · split
    · simp [advancePowered_service]
    · rfl

theorem slotCompletes_service (s : State) : (slotCompletes s).service = s.service := by
  unfold slotCompletes
  split <;> simp

theorem slotFails_service (s : State) : (slotFails s).service = s.service := by
  unfold slotFails
  split <;> simp

@[simp] theorem arriveEntry_service (e : QueueEvent) (s : State) : (arriveEntry e s).service = s.service := by
  unfold arriveEntry
  split <;> simp

theorem doorTakesBreak_service (d : Nat) (b : Beam) (s : State) : (doorTakesBreak d b s).service = s.service := by
  unfold doorTakesBreak
  split
  · rfl
  · dsimp only
    split <;> simp

theorem beamBreaks_service (d : Nat) (b : Beam) (s : State) : (beamBreaks d b s).service = s.service := by
  unfold beamBreaks
  split
  · rfl
  · dsimp only
    split
    · simp [doorTakesBreak_service]
    · rfl

theorem beamClears_service (d : Nat) (b : Beam) (s : State) : (beamClears d b s).service = s.service := by
  unfold beamClears
  split
  · rfl
  · dsimp only
    split <;> rfl

theorem co2Sampled_service (ppm : Option Nat) (s : State) :
    (if !takesFields s then s
      else match validCo2 ppm with
        | some c => endEvent s (co2Arrives c s)
        | none => co2Discarded s).service = s.service := by
  split
  · rfl
  · split
    · simp [co2Arrives]
    · rfl

theorem vacancyRunsOut_service (s : State) : (vacancyRunsOut s).service = s.service := by
  unfold vacancyRunsOut
  split <;> simp

theorem vacatingRunsOut_service (s : State) : (vacatingRunsOut s).service = s.service := by
  unfold vacatingRunsOut
  split <;> simp

theorem luxSampled_service (lux : Option Nat) (s : State) :
    (if !takesFields s then s
      else match validLux lux with
        | some v => endEvent s (luxArrives v s)
        | none => luxDiscarded s).service = s.service := by
  split
  · rfl
  · split
    · simp [luxArrives]
    · rfl

theorem changeMotor_service (s : State) (n : Nat) (f : MotorCfg → Motor → Motor) : (changeMotor s n f).service = s.service := by
  unfold changeMotor
  split <;> rfl

theorem contactMoves_service (p : Nat) (high : Bool) (s : State) : (contactMoves p high s).service = s.service := by
  unfold contactMoves
  split
  · split <;> simp
  · rfl

theorem contactChanges_service (p : Nat) (high : Bool) (s : State) :
    (if takesFields { s with pins := setPart s.pins p high }
      then endEvent s (contactMoves p high { s with pins := setPart s.pins p high })
      else { s with pins := setPart s.pins p high }).service = s.service := by
  split
  · simp [contactMoves_service]
  · rfl

theorem debouncedOpen_service (p : Nat) (st : PartitionState) (s : State) : (debouncedOpen p st s).service = s.service := by
  unfold debouncedOpen
  split <;> simp

theorem debouncedClosed_service (p : Nat) (st : PartitionState) (s : State) : (debouncedClosed p st s).service = s.service := by
  unfold debouncedClosed
  split <;> simp

theorem debounceEnds_service (p : Nat) (s : State) : (debounceEnds p s).service = s.service := by
  unfold debounceEnds
  split
  · rfl
  · dsimp only
    rw [updateHold_service]
    split
    · rfl
    · split
      · simp [debouncedOpen_service]
      · simp [debouncedClosed_service]

theorem claimRunsOut_service (p : Nat) (s : State) : (claimRunsOut p s).service = s.service := by
  unfold claimRunsOut
  rw [updateHold_service]
  split <;> simp

theorem keepRunsOut_service (s : State) : (keepRunsOut s).service = s.service := by
  unfold keepRunsOut
  split
  · split <;> simp
  · rfl

theorem orphanRunsOut_service (s : State) : (orphanRunsOut s).service = s.service := by
  unfold orphanRunsOut
  split
  · split <;> simp
  · rfl

/-! ### Telegrams that leave the unit alone -/

theorem takeTime_service (p : List Byte) (s : State) : (takeTime p s).service = s.service := by
  have hset (old : Calendar) (x : State) : (handSet old x).service = x.service := by
    unfold handSet
    repeat' split
    all_goals simp
  unfold takeTime
  split
  · rfl
  · split
    · simp [hset, setCalendar]
    · rfl

theorem ttPut_service (t : Telegram) (s : State) : (ttPut t s).service = s.service := by
  unfold ttPut
  split
  · rfl
  · split
    · rfl
    · split
      · rfl
      · dsimp only
        split <;> simp [evaluateStored]

theorem ttDrop_service (t : Telegram) (s : State) : (ttDrop t s).service = s.service := by
  unfold ttDrop
  split
  · rfl
  · split <;> simp

theorem takeDemand_service (h : RxHeader) (p : List Byte) (s : State) : (takeDemand h p s).service = s.service := by
  unfold takeDemand admitPeer
  split
  · rfl
  · split
    · rfl
    · split <;> simp

theorem takeCapacity_service (h : RxHeader) (p : List Byte) (s : State) : (takeCapacity h p s).service = s.service := by
  unfold takeCapacity setCapacity
  split
  · split <;> simp
  · rfl

theorem facadesTaken_service (h : RxHeader) (f : Facade → Facade) (s : State) : (facadesTaken h f s).service = s.service := by
  unfold facadesTaken
  split <;> simp

theorem takeSunTelegram_service (h : RxHeader) (p : List Byte) (s : State) : (takeSunTelegram h p s).service = s.service := by
  unfold takeSunTelegram
  split
  · split <;> simp [facadesTaken_service]
  · rfl

theorem takeWindTelegram_service (h : RxHeader) (p : List Byte) (s : State) : (takeWindTelegram h p s).service = s.service := by
  unfold takeWindTelegram
  split
  · split <;> simp [facadesTaken_service]
  · rfl

@[simp] theorem beginSceneHold_service (n : Nat) (s : State) : (beginSceneHold n s).service = s.service := rfl

@[simp] theorem beginLevelHold_service (s : State) : (beginLevelHold s).service = s.service := by
  unfold beginLevelHold
  split <;> rfl

@[simp] theorem setOverrides_service (s : State) (r : PanelRequest) (l : List Nat) : (setOverrides s r l).service = s.service := by
  unfold setOverrides
  split <;> rfl

theorem panelTaken_service (r : PanelRequest) (s : State) : (panelTaken r s).service = s.service := by
  cases r with
  | scene n =>
    change (panelSceneTaken n s).service = _
    unfold panelSceneTaken
    split <;> simp
  | levelAbs a v | levelStep a v => simp [panelTaken, panelLevelTaken]
  | blind m p =>
    change (panelBlindTaken m p s).service = _
    unfold panelBlindTaken
    repeat' split
    all_goals simp
  | release => simp [panelTaken, panelReleaseTaken]

theorem takePanel_service (h : RxHeader) (p : List Byte) (s : State) : (takePanel h p s).service = s.service := by
  unfold takePanel
  split
  · split
    · rfl
    · exact panelTaken_service _ s
  · rfl

theorem takeJoin_service (h : RxHeader) (use : Nat → State → State) (s : State) (huse : ∀ p, (use p s).service = s.service) :
    (takeJoin h use s).service = s.service := by
  unfold takeJoin
  split
  · rfl
  · split
    · rfl
    · simp [huse]

theorem useClaim_service (src : Nat) (pl : List Byte) (p : Nat) (s : State) : (useClaim src pl p s).service = s.service := by
  have hfollow (q : Nat) : (claimAtFollow p q s).service = s.service := by
    unfold claimAtFollow
    split
    · split <;> simp
    · rfl
  unfold useClaim
  split
  · unfold claimTaken
    repeat' split
    all_goals simp [hfollow]
  · rfl

theorem useAccept_service (pl : List Byte) (p : Nat) (s : State) : (useAccept pl p s).service = s.service := by
  unfold useAccept
  split
  · rfl
  · split <;> simp

theorem useRefuse_service (pl : List Byte) (p : Nat) (s : State) : (useRefuse pl p s).service = s.service := by
  unfold useRefuse
  split
  · split
    · rfl
    · split <;> simp
  · rfl

theorem useRelease_service (pl : List Byte) (p : Nat) (s : State) : (useRelease pl p s).service = s.service := by
  unfold useRelease
  split
  · split <;> simp
  · rfl

theorem useKeep_service (pl : List Byte) (p : Nat) (s : State) : (useKeep pl p s).service = s.service := by
  have hrepair (n : Nat) (x : State) : (keepRepair n x).service = x.service := by
    unfold keepRepair
    split
    · rfl
    · split <;> simp
  unfold useKeep
  split
  · split <;> simp [hrepair]
  · rfl

theorem requestTaken_service (n sc : Nat) (s : State) : (requestTaken n sc s).service = s.service := by
  unfold requestTaken
  split
  · rfl
  · split <;> simp

theorem stateTaken_service (f : StateFields) (s : State) : (stateTaken f s).service = s.service := by
  unfold stateTaken
  simp only [requestTaken_service, settle_service, changeGroup_service, occHanded_service, formOccupancy_service]
  split <;> simp

theorem useState_service (src : Nat) (pl : List Byte) (p : Nat) (s : State) : (useState src pl p s).service = s.service := by
  unfold useState
  split
  · rfl
  · split
    · rfl
    · split <;> simp [stateTaken_service]
    · simp

theorem useOrder_service (pl : List Byte) (p : Nat) (s : State) : (useOrder pl p s).service = s.service := by
  unfold useOrder
  split
  · rfl
  · split
    · rfl
    · split <;> simp [orderTaken]
    · simp

theorem takeQuery_service (h : RxHeader) (p : List Byte) (s : State) : (takeQuery h p s).service = s.service := by
  have hanswer (item page : Nat) (l : List (List Byte)) : (answerQuery h item page l s).service = s.service := sendAll_service _ _
  unfold takeQuery
  split
  · repeat' split
    all_goals exact hanswer _ _ _
  · rfl

/-! ### Telegrams to the unit itself -/

theorem latched_changeSafety (u : Service) (s : State) (h : Latched s.service u) : Latched s.service (changeSafety u s).service := by
  unfold changeSafety
  split
  · exact .refl _
  · rwa [settle_service]

theorem latched_takeSafety (h : RxHeader) (p : List Byte) (s : State) : Latched s.service (takeSafety h p s).service := by
  have hcontent (a m : Byte) : Latched s.service (safetyContent h a m s).service := by
    unfold safetyContent
    refine .ite _ (.refl _) (.ite _ ?_ (.ite _ (.refl _) (.ite _ (.refl _) ?_)))
    · exact latched_changeSafety _ s ⟨id, fun _ => ⟨rfl, rfl, rfl⟩⟩
    · exact latched_changeSafety _ s ⟨id, fun _ => ⟨rfl, rfl, rfl⟩⟩
  unfold takeSafety
  refine .ite _ (.refl _) ?_
  split
  · exact hcontent _ _
  · exact .refl _

theorem latched_countRefusal (s : State) : Latched s.service (countRefusal s).service := ⟨id, fun _ => ⟨rfl, rfl, rfl⟩⟩

/-- Under a set lock a mask that differs is refused. -/
theorem latched_maskStep (f : ServiceFields) (s : State) : Latched s.service (maskStep f s).service := by
  unfold maskStep
  refine .ite _ (.refl _) ?_
  split
  · exact latched_countRefusal s
  next hopen => exact ⟨fun hlock => absurd hlock hopen, fun hlock => absurd hlock hopen⟩

theorem latched_lockStep (f : ServiceFields) (s : State) : Latched s.service (lockStep f s).service :=
  ⟨fun h => by simp [lockStep, h], fun _ => ⟨rfl, rfl, rfl⟩⟩

theorem latched_restartStep (f : ServiceFields) (s : State) : Latched s.service (restartStep f s).service := by
  unfold restartStep
  exact .ite _ (.refl _) (.ite _ (latched_countRefusal s) (.of_eq (serviceRestartNow_service s)))

theorem latched_takeService (h : RxHeader) (p : List Byte) (s : State) : Latched s.service (takeService h p s).service := by
  unfold takeService
  refine .ite _ (.refl _) ?_
  split
  · exact .refl _
  · exact .ite _ ((latched_maskStep _ s).trans ((latched_lockStep _ _).trans (latched_restartStep _ _))) (.refl _)

/-! ### The event of a telegram -/

theorem countVerdict_service (v : Verdict) (s : State) : (countVerdict v s).service = s.service := by
  cases v <;> rfl

/-- A telegram latches where its block does. -/
theorem latched_frameEvent (hand : State → State) (t : Option Telegram) (s : State)
    (hhand : ∀ x, Latched x.service (hand x).service) : Latched s.service (frameEvent hand t s).service := by
  have hfilter (t : Telegram) (x : State) : Latched x.service (filterTelegram hand t x).service := by
    unfold filterTelegram
    have hcount := Latched.of_eq (countVerdict_service (verdict x t) x)
    exact .ite _ (hcount.trans (hhand _)) hcount
  have htake : Latched s.service (takeFrame hand t s).service := by
    unfold takeFrame
    refine .ite _ (.refl _) ?_
    split
    · exact .refl _
    · exact hfilter _ { s with bus := hearFrame s.bus }
  exact .ite _ (.refl _) (by rwa [endEvent_service, deferIfWaiting_service])

theorem latched_telegramEvent (kind : Nat) (h : RxHeader) (p : List Byte) (hand : State → State) (s : State)
    (hhand : ∀ x, Latched x.service (hand x).service) : Latched s.service (telegramEvent kind h p hand s).service :=
  latched_frameEvent hand _ s hhand

/-! ### Every command -/

theorem latched_handTelegram (t : Telegram) (s : State) : Latched s.service (handTelegram t s).service := by
  unfold handTelegram
  refine .ite _ (.of_eq (takeTime_service _ s)) ?_
  refine .ite _ (.of_eq ((settle_service _).trans (ttPut_service _ s))) ?_
  refine .ite _ (.of_eq ((settle_service _).trans (ttDrop_service _ s))) ?_
  refine .ite _ (.of_eq (takeDemand_service _ _ s)) ?_
  refine .ite _ (.of_eq (takeCapacity_service _ _ s)) ?_
  refine .ite _ (.of_eq (takeSunTelegram_service _ _ s)) ?_
  refine .ite _ (.of_eq (takeWindTelegram_service _ _ s)) ?_
  refine .ite _ (.of_eq (takePanel_service _ _ s)) ?_
  refine .ite _ (.of_eq (takeJoin_service _ _ s (fun p => useClaim_service _ _ p s))) ?_
  refine .ite _ (.of_eq (takeJoin_service _ _ s (fun p => useAccept_service _ p s))) ?_
  refine .ite _ (.of_eq (takeJoin_service _ _ s (fun p => useRefuse_service _ p s))) ?_
  refine .ite _ (.of_eq (takeJoin_service _ _ s (fun p => useRelease_service _ p s))) ?_
  refine .ite _ (.of_eq (takeJoin_service _ _ s (fun p => useKeep_service _ p s))) ?_
  refine .ite _ (.of_eq (takeJoin_service _ _ s (fun p => useState_service _ _ p s))) ?_
  refine .ite _ (.of_eq (takeJoin_service _ _ s (fun p => useOrder_service _ p s))) ?_
  refine .ite _ (latched_takeSafety _ _ s) ?_
  refine .ite _ (latched_takeService _ _ s) ?_
  exact .ite _ (.of_eq (takeQuery_service _ _ s)) (.refl _)

theorem latched_charsEvent (frame : List RxChar) (s : State) : Latched s.service (charsEvent frame s).service := by
  unfold charsEvent
  split
  · exact latched_frameEvent _ _ s (fun _ => .refl _)
  · exact latched_frameEvent _ _ s (fun x => latched_handTelegram _ x)

theorem latched_idleEvent (frame : Option (List RxChar)) (s : State) :
    Latched s.service (match frame with | none => emptyIdle s | some f => charsEvent f s).service := by
  cases frame with
  | none => exact .ite _ (.refl _) (.refl _)
  | some f => exact latched_charsEvent f s

/-- A command that changes the bus alone, where it changes anything. -/
theorem bus_service (s : State) (o : Option TxClass) (f : TxClass → State) (hf : ∀ c, (f c).service = s.service) :
    (match o with | none => s | some c => f c).service = s.service := by
  cases o with
  | none => rfl
  | some c => exact hf c

/-- Every command but a start latches. -/
theorem latched_exec (c : Instr) (hc : startsAnew c = false) (s : State) : ∃ t, exec c s = .next t ∧ Latched s.service t.service := by
  have hevent (b : Bool) (x : State) (hx : x.service = s.service) : Latched s.service (if b then endEvent s x else s).service :=
    latched_eventIf _ (.refl _) (.of_eq hx)
  have hif (b : Bool) (x : State) (hx : x.service = s.service) : Latched s.service (if b then x else s).service :=
    .ite _ (.of_eq hx) (.refl _)
  have htelegram (kind : Nat) (h : RxHeader) (p : List Byte) (hand : State → State) (hhand : ∀ x, (hand x).service = x.service) :
      Latched s.service (telegramEvent kind h p hand s).service :=
    latched_telegramEvent kind h p hand s (fun x => .of_eq (hhand x))
  cases c with
  | powerUp w | pinResetRelease w => cases hc
  | powerLoss => exact ⟨_, rfl, .of_eq (powerFails_service s)⟩
  | pinResetAssert => exact ⟨_, rfl, .of_eq (resetAsserted_service s)⟩
  | deferredResetEffect => exact ⟨_, rfl, .of_eq (deferredReset_service s)⟩
  | backupSupplyLoss => exact ⟨_, rfl, .of_eq (backupFails_service s)⟩
  | listenInEnd => exact ⟨_, rfl, hevent _ _ (endListen_service s)⟩
  | calendarAdvance => exact ⟨_, rfl, .of_eq (calendarAdvances_service s)⟩
  | time h p => exact ⟨_, rfl, htelegram _ h p _ (takeTime_service p)⟩
  | bookingPut h p => exact ⟨_, rfl, htelegram _ h p _ (fun x => (settle_service _).trans (ttPut_service _ x))⟩
  | bookingDrop h p => exact ⟨_, rfl, htelegram _ h p _ (fun x => (settle_service _).trans (ttDrop_service _ x))⟩
  | noShowWindowExpiry id | runoutCapExpiry id => exact ⟨_, rfl, hevent _ _ (by simp)⟩
  | slotWriteComplete => exact ⟨_, rfl, hevent _ _ (slotCompletes_service s)⟩
  | slotWriteFail => exact ⟨_, rfl, hevent _ _ (slotFails_service s)⟩
  | beamBreak d b => exact ⟨_, rfl, .of_eq (beamBreaks_service d b s)⟩
  | beamClear d b => exact ⟨_, rfl, .of_eq (beamClears_service d b s)⟩
  | passLimitExpiry d => exact ⟨_, rfl, hif _ _ rfl⟩
  | doorFaultTimeout d b => exact ⟨_, rfl, hevent _ _ (by simp [doorFails])⟩
  | doorRecovery d => exact ⟨_, rfl, hevent _ _ (by simp [doorRecovers])⟩
  | motionPulse z => exact ⟨_, rfl, hevent _ _ (arriveEntry_service _ s)⟩
  | motionAgeExpiry z => exact ⟨_, rfl, hevent _ _ (formHeadcount_service _)⟩
  | co2Sample ppm => exact ⟨_, rfl, .of_eq (co2Sampled_service ppm s)⟩
  | co2HoldExpiry => exact ⟨_, rfl, hevent _ _ (by simp [co2Lapses])⟩
  | vacancyTimerExpiry => exact ⟨_, rfl, hevent _ _ (vacancyRunsOut_service s)⟩
  | vacatingHoldExpiry => exact ⟨_, rfl, hevent _ _ (vacatingRunsOut_service s)⟩
  | demand h p => exact ⟨_, rfl, htelegram _ h p _ (takeDemand_service h p)⟩
  | capacity h p => exact ⟨_, rfl, htelegram _ h p _ (takeCapacity_service h p)⟩
  | peerStale st | peerRemove st => exact ⟨_, rfl, hevent _ _ (settle_service _)⟩
  | capacityAgeExpiry => exact ⟨_, rfl, hevent _ _ (settle_service _)⟩
  | demandRefreshExpiry => exact ⟨_, rfl, hif _ _ (composeDemand_service s)⟩
  | damperRefreshExpiry => exact ⟨_, rfl, hif _ _ rfl⟩
  | luxSample lux => exact ⟨_, rfl, .of_eq (luxSampled_service lux s)⟩
  | luxHoldExpiry => exact ⟨_, rfl, hevent _ _ (by simp [luxLapses])⟩
  | fadeEnd z => exact ⟨_, rfl, hif _ _ rfl⟩
  | panelScene h r | panelLevel h r | panelBlind h r | panelRelease h r => exact ⟨_, rfl, htelegram _ h _ _ (takePanel_service h _)⟩
  | blindHoldExpiry m => exact ⟨_, rfl, hif _ _ rfl⟩
  | runComplete m | referencingComplete m | lockedRunComplete m | pauseEnd m => exact ⟨_, rfl, hif _ _ (changeMotor_service s m _)⟩
  | sun h p => exact ⟨_, rfl, htelegram _ h p _ (takeSunTelegram_service h p)⟩
  | wind h p => exact ⟨_, rfl, htelegram _ h p _ (takeWindTelegram_service h p)⟩
  | sunAgeExpiry f | windHoldingExpiry f => exact ⟨_, rfl, hif _ _ (formFacade_service f _)⟩
  | partitionContactChange p high => exact ⟨_, rfl, .of_eq (contactChanges_service p high s)⟩
  | debounceExpiry p => exact ⟨_, rfl, hevent _ _ (debounceEnds_service p s)⟩
  | claimTimerExpiry p => exact ⟨_, rfl, hevent _ _ (claimRunsOut_service p s)⟩
  | retryTimerExpiry p => exact ⟨_, rfl, hevent _ _ (by simp [retryRunsOut])⟩
  | joinClaim h p => exact ⟨_, rfl, htelegram _ h p _ (fun x => takeJoin_service h _ x (fun n => useClaim_service _ p n x))⟩
  | joinAccept h p => exact ⟨_, rfl, htelegram _ h p _ (fun x => takeJoin_service h _ x (fun n => useAccept_service p n x))⟩
  | joinRefuse h p => exact ⟨_, rfl, htelegram _ h p _ (fun x => takeJoin_service h _ x (fun n => useRefuse_service p n x))⟩
  | joinRelease h p => exact ⟨_, rfl, htelegram _ h p _ (fun x => takeJoin_service h _ x (fun n => useRelease_service p n x))⟩
  | joinKeep h p => exact ⟨_, rfl, htelegram _ h p _ (fun x => takeJoin_service h _ x (fun n => useKeep_service p n x))⟩
  | joinState h p => exact ⟨_, rfl, htelegram _ h p _ (fun x => takeJoin_service h _ x (fun n => useState_service _ p n x))⟩
  | joinOrder h p => exact ⟨_, rfl, htelegram _ h p _ (fun x => takeJoin_service h _ x (fun n => useOrder_service p n x))⟩
  | keepTimerExpiry => exact ⟨_, rfl, hif _ _ (keepRunsOut_service s)⟩
  | orphanTimerExpiry => exact ⟨_, rfl, hevent _ _ (orphanRunsOut_service s)⟩
  | safetySet h r | safetyClear h r => exact ⟨_, rfl, latched_telegramEvent _ h _ _ s (latched_takeSafety h _)⟩
  | serviceMask h p | serviceLock h p | serviceRestart h p => exact ⟨_, rfl, latched_telegramEvent _ h p _ s (latched_takeService h p)⟩
  | queryStatus h | queryCounters h | queryOutputs h | queryIdentity h => exact ⟨_, rfl, htelegram _ h _ _ (takeQuery_service h _)⟩
  | queryBookings h page | queryPeers h page => exact ⟨_, rfl, htelegram _ h _ _ (takeQuery_service h _)⟩
  | queryUnknownItem h item page => exact ⟨_, rfl, htelegram _ h _ _ (takeQuery_service h _)⟩
  | unhandledTelegram frame => exact ⟨_, rfl, latched_charsEvent frame s⟩
  | idleEvent frame => exact ⟨_, rfl, latched_idleEvent frame s⟩
  | deferralExpiry => exact ⟨_, rfl, .of_eq (bus_service s _ _ (fun _ => rfl))⟩
  | transmitComplete | collision => exact ⟨_, rfl, .of_eq (bus_service s _ _ (fun _ => by split <;> rfl))⟩
  | startBit => exact ⟨_, rfl, hif _ _ rfl⟩

/-! ### The statement -/

/-- Settles O54: a tick leaves the unit alone, and `latched_exec` has each command that is not a start. -/
theorem lockLatches : Obligations.LockLatches := by
  intro s t hlock hstart hstep
  have hlatched : Latched s.service t.service := by
    unfold step at hstep
    split at hstep
    · cases hstep
      refine .of_eq ?_
      unfold tick tickClocks
      dsimp only
      split <;> rfl
    next c rest hpending =>
      obtain ⟨t', hexec, ht⟩ := latched_exec c (hstart c (by rw [hpending]; rfl)) { s with pending := rest }
      rw [hexec] at hstep
      cases hstep
      exact ht
  exact ⟨hlatched.lock hlock, hlatched.mask hlock⟩

end Sys2Proof.Machine
end

