-- ==== Sys2Proof/Proofs/Ticks.lean ====
section
/-! PROOF. A step, and what one slot of time changes and brings where no command waits (R1, R6, R31, R34, R167, R175, R184). -/

namespace Sys2Proof.Machine

/-- Settles O1: it is the second equation of `step`. -/
theorem stepRunsFrontCommand : Obligations.StepRunsFrontCommand := fun _ _ _ => rfl

/-- Settles O6: in that phase the assertion notes the level and the deferral. -/
theorem resetWaitsForCompaction : Obligations.ResetWaitsForCompaction := by
  intro s l rest d hphase
  change Host.Outcome.next (resetAsserted s) = _
  simp only [resetAsserted, hphase, setResetPin]

/-- Settles O7: in that phase the event is `backupFails`. -/
theorem backupSupplyLossEndsValidity : Obligations.BackupSupplyLossEndsValidity := by
  intro s hphase
  change Host.Outcome.next (backupFails s) = _
  simp only [backupFails, hphase]

/-! ### The timebase -/

theorem clockTick_sub_lt {c : Clock} (h : c.sub < 96) : (clockTick c).sub < 96 := by
  unfold clockTick
  split
  · assumption
  · split <;> dsimp only <;> omega

theorem clockTick_ms_lt {c : Clock} (h : c.ms < 1000) : (clockTick c).ms < 1000 := by
  unfold clockTick
  split
  · exact h
  · split
    · assumption
    · exact Nat.zero_lt_succ _

theorem clockUnits_clockTick {c : Clock} (hms : c.ms < 1000) (hsub : c.sub < 96) :
    clockUnits (clockTick c) = (clockUnits c + 25) % (65536 * 1000 * 96) := by
  have hsec : c.sec.toNat < 65536 := c.sec.isLt
  have hcarry : (c.sec + 1).toNat = (c.sec.toNat + 1) % 65536 := by rw [BitVec.toNat_add]; rfl
  unfold clockTick clockUnits
  split
  · dsimp only
    omega
  · split
    · dsimp only
      omega
    · simp only [hcarry]
      omega

/-- Settles O3, by the three carries of `clockTick`. -/
theorem clockTickAdvancesOneSlot : Obligations.ClockTickAdvancesOneSlot := fun _ hms hsub =>
  ⟨clockUnits_clockTick hms hsub, clockTick_ms_lt hms, clockTick_sub_lt hsub⟩

/-! ### The commands that time brings -/

theorem mem_dueIf {i x : Instr} {c : Bool} : i ∈ dueIf c x ↔ c = true ∧ i = x := by
  unfold dueIf
  split <;> simp_all

theorem mem_dueOver {α : Type} {i : Instr} {l : List α} {f : Nat → α → List Instr} :
    i ∈ dueOver l f ↔ ∃ x ∈ numbered 1 l, i ∈ f x.1 x.2 := by
  simp [dueOver]

/-- The commands that the tick looks at by their own conditions. -/
def isClockwork : Instr → Bool
  | .calendarAdvance | .deferralExpiry | .listenInEnd => true
  | _ => false

theorem not_clockwork_dueIf {i x : Instr} {c : Bool} (h : i ∈ dueIf c x) (hx : isClockwork x = false) : isClockwork i = false :=
  (mem_dueIf.mp h).2 ▸ hx

theorem not_clockwork_dueOver {α : Type} {i : Instr} {l : List α} {f : Nat → α → List Instr} (h : i ∈ dueOver l f)
    (hf : ∀ n x, i ∈ f n x → isClockwork i = false) : isClockwork i = false := by
  obtain ⟨x, -, hx⟩ := mem_dueOver.mp h
  exact hf _ _ hx

theorem not_clockwork_dueRecord {now : Stamp} {w : Nat} {b : Booking} {i : Instr} (h : i ∈ dueRecord now w b) :
    isClockwork i = false := by
  unfold dueRecord at h
  rcases List.mem_append.mp h with h | h
  · split at h
    · exact not_clockwork_dueIf h rfl
    · cases h
  · exact not_clockwork_dueIf h rfl

theorem not_clockwork_duePresence {now : Stamp} {tv : Nat} {p : Presence} {i : Instr} (h : i ∈ duePresence now tv p) :
    isClockwork i = false := by
  have hdoor (n : Nat) (d : Door) (hd : i ∈ dueDoor now n d) : isClockwork i = false := by
    simp only [dueDoor, List.mem_append] at hd
    rcases hd with ((hd | hd) | hd) | hd <;> exact not_clockwork_dueIf hd rfl
  simp only [duePresence, List.mem_append] at h
  rcases h with (((h | h) | h) | h) | h
  · exact not_clockwork_dueOver h hdoor
  · exact not_clockwork_dueOver h (fun _ _ hz => not_clockwork_dueIf hz rfl)
  all_goals exact not_clockwork_dueIf h rfl

theorem not_clockwork_dueAir {now : Stamp} {a : Air} {i : Instr} (h : i ∈ dueAir now a) : isClockwork i = false := by
  simp only [dueAir, List.mem_append, List.mem_flatten, List.mem_map] at h
  rcases h with ((⟨_, ⟨p, -, rfl⟩, h⟩ | h) | h) | h
  · rcases List.mem_append.mp h with h | h <;> exact not_clockwork_dueIf h rfl
  all_goals exact not_clockwork_dueIf h rfl

theorem not_clockwork_dueLight {now : Stamp} {l : Light} {i : Instr} (h : i ∈ dueLight now l) : isClockwork i = false := by
  rcases List.mem_append.mp h with h | h
  · exact not_clockwork_dueIf h rfl
  · exact not_clockwork_dueOver h (fun _ _ hz => not_clockwork_dueIf hz rfl)

theorem not_clockwork_dueRun {now : Stamp} {n : Nat} {m : Motor} {i : Instr} (h : i ∈ dueRun now n m) : isClockwork i = false := by
  unfold dueRun at h
  split at h
  · cases h
  · split at h <;> rw [List.mem_singleton.mp h] <;> rfl

theorem not_clockwork_dueBlind {now : Stamp} {b : Blind} {i : Instr} (h : i ∈ dueBlind now b) : isClockwork i = false := by
  have hmotor (n : Nat) (m : Motor) (hm : i ∈ dueRun now n m ++ dueIf (pauseDone now m) (.pauseEnd n)
      ++ dueIf (reaches (m.hold.map (fun h => h.since)) 1800000 now) (.blindHoldExpiry n)) : isClockwork i = false := by
    simp only [List.mem_append] at hm
    rcases hm with (hm | hm) | hm
    · exact not_clockwork_dueRun hm
    all_goals exact not_clockwork_dueIf hm rfl
  simp only [dueBlind, List.mem_append (s := dueOver _ _), List.mem_flatten, List.mem_map] at h
  rcases h with h | ⟨_, ⟨f, -, rfl⟩, h⟩
  · exact not_clockwork_dueOver h hmotor
  · rcases List.mem_append.mp h with h | h <;> exact not_clockwork_dueIf h rfl

theorem not_clockwork_dueJoin {now : Stamp} {j : Join} {i : Instr} (h : i ∈ dueJoin now j) : isClockwork i = false := by
  have hpartition (n : Nat) (x : Partition) (hx : i ∈ dueIf (reaches x.debounce 5000 now) (.debounceExpiry n)
      ++ dueIf (reaches x.claimTimer 2000 now) (.claimTimerExpiry n)
      ++ dueIf (reaches (retrySince x.retry) 60000 now) (.retryTimerExpiry n)) : isClockwork i = false := by
    simp only [List.mem_append] at hx
    rcases hx with (hx | hx) | hx <;> exact not_clockwork_dueIf hx rfl
  unfold dueJoin at h
  rcases List.mem_append.mp h with h | h
  · rcases List.mem_append.mp h with h | h
    · exact not_clockwork_dueOver h hpartition
    · exact not_clockwork_dueIf h rfl
  · exact not_clockwork_dueIf h rfl

/-- Of the commands looked at by conditions of their own, a new millisecond brings the end of the listen-in alone. -/
theorem clockwork_dueAtMillisecond {s : State} {i : Instr} (hi : isClockwork i = true) :
    i ∈ dueAtMillisecond s ↔ listenDue s = true ∧ i = .listenInEnd := by
  have hnot {P : Prop} (h : P → isClockwork i = false) : ¬ P := fun hp => by simp [h hp] at hi
  have hrecords := hnot (P := i ∈ (s.tt.records.map (dueRecord (nowOf s) s.cfg.noShowW)).flatten) (fun h => by
    obtain ⟨_, hl, hi⟩ := List.mem_flatten.mp h
    obtain ⟨b, -, rfl⟩ := List.mem_map.mp hl
    exact not_clockwork_dueRecord hi)
  have hwrite := hnot (P := i ∈ dueIf (reaches s.journal.since 20 (nowOf s)) .slotWriteFail) (fun h => not_clockwork_dueIf h rfl)
  simp only [dueAtMillisecond, List.mem_append, mem_dueIf (x := .listenInEnd), hrecords, hwrite, hnot not_clockwork_duePresence,
    hnot not_clockwork_dueAir, hnot not_clockwork_dueLight, hnot not_clockwork_dueBlind, hnot not_clockwork_dueJoin, or_false]

theorem calendarAdvance_mem_dueCommands (s : State) : .calendarAdvance ∈ dueCommands s ↔ advanceDue s.cal = true := by
  have hmilli := clockwork_dueAtMillisecond (s := s) (i := .calendarAdvance) rfl
  unfold dueCommands
  split
  · simp [mem_dueIf]
  · split <;> simp [mem_dueIf, hmilli]

theorem deferralExpiry_mem_dueCommands (s : State) :
    .deferralExpiry ∈ dueCommands s ↔ powered s = true ∧ (deferralDue s).isSome = true := by
  have hmilli := clockwork_dueAtMillisecond (s := s) (i := .deferralExpiry) rfl
  unfold dueCommands
  split
  · simp_all [mem_dueIf]
  · split <;> simp_all [mem_dueIf]

theorem listenInEnd_mem_dueCommands (s : State) :
    .listenInEnd ∈ dueCommands s ↔ powered s = true ∧ s.clock.sub < 25 ∧ listenDue s = true := by
  have hmilli := clockwork_dueAtMillisecond (s := s) (i := .listenInEnd) rfl
  unfold dueCommands
  split
  · simp_all [mem_dueIf]
  · split <;> simp_all [mem_dueIf]

theorem advanceDue_iff (c : Calendar) : advanceDue c = true ↔ c.running = true ∧ 3840 ≤ c.phase := by
  simp [advanceDue]

theorem deferralDue_isSome_iff (s : State) :
    (deferralDue s).isSome = true ↔ powered s = true ∧ s.bus.lineIdle = true ∧ maySpeak s = true ∧ s.bus.sending = none
      ∧ ∃ d, s.bus.deferral = some d ∧ d.len ≤ d.elapsed := by
  unfold deferralDue
  split
  next hn =>
    simp only [Option.isSome_none, Bool.false_eq_true, false_iff]
    rintro ⟨hp, hl, hm, hs, -⟩
    simp [hp, hl, hm, hs] at hn
  next hn =>
    simp at hn
    obtain ⟨⟨⟨hp, hl⟩, hm⟩, hs⟩ := hn
    cases hd : s.bus.deferral with
    | none => simp [hp, hl, hm, hs]
    | some d =>
      dsimp only
      split <;> simp_all

theorem listenDue_iff (s : State) :
    listenDue s = true ↔ s.phase = .running ∧ s.listening = true ∧ 20 ≤ s.clock.sec.toNat := by
  simp [listenDue, started, and_assoc]

theorem powered_of_running {s : State} (h : s.phase = .running) : powered s = true := by
  simp [powered, h]

/-- What a record brings joins the queue at a new millisecond of a part that runs. -/
theorem mem_dueCommands_of_record {s : State} {b : Booking} {i : Instr} (hb : b ∈ s.tt.records) (hp : powered s = true)
    (hsub : s.clock.sub < 25) (hi : i ∈ dueRecord (nowOf s) s.cfg.noShowW b) : i ∈ dueCommands s := by
  have hrecords : i ∈ (s.tt.records.map (dueRecord (nowOf s) s.cfg.noShowW)).flatten :=
    List.mem_flatten.mpr ⟨_, List.mem_map.mpr ⟨b, hb, rfl⟩, hi⟩
  simp [dueCommands, dueAtMillisecond, hp, hsub, hrecords]

/-! ### One slot -/

theorem tick_clock (s : State) : (tick s).clock = if powered s then clockTick s.clock else s.clock := by
  cases hp : powered s <;> simp [tick, tickClocks, hp]

theorem tick_cal (s : State) : (tick s).cal = { s.cal with phase := if s.cal.running then s.cal.phase + 1 else s.cal.phase } := by
  have hcal : (tick s).cal = if s.cal.running then { s.cal with phase := s.cal.phase + 1 } else s.cal := by
    unfold tick
    dsimp only
    split <;> rfl
  rw [hcal]
  split <;> rfl

theorem tick_bus (s : State) : (tick s).bus = if powered s then tickLine s.bus else s.bus := by
  cases hp : powered s <;> simp [tick, tickClocks, hp]

theorem tick_blind (s : State) : (tick s).blind = if powered s then tickBlind (nowOf (tick s)) s.blind else s.blind := by
  cases hp : powered s
  · simp [tick, tickClocks, hp]
  · simp only [tick, hp, if_true]
    rfl

theorem tick_changes (s : State) :
    tick s = { s with clock := (tick s).clock, cal := (tick s).cal, bus := (tick s).bus, blind := (tick s).blind,
                      pending := (tick s).pending } := by
  unfold tick
  dsimp only
  split <;> rfl

/-- No command depends on the queue itself. -/
theorem dueCommands_pending (s : State) (l : List Instr) : dueCommands { s with pending := l } = dueCommands s := rfl

theorem tick_pending {s : State} (h : s.pending = []) : (tick s).pending = dueCommands (tick s) := by
  have hjoin (t : State) (ht : t.pending = []) :
      t.pending ++ dueCommands t = dueCommands { t with pending := t.pending ++ dueCommands t } := by
    rw [ht, List.nil_append]
    exact (dueCommands_pending t _).symm
  refine hjoin _ ?_
  split <;> exact h

theorem tickLine_eq (b : Bus) :
    tickLine b = { b with
      deferral := b.deferral.map (fun d => { d with elapsed := d.elapsed + 1 })
      quiet := if b.lineIdle = false ∧ b.rxInProgress = false ∧ b.sending = none then b.quiet + 1 else b.quiet } := by
  unfold tickLine
  congr 1
  cases b.lineIdle <;> cases b.rxInProgress <;> cases b.sending <;> rfl

/-- Settles O2: the fields of `tick`, and the conditions under which each command joins the queue. -/
theorem emptyQueuePassesOneSlot : Obligations.EmptyQueuePassesOneSlot := by
  intro s hs
  have hstep : step s = .next (tick s) := by rw [step, hs]
  have hpending := tick_pending hs
  refine ⟨tick s, hstep, tick_changes s, ?_, tick_clock s, tick_cal s, ?_, hpending, ?_, ?_, ?_, ?_⟩
  · rw [tick_blind]
    split <;> rfl
  · rw [tick_bus]
    cases powered s with
    | true => simp [tickLine_eq]
    | false => simp
  · rw [hpending, calendarAdvance_mem_dueCommands, advanceDue_iff]
  · rw [hpending, deferralExpiry_mem_dueCommands, deferralDue_isSome_iff]
    exact ⟨fun h => h.2, fun h => ⟨h.1, h⟩⟩
  · rw [hpending, listenInEnd_mem_dueCommands, listenDue_iff]
    exact ⟨fun ⟨_, hsub, hphase, hlisten, hsec⟩ => ⟨hphase, hlisten, hsec, hsub⟩,
      fun ⟨hphase, hlisten, hsec, hsub⟩ => ⟨powered_of_running hphase, hsub, hphase, hlisten, hsec⟩⟩
  · intro b hb hp hsub
    rw [hpending]
    refine ⟨fun since hwindow hlapse => mem_dueCommands_of_record hb hp hsub ?_,
      fun since hrunout hlapse => mem_dueCommands_of_record hb hp hsub ?_⟩
    · simp [dueRecord, hwindow, mem_dueIf, reaches, hlapse]
    · simp [dueRecord, hrunout, mem_dueIf, reaches, hlapse]

end Sys2Proof.Machine
end

