-- ==== Sys2Proof/Proofs/Losses.lean ====
section
/-! PROOF. A loss of power and an asserted reset: the loss recorded, the part stopped, and the slot being written (R15, R179, R187). -/

namespace Sys2Proof.Machine

/-! ### The slot being written -/

theorem length_freeSlot (used : Nat) : (freeSlot used).length = 8 := by simp [freeSlot]

theorem memRead_spoilSlot_other {w : SlotWrite} {s : State} {a : Nat} (h : ¬ inSlot w a) :
    memRead (spoilSlot w s).eeprom.cells a = memRead s.eeprom.cells a := by
  have haway : a < slotAddress w.page w.slot ∨ slotAddress w.page w.slot + (freeSlot s.freeUsed).length ≤ a := by
    rw [length_freeSlot]
    unfold inSlot at h
    omega
  exact memRead_writeList_other s.eeprom.cells (freeSlot s.freeUsed) haway

theorem memRead_tearWrites_other {s : State} {a : Nat} (h : ∀ w, s.journal.plan.head? = some w → ¬ inSlot w a) :
    memRead (tearWrites s).eeprom.cells a = memRead s.eeprom.cells a := by
  unfold tearWrites
  split
  · rfl
  next w rest hplan =>
    change memRead (spoilSlot w s).eeprom.cells a = _
    exact memRead_spoilSlot_other (h w (by rw [hplan]; rfl))

/-- A part that runs tears the head of its plan. -/
theorem cutWrites_running {s : State} (h : s.phase = .running) : cutWrites s = tearWrites s := by
  simp only [cutWrites, h]

theorem tearWrites_idle {s : State} (h : s.journal.plan = []) : (tearWrites s).eeprom = s.eeprom := by
  simp only [tearWrites, h]

theorem memRead_cutWrites_other {s : State} {a : Nat} (hplan : s.journal.plan = [] ∨ s.phase = .running)
    (h : ∀ w, slotInProgress s = some w → ¬ inSlot w a) :
    memRead (cutWrites s).eeprom.cells a = memRead s.eeprom.cells a := by
  by_cases hrunning : s.phase = .running
  · rw [cutWrites_running hrunning]
    exact memRead_tearWrites_other (fun w hw => h w (by simpa [slotInProgress, hrunning] using hw))
  · have hplan := hplan.resolve_right hrunning
    unfold cutWrites
    split
    next w _ _ hphase =>
      have htear : (tearWrites (spoilSlot w s)).eeprom = (spoilSlot w s).eeprom := tearWrites_idle hplan
      rw [htear]
      exact memRead_spoilSlot_other (h w (by simp [slotInProgress, hphase]))
    next => rw [tearWrites_idle hplan]

/-! ### The part as a loss leaves it -/

/-- What cutting the writes changes: the journal's queue and the bytes of a torn slot. -/
structure WritesCut (s t : State) : Prop where
  changes : t = { s with eeprom := t.eeprom, journal := t.journal, freeUsed := t.freeUsed }
  queue : t.journal.queue = []
  plan : t.journal.plan = []

theorem tearWrites_cut (s : State) : WritesCut s (tearWrites s) := by
  unfold tearWrites
  split <;> exact ⟨rfl, rfl, rfl⟩

theorem cutWrites_cut (s : State) : WritesCut s (cutWrites s) := by
  unfold cutWrites
  split
  next w _ _ _ =>
    obtain ⟨hchanges, hqueue, hplan⟩ := tearWrites_cut (spoilSlot w s)
    exact ⟨hchanges, hqueue, hplan⟩
  · exact tearWrites_cut s

/-- A field that is not the journal's is as before. -/
theorem WritesCut.keeps {α : Type} {s t : State} (h : WritesCut s t) (f : State → α)
    (hf : ∀ e j u, f { s with eeprom := e, journal := j, freeUsed := u } = f s) : f t = f s := by
  rw [h.changes]
  exact hf _ _ _

theorem holdPart_lossAt (p : Phase) (s : State) : LossAt p s { holdPart s with phase := p } :=
  have hcut := cutWrites_cut (recordLoss s)
  { phase := rfl
    lossTime := hcut.keeps (fun x => x.backup.lossTime) (fun _ _ _ => rfl)
    lossRunning := hcut.keeps (fun x => x.backup.lossRunning) (fun _ _ _ => rfl)
    valid := hcut.keeps (fun x => x.backup.valid) (fun _ _ _ => rfl)
    calendar := hcut.keeps State.cal (fun _ _ _ => rfl)
    busOff := ⟨rfl, rfl⟩
    queue := ⟨hcut.queue, hcut.plan⟩
    clock := hcut.keeps State.clock (fun _ _ _ => rfl)
    station := hcut.keeps State.station (fun _ _ _ => rfl)
    cfg := hcut.keeps State.cfg (fun _ _ _ => rfl)
    tt := hcut.keeps State.tt (fun _ _ _ => rfl)
    presence := hcut.keeps State.presence (fun _ _ _ => rfl)
    air := hcut.keeps State.air (fun _ _ _ => rfl)
    light := hcut.keeps State.light (fun _ _ _ => rfl)
    blind := hcut.keeps State.blind (fun _ _ _ => rfl)
    join := hcut.keeps State.join (fun _ _ _ => rfl)
    service := hcut.keeps State.service (fun _ _ _ => rfl)
    faults := hcut.keeps State.faults (fun _ _ _ => rfl)
    pending := hcut.keeps State.pending (fun _ _ _ => rfl) }

theorem holdPart_pins (s : State) : (holdPart s).pins = s.pins :=
  (cutWrites_cut (recordLoss s)).keeps State.pins (fun _ _ _ => rfl)

theorem memRead_holdPart_other {s : State} {a : Nat} (hplan : s.journal.plan = [] ∨ s.phase = .running)
    (h : ∀ w, slotInProgress s = some w → ¬ inSlot w a) : memRead (holdPart s).eeprom.cells a = memRead s.eeprom.cells a :=
  memRead_cutWrites_other (s := recordLoss s) hplan h

theorem powerFails_powered {s : State} (h : powered s = true) : powerFails s = { holdPart s with phase := .off } := by
  unfold powered at h
  unfold powerFails
  split at h
  · cases h
  · cases h
  next hphase => simp only [hphase]
  next hphase => simp only [hphase]

/-! ### The statement -/

/-- Settles O5: each of the three commands is `holdPart` in its phase, but for a part already held, whose loss of power records the loss
alone. -/
theorem lossesAreRecorded : Obligations.LossesAreRecorded := by
  refine ⟨fun s hp => ⟨_, rfl, ?_⟩, fun s hphase => ?_, fun s hphase => ⟨_, rfl, ?_⟩, fun s l hphase hplan => ⟨_, rfl, ?_⟩⟩
  · rw [powerFails_powered hp]
    exact ⟨holdPart_lossAt .off s, holdPart_pins s, fun hplan a ha => memRead_holdPart_other hplan ha⟩
  · change Host.Outcome.next (powerFails s) = _
    simp only [powerFails, hphase, recordLoss]
  · have hassert : resetAsserted s = setResetPin true (holdPart s) := by simp only [resetAsserted, hphase]
    rw [hassert]
    refine ⟨?_, ?_, fun a ha => memRead_holdPart_other (.inr hphase) ha⟩
    · obtain ⟨_, _, _, _, _, _, _, _, _, _, _, _, _, _, _, _, _, _, _⟩ := holdPart_lossAt .held s
      constructor <;> assumption
    · change { (holdPart s).pins with resetAsserted := true } = _
      rw [holdPart_pins]
  · have heffect : deferredReset s = holdPart s := by simp only [deferredReset, hphase]
    rw [heffect]
    refine ⟨holdPart_lossAt .held s, holdPart_pins s, ?_⟩
    change (cutWrites (recordLoss s)).eeprom = _
    have hcut : cutWrites (recordLoss s) = tearWrites (recordLoss s) := by
      have hphase' : (recordLoss s).phase = .compacting l [] true := hphase
      simp only [cutWrites, hphase']
    rw [hcut, tearWrites_idle (s := recordLoss s) hplan]
    rfl

end Sys2Proof.Machine
end

