-- ==== Sys2Proof/Proofs/StartSequence.lean ====
section
/-! PROOF. The start sequence of a power-up and of a pin reset (R180): what its first computations, its compaction and its hand-over of the
list leave. -/

namespace Sys2Proof.Machine

/-! ### Step 6 -/

theorem finishStart_handedOn (l : List Booking) (s : State) :
    HandedOn { s with phase := .running, tt := { s.tt with records := l } } (finishStart l s) :=
  (onForward_derive _).trans (settle_handedOn _)

/-- Step 6 holds the list as replay gave it under a STOPPED calendar, and takes it through the derivation under a RUNNING one. -/
theorem finishStart_derived (l : List Booking) (s : State) :
    Derived s.cal.running (instantOf s.cal.time) (occRead s) l (finishStart l s) := by
  have hlist (x : State) (hcal : x.cal = s.cal) : ListIs (calInstant s.cal) x.tt.records (settle x) :=
    settle_list (congrArg calInstant hcal) .refl
  cases hrunning : s.cal.running with
  | false =>
    have hstopped : calInstant s.cal = none := by simp [calInstant, hrunning]
    have hfinish : finishStart l s = settle { s with phase := .running, tt := { s.tt with records := l } } := by
      simp only [finishStart, derive, hstopped]
    obtain ⟨hrecords, hsummary⟩ := hlist { s with phase := .running, tt := { s.tt with records := l } } rfl
    rw [hstopped] at hrecords
    rw [hfinish]
    exact ⟨fun _ => hrecords.stopped, fun hv => (nomatch hv), hsummary⟩
  | true =>
    have hnow : calInstant s.cal = some (instantOf s.cal.time) := by simp [calInstant, hrunning]
    let x : State := { s with phase := .running, tt := { s.tt with records := l } }
    let c := evalCtx x (instantOf s.cal.time) true
    have hfinish : finishStart l s = settle (overRecords (onForward c) x) := by
      simp only [finishStart, derive, hnow, x, c]
    have hderived := hlist (overRecords (onForward c) x) (sendAll_cal _ _)
    rw [overRecords_tt, hnow, ← hfinish] at hderived
    exact ⟨fun hv => (nomatch hv), fun _ => ⟨c, rfl, rfl, rfl, hderived.records⟩, hderived.summary⟩

/-! ### Step 5 -/

/-- What a compaction leaves alone before it ends or goes on: the derivation reads nothing else. -/
structure CompactedFrom (s x : State) : Prop where
  cal : x.cal = s.cal
  tt : x.tt = s.tt
  presence : x.presence = s.presence
  join : x.join = s.join

theorem compact_ends (l : List Booking) (run : CompactionRun) (s : State) :
    ∃ x, CompactedFrom s x
      ∧ (compact l run s = finishStart l x ∨ ∃ rest, compact l run s = { x with phase := .compacting l rest false }) := by
  have hdone : CompactedFrom s (compactionDone l (writeSlots (compactionPlan l) s)) := ⟨rfl, rfl, rfl, rfl⟩
  cases run with
  | completes => exact ⟨_, hdone, .inl rfl⟩
  | failsAt k =>
    cases hdrop : (compactionPlan l).drop k with
    | nil => exact ⟨_, hdone, .inl (by simp only [compact, hdrop])⟩
    | cons w rest =>
      have hfailed : CompactedFrom s (compactionFailed w (writeSlots ((compactionPlan l).take k) s)) := ⟨rfl, rfl, rfl, rfl⟩
      exact ⟨_, hfailed, .inl (by simp only [compact, hdrop])⟩
  | runningAt k =>
    cases hdrop : (compactionPlan l).drop k with
    | nil => exact ⟨_, hdone, .inl (by simp only [compact, hdrop])⟩
    | cons w rest =>
      let y := writeSlots ((compactionPlan l).take k) s
      have hruns : CompactedFrom s { y with journal := { y.journal with since := some (nowOf y) } } := ⟨rfl, rfl, rfl, rfl⟩
      exact ⟨_, hruns, .inr ⟨w :: rest, by simp only [compact, hdrop]; rfl⟩⟩

theorem compacted_completes (l : List Booking) (s : State) :
    (compact l .completes s).phase = .running ∧ (compact l .completes s).faults.journalFull = s.faults.journalFull
      ∧ (compact l .completes s).eeprom.cells = makeWrites (compactionPlan l) s.eeprom.cells
      ∧ ∀ w, (compactionWrites l 0 0).getLast? = some w →
        (compact l .completes s).journal.page = w.page ∧ (compact l .completes s).journal.slot = w.slot + 1 := by
  have hand := finishStart_handedOn l (compactionDone l (writeSlots (compactionPlan l) s))
  change HandedOn _ (compact l .completes s) at hand
  refine ⟨hand.phase, congrArg Faults.journalFull hand.faults, congrArg Eeprom.cells hand.eeprom, fun w hw => ?_⟩
  rw [hand.journal]
  simp [compactionDone, compactedJournal, hw]

theorem drop_of_getElem? {α : Type} {l : List α} {k : Nat} {x : α} (h : l[k]? = some x) : l.drop k = x :: l.drop (k + 1) := by
  obtain ⟨hk, rfl⟩ := List.getElem?_eq_some_iff.mp h
  exact List.drop_eq_getElem_cons hk

theorem compacted_failsAt (l : List Booking) (s : State) {k : Nat} {w : SlotWrite} (h : (compactionPlan l)[k]? = some w) :
    (compact l (.failsAt k) s).phase = .running ∧ (compact l (.failsAt k) s).faults.journalFull = true
      ∧ ∀ a, ¬(slotAddress w.page w.slot ≤ a ∧ a < slotAddress w.page w.slot + 8) →
        memRead (compact l (.failsAt k) s).eeprom.cells a = memRead (makeWrites ((compactionPlan l).take k) s.eeprom.cells) a := by
  have hcompact : compact l (.failsAt k) s = finishStart l (compactionFailed w (writeSlots ((compactionPlan l).take k) s)) := by
    simp only [compact, drop_of_getElem? h]
  have hand := hcompact ▸ finishStart_handedOn l (compactionFailed w (writeSlots ((compactionPlan l).take k) s))
  refine ⟨hand.phase, congrArg Faults.journalFull hand.faults, fun a ha => ?_⟩
  rw [hand.eeprom]
  change memRead (spoilSlot w (writeSlots ((compactionPlan l).take k) s)).eeprom.cells a = _
  rw [memRead_spoilSlot_other ha]
  rfl

theorem compacted_runningAt (l : List Booking) (s : State) {k : Nat} (h : k < (compactionPlan l).length) :
    (compact l (.runningAt k) s).phase = .compacting l ((compactionPlan l).drop k) false
      ∧ (compact l (.runningAt k) s).eeprom.cells = makeWrites ((compactionPlan l).take k) s.eeprom.cells := by
  have hdrop := List.drop_eq_getElem_cons h
  unfold compact
  dsimp only
  split
  next hnil => rw [hdrop] at hnil; cases hnil
  next => exact ⟨rfl, rfl⟩

/-! ### Steps 1 to 4 -/

/-- The blocks as their start tables give them, before their first computations. -/
def startTables (s : State) : State :=
  let c := restoreCalendar s
  { s with cal := c
           backup := { s.backup with valid := c.running }
           tt := { records := [], summary := none, captured := none }
           presence := startPresence s.cfg s.pins false s.presence
           air := startAirCold
           light := startLightCold s.cfg
           blind := startBlindCold s.cfg
           join := startJoin s.station s.pins s.cfg
           service := serviceCleared
           faults := startFaults (s.station == 0) s.faults.config (!c.running)
           bus := startBus s.station
           journal := replayJournal s }

theorem startBlocks_eq (s : State) : startBlocks s = firstForms (startTables s) := rfl

theorem HandedOn.keepsStart {s t : State} (h : HandedOn s t) (hseq : t.statusSeq = s.statusSeq) : KeepsStart s t :=
  ⟨h.pins, h.clock, h.station, h.listening, h.cfg, h.formatRead, by rw [h.eeprom], fun _ _ => by rw [h.eeprom],
    by rw [h.journal], h.cal, h.captured, h.presence, h.peers, h.capacity, h.overflows, h.lux, h.discardedLux, h.service,
    by rw [h.faults], h.bus, by rw [h.journal], hseq, h.imageWait, h.pending⟩

theorem startBlocks_handedOn (s : State) : HandedOn (startTables s) (startBlocks s) := firstForms_handedOn _

theorem startBlocks_alone (s : State) : Alone (startBlocks s) :=
  Alone.keeps (s := startTables s) ⟨rfl, rfl, rfl⟩ (startBlocks_handedOn s).joins

theorem startBlocks_records (s : State) : (startBlocks s).tt.records = [] := by
  rw [startBlocks_eq, firstForms_tt]
  rfl

/-- The compaction or its absence, after the blocks have started. -/
theorem coldStart_eq (w : StartWorld) (s : State) :
    coldStart w s =
      if 96 < consumedSlots (startEeprom w s.eeprom).cells
      then compact (replayList (found w s)) w.compaction (startBlocks (startRead w s))
      else finishStart (replayList (found w s)) (startBlocks (startRead w s)) := by
  have hcells : (startBlocks (startRead w s)).eeprom = startEeprom w s.eeprom := (startBlocks_handedOn _).eeprom
  unfold coldStart
  dsimp only
  rw [hcells]
  rfl

/-- Steps 5 and 6 of a start: they end in step 6, or the compaction still runs. -/
theorem coldStart_ends (w : StartWorld) (s : State) :
    ∃ x, CompactedFrom (startBlocks (startRead w s)) x
      ∧ (coldStart w s = finishStart (replayList (found w s)) x
        ∨ ∃ rest, coldStart w s = { x with phase := .compacting (replayList (found w s)) rest false }) := by
  rw [coldStart_eq]
  split
  · exact compact_ends _ _ _
  · exact ⟨_, ⟨rfl, rfl, rfl, rfl⟩, .inl rfl⟩

theorem coldStart_keepsStart (w : StartWorld) (s : State) : KeepsStart (startTables (startRead w s)) (coldStart w s) := by
  refine ((startBlocks_handedOn _).keepsStart (firstForms_statusSeq _)).trans ?_
  rw [coldStart_eq]
  split
  · exact compact_keepsStart _ _ _
  · exact finishStart_keepsStart _ _

theorem coldStart_journalAt (w : StartWorld) (s : State) :
    JournalAt w.compaction (startEeprom w s.eeprom).cells (replayList (found w s)) (coldStart w s) := by
  have hblocks := startBlocks_handedOn (startRead w s)
  have hcells : (startBlocks (startRead w s)).eeprom.cells = (startEeprom w s.eeprom).cells := congrArg Eeprom.cells hblocks.eeprom
  have hfull : (startBlocks (startRead w s)).faults.journalFull = false := congrArg Faults.journalFull hblocks.faults
  have hcompacts (h : 96 < consumedSlots (startEeprom w s.eeprom).cells) {run : CompactionRun} (hrun : w.compaction = run) :
      coldStart w s = compact (replayList (found w s)) run (startBlocks (startRead w s)) := by
    rw [coldStart_eq, if_pos h, hrun]
  constructor
  case quiet =>
    intro h
    rw [coldStart_eq, if_neg (by omega)]
    have hand := finishStart_handedOn (replayList (found w s)) (startBlocks (startRead w s))
    exact ⟨hand.phase, (congrArg Eeprom.cells hand.eeprom).trans hcells, (congrArg Faults.journalFull hand.faults).trans hfull⟩
  case complete =>
    intro h hrun
    rw [hcompacts h hrun, ← hfull, ← hcells]
    exact compacted_completes _ _
  case failed =>
    intro k x h hrun hx
    rw [hcompacts h hrun, ← hcells]
    exact compacted_failsAt _ _ hx
  case runs =>
    intro k h hrun hk
    rw [hcompacts h hrun, ← hcells]
    exact compacted_runningAt _ _ hk

/-- Where no compaction is due the journal stands where replay found its end. -/
theorem coldStart_journal {w : StartWorld} {s : State} (h : consumedSlots (startEeprom w s.eeprom).cells ≤ 96) :
    (coldStart w s).journal = replayJournal (found w s) := by
  rw [coldStart_eq, if_neg (by omega)]
  exact (finishStart_handedOn _ _).journal.trans (startBlocks_handedOn _).journal

theorem Alone.occRead {s : State} (h : Alone s) : occRead s = s.presence.occupancy := by
  obtain ⟨_, hgroup, hfollower⟩ := h
  have hlead : leadGroup s = none := by
    unfold leadGroup
    split
    · exact hgroup
    · rfl
  have hfollow : followRecord s = none := by
    unfold followRecord
    split
    · exact hfollower
    · rfl
  simp only [Machine.occRead, hlead, hfollow]

theorem coldStart_list (w : StartWorld) (s : State) (h : (coldStart w s).phase = .running) :
    Derived s.backup.valid (instantOf s.cal.time) .unknown (replayList (found w s)) (coldStart w s) := by
  obtain ⟨x, hx, hfinish | ⟨rest, hrest⟩⟩ := coldStart_ends w s
  · have hblocks := startBlocks_handedOn (startRead w s)
    have hcal : x.cal = restoreCalendar s := hx.cal.trans hblocks.cal
    have hpresence : x.presence.occupancy = .unknown := by
      rw [hx.presence, hblocks.presence]
      rfl
    have halone : Alone x := by
      obtain ⟨hrelation, hgroup, hfollower⟩ := startBlocks_alone (startRead w s)
      exact ⟨hx.join ▸ hrelation, hx.join ▸ hgroup, hx.join ▸ hfollower⟩
    have hderived := finishStart_derived (replayList (found w s)) x
    rw [hcal, halone.occRead, hpresence, ← hfinish] at hderived
    refine ⟨hderived.lost, fun hvalid => ?_, hderived.summary⟩
    have hkept := hderived.kept hvalid
    have htime : (restoreCalendar s).time = s.cal.time := if_pos hvalid
    rwa [htime] at hkept
  · rw [hrest] at h
    cases h

theorem coldStart_held (w : StartWorld) (s : State) {l : List Booking} {rest : List SlotWrite} {d : Bool}
    (h : (coldStart w s).phase = .compacting l rest d) :
    l = replayList (found w s) ∧ (coldStart w s).tt.records = [] := by
  obtain ⟨x, hx, hfinish | ⟨rest', hrest⟩⟩ := coldStart_ends w s
  · rw [hfinish, finishStart_phase] at h
    cases h
  · rw [hrest] at h ⊢
    cases h
    refine ⟨rfl, ?_⟩
    change x.tt.records = []
    rw [hx.tt, startBlocks_records]

theorem coldStart_phase (w : StartWorld) (s : State) :
    (coldStart w s).phase = .running ∨ ∃ l rest, (coldStart w s).phase = .compacting l rest false := by
  obtain ⟨x, -, hfinish | ⟨rest, hrest⟩⟩ := coldStart_ends w s
  · exact .inl (hfinish ▸ finishStart_phase _ _)
  · exact .inr ⟨_, rest, congrArg State.phase hrest⟩

theorem coldStart_length (w : StartWorld) (s : State) : (coldStart w s).tt.records.length ≤ 32 := by
  have hblocks : (startBlocks (startRead w s)).tt.records.length ≤ 32 := by
    rw [startBlocks_records]
    exact Nat.zero_le _
  rw [coldStart_eq]
  split
  · exact compact_records _ (length_replayList _) _ _ hblocks
  · exact finishStart_records _ (length_replayList _) _

/-- The image's items are those that `loadConfiguration` read. -/
theorem coldStart_image (w : StartWorld) (s : State) : RunsOnImage (startEeprom w s.eeprom) (coldStart w s) where
  cfg := (coldStart_keepsStart w s).cfg
  fault := congrArg Faults.config (coldStart_keepsStart w s).faults
  format := (coldStart_keepsStart w s).formatRead

/-- The part at a start listens, so that what the blocks compose stays in the queues. -/
theorem coldStart_silent (w : StartWorld) (s : State) : BusSilent (coldStart w s).bus :=
  (coldStart_keepsStart w s).bus.silent (.inl rfl) ⟨rfl, rfl⟩

theorem coldStart_startsAs (w : StartWorld) (s : State) : StartsAs w s (coldStart w s) := by
  have hkeeps := coldStart_keepsStart w s
  have hcounts := hkeeps.bus.counts
  have hcal : (coldStart w s).cal = restoreCalendar s := hkeeps.cal
  have hfaults (f : Faults → Bool) (hf : ∀ x : Faults, f { x with journalFull := false } = f x) :
      f (coldStart w s).faults = f (startTables (startRead w s)).faults := by
    rw [← hf, hkeeps.faults, hf]
  have hpresence := hkeeps.presence
  exact
    { phase := coldStart_phase w s
      pins := hkeeps.pins
      clock := hkeeps.clock
      station := hkeeps.station
      listening := hkeeps.listening
      calendar := ⟨by rw [hcal]; rfl, fun hvalid => by rw [hcal]; exact if_pos hvalid⟩
      noCalendar := fun hlost => by rw [hcal]; exact if_neg (by simp [hlost])
      setSeq := by rw [hcal]; rfl
      refused := by rw [hcal]; rfl
      offTime := by rw [hcal]; rfl
      captured := hkeeps.captured
      image := coldStart_image w s
      answers := hkeeps.answers
      imageKept := hkeeps.image
      list := coldStart_list w s
      held := fun _ _ _ => coldStart_held w s
      journal := coldStart_journalAt w s
      torn := hkeeps.torn
      position := coldStart_journal
      records := coldStart_length w s
      occupancy := by rw [hpresence]; exact ⟨rfl, rfl, rfl⟩
      vacancy := by rw [hpresence]; rfl
      presenceCounts := by rw [hpresence]; exact ⟨rfl, rfl, rfl, rfl⟩
      co2 := by rw [hpresence]; rfl
      air := ⟨hkeeps.peers, hkeeps.capacity, hkeeps.overflows⟩
      lux := ⟨hkeeps.lux, hkeeps.discarded⟩
      service := hkeeps.service
      clockStopped := by rw [hcal, hfaults Faults.clockStopped (fun _ => rfl)]; rfl
      unnumbered := by rw [hkeeps.station, hfaults Faults.unnumbered (fun _ => rfl)]; rfl
      otherFaults := ⟨hfaults Faults.co2 (fun _ => rfl), hfaults Faults.lux (fun _ => rfl), hfaults Faults.door1 (fun _ => rfl),
        hfaults Faults.door2 (fun _ => rfl), hfaults Faults.capacityDefault (fun _ => rfl), hfaults Faults.duplicate (fun _ => rfl)⟩
      lfsr := by rw [hcounts.lfsr, hkeeps.station]; rfl
      silent := coldStart_silent w s
      counts := ⟨hcounts.good, hcounts.bad, hcounts.malformed, hcounts.unusable, hcounts.sent, hcounts.collisions, hcounts.duplicates⟩
      writeQueue := hkeeps.queue.trans (by change (replayJournal _).queue = []; unfold replayJournal; dsimp only; split <;> rfl)
      statusSeq := hkeeps.statusSeq
      imageWait := hkeeps.imageWait
      pending := hkeeps.pending }

/-! ### The statement -/

/-- Settles O4: both commands run `coldStart`, the second on the part with its reset pin released. -/
theorem startSequenceRuns : Obligations.StartSequenceRuns := by
  refine ⟨fun w s hphase hreset => ⟨_, rfl, ?_⟩, fun w s hphase hreset => ⟨_, rfl, ?_⟩⟩
  · have hstart : powerReturns w s = coldStart w s := by simp [powerReturns, hphase, hreset]
    rw [hstart]
    exact coldStart_startsAs w s
  · have hstart : resetReleased w s = coldStart w (setResetPin false s) := by simp [resetReleased, hphase, hreset]
    rw [hstart]
    exact coldStart_startsAs w (setResetPin false s)

end Sys2Proof.Machine
end

