-- ==== Sys2Proof/Proofs/OutputsFormed.lean ====
section
/-! PROOF. The meeting state as the output blocks read it, and the outputs that a settled event leaves formed: the room scene (R94), the
zone targets (R104, R107) and the motors (R119). -/

namespace Sys2Proof.Machine

/-! ### The meeting state -/

/-- The output blocks read the same of the meeting in `s` and in `t`. -/
structure SameReads (s t : State) : Prop where
  role : roleOf t = roleOf s
  occupancy : occRead t = occRead s
  session : govRead t = govRead s
  order : (followRecord t).bind (fun f => f.order) = (followRecord s).bind (fun f => f.order)

theorem SameReads.refl (s : State) : SameReads s s := ⟨rfl, rfl, rfl, rfl⟩

theorem SameReads.trans {s t u : State} (a : SameReads s t) (b : SameReads t u) : SameReads s u :=
  ⟨b.role.trans a.role, b.occupancy.trans a.occupancy, b.session.trans a.session, b.order.trans a.order⟩

/-- What the reads are formed from. -/
theorem SameReads.of {s t : State} (hrole : roleOf t = roleOf s)
    (hgroup : t.join.group.map (fun g => (g.occupancy, g.session)) = s.join.group.map (fun g => (g.occupancy, g.session)))
    (horder : t.join.follower.map (fun f => f.order) = s.join.follower.map (fun f => f.order))
    (hown : t.presence.occupancy = s.presence.occupancy) (hgov : ownGov t = ownGov s) : SameReads s t := by
  have hlead : (leadGroup t).map (fun g => (g.occupancy, g.session)) = (leadGroup s).map (fun g => (g.occupancy, g.session)) := by
    unfold leadGroup
    rw [hrole]
    cases roleOf s <;> first | exact hgroup | rfl
  have hfollow : (followRecord t).map (fun f => f.order) = (followRecord s).map (fun f => f.order) := by
    unfold followRecord
    rw [hrole]
    cases roleOf s <;> first | exact horder | rfl
  have hreads : occRead t = occRead s ∧ govRead t = govRead s ∧
      (followRecord t).bind (fun f => f.order) = (followRecord s).bind (fun f => f.order) := by
    unfold occRead govRead
    revert hlead hfollow
    generalize leadGroup t = g, leadGroup s = g', followRecord t = f, followRecord s = f'
    rw [hown, hgov]
    cases g <;> cases g' <;> cases f <;> cases f' <;> simp_all
  exact ⟨hrole, hreads.1, hreads.2.1, hreads.2.2⟩

theorem roleOf_congr {s t : State} (h : t.join.partitions = s.join.partitions) : roleOf t = roleOf s := by rw [roleOf, h]; rfl

theorem SameReads.isFollow {s t : State} (h : SameReads s t) : isFollow t = isFollow s := by
  rw [Machine.isFollow, h.role]
  rfl

theorem SameReads.joinedPartner {s t : State} (h : SameReads s t) (hcfg : t.cfg = s.cfg) : joinedPartner t = joinedPartner s := by
  have hneighbour (p : Nat) : neighbourOf t p = neighbourOf s p := by rw [neighbourOf, hcfg]; rfl
  unfold Machine.joinedPartner
  rw [h.role]
  cases roleOf s <;> simp only [hneighbour]

/-- The context in which records are evaluated. -/
theorem SameReads.evalCtx {s t : State} (h : SameReads s t) (hcfg : t.cfg = s.cfg) (hair : t.air = s.air) (hclock : t.clock = s.clock)
    (now : Nat) (d : Bool) : evalCtx t now d = evalCtx s now d := by
  simp only [Machine.evalCtx, nowOf, h.occupancy, h.joinedPartner hcfg, h.isFollow, hcfg, hair, hclock]

theorem SameReads.ofBus (s : State) (b : Bus) : SameReads s { s with bus := b } := .of rfl rfl rfl rfl rfl

theorem sendJoin_sameReads (p k : Nat) (l : List Byte) (s : State) : SameReads s (sendJoin p k l s) := by
  refine .of (roleOf_congr (sendJoin_handedOn p k l s).partitions) ?_ (sendJoin_handedOn p k l s).joins.order
    (congrArg Presence.occupancy (sendJoin_handedOn p k l s).presence) ?_
  · unfold sendJoin
    dsimp only
    split <;> rfl
  · unfold sendJoin
    dsimp only
    split <;> rfl

theorem composeState_sameReads (s : State) : SameReads s (composeState s) := by
  unfold composeState
  split
  next f r _ hfollower _ =>
    refine SameReads.trans ?_ (sendJoin_sameReads _ _ _ _)
    exact .of rfl rfl (by rw [hfollower]; rfl) rfl rfl
  · exact .refl s

theorem composeOrder_sameReads (s : State) : SameReads s (composeOrder s) := by
  unfold composeOrder
  split
  next g r _ hgroup _ =>
    split
    · exact .refl s
    · refine SameReads.trans ?_ (sendJoin_sameReads _ _ _ _)
      exact .of rfl (by rw [hgroup]; rfl) rfl rfl rfl
  · exact .refl s

theorem commit_sameReads (before s : State) : SameReads s (commit before s) := by
  unfold commit
  split
  · exact .refl s
  · exact .of rfl rfl rfl rfl rfl

theorem endEvent_sameReads (before s : State) : SameReads s (endEvent before s) := by
  refine SameReads.trans ?_ (commit_sameReads before _)
  unfold composeJoin
  split
  · exact composeOrder_sameReads s
  · split
    · exact composeState_sameReads s
    · exact .refl s

theorem deferIfWaiting_sameReads (s : State) : SameReads s (deferIfWaiting s) := .ofBus s _

theorem finishTelegram_sameReads (before s : State) : SameReads s (finishTelegram before s) :=
  (deferIfWaiting_sameReads s).trans (endEvent_sameReads before _)

theorem sendAll_sameReads (l : List OutTelegram) (s : State) : SameReads s (sendAll l s) := by
  induction l generalizing s with
  | nil => exact .refl s
  | cons t rest ih => exact SameReads.trans (.ofBus s _) (ih (send t s))

theorem overRecordsAt_sameReads (f : EvalCtx → Booking → RecordResult) (s : State) : SameReads s (overRecordsAt f s) := by
  unfold overRecordsAt
  split
  · exact .refl s
  · refine SameReads.trans ?_ (sendAll_sameReads _ _)
    exact .of rfl rfl rfl rfl rfl

/-- A claim begins on a BLOCKED partition, which gives no role. -/
theorem tryClaim_sameReads (s : State) : SameReads s (tryClaim s) := by
  unfold tryClaim
  split
  · split
    · exact .refl s
    next p hp =>
      obtain ⟨hone, x, hx, hblocked, -⟩ := firstDue_spec hp
      have hnot : p ≠ 0 := by omega
      refine SameReads.trans ?_ (sendJoin_sameReads _ _ _ _)
      refine .of ?_ rfl rfl rfl rfl
      change roleFrom 1 (update1 s.join.partitions p _) = _
      rw [update1, if_neg hnot]
      exact roleFrom_update s.join.partitions 1 p _ x hone hx (by simp [hblocked]) (by simp [hblocked])
        (by simp [claimingPartition]) (by simp [claimingPartition])
  · exact .refl s

/-! ### The outputs -/

/-- The outputs are those of the tables: the room scene, the targets of the zones, and the motors. -/
structure OutputsFormed (t : State) : Prop where
  scene : sceneChosen t
  targets : targetsFormed t
  motors : motorsFormed t

theorem roomSceneOf_congr {s t : State} (h : SameReads s t) (hhold : t.light.hold = s.light.hold)
    (hscene : isFollow s = true → (followRecord s).bind (fun f => f.order) = none → t.light.scene = s.light.scene) :
    roomSceneOf t = roomSceneOf s := by
  unfold roomSceneOf
  rw [h.isFollow, h.order, h.occupancy, h.session, hhold]
  split
  next hfollow =>
    split
    · rfl
    next horder => rw [hscene hfollow horder]
  next => rfl

theorem blindRow_congr {s t : State} (h : SameReads s t) (hservice : t.service = s.service) (hlistening : t.listening = s.listening)
    (hcfg : t.cfg = s.cfg) (hfacades : t.blind.facades = s.blind.facades) (hscene : t.light.scene = s.light.scene) (c : MotorCfg)
    {m n : Motor} (hhold : n.hold = m.hold) : blindRow t c n = blindRow s c m := by
  have hfacade (k : Nat) : facadeOf t.blind k = facadeOf s.blind k := by rw [facadeOf, hfacades]; rfl
  unfold blindRow positionRow windHolds sunHigh sceneBlind
  simp only [hfacade, hservice, hlistening, hcfg, hscene, hhold, h.occupancy, h.session]

/-- A change that none of the tables reads leaves the outputs formed. -/
theorem OutputsFormed.keeps {s t : State} (h : OutputsFormed s) (reads : SameReads s t) (hlight : t.light = s.light)
    (hblind : t.blind = s.blind) (hservice : t.service = s.service) (hlistening : t.listening = s.listening) (hcfg : t.cfg = s.cfg) :
    OutputsFormed t where
  scene := by
    unfold sceneChosen
    rw [roomSceneOf_congr reads (by rw [hlight]) (fun _ _ => by rw [hlight]), hlight]
    exact h.scene
  targets := by
    unfold targetsFormed
    rw [hlight, hservice, hlistening, hcfg]
    exact h.targets
  motors := by
    intro n c m hc hm
    rw [hcfg] at hc
    rw [hblind] at hm
    rw [blindRow_congr reads hservice hlistening hcfg (by rw [hblind]) (by rw [hlight]) c rfl]
    exact h.motors n c m hc hm

/-! ### The motors by their rows -/

theorem enterLocked_isLockedUp (now : Stamp) (c : MotorCfg) (m : Motor) : isLockedUp (enterLocked now c m) := by
  have hrest (m : Motor) (h : m.inForce = some 0) : isLockedUp (lockAtRest now c m) := by
    unfold lockAtRest
    split
    · exact ⟨h, .inr ⟨rfl, rfl, rfl⟩, rfl⟩
    · exact ⟨h, .inl rfl, rfl⟩
  unfold enterLocked
  dsimp only
  split
  next hstate => exact ⟨rfl, .inl hstate, by simp only [relayDown, hstate]⟩
  · exact hrest _ rfl
  · exact hrest _ rfl
  · exact ⟨rfl, .inl rfl, rfl⟩
  · refine ⟨(stopRun_keeps now c _).2, .inr ⟨rfl, rfl, rfl⟩, rfl⟩
  next hstate => exact ⟨rfl, .inr ⟨hstate, rfl, rfl⟩, by simp only [relayDown, hstate]⟩
  · exact ⟨rfl, .inl rfl, rfl⟩

theorem stopAndHold_isStopped (now : Stamp) (c : MotorCfg) (m : Motor) : isStopped (stopAndHold now c m) := by
  have hrun : (stopRun now c m).run = none := by
    unfold stopRun
    split
    · assumption
    · rfl
  have hrelays (e : Option Nat) (x : Motor) (hx : x.state = restState e) : relayUp x = false ∧ relayDown x = false := by
    unfold relayUp relayDown
    rw [hx]
    cases e <;> exact ⟨rfl, rfl⟩
  exact ⟨hrun, rfl, rfl, rfl, (hrelays _ _ rfl).1, (hrelays _ _ rfl).2⟩

/-- A motor that took its row stands as the row says. -/
theorem applyRow_formed (now : Stamp) (c : MotorCfg) (row : BlindRow) (m : Motor) :
    (row = .locked → isLockedUp (applyRow now c row m)) ∧ (row = .stopped → isStopped (applyRow now c row m))
      ∧ ∀ p, row = .position p → (applyRow now c row m).inForce = some p := by
  refine ⟨?_, ?_, ?_⟩
  · rintro rfl
    exact enterLocked_isLockedUp now c m
  · rintro rfl
    exact stopAndHold_isStopped now c m
  · rintro p rfl
    exact (takePosition_keeps now c p (leaveLocked m)).2

theorem nth1_eq_getElem? {α : Type} {l : List α} {n : Nat} {x : α} (h : nth1 l n = some x) : l[n - 1]? = some x :=
  (nth1_eq_some_iff.mp h).2

/-- A motor that the test names takes its row. -/
theorem nth1_formMotors {s : State} {f : MotorCfg → Bool} {n : Nat} {c : MotorCfg} {m : Motor} (hc : nth1 s.cfg.motors n = some c)
    (hm : nth1 (formMotors s f s.cfg.motors s.blind.motors) n = some m) :
    ∃ x, nth1 s.blind.motors n = some x ∧ m = if f c then applyRow (nowOf s) c (blindRow s c x) x else x := by
  obtain ⟨hn, hm⟩ := nth1_eq_some_iff.mp hm
  rw [formMotors_get, nth1_eq_getElem? hc] at hm
  cases hx : s.blind.motors[n - 1]? with
  | none => rw [hx] at hm; cases hm
  | some x =>
    rw [hx] at hm
    cases hm
    exact ⟨x, nth1_eq_some_iff.mpr ⟨hn, hx⟩, rfl⟩

/-- A row that `m` took is the row it stands in. -/
theorem formMotors_rowsHold {s t : State} (reads : SameReads s t) (hservice : t.service = s.service)
    (hlistening : t.listening = s.listening) (hcfg : t.cfg = s.cfg) (hfacades : t.blind.facades = s.blind.facades)
    (hscene : t.light.scene = s.light.scene) (hmotors : t.blind.motors = formMotors s (fun _ => true) s.cfg.motors s.blind.motors) :
    motorsFormed t := by
  intro n c m hc hm
  rw [hcfg] at hc
  rw [hmotors] at hm
  obtain ⟨x, -, rfl⟩ := nth1_formMotors hc hm
  rw [if_pos rfl, blindRow_congr reads hservice hlistening hcfg hfacades hscene c (applyRow_hold _ c _ x)]
  exact applyRow_formed _ c _ x

theorem formBlinds_sameReads (s : State) : SameReads s (formBlinds s) := .of rfl rfl rfl rfl rfl

theorem formBlinds_motorsFormed (s : State) : motorsFormed (formBlinds s) :=
  formMotors_rowsHold (formBlinds_sameReads s) rfl rfl rfl rfl rfl rfl

/-! ### The scene -/

theorem formTargets_sameReads (s : State) : SameReads s (formTargets s) := .of rfl rfl rfl rfl rfl

theorem formZones_source (s : State) : (formZones s).source = s.light.source := by
  unfold formZones
  dsimp only
  split
  · rfl
  · split <;> rfl
  · split
    · split <;> rfl
    · rfl

theorem selectScene_sceneChosen {s : State} (h : s.listening = false) : sceneChosen (selectScene s) := by
  let x : State := { s with light := { s.light with scene := (roomSceneOf s).1, source := (roomSceneOf s).2 } }
  have hselect : selectScene s = formTargets x := by
    rw [selectScene, if_neg (by simp [h])]
  obtain ⟨-, -, hhold, hscene⟩ := formZones_keeps x
  have hsame : roomSceneOf (formTargets x) = roomSceneOf s := by
    have hx : SameReads s x := .of rfl rfl rfl rfl rfl
    refine roomSceneOf_congr (hx.trans (formTargets_sameReads x)) hhold (fun hfollow horder => ?_)
    change (formZones x).scene = s.light.scene
    rw [hscene]
    change (roomSceneOf s).1 = s.light.scene
    rw [roomSceneOf, if_pos hfollow, horder]
  rw [hselect, sceneChosen, hsame]
  change ((formZones x).scene, (formZones x).source) = _
  rw [hscene, formZones_source]

theorem selectScene_targetsFormed (s : State) : targetsFormed (selectScene s) := by
  unfold selectScene
  split <;> exact formTargets_targetsFormed _

theorem selectScene_sameReads (s : State) : SameReads s (selectScene s) := by
  unfold selectScene
  split
  · exact formTargets_sameReads s
  · refine SameReads.trans ?_ (formTargets_sameReads _)
    exact .of rfl rfl rfl rfl rfl

theorem selected_outputsFormed {s : State} (h : s.listening = false) : OutputsFormed (formBlinds (selectScene s)) where
  scene := by
    have hchosen := selectScene_sceneChosen h
    unfold sceneChosen at hchosen ⊢
    rw [roomSceneOf_congr (formBlinds_sameReads _) rfl (fun _ _ => rfl)]
    exact hchosen
  targets := selectScene_targetsFormed s
  motors := formBlinds_motorsFormed _

theorem settle_outputsFormed {s : State} (h : s.listening = false) : OutputsFormed (settle s) :=
  selected_outputsFormed ((airLoop_handedOn 33 s).listening.trans h)

theorem OutputsFormed.handed {s t : State} (h : OutputsFormed s) (reads : SameReads s t) (hand : HandedOn s t) (keeps : KeepsOutputs s t) :
    OutputsFormed t :=
  h.keeps reads keeps.light keeps.blind hand.service hand.listening hand.cfg

theorem OutputsFormed.endEvent (before : State) {s : State} (h : OutputsFormed s) : OutputsFormed (endEvent before s) :=
  h.handed (endEvent_sameReads before s) (endEvent_handedOn before s) (endEvent_keepsOutputs before s)

theorem OutputsFormed.finishTelegram (before : State) {s : State} (h : OutputsFormed s) : OutputsFormed (finishTelegram before s) :=
  h.handed (finishTelegram_sameReads before s) (finishTelegram_handedOn before s) (finishTelegram_keepsOutputs before s)

end Sys2Proof.Machine
end

