-- ==== Sys2Proof/Proofs/ListenIn.lean ====
section
/-! PROOF. The end of the listen-in (R184), block by block: air (R79), scene and blinds (R96, R120), claims (R132) and DEFERRED windows
(R42). -/

namespace Sys2Proof.Machine

/-! ### The part as the listen-in ends -/

/-- The part with its listen-in over and CAPACITY-DEFAULT raised where no CAPACITY was heard. -/
def listenedIn (s : State) : State :=
  { s with listening := false
           faults := { s.faults with capacityDefault := s.faults.capacityDefault || s.air.capacity.isNone } }

/-- The part after its first scene and first blind positions. -/
def listenOutputs (s : State) : State := formBlinds (selectScene (settleHoldScene (airLoop 33 (listenedIn s))))

/-- The part after its due claim and the presence hold that follows from it. -/
def listenClaims (s : State) : State := updateHold (tryClaim (listenOutputs s))

theorem endListen_eq (s : State) : endListen s = deferIfWaiting (overRecordsAt onListenEnd (listenClaims s)) := rfl

theorem HandedOn.ofLightHold (s : State) (o : Option PanelHold) : HandedOn s { s with light := { s.light with hold := o } } :=
  ⟨⟨by constructor <;> rfl, .ofSame rfl rfl rfl rfl rfl⟩, rfl, rfl, rfl, rfl, rfl, rfl, rfl, rfl, rfl, rfl⟩

theorem settleHoldScene_handedOn (s : State) : HandedOn s (settleHoldScene s) := by
  unfold settleHoldScene
  split
  · exact .refl s
  · split
    · exact .refl s
    · exact .ofLightHold s _

theorem listenOutputs_handedOn (s : State) : HandedOn (listenedIn s) (listenOutputs s) :=
  (airLoop_handedOn 33 _).trans ((settleHoldScene_handedOn _).trans ((selectScene_handedOn _).trans (formBlinds_handedOn _)))

theorem listenClaims_keepsRest (s : State) : KeepsRest (listenedIn s) (listenClaims s) :=
  (listenOutputs_handedOn s).toKeepsRest.trans ((tryClaim_keepsRest _).trans (updateHold_keepsRest _))

/-- What follows the claims in the event: the DEFERRED windows, and the end of the event. -/
theorem endListen_handedOn (s : State) : HandedOn (listenClaims s) (endEvent s (endListen s)) :=
  (overRecordsAt_handedOn _ onListenEnd_keepsId _).trans ((deferIfWaiting_handedOn _).trans (endEvent_handedOn s _))

theorem endListen_keepsRest (s : State) : KeepsRest (listenedIn s) (endEvent s (endListen s)) :=
  (listenClaims_keepsRest s).trans (endListen_handedOn s).toKeepsRest

/-! ### The first DEMAND -/

theorem composeDemand_announces (s : State) : (composeDemand s).air.last.isSome = true := rfl

theorem announce_announces {s : State} (h : maySpeak s = true) : (announce s).air.last.isSome = true := by
  unfold announce
  rw [if_neg (by simp [h])]
  split
  · exact composeDemand_announces s
  next l hl =>
    split
    · exact composeDemand_announces s
    · rw [hl]; rfl

theorem airPass_announces {s : State} (h : maySpeak s = true) : (airPass s).air.last.isSome = true := by
  have hand := refreshSession_handedOn s
  refine (computeGrant_handedOn _).announced (announce_announces ?_)
  change maySpeak (refreshSession s) = true
  rw [maySpeak, hand.listening, hand.station]
  exact h

theorem airLoop_announces (n : Nat) {s : State} (h : maySpeak s = true) : (airLoop (n + 1) s).air.last.isSome = true := by
  have hpass := airPass_announces h
  have hgrant : (ttGrant (airPass s)).air.last.isSome = true :=
    (overRecordsAt_handedOn _ onGrant_keepsId _).announced hpass
  unfold airLoop
  dsimp only
  split
  · split
    · exact hgrant
    · exact (airLoop_handedOn n _).announced hgrant
  · exact hpass

theorem endListen_announces {s : State} (h : s.station ≠ 0) : (endEvent s (endListen s)).air.last.isSome = true := by
  have hspeaks : maySpeak (listenedIn s) = true := by simp [maySpeak, listenedIn, h]
  have hloop := airLoop_announces 32 hspeaks
  have hoffers : (listenOutputs s).air.last.isSome = true :=
    ((settleHoldScene_handedOn _).trans ((selectScene_handedOn _).trans (formBlinds_handedOn _))).announced hloop
  exact (endListen_handedOn s).announced (((tryClaim_keepsRest _).trans (updateHold_keepsRest _)).announced hoffers)

/-! ### The outputs -/

theorem tryClaim_keepsOutputs (s : State) : KeepsOutputs s (tryClaim s) := by
  unfold tryClaim
  split
  · split
    · exact .refl s
    · refine KeepsOutputs.trans ?_ (sendJoin_keepsOutputs _ _ _ _)
      exact ⟨rfl, rfl, rfl, rfl⟩
  · exact .refl s

theorem tryClaim_presence (s : State) : (tryClaim s).presence = s.presence := by
  unfold tryClaim
  split
  · split
    · rfl
    · exact (sendJoin_handedOn _ _ _ _).presence
  · rfl

theorem OutputsFormed.tryClaim {s : State} (h : OutputsFormed s) : OutputsFormed (tryClaim s) :=
  have rest := tryClaim_keepsRest s
  have outputs := tryClaim_keepsOutputs s
  h.keeps (tryClaim_sameReads s) outputs.light outputs.blind rest.service rest.listening rest.cfg

/-- A release of the held queue ends in a settled event. -/
theorem OutputsFormed.releaseQueue {s : State} (h : OutputsFormed s) (hlistening : s.listening = false) :
    OutputsFormed (releaseQueue s) := by
  unfold Machine.releaseQueue
  split
  · exact h
  · refine settle_outputsFormed (Eq.trans ?_ hlistening)
    exact ((takeEach_keepsRest _ _).trans (takePending_keepsRest _)).listening

theorem OutputsFormed.updateHold {s : State} (h : OutputsFormed s) (hlistening : s.listening = false) :
    OutputsFormed (updateHold s) := by
  unfold Machine.updateHold
  split
  · exact h.releaseQueue hlistening
  · exact h.keeps (.of rfl rfl rfl rfl rfl) rfl rfl rfl rfl rfl

theorem sendAll_light (l : List OutTelegram) (s : State) : (sendAll l s).light = s.light := by
  induction l generalizing s with
  | nil => rfl
  | cons t rest ih => exact ih (send t s)

theorem sendAll_blind (l : List OutTelegram) (s : State) : (sendAll l s).blind = s.blind := by
  induction l generalizing s with
  | nil => rfl
  | cons t rest ih => exact ih (send t s)

theorem sendAll_air (l : List OutTelegram) (s : State) : (sendAll l s).air = s.air := by
  induction l generalizing s with
  | nil => rfl
  | cons t rest ih => exact ih (send t s)

/-- An event over the list leaves the outputs of the other blocks. -/
theorem overRecordsAt_outputs (f : EvalCtx → Booking → RecordResult) (s : State) :
    (overRecordsAt f s).light = s.light ∧ (overRecordsAt f s).blind = s.blind ∧ (overRecordsAt f s).air = s.air := by
  unfold overRecordsAt
  split
  · exact ⟨rfl, rfl, rfl⟩
  · exact ⟨sendAll_light _ _, sendAll_blind _ _, sendAll_air _ _⟩

theorem OutputsFormed.overRecordsAt {s : State} (h : OutputsFormed s) (f : EvalCtx → Booking → RecordResult)
    (hf : ∀ c, KeepsId (f c)) : OutputsFormed (overRecordsAt f s) :=
  have hand := overRecordsAt_handedOn f hf s
  have outputs := overRecordsAt_outputs f s
  h.keeps (overRecordsAt_sameReads f s) outputs.1 outputs.2.1 hand.service hand.listening hand.cfg

theorem listenOutputs_listening (s : State) : (listenOutputs s).listening = false := (listenOutputs_handedOn s).listening

theorem endListen_outputsFormed (s : State) : OutputsFormed (endEvent s (endListen s)) := by
  have hchosen : (settleHoldScene (airLoop 33 (listenedIn s))).listening = false :=
    ((airLoop_handedOn 33 _).trans (settleHoldScene_handedOn _)).listening
  have hclaims : OutputsFormed (listenClaims s) :=
    (selected_outputsFormed hchosen).tryClaim.updateHold ((tryClaim_keepsRest _).listening.trans (listenOutputs_listening s))
  have hwindows : OutputsFormed (endListen s) :=
    (hclaims.overRecordsAt onListenEnd onListenEnd_keepsId).keeps (deferIfWaiting_sameReads _) rfl rfl rfl rfl rfl
  exact hwindows.endEvent s

/-! ### The claim -/

theorem isFree_congr {s t : State} (h : t.join.partitions = s.join.partitions) : isFree t = isFree s := by
  rw [isFree, roleOf_congr h, claimingSomewhere, h]
  rfl

/-- After the claims the event leaves the partitions and the claim sequence alone. -/
theorem endListen_joins (s : State) : KeepsJoin (tryClaim (listenOutputs s)) (endEvent s (endListen s)) :=
  (updateHold_keepsJoin _).trans (endListen_handedOn s).joins

theorem endListen_idle {s : State} (h : s.station = 0 ∨ isFree s = false) :
    (endEvent s (endListen s)).join.partitions = s.join.partitions := by
  have hand := listenOutputs_handedOn s
  have hidle : tryClaim (listenOutputs s) = listenOutputs s := by
    refine tryClaim_idle (h.symm.imp (fun hfree => ?_) (fun hstation => ?_))
    · rw [isFree_congr hand.partitions]
      exact hfree
    · rw [maySpeak, hand.station]
      simp [listenedIn, hstation]
  rw [(endListen_joins s).partitions, hidle]
  exact hand.partitions

theorem endListen_claims {s : State} {p : Nat} {x : Partition} (hstation : s.station ≠ 0) (hfree : isFree s = true)
    (hx : partitionOf s p = some x) (hblocked : x.state = .blocked) (hdue : x.retry = .due)
    (hfirst : ∀ r z, r < p → partitionOf s r = some z → ¬(z.state = .blocked ∧ z.retry = .due)) :
    partitionOf (endEvent s (endListen s)) p = some (claimingPartition (nowOf s) x)
      ∧ (endEvent s (endListen s)).join.claimSeq = nextSeq s.join.claimSeq
      ∧ ∀ r, r ≠ p → partitionOf (endEvent s (endListen s)) r = partitionOf s r := by
  have hand := listenOutputs_handedOn s
  have hsame (r : Nat) : partitionOf (listenOutputs s) r = partitionOf s r := partitionOf_congr hand.partitions r
  have hspeaks : maySpeak (listenOutputs s) = true := by
    rw [maySpeak, hand.station, hand.listening]
    simp [listenedIn, hstation]
  have hclaim : tryClaim (listenOutputs s) = beginClaim p (listenOutputs s) := by
    refine tryClaim_claims (isFree_congr hand.partitions ▸ hfree) hspeaks ((hsame p).trans hx) hblocked hdue (fun r z hr hz => ?_)
    exact hfirst r z hr ((hsame r).symm.trans hz)
  have hjoins := hclaim ▸ endListen_joins s
  have hnow : nowOf (listenOutputs s) = nowOf s := by
    rw [nowOf, hand.clock]
    rfl
  have hpartition (r : Nat) : partitionOf (endEvent s (endListen s)) r
      = nth1 (update1 (listenOutputs s).join.partitions p (claimingPartition (nowOf s))) r := by
    rw [partitionOf_congr hjoins.partitions, partitionOf, beginClaim_partitions, hnow]
  refine ⟨?_, ?_, fun r hr => ?_⟩
  · rw [hpartition]
    exact nth1_update1_same _ ((hsame p).trans hx)
  · rw [hjoins.claimSeq]
    change (sendJoin _ _ _ _).join.claimSeq = _
    rw [(sendJoin_handedOn _ _ _ _).joins.claimSeq]
    change nextSeq (listenOutputs s).join.claimSeq = _
    rw [hand.joins.claimSeq]
    rfl
  · rw [hpartition, nth1_update1_other _ _ hr]
    exact hsame r

/-! ### DEFERRED windows -/

/-- A record whose window the end of the listen-in settles. -/
def windowDeferred (b : Booking) : Prop := b.state = .active ∧ b.window = .deferred

theorem onListenEnd_deferred (c : EvalCtx) {b : Booking} (h : windowDeferred b) : onListenEnd c b = activate c b := by
  simp only [onListenEnd, h.1, h.2]

theorem onListenEnd_other (c : EvalCtx) {b : Booking} (h : ¬ windowDeferred b) : onListenEnd c b = (some b, []) := by
  unfold onListenEnd
  split
  next hstate hwindow => exact absurd ⟨hstate, hwindow⟩ h
  next => rfl

/-- Outside the derivation a record is activated with no DEFERRED window. -/
theorem openWindow_settled {c : EvalCtx} (hc : c.derivation = false) (b : Booking) : (openWindow c b).window ≠ .deferred := by
  unfold openWindow
  split
  · simp
  · split
    · simp
    · simp [hc]

theorem openWindow_activated (c : EvalCtx) (b : Booking) : Activated c b (openWindow c b) := by
  constructor
  case fields =>
    unfold openWindow
    repeat' split
    all_goals rfl
  all_goals
    intros
    simp_all [openWindow]

theorem activated_iff (c : EvalCtx) (b a : Booking) : Activated c b a ↔ a = openWindow c b := by
  refine ⟨fun h => ?_, fun h => h ▸ openWindow_activated c b⟩
  have hfields := h.fields
  unfold openWindow
  split
  next hno =>
    obtain ⟨hwindow, hattended⟩ := h.noRelease hno
    rw [hfields, hwindow, hattended]
  next hno =>
    have hno : b.noRelease = false := by simpa using hno
    split
    next hocc =>
      obtain ⟨hwindow, hattended⟩ := h.occupied hno hocc
      rw [hfields, hwindow, hattended]
    next hocc =>
      split
      next hder =>
        obtain ⟨hwindow, hattended⟩ := h.deferred hno hocc hder
        rw [hfields, hwindow, hattended]
      next hder =>
        obtain ⟨hwindow, hattended⟩ := h.running hno hocc (by simpa using hder)
        rw [hfields, hwindow, hattended]

/-- The list after the end of the listen-in, from the list that the evaluation meets. -/
theorem mem_onListenEnd {c : EvalCtx} {l : List Booking} {a : Booking} :
    a ∈ listAfter (onListenEnd c) l ↔
      ∃ b ∈ l, (¬ windowDeferred b ∧ a = b) ∨ (windowDeferred b ∧ a = openWindow c b) := by
  rw [mem_listAfter]
  refine exists_congr (fun b => and_congr_right (fun _ => ?_))
  by_cases h : windowDeferred b
  · rw [onListenEnd_deferred c h]
    change some (openWindow c b) = some a ↔ _
    rw [Option.some.injEq, eq_comm]
    simp [h]
  · rw [onListenEnd_other c h, Option.some.injEq, eq_comm]
    simp [h]

theorem endListen_records {s : State} (h : s.cal.running = true) :
    (endEvent s (endListen s)).tt.records =
      listAfter (onListenEnd (evalCtx (endEvent s (endListen s)) (instantOf s.cal.time) false)) (listenClaims s).tt.records := by
  have hcal : calInstant (listenClaims s).cal = some (instantOf s.cal.time) := by
    rw [(listenClaims_keepsRest s).cal]
    exact if_pos h
  have hctx : evalCtx (endEvent s (endListen s)) (instantOf s.cal.time) false
      = evalCtx (listenClaims s) (instantOf s.cal.time) false := by
    have hand := endListen_handedOn s
    refine SameReads.evalCtx ?_ hand.cfg ?_ hand.clock _ _
    · exact (overRecordsAt_sameReads _ _).trans ((deferIfWaiting_sameReads _).trans (endEvent_sameReads s _))
    · exact (endEvent_keepsOutputs s _).air.trans (overRecordsAt_outputs onListenEnd _).2.2
  rw [hctx, (endEvent_keepsOutputs s _).tt]
  exact congrArg Timetable.records (overRecordsAt_tt onListenEnd hcal)

/-- With no presence queue held, the claims leave the list as the air left it. -/
theorem listenClaims_list {s : State} (h : s.cal.running = true) (hheld : s.presence.held = false) :
    GrantsFollow (some (instantOf s.cal.time)) s.tt.records (listenClaims s).tt.records := by
  have hcal : calInstant (listenedIn s).cal = some (instantOf s.cal.time) := if_pos h
  have hloop := (airLoop_list 33 hcal .refl).records
  have hoffers : (listenOutputs s).tt = (airLoop 33 (listenedIn s)).tt := by
    change (selectScene _).tt = _
    rw [selectScene_tt]
    unfold settleHoldScene
    split
    · rfl
    · split <;> rfl
  have hclaims : (listenClaims s).tt = (listenOutputs s).tt := by
    have hpresence : (tryClaim (listenOutputs s)).presence.held = false := by
      rw [tryClaim_presence, (listenOutputs_handedOn s).presence]
      exact hheld
    rw [← (tryClaim_keepsOutputs (listenOutputs s)).tt]
    unfold listenClaims updateHold releaseQueue
    split
    · rw [if_pos (by simp [hpresence])]
    · rfl
  rw [hclaims, hoffers]
  exact hloop

/-! ### The statement -/

/-- Settles O8, block by block in the order of R184. -/
theorem listenInEnds : Obligations.ListenInEnds := by
  intro s hphase hlistening hsec
  have hexec : exec .listenInEnd s = .next (endEvent s (endListen s)) := by
    change Host.Outcome.next (if listenDue s then endEvent s (endListen s) else s) = _
    rw [if_pos ((listenDue_iff s).mpr ⟨hphase, hlistening, hsec⟩)]
  have hformed := endListen_outputsFormed s
  refine ⟨_, hexec, (endListen_keepsRest s).listening, endListen_keepsRest s, endListen_announces, hformed.scene, hformed.targets,
    hformed.motors, fun p x => endListen_claims, endListen_idle, fun hrunning b hb hactive hdeferred => ?_,
    fun hrunning hheld => ⟨_, listenClaims_list hrunning hheld, fun a => ?_⟩⟩
  · rw [endListen_records hrunning] at hb
    obtain ⟨x, -, ⟨hx, rfl⟩ | ⟨-, rfl⟩⟩ := mem_onListenEnd.mp hb
    · exact hx ⟨hactive, hdeferred⟩
    · exact openWindow_settled rfl x hdeferred
  · conv_lhs => rw [endListen_records hrunning]
    rw [mem_onListenEnd]
    simp only [windowDeferred, activated_iff, and_assoc]

end Sys2Proof.Machine
end

