-- ==== Sys2Proof/Proofs/RecordRows.lean ====
section
/-! PROOF. The rows by which a record moves at a minute and a day boundary (R29 to R36) and on a clock step (R39 to R41). -/

namespace Sys2Proof.Machine

/-! ### One record -/

theorem activate_activates (c : EvalCtx) (b : Booking) : activates c b (activate c b) := by
  refine ⟨openWindow c b, rfl, openWindow_activated c b, ?_⟩
  unfold activate
  cases c.derivation <;> cases conflicts c b <;> rfl

theorem nextOccurrence_weekless {b : Booking} (h : b.weeks = 0) : nextOccurrence b = none := by
  simp [nextOccurrence, weekLater, h]

theorem leaveOrRecur_weekless (c : EvalCtx) {b : Booking} (h : b.weeks = 0) : leaveOrRecur c b = (none, []) := by
  simp only [leaveOrRecur, nextOccurrence_weekless h]

theorem becomeNoShow_weekless (c : EvalCtx) {b : Booking} (h : b.weeks = 0) :
    becomeNoShow c b = (none, [noticeOf noticeNoShow b 1]) := by
  simp only [becomeNoShow, leaveOrRecur_weekless c h]

theorem evaluatePending_live {c : EvalCtx} {b : Booking} (h : c.now < dateInstant b.finish) :
    evaluatePending c b = evaluateLive c b := by
  rw [evaluatePending, if_neg (by omega)]

theorem evaluatePending_missed {c : EvalCtx} {b : Booking} (h : dateInstant b.finish ≤ c.now) (hweeks : b.weeks = 0) :
    evaluatePending c b = (none, [noticeOf noticeMissed b 1]) := by
  simp only [evaluatePending, if_pos h, hweeks, missRun]

theorem evaluateLive_evaluated (c : EvalCtx) (b : Booking) : Evaluated c b (evaluateLive c b) where
  active h := by
    rw [evaluateLive, if_pos h]
    exact activate_activates c b
  preconditioning hahead hnear hlead := by
    rw [evaluateLive, if_neg (by omega), if_pos ⟨hnear, hlead⟩]
  pending hahead hfar := by
    rw [evaluateLive, if_neg (by omega), if_neg (by omega)]

theorem evaluatePending_evaluated {c : EvalCtx} {b : Booking} (h : c.now < dateInstant b.finish) :
    Evaluated c b (evaluatePending c b) := by
  rw [evaluatePending_live h]
  exact evaluateLive_evaluated c b

theorem endActive_ended (c : EvalCtx) (b : Booking) : Ended c b (endActive c b) where
  noShow hwindow hweeks := by rw [endActive, if_pos hwindow, becomeNoShow_weekless c hweeks]
  done hwindow hvacant hweeks := by
    rw [endActive, if_neg (by simp [hwindow]), if_pos hvacant, leaveOrRecur_weekless c hweeks]
  runsOut hwindow hoccupied := by rw [endActive, if_neg (by simp [hwindow]), if_neg hoccupied]

theorem retire_rows (c : EvalCtx) (b : Booking) : RetireRows c b (retire c b) where
  stays h := by rw [retire, if_neg (by omega)]
  leaves h hweeks := by rw [retire, if_pos h, hweeks, retireRun]
  moves x h hx hahead := by
    obtain ⟨n, hn⟩ : ∃ n, b.weeks = n + 1 := by
      refine Nat.exists_eq_succ_of_ne_zero (fun hweeks => ?_)
      simp [weekLater, hweeks] at hx
    simp only [retire, if_pos h, hn, retireRun, hx, if_pos hahead]

/-! ### Boundaries and steps -/

theorem onMinute_rows (c : EvalCtx) (b : Booking) : MinuteRows c b where
  pending hstate hlive := by
    simp only [onMinute, hstate]
    exact evaluatePending_evaluated hlive
  missed hstate hpast hweeks := by
    simp only [onMinute, hstate]
    exact evaluatePending_missed hpast hweeks
  starts hstate hstart := by
    simp only [onMinute, hstate, if_pos hstart]
    exact activate_activates c b
  ends hstate hfinish := by
    simp only [onMinute, hstate, if_pos hfinish]
    exact endActive_ended c b
  stays h := by
    rcases h with ⟨hstate, hstart⟩ | ⟨hstate, hfinish⟩ | hstate | hstate
    · simp only [onMinute, hstate, if_neg hstart]
    · simp only [onMinute, hstate, if_neg hfinish]
    · simp only [onMinute, hstate]
    · simp only [onMinute, hstate]

theorem onDay_disabled {c : EvalCtx} {b : Booking} (h : b.state = .disabled) : RetireRows c b (onDay c b) := by
  simp only [onDay, h]
  exact retire_rows c b

theorem onDay_other {c : EvalCtx} {b : Booking} (h : b.state ≠ .disabled) : onDay c b = (some b, []) := by
  unfold onDay
  split
  next hstate => exact absurd hstate h
  next => rfl

theorem onForward_rows (c : EvalCtx) (b : Booking) : ForwardRows c b where
  pending hstate hlive := by
    simp only [onForward, hstate]
    exact evaluatePending_evaluated hlive
  missed hstate hpast hweeks := by
    rcases hstate with hstate | hstate
    · simp only [onForward, hstate]
      exact evaluatePending_missed hpast hweeks
    · simp only [onForward, hstate, if_pos hpast]
      exact evaluatePending_missed hpast hweeks
  starts hstate hstart hlive := by
    simp only [onForward, hstate, if_neg (Nat.not_le.mpr hlive), if_pos hstart]
    exact activate_activates c b
  ends hstate hfinish := by
    simp only [onForward, hstate, if_pos hfinish]
    exact endActive_ended c b
  stays h := by
    rcases h with ⟨hstate, hstart, hlive⟩ | ⟨hstate, hlive⟩ | hstate
    · simp only [onForward, hstate, if_neg (Nat.not_le.mpr hlive), if_neg (Nat.not_le.mpr hstart)]
    · simp only [onForward, hstate, if_neg (Nat.not_le.mpr hlive)]
    · simp only [onForward, hstate]
  retires hstate := by
    simp only [onForward, hstate]
    exact retire_rows c b

theorem onBackward_rows (c : EvalCtx) (b : Booking) : BackwardRows c b where
  pending hstate hlive := by
    simp only [onBackward, hstate]
    exact evaluatePending_evaluated hlive
  again hstate hfar := by simp only [onBackward, hstate, if_pos hfar]
  stays h := by
    rcases h with ⟨hstate, hnear⟩ | hstate | hstate | hstate
    · simp only [onBackward, hstate, if_neg (Nat.not_lt.mpr hnear)]
    · simp only [onBackward, hstate]
    · simp only [onBackward, hstate]
    · simp only [onBackward, hstate]

end Sys2Proof.Machine
end

