-- ==== Sys2Proof/Proofs/CalendarCommands.lean ====
section
/-! PROOF. The Calendar's commands: one second's advance and its boundaries (R6, R7), the end of the range (R8), and TIME (R9 to R13). -/

namespace Sys2Proof.Machine

/-! ### One second -/

/-- The last second of the calendar range (R8). -/
def lastSecond : CalTime := { year := 2199, month := 12, day := 31, hour := 23, minute := 59, second := 59 }

theorem advanceFields_lastSecond : advanceFields lastSecond = none := rfl

/-- The date of a calendar time. -/
def dateOf (t : CalTime) : DateTime := { year := t.year, month := t.month, day := t.day, hour := t.hour, minute := t.minute }

/-- At midnight the fields take the day after (R4, R6). -/
theorem advanceFields_midnight {t u : CalTime} (ha : advanceFields t = some u) (hsecond : ¬ t.second < 59) (hminute : ¬ t.minute < 59)
    (hhour : ¬ t.hour < 23) :
    u = { year := (nextDay (dateOf t)).year, month := (nextDay (dateOf t)).month, day := (nextDay (dateOf t)).day,
          hour := 0, minute := 0, second := 0 } := by
  rw [advanceFields, if_neg hsecond, if_neg hminute, if_neg hhour] at ha
  unfold nextDay dateOf
  dsimp only
  split at ha
  next hday => cases ha; rw [if_pos hday]
  next hday =>
    rw [if_neg hday]
    split at ha
    next hmonth => cases ha; rw [if_pos hmonth]
    next hmonth =>
      rw [if_neg hmonth]
      split at ha
      · cases ha; rfl
      · cases ha

theorem advanceFields_instant {t u : CalTime} (hvalid : validTime t = true) (ha : advanceFields t = some u) :
    instantOf u = instantOf t + 1 := by
  obtain ⟨hdate, hhour, hminute, hsecond⟩ := (validTime_iff t).mp hvalid
  by_cases hs : t.second < 59
  · rw [advanceFields, if_pos hs] at ha
    cases ha
    simp only [instantOf]
    omega
  by_cases hm : t.minute < 59
  · rw [advanceFields, if_neg hs, if_pos hm] at ha
    cases ha
    simp only [instantOf]
    omega
  by_cases hh : t.hour < 23
  · rw [advanceFields, if_neg hs, if_neg hm, if_pos hh] at ha
    cases ha
    simp only [instantOf]
    omega
  · have hday : validDate (dateOf t).year (dateOf t).month (dateOf t).day = true := (validDate_iff _ _ _).mpr hdate
    have hnext : dayNumber (nextDay (dateOf t)).year (nextDay (dateOf t)).month (nextDay (dateOf t)).day = dayNumber t.year t.month t.day + 1 :=
      dayNumber_nextDay hday
    rw [advanceFields_midnight ha hs hm hh]
    simp only [instantOf, hnext]
    omega

/-- Only the last second of the range has no successor. -/
theorem advanceFields_isSome {t : CalTime} (hvalid : validTime t = true) (hlast : t ≠ lastSecond) : ∃ u, advanceFields t = some u := by
  obtain ⟨⟨hyear, hyear', hmonth, hmonth', hday, hday'⟩, hhour, hminute, hsecond⟩ := (validTime_iff t).mp hvalid
  unfold advanceFields
  repeat' split
  case isFalse.isFalse.isFalse.isFalse.isFalse.isFalse hs hm hh hd hmo hy =>
    refine absurd ?_ hlast
    obtain ⟨y, mo, d, h, mi, se⟩ := t
    dsimp only at *
    obtain rfl : y = 2199 := by omega
    obtain rfl : mo = 12 := by omega
    have hlength : monthLength 2199 12 = 31 := rfl
    rw [hlength] at hd hday'
    obtain rfl : d = 31 := by omega
    obtain rfl : h = 23 := by omega
    obtain rfl : mi = 59 := by omega
    obtain rfl : se = 59 := by omega
    rfl
  all_goals exact ⟨_, rfl⟩

theorem advanceCalendar_some {c : Calendar} {u : CalTime} (h : advanceFields c.time = some u) :
    advanceCalendar c = { c with time := u, phase := c.phase - 3840 } := by
  simp only [advanceCalendar, h]

/-! ### The event of an advance -/

theorem exec_calendarAdvance_powered {s : State} (hdue : advanceDue s.cal = true) (hp : powered s = true) :
    exec .calendarAdvance s = .next (endEvent s (advancePowered s)) := by
  change Host.Outcome.next (if !advanceDue s.cal then s else if powered s then endEvent s (advancePowered s) else advanceUnpowered s) = _
  rw [if_neg (by simp [hdue]), if_pos hp]

theorem exec_calendarAdvance_unpowered {s : State} (hdue : advanceDue s.cal = true) (hp : powered s = false) :
    exec .calendarAdvance s = .next (advanceUnpowered s) := by
  change Host.Outcome.next (if !advanceDue s.cal then s else if powered s then endEvent s (advancePowered s) else advanceUnpowered s) = _
  rw [if_neg (by simp [hdue]), if_neg (by simp [hp])]

theorem boundaries_handedOn (s : State) : HandedOn s (boundaries s) := by
  have hminute := overRecordsAt_handedOn onMinute onMinute_keepsId s
  unfold boundaries
  split
  · exact .refl s
  · dsimp only
    split
    · exact hminute.trans (overRecordsAt_handedOn onDay onDay_keepsId _)
    · exact hminute

/-- An advance that stays in the range: the boundaries at a full minute of a started part, and nothing else. -/
theorem advancePowered_running {s : State} (h : (advanceCalendar s.cal).running = true) :
    advancePowered s =
      if started s = true ∧ (advanceCalendar s.cal).time.second = 0
      then afterRecords (boundaries { s with cal := advanceCalendar s.cal })
      else { s with cal := advanceCalendar s.cal } := by
  unfold advancePowered
  dsimp only
  rw [if_neg (by simp [h])]
  rfl

theorem advancePowered_handedOn {s : State} (h : (advanceCalendar s.cal).running = true) :
    HandedOn { s with cal := advanceCalendar s.cal } (advancePowered s) := by
  rw [advancePowered_running h]
  split
  · exact (boundaries_handedOn _).trans (afterRecords_handedOn _)
  · exact .refl _

/-- The list after the boundaries, the two events of one advance being evaluated in one context. -/
theorem boundaries_records {s : State} (hsecond : s.cal.time.second = 0) (hrunning : s.cal.running = true) :
    (boundaries s).tt.records = boundaryList (evalCtx s (instantOf s.cal.time) false) s.cal.time s.tt.records := by
  have hnow : calInstant s.cal = some (instantOf s.cal.time) := if_pos hrunning
  have hand := overRecordsAt_handedOn onMinute onMinute_keepsId s
  have hctx : evalCtx (overRecordsAt onMinute s) (instantOf s.cal.time) false = evalCtx s (instantOf s.cal.time) false :=
    (overRecordsAt_sameReads onMinute s).evalCtx hand.cfg (overRecordsAt_outputs onMinute s).2.2 hand.clock _ _
  have hminute : (overRecordsAt onMinute s).tt.records = listAfter (onMinute (evalCtx s (instantOf s.cal.time) false)) s.tt.records :=
    congrArg Timetable.records (overRecordsAt_tt onMinute hnow)
  unfold boundaries boundaryList
  rw [if_neg (by simp [hsecond])]
  dsimp only
  rw [hand.cal]
  by_cases hmidnight : s.cal.time.hour = 0 ∧ s.cal.time.minute = 0
  · rw [if_pos hmidnight.symm, if_pos hmidnight,
      overRecordsAt_tt onDay (s := overRecordsAt onMinute s) ((congrArg calInstant hand.cal).trans hnow), hctx, hminute]
  · rw [if_neg (fun h => hmidnight h.symm), if_neg hmidnight, hminute]

theorem advancePowered_list {s : State} (hphase : s.phase = .running) (hrunning : (advanceCalendar s.cal).running = true)
    (hsecond : (advanceCalendar s.cal).time.second = 0) :
    ListIs (some (instantOf (advanceCalendar s.cal).time))
      (boundaryList (evalCtx s (instantOf (advanceCalendar s.cal).time) false) (advanceCalendar s.cal).time s.tt.records)
      (advancePowered s) := by
  rw [advancePowered_running hrunning, if_pos ⟨by simp [started, hphase], hsecond⟩]
  refine afterRecords_list ?_ ?_
  · rw [(boundaries_handedOn _).cal]
    exact if_pos hrunning
  · rw [boundaries_records (s := { s with cal := advanceCalendar s.cal }) hsecond hrunning]
    exact .refl

/-- An advance that is no boundary leaves list and outputs. -/
theorem advancePowered_quiet {s : State} (hrunning : (advanceCalendar s.cal).running = true)
    (h : s.phase ≠ .running ∨ (advanceCalendar s.cal).time.second ≠ 0) :
    KeepsOutputs s (advancePowered s) := by
  rw [advancePowered_running hrunning, if_neg ?_]
  · exact ⟨rfl, rfl, rfl, rfl⟩
  · rintro ⟨hstarted, hsecond⟩
    exact h.elim (fun hp => hp (by simpa [started] using hstarted)) (fun hs => hs hsecond)

/-- An unpowered calendar that stays in the range keeps the domain's validity. -/
theorem advanceUnpowered_running {s : State} (h : (advanceCalendar s.cal).running = true) :
    advanceUnpowered s = { s with cal := advanceCalendar s.cal } := by
  simp only [advanceUnpowered, h, Bool.and_true]

/-- Settles O9: the fields of one advance, the boundary events where it falls on a full minute, and the rows of a record at each. -/
theorem calendarAdvancesOneSecond : Obligations.CalendarAdvancesOneSecond := by
  refine ⟨fun s hrunning hphase hvalid hlast => ?_, fun c b => ⟨onMinute_rows c b, onDay_disabled, onDay_other⟩⟩
  obtain ⟨u, hu⟩ := advanceFields_isSome hvalid hlast
  have hcal := advanceCalendar_some (c := s.cal) hu
  have hstays : (advanceCalendar s.cal).running = true := by rw [hcal]; exact hrunning
  have hdue : advanceDue s.cal = true := (advanceDue_iff s.cal).mpr ⟨hrunning, hphase⟩
  have htime : (advanceCalendar s.cal).time = u := by rw [hcal]
  have hinstant := advanceFields_instant hvalid hu
  have hvalid' := validTime_advance hvalid hu
  cases hp : powered s with
  | true =>
    have hand := (advancePowered_handedOn hstays).trans (endEvent_handedOn s _)
    have houtputs := endEvent_keepsOutputs s (advancePowered s)
    have htcal : (endEvent s (advancePowered s)).cal = advanceCalendar s.cal := hand.cal
    refine ⟨_, exec_calendarAdvance_powered hdue hp, ?_⟩
    rw [htcal, htime]
    refine ⟨hinstant, hvalid', hcal, fun _ => hand, fun h => (nomatch h), fun hstarted hsecond => ?_, fun hquiet => ?_⟩
    · have hlist := endEvent_list s (advancePowered_list hstarted hstays (htime.symm ▸ hsecond))
      rwa [htime] at hlist
    · obtain ⟨htt, hair, hlight, hblind⟩ := (advancePowered_quiet hstays (htime.symm ▸ hquiet)).trans houtputs
      exact ⟨htt, hair, hlight, hblind⟩
  | false =>
    refine ⟨_, exec_calendarAdvance_unpowered hdue hp, ?_⟩
    rw [advanceUnpowered_running hstays]
    dsimp only
    rw [htime]
    refine ⟨hinstant, hvalid', hcal, fun h => (nomatch h), fun _ => rfl, fun hstarted _ => ?_, fun _ => ⟨rfl, rfl, rfl, rfl⟩⟩
    rw [powered_of_running hstarted] at hp
    cases hp

/-! ### The end of the range -/

theorem onClockStop_eq (b : Booking) :
    onClockStop b = if b.state = .disabled then b else { b with state := .pending, window := .none, attended := false, runout := none } := by
  unfold onClockStop
  split
  next h => rw [if_pos h]
  next h => rw [if_neg h]

/-- After a clock stop no record governs. -/
theorem summarize_stopped (l : List Booking) : summarize (l.map onClockStop) = none := by
  have hidle (p : Booking → Bool) (hp : ∀ b, p (onClockStop b) = false) : (l.map onClockStop).find? p = none := by
    rw [List.find?_eq_none]
    intro x hx
    obtain ⟨b, -, rfl⟩ := List.mem_map.mp hx
    simp [hp]
  have hstate (b : Booking) : (onClockStop b).state = .disabled ∨ (onClockStop b).state = .pending := by
    rw [onClockStop_eq]
    split
    · exact .inl ‹_›
    · exact .inr rfl
  have hlive := hidle isLive (fun b => by rcases hstate b with h | h <;> simp [isLive, h])
  have hready := hidle (fun b => b.state == .preconditioning) (fun b => by rcases hstate b with h | h <;> simp [h])
  have hgoverning : governing (l.map onClockStop) = none := by
    unfold governing
    rw [hlive]
    exact hready
  simp only [summarize, hgoverning]

/-- Settles O10: the advance stops the calendar, and the clock stop that follows settles every record. -/
theorem calendarStopsAtEndOfRange : Obligations.CalendarStopsAtEndOfRange := by
  intro s hrunning hphase hlast hp
  have hcal : advanceCalendar s.cal = { s.cal with time := calZero, running := false, phase := 0 } := by
    have hnone : advanceFields s.cal.time = none := by rw [hlast]; rfl
    simp only [advanceCalendar, hnone]
  have hdue : advanceDue s.cal = true := (advanceDue_iff s.cal).mpr ⟨hrunning, hphase⟩
  let x : State := { s with cal := advanceCalendar s.cal, faults := { s.faults with clockStopped := true } }
  have hadvance : advancePowered s = afterRecords (ttClockStop x) := by
    unfold advancePowered
    dsimp only
    rw [if_pos (by simp [hcal])]
    rfl
  have hand : HandedOn x (endEvent s (advancePowered s)) := by
    rw [hadvance]
    exact (ttClockStop_handedOn x).trans ((afterRecords_handedOn _).trans (endEvent_handedOn s _))
  have hlist : ListIs none (s.tt.records.map onClockStop) (endEvent s (advancePowered s)) := by
    rw [hadvance]
    refine endEvent_list s (afterRecords_list ?_ .refl)
    rw [(ttClockStop_handedOn x).cal]
    change calInstant (advanceCalendar s.cal) = none
    rw [hcal]
    rfl
  have hrecords := hlist.records.stopped
  have htcal : (endEvent s (advancePowered s)).cal = advanceCalendar s.cal := hand.cal
  refine ⟨_, exec_calendarAdvance_powered hdue hp, ?_, ?_, ?_, ?_, ?_, ?_⟩
  · rw [htcal, hcal]
  · rw [htcal, hcal]
  · rw [htcal, hcal]
  · rw [htcal]; exact hand
  · rw [hrecords]
    exact List.map_congr_left (fun b _ => onClockStop_eq b)
  · rw [hlist.summary, hrecords, summarize_stopped]

/-! ### TIME -/

theorem exec_time_reaches {s : State} {h : RxHeader} {payload : List Byte} (hreaches : Reaches s kTime h payload) :
    exec (.time h payload) s = .next (finishTelegram s (takeTime payload (heard s))) :=
  congrArg Host.Outcome.next (telegramEvent_reaches hreaches _)

theorem timeAccepted_iff (c : Calendar) (t : CalTime) (step : Bool) :
    timeAccepted c t step = true ↔ c.running = false ∨ step = true ∨ distance (instantOf t) (instantOf c.time) ≤ 900 := by
  simp only [timeAccepted, timeDelta, Bool.or_eq_true, Bool.not_eq_true', or_assoc]
  exact or_congr_right (or_congr_right decide_eq_true_iff)

theorem takeTime_refused {s : State} {payload : List Byte}
    (h : ∀ u step, rdTime payload = some (u, step) → (validTime u && timeAccepted s.cal u step) = false) :
    takeTime payload s = refuseTime s := by
  unfold takeTime
  split
  · rfl
  next u step hread => rw [if_neg (by simp [h u step hread])]

theorem refuseTime_handedOn (s : State) :
    HandedOn { heard s with cal := { s.cal with refused := s.cal.refused + 1 } } (refuseTime (heard s)) :=
  .refl _

theorem handSet_handedOn (old : Calendar) (s : State) : HandedOn s (handSet old s) := by
  have hforward := overRecordsAt_handedOn onForward onForward_keepsId s
  unfold handSet
  split
  · exact hforward
  · split
    · exact hforward
    · split
      · exact overRecordsAt_handedOn onBackward onBackward_keepsId s
      · exact .refl s

theorem handSet_records (old : Calendar) {s : State} (h : s.cal.running = true) :
    (handSet old s).tt.records = setList old (instantOf s.cal.time) (evalCtx s (instantOf s.cal.time) false) s.tt.records := by
  have hnow : calInstant s.cal = some (instantOf s.cal.time) := if_pos h
  have hover (f : EvalCtx → Booking → RecordResult) :
      (overRecordsAt f s).tt.records = listAfter (f (evalCtx s (instantOf s.cal.time) false)) s.tt.records :=
    congrArg Timetable.records (overRecordsAt_tt f hnow)
  unfold handSet setList
  cases old.running with
  | false => simp [hover]
  | true =>
    simp only [Bool.not_true, Bool.false_eq_true, if_false, false_or, Bool.true_eq_false]
    split
    · exact hover _
    · split
      · exact hover _
      · rfl

theorem exec_time_refused {s : State} {h : RxHeader} {payload : List Byte} (hreaches : Reaches s kTime h payload)
    (hrefused : ∀ u step, rdTime payload = some (u, step) → validTime u = false
      ∨ (s.cal.running = true ∧ step = false ∧ 900 < distance (instantOf u) (instantOf s.cal.time))) :
    exec (.time h payload) s = .next (finishTelegram s (refuseTime (heard s))) := by
  rw [exec_time_reaches hreaches, takeTime_refused]
  intro u step hread
  rcases hrefused u step hread with hinvalid | ⟨hrunning, hstep, hfar⟩
  · rw [hinvalid, Bool.false_and]
  · have : ¬ timeAccepted s.cal u step = true := by
      rw [timeAccepted_iff]
      simp [hrunning, hstep, hfar]
    rw [show timeAccepted (heard s).cal u step = false by simpa using this, Bool.and_false]

theorem refusedTime_handedOn (s : State) :
    HandedOn { heard s with cal := { s.cal with refused := s.cal.refused + 1 } } (finishTelegram s (refuseTime (heard s))) :=
  (refuseTime_handedOn s).trans (finishTelegram_handedOn _ _)

/-- Settles O13: a refused TIME leaves the output blocks and the list through the end of its event. -/
theorem timeRefused : Obligations.TimeRefused := by
  intro s h payload hreaches hrefused
  obtain ⟨htt, hair, hlight, hblind⟩ := finishTelegram_keepsOutputs s (refuseTime (heard s))
  exact ⟨_, exec_time_refused hreaches hrefused, refusedTime_handedOn s, htt, hair, hlight, hblind⟩

/-- Settles O12: the set, what it hands the Timetable, and the rows of a record at a forward and a backward step. -/
theorem timeSetsTheCalendar : Obligations.TimeSetsTheCalendar := by
  refine ⟨fun s h payload u step hreaches hread hvalid haccepted => ?_, fun s h payload u hreaches hread _ hrunning hfar => ?_,
    fun c b => ⟨onForward_rows c b, onBackward_rows c b⟩⟩
  · have hset : takeTime payload (heard s) = settle (handSet s.cal (setCalendar u (heard s))) := by
      have haccept : timeAccepted (heard s).cal u step = true := (timeAccepted_iff _ _ _).mpr haccepted
      simp only [takeTime, hread]
      rw [if_pos (by rw [hvalid, haccept]; rfl)]
      rfl
    have hhand := handSet_handedOn s.cal (setCalendar u (heard s))
    have hrecords := handSet_records s.cal (s := setCalendar u (heard s)) rfl
    refine ⟨_, exec_time_reaches hreaches, ?_, ?_⟩
    · rw [hset]
      exact hhand.trans ((settle_handedOn _).trans (finishTelegram_handedOn _ _))
    · rw [hset]
      refine finishTelegram_list s (settle_list (congrArg calInstant hhand.cal) ?_)
      rw [hrecords]
      exact .refl
  · refine ⟨_, exec_time_refused hreaches (fun v step hv => ?_), refusedTime_handedOn s, (finishTelegram_keepsOutputs _ _).tt⟩
    cases hread.symm.trans hv
    exact .inr ⟨hrunning, rfl, hfar⟩

end Sys2Proof.Machine
end

