-- ==== Sys2Proof/Proofs/BookingDecisions.lean ====
section
/-! PROOF. The decisions of BOOKING-PUT and BOOKING-DROP on the list (R22 to R26), and the slots of a journal entry (R185, R188). -/

namespace Sys2Proof.Machine

/-! ### The order of the list -/

theorem bookingBefore_iff (a b : Booking) :
    bookingBefore a b = true ↔ dateInstant a.start < dateInstant b.start ∨ (dateInstant a.start = dateInstant b.start ∧ a.id < b.id) :=
  decide_eq_true_iff

theorem bookingBefore_trans {a b c : Booking} (hab : bookingBefore a b = true) (hbc : bookingBefore b c = true) :
    bookingBefore a c = true := by
  rw [bookingBefore_iff] at *
  omega

/-- Two records under different ids are in order one way or the other. -/
theorem bookingBefore_total {a b : Booking} (hid : a.id ≠ b.id) (h : bookingBefore a b = false) : bookingBefore b a = true := by
  have hnot : ¬ bookingBefore a b = true := by simp [h]
  rw [bookingBefore_iff] at *
  omega

theorem inListOrder_insert {b : Booking} {l : List Booking} (h : inListOrder l) (hid : ∀ x ∈ l, x.id ≠ b.id) :
    inListOrder (insertBooking b l) := by
  induction l with
  | nil => exact List.pairwise_singleton _ _
  | cons x rest ih =>
    obtain ⟨hx, hrest⟩ := List.pairwise_cons.mp h
    unfold insertBooking
    split
    next hbefore =>
      refine List.pairwise_cons.mpr ⟨fun y hy => ?_, h⟩
      rcases List.mem_cons.mp hy with rfl | hy
      · exact hbefore
      · exact bookingBefore_trans hbefore (hx y hy)
    next hbefore =>
      refine List.pairwise_cons.mpr ⟨fun y hy => ?_, ih hrest (fun y hy => hid y (List.mem_cons_of_mem _ hy))⟩
      rcases mem_insertBooking.mp hy with rfl | hy
      · exact bookingBefore_total (hid x List.mem_cons_self).symm (by simpa using hbefore)
      · exact hx y hy

theorem ids_insertBooking (b : Booking) (l : List Booking) :
    ((insertBooking b l).map (fun x => x.id)).Perm (b.id :: l.map (fun x => x.id)) := by
  induction l with
  | nil => exact .refl _
  | cons x rest ih =>
    unfold insertBooking
    split
    · exact .refl _
    · exact (ih.cons x.id).trans (List.Perm.swap _ _ _)

/-! ### A well-formed list -/

/-- The list as R24 and R25 keep it: in order, one record for each id, at most 32 records. -/
structure ListKept (l : List Booking) : Prop where
  order : inListOrder l
  ids : (l.map (fun b => b.id)).Nodup
  bound : l.length ≤ 32

theorem ListKept.sublist {l m : List Booking} (h : ListKept l) (hm : m.Sublist l) : ListKept m where
  order := h.order.sublist hm
  ids := h.ids.sublist (hm.map _)
  bound := hm.length_le.trans h.bound

theorem ListKept.insert {l : List Booking} (h : ListKept l) {b : Booking} (hid : ∀ x ∈ l, x.id ≠ b.id) (hroom : l.length < 32) :
    ListKept (insertBooking b l) where
  order := inListOrder_insert h.order hid
  ids := by
    refine (ids_insertBooking b l).nodup_iff.mpr (List.nodup_cons.mpr ⟨?_, h.ids⟩)
    rintro hmem
    obtain ⟨x, hx, hxb⟩ := List.mem_map.mp hmem
    exact hid x hx hxb
  bound := by rw [length_insertBooking]; omega

/-- A record put in the place of the held one of its id. -/
theorem ListKept.replace {l : List Booking} (h : ListKept l) {b held : Booking} (hheld : held ∈ l) (hid : held.id = b.id) :
    ListKept (replaceRecord l b) := by
  have hfewer : (l.filter (fun x => x.id != b.id)).length < l.length :=
    List.length_filter_lt_length_iff_exists.mpr ⟨held, hheld, by simp [hid]⟩
  refine (h.sublist List.filter_sublist).insert (fun x hx => ?_) (hfewer.trans_le h.bound)
  simpa using (List.mem_filter.mp hx).2

theorem putNew_kept {l : List Booking} (h : ListKept l) {b : Booking} (hid : ∀ x ∈ l, x.id ≠ b.id) : ListKept (putNew l b).records := by
  unfold putNew
  split
  next hroom => exact h.insert hid hroom
  next hfull =>
    split
    · exact h
    next z hz =>
      split
      · have hlast : l.dropLast.length < 32 := by
          have := h.bound
          rw [List.length_dropLast]
          omega
        exact (h.sublist (List.dropLast_sublist l)).insert (fun x hx => hid x (List.mem_of_mem_dropLast hx)) hlast
      · exact h

theorem putLive_kept {s : State} (h : ListKept s.tt.records) (p : PutFields) {held : Booking} (hheld : held ∈ s.tt.records) :
    ListKept (putLive s p held).records := by
  unfold putLive
  dsimp only
  split
  · exact h
  · split
    · exact h
    · exact h.replace hheld (adjustLive_id _ _ _ _ _).symm

/-- What a held id finds: the record under it, or that none is. -/
theorem find_id {l : List Booking} {id : Nat} : (l.find? (fun x => x.id == id) = none → ∀ x ∈ l, x.id ≠ id)
    ∧ ∀ held, l.find? (fun x => x.id == id) = some held → held ∈ l ∧ held.id = id := by
  refine ⟨fun hnone x hx => ?_, fun held hfound => ⟨List.mem_of_find?_eq_some hfound, ?_⟩⟩
  · simpa using List.find?_eq_none.mp hnone x hx
  · simpa using List.find?_some hfound

theorem decidePut_kept {s : State} (h : ListKept s.tt.records) (k : BookingKind) (p : PutFields) : ListKept (decidePut s k p).records := by
  unfold decidePut
  dsimp only
  split
  next hnone =>
    split
    · exact h
    · exact putNew_kept h (find_id.1 hnone)
  next held hfound =>
    obtain ⟨hheld, hid⟩ := find_id.2 held hfound
    split
    · exact putLive_kept h p hheld
    · split
      · exact h
      · split
        · exact h
        · exact h.replace hheld hid

theorem decideDrop_kept {l : List Booking} (h : ListKept l) (id : Nat) : ListKept (decideDrop l id).records := by
  unfold decideDrop
  split
  · exact h.sublist List.filter_sublist
  · exact h

/-- Settles O15: every branch of R24 to R26 keeps the well-formed list. -/
theorem decisionsKeepTheList : Obligations.DecisionsKeepTheList := by
  intro s k p id horder hids hbound
  obtain ⟨porder, pids, pbound⟩ := decidePut_kept (s := s) ⟨horder, hids, hbound⟩ k p
  obtain ⟨dorder, dids, dbound⟩ := decideDrop_kept ⟨horder, hids, hbound⟩ id
  exact ⟨⟨porder, pids, pbound⟩, dorder, dids, dbound⟩

/-- Settles O16: whether the id is new or held, the past test comes before every other. -/
theorem putRefusedPast : Obligations.PutRefusedPast := by
  intro s k p hrunning hdead hpast
  have hnow : calInstant s.cal = some (instantOf s.cal.time) := if_pos hrunning
  have hend : isPast (calInstant s.cal) (formRecord s k p).finish = true := by
    rw [hnow]
    exact decide_eq_true_iff.mpr hpast
  have hrefused : decidePut s k p = noChange s.tt.records .refusedPast none := by
    unfold decidePut
    dsimp only
    split
    · rw [if_pos hend]
    next held hfound =>
      obtain ⟨hheld, hid⟩ := find_id.2 held hfound
      rw [if_neg (by simp [hdead held hheld hid]), if_pos hend]
  rw [hrefused]
  exact ⟨rfl, rfl, rfl⟩

/-! ### The slots of an entry -/

theorem toNat_byteOf (n : Nat) : (byteOf n).toNat = n % 256 := by
  simp [byteOf]

theorem rd2_byteOf {n : Nat} (h : n < 65536) : rd2 (byteOf (n / 256)) (byteOf n) = n := by
  simp only [rd2, toNat_byteOf]
  omega

theorem slotGood_slotOf (b0 b1 b2 b3 b4 b5 b6 : Byte) : slotGood (slotOf [b0, b1, b2, b3, b4, b5, b6]) = true :=
  beq_self_eq_true (slotOf [b0, b1, b2, b3, b4, b5, b6])

/-- A slot as written is read by the code of its first byte. -/
theorem readSlot_slotOf (b0 b1 b2 b3 b4 b5 b6 : Byte) :
    readSlot (slotOf [b0, b1, b2, b3, b4, b5, b6]) =
      match b0.toNat / 64 with
      | 1 =>
        match kindOfCode (b0.toNat % 4) with
        | some k => .first k (b0.getLsbD 2) (b0.getLsbD 3) (b0.getLsbD 4) (rd2 b1 b2) (unpackStart (rd2 b3 b4 * 65536 + rd2 b5 b6))
        | none => .bad
      | 2 => .second (b0.toNat % 16) (rd2 b1 b2) (rd2 b3 b4) b5.toNat
      | 3 => .drop (rd2 b1 b2)
      | _ => .bad := by
  change (if !slotGood (slotOf [b0, b1, b2, b3, b4, b5, b6]) then SlotRead.bad else _) = _
  rw [slotGood_slotOf]
  rfl

/-- The mark byte of a PUT's first slot (R185). -/
def putMark (k : BookingKind) (joined noRelease adjusted : Bool) : Byte :=
  byteOf (64 + kindCode k + bitIf joined 4 + bitIf noRelease 8 + bitIf adjusted 16)

theorem putMark_reads (k : BookingKind) (joined noRelease adjusted : Bool) :
    (putMark k joined noRelease adjusted).toNat / 64 = 1 ∧ kindOfCode ((putMark k joined noRelease adjusted).toNat % 4) = some k
    ∧ (putMark k joined noRelease adjusted).getLsbD 2 = joined ∧ (putMark k joined noRelease adjusted).getLsbD 3 = noRelease
    ∧ (putMark k joined noRelease adjusted).getLsbD 4 = adjusted := by
  cases k <;> revert joined noRelease adjusted <;> decide

/-- The 32-bit start of R185 gives every field back that fits its bits. -/
theorem unpackStart_packStart {t : DateTime} (hyear : 2000 ≤ t.year) (hyear' : t.year ≤ 2255) (hmonth : t.month < 16) (hday : t.day < 32)
    (hhour : t.hour < 32) (hminute : t.minute < 64) : packStart t < 4294967296 ∧ unpackStart (packStart t) = t := by
  obtain ⟨y, mo, d, h, mi⟩ := t
  dsimp only at *
  refine ⟨by simp only [packStart]; omega, ?_⟩
  simp only [unpackStart, packStart, DateTime.mk.injEq]
  omega

theorem readSlot_putFirst {b : Booking} (hid : b.id < 65536) (hyear : 2000 ≤ b.start.year) (hyear' : b.start.year ≤ 2255)
    (hmonth : b.start.month < 16) (hday : b.start.day < 32) (hhour : b.start.hour < 32) (hminute : b.start.minute < 64) :
    readSlot (putFirst b) = .first b.kind b.joined b.noRelease b.adjusted b.id b.start := by
  obtain ⟨hbound, hstart⟩ := unpackStart_packStart hyear hyear' hmonth hday hhour hminute
  obtain ⟨hcode, hkind, hjoined, hnoRelease, hadjusted⟩ := putMark_reads b.kind b.joined b.noRelease b.adjusted
  have hpacked : packStart b.start / 65536 * 65536 + packStart b.start % 65536 = packStart b.start := by omega
  refine (readSlot_slotOf (putMark b.kind b.joined b.noRelease b.adjusted) _ _ _ _ _ _).trans ?_
  rw [hcode]
  rw [hkind, rd2_byteOf hid, rd2_byteOf (by omega), rd2_byteOf (by omega), hpacked, hstart, hjoined, hnoRelease, hadjusted]
  rfl

theorem readSlot_putSecond {b : Booking} (hweeks : b.weeks < 16) (hheadcount : b.headcount < 65536) (hpartner : b.partner < 256)
    (hminutes : (dateInstant b.finish - dateInstant b.start) / 60 < 65536) :
    readSlot (putSecond b) = .second b.weeks ((dateInstant b.finish - dateInstant b.start) / 60) b.headcount b.partner := by
  have hmark : (byteOf (128 + b.weeks % 16)).toNat = 128 + b.weeks := by rw [toNat_byteOf]; omega
  refine (readSlot_slotOf (byteOf (128 + b.weeks % 16)) _ _ _ _ _ _).trans ?_
  rw [hmark, show (128 + b.weeks) / 64 = 2 by omega]
  rw [rd2_byteOf hminutes, rd2_byteOf hheadcount, toNat_byteOf, Nat.mod_eq_of_lt hpartner, show (128 + b.weeks) % 16 = b.weeks by omega]
  rfl

/-- Settles O20: each slot is read by the code its first byte carries, and each field comes back from its bits. -/
theorem journalEntriesReadBack : Obligations.JournalEntriesReadBack := by
  refine ⟨fun b hid hyear hyear' hmonth hday hhour hminute hweeks hheadcount hpartner hminutes => ?_, fun id hid => ?_⟩
  · simp only [bodySlots, List.map_cons, List.map_nil]
    rw [readSlot_putFirst hid hyear hyear' hmonth hday hhour hminute, readSlot_putSecond hweeks hheadcount hpartner hminutes]
  · simp only [bodySlots, List.map_cons, List.map_nil]
    rw [show readSlot (slotOf ([0xC0#8] ++ be2 id ++ [0, 0, 0, 0])) = .drop (rd2 (byteOf (id / 256)) (byteOf id)) from
      readSlot_slotOf 0xC0#8 _ _ _ _ _ _, rd2_byteOf hid]

end Sys2Proof.Machine
end

