-- ==== Sys2Proof/Proofs/JournalWrites.lean ====
section
/-! PROOF. The journal's write queue: what the end of a slot write does to it, to the EEPROM and to the answers that wait (R27, R186, R187). -/

namespace Sys2Proof.Machine

/-! ### Telegrams in order -/

/-- The bus after telegrams have been handed to it in order. -/
def enqueueAll (station : Nat) (listening : Bool) (l : List OutTelegram) (b : Bus) : Bus :=
  l.foldl (fun b x => enqueue station listening x b) b

theorem enqueueAll_append (st : Nat) (li : Bool) (l m : List OutTelegram) (b : Bus) :
    enqueueAll st li (l ++ m) b = enqueueAll st li m (enqueueAll st li l b) := List.foldl_append

theorem enqueueAll_sends (st : Nat) (li : Bool) (l : List OutTelegram) (b : Bus) : Sends st li b (enqueueAll st li l b) := by
  induction l generalizing b with
  | nil => exact .refl
  | cons x rest ih => exact (Sends.enqueue x .refl).trans (ih _)

/-- Handing over telegrams moves the bus alone. -/
theorem sendAll_eq (l : List OutTelegram) (s : State) : sendAll l s = { s with bus := enqueueAll s.station s.listening l s.bus } := by
  induction l generalizing s with
  | nil => rfl
  | cons x rest ih => exact ih (send x s)

theorem sendAnswerIf_eq (e : JournalEntry) (d : Nat) (s : State) : sendAnswerIf e.answer d s = sendAll (answersWith d [e]) s := by
  unfold sendAnswerIf
  split
  next h => simp [answersWith, h, sendAll]
  next a h => simp [answersWith, h, sendAll, sendAnswer]

theorem answersWith_append (d : Nat) (l m : List JournalEntry) : answersWith d (l ++ m) = answersWith d l ++ answersWith d m :=
  List.filterMap_append

theorem sendAll_append (l m : List OutTelegram) (s : State) : sendAll (l ++ m) s = sendAll m (sendAll l s) := by
  simp only [sendAll_eq, enqueueAll_append]

theorem reportNotWritten_eq (q : List JournalEntry) (s : State) :
    reportNotWritten q s = sendAll (answersWith detailNotRetained q) s := by
  induction q generalizing s with
  | nil => rfl
  | cons e rest ih =>
    rw [show answersWith detailNotRetained (e :: rest) = answersWith detailNotRetained [e] ++ answersWith detailNotRetained rest from
      answersWith_append _ [e] rest, sendAll_append, ← sendAnswerIf_eq, ← ih]
    rfl

/-! ### What the controller moves -/

/-- What the journal's controller moves: its queue and position, the EEPROM, JOURNAL-FULL and the answers it sends. -/
structure JournalMoves (s t : State) : Prop where
  changes : t = { s with eeprom := t.eeprom, journal := t.journal, faults := t.faults, freeUsed := t.freeUsed, bus := t.bus }
  faults : t.faults = { s.faults with journalFull := t.faults.journalFull }
  bus : Sends s.station s.listening s.bus t.bus

/-- A part of the state that is none of these is as before. -/
theorem JournalMoves.keeps {α : Type} {s t : State} (h : JournalMoves s t) (f : State → α)
    (hf : ∀ (x : State) (e : Eeprom) (j : Journal) (fa : Faults) (n : Nat) (b : Bus),
      f { x with eeprom := e, journal := j, faults := fa, freeUsed := n, bus := b } = f x) : f t = f s := by
  rw [h.changes, hf]

theorem JournalMoves.refl (s : State) : JournalMoves s s := ⟨rfl, rfl, .refl⟩

theorem JournalMoves.trans {s t u : State} (a : JournalMoves s t) (b : JournalMoves t u) : JournalMoves s u where
  changes := by
    rw [b.changes, a.changes]
  faults := by
    rw [b.faults, a.faults]
  bus := by
    have hbus := b.bus
    rw [a.keeps State.station (fun _ _ _ _ _ _ => rfl), a.keeps State.listening (fun _ _ _ _ _ _ => rfl)] at hbus
    exact a.bus.trans hbus

theorem JournalMoves.handedOn {s t : State} (h : JournalMoves s t) :
    HandedOn { s with eeprom := t.eeprom, journal := t.journal, faults := t.faults, freeUsed := t.freeUsed } t := by
  have hand := HandedOn.ofSends
    (s := { s with eeprom := t.eeprom, journal := t.journal, faults := t.faults, freeUsed := t.freeUsed }) h.bus
  have hchanges := h.changes
  exact hchanges ▸ hand

theorem sendAll_moves (l : List OutTelegram) (s : State) : JournalMoves s (sendAll l s) := by
  rw [sendAll_eq]
  exact ⟨rfl, rfl, enqueueAll_sends _ _ _ _⟩

/-- The queue's end: JOURNAL-FULL raised, the queue emptied, and every answer NOT-RETAINED (R187). -/
theorem raiseJournalFull_eq (s : State) :
    raiseJournalFull s = sendAll (answersWith detailNotRetained s.journal.queue)
      { s with faults := { s.faults with journalFull := true }
               journal := { s.journal with queue := [], plan := [], since := none } } :=
  reportNotWritten_eq _ _

theorem raiseJournalFull_moves (s : State) : JournalMoves s (raiseJournalFull s) := by
  rw [raiseJournalFull_eq]
  refine .trans ?_ (sendAll_moves _ _)
  exact ⟨rfl, rfl, .refl⟩

theorem startWrite_busy {s : State} (h : s.journal.plan ≠ []) : startWrite s = s := by
  unfold startWrite
  split
  next hplan _ => exact absurd hplan h
  · rfl

theorem startWrite_empty {s : State} (h : s.journal.queue = []) : startWrite s = s := by
  unfold startWrite
  split
  next hqueue => rw [h] at hqueue; cases hqueue
  · rfl

theorem startWrite_begins {s : State} {e : JournalEntry} {q : List JournalEntry} {plan : List SlotWrite} (hplan : s.journal.plan = [])
    (hqueue : s.journal.queue = e :: q) (hentry : entryPlan s.journal e.body = some plan) :
    startWrite s = { s with journal := { s.journal with plan := plan, since := some (nowOf s) } } := by
  simp only [startWrite, hplan, hqueue, hentry]

theorem startWrite_noPage {s : State} {e : JournalEntry} {q : List JournalEntry} (hplan : s.journal.plan = [])
    (hqueue : s.journal.queue = e :: q) (hentry : entryPlan s.journal e.body = none) : startWrite s = raiseJournalFull s := by
  simp only [startWrite, hplan, hqueue, hentry]

theorem startWrite_closed (s : State) : (startWrite s).journal.closed = s.journal.closed := by
  unfold startWrite
  split
  · split
    · rfl
    · rw [raiseJournalFull_eq, sendAll_eq]
  · rfl

/-- Only JOURNAL-FULL empties the queue as the writes of its head begin. -/
theorem startWrite_queue {s : State} (h : (startWrite s).faults.journalFull = false) : (startWrite s).journal.queue = s.journal.queue := by
  unfold startWrite at h ⊢
  split at h
  · split at h
    · rfl
    · rw [raiseJournalFull_eq, sendAll_eq] at h
      cases h
  · rfl

/-- A closed fourth page takes no entry (R187). -/
theorem entryPlan_closed {j : Journal} (hclosed : j.closed = true) (hpage : 4 ≤ j.page) (body : JournalBody) : entryPlan j body = none := by
  unfold entryPlan
  dsimp only
  rw [if_neg (by simp [hclosed]), if_pos hpage]

theorem startWrite_moves (s : State) : JournalMoves s (startWrite s) := by
  unfold startWrite
  split
  · split
    · exact ⟨rfl, rfl, .refl⟩
    · exact raiseJournalFull_moves s
  · exact .refl s

/-! ### A slot write completes -/

/-- The EEPROM and the journal as a completed slot write leaves them, before the entry's report. -/
def afterWrite (w : SlotWrite) (rest : List SlotWrite) (s : State) : State :=
  { s with eeprom := { s.eeprom with cells := writeSlot w s.eeprom.cells }
           journal := journalAfterWrite w rest (nowOf s) s.journal }

theorem journalAfterWrite_plan (w : SlotWrite) (rest : List SlotWrite) (now : Stamp) (j : Journal) :
    (journalAfterWrite w rest now j).plan = rest := by
  unfold journalAfterWrite
  split <;> rfl

theorem slotWritten_next {s : State} {w : SlotWrite} {rest : List SlotWrite} (hplan : s.journal.plan = w :: rest) (hrest : rest ≠ []) :
    slotWritten s = afterWrite w rest s := by
  simp only [slotWritten, hplan]
  split
  next h => exact absurd rfl hrest
  · rfl

/-- The last write of an entry: its answer, then the writes of the next entry. -/
theorem slotWritten_last {s : State} {w : SlotWrite} {e : JournalEntry} {q : List JournalEntry} (hplan : s.journal.plan = [w])
    (hqueue : s.journal.queue = e :: q) :
    slotWritten s = startWrite (sendAll (answersWith detailRetained [e])
      { s with eeprom := { s.eeprom with cells := writeSlot w s.eeprom.cells }
               journal := { journalAfterWrite w [] (nowOf s) s.journal with queue := q } }) := by
  have hq : (journalAfterWrite w [] (nowOf s) s.journal).queue = e :: q := (journalAfterWrite_queue w [] _ _).trans hqueue
  simp only [slotWritten, hplan, hq, sendAnswerIf_eq]

theorem slotWritten_moves (s : State) : JournalMoves s (slotWritten s) := by
  unfold slotWritten
  split
  · exact .refl s
  next w rest hplan =>
    dsimp only
    split
    next e q _ =>
      rw [sendAnswerIf_eq]
      refine .trans ?_ ((sendAll_moves _ _).trans (startWrite_moves _))
      exact ⟨rfl, rfl, .refl⟩
    · exact ⟨rfl, rfl, .refl⟩

/-- The writes of an entry are reported and begun without a further change of the EEPROM. -/
theorem startWrite_eeprom (s : State) : (startWrite s).eeprom = s.eeprom := by
  unfold startWrite
  split
  · split
    · rfl
    · rw [raiseJournalFull_eq, sendAll_eq]
  · rfl

theorem startWrite_freeUsed (s : State) : (startWrite s).freeUsed = s.freeUsed := by
  unfold startWrite
  split
  · split
    · rfl
    · rw [raiseJournalFull_eq, sendAll_eq]
  · rfl

/-- A completed write takes no free value. -/
theorem slotWritten_freeUsed (s : State) : (slotWritten s).freeUsed = s.freeUsed := by
  unfold slotWritten
  split
  · rfl
  · dsimp only
    split
    · rw [startWrite_freeUsed, sendAnswerIf_eq, sendAll_eq]
    · rfl

theorem slotWritten_eeprom {s : State} {w : SlotWrite} {rest : List SlotWrite} (hplan : s.journal.plan = w :: rest) :
    (slotWritten s).eeprom = { s.eeprom with cells := writeSlot w s.eeprom.cells } := by
  simp only [slotWritten, hplan]
  split
  · rw [startWrite_eeprom, sendAnswerIf_eq, sendAll_eq]
  · rfl

theorem composesAll_of_bus {s t : State} {l : List OutTelegram} (h : t.bus = enqueueAll s.station s.listening l s.bus) :
    composesAll s t l := by
  unfold composesAll
  rw [h]
  exact .refl

/-- The answers an event began with stay the first when more telegrams follow. -/
theorem composesAll_then {s t u : State} {l : List OutTelegram} (h : composesAll s t l)
    (hbus : Sends s.station s.listening t.bus u.bus) : composesAll s u l := Sends.trans h hbus

theorem slotWritten_entry {s : State} {w : SlotWrite} {e : JournalEntry} {q : List JournalEntry} (hplan : s.journal.plan = [w])
    (hqueue : s.journal.queue = e :: q) : EntryWritten w e q s (slotWritten s) := by
  let x : State :=
    { s with eeprom := { s.eeprom with cells := writeSlot w s.eeprom.cells }
             journal := { journalAfterWrite w [] (nowOf s) s.journal with queue := q } }
  let y : State := sendAll (answersWith detailRetained [e]) x
  have hy : y = { x with bus := enqueueAll s.station s.listening (answersWith detailRetained [e]) s.bus } := sendAll_eq _ _
  have hyplan : y.journal.plan = [] := by rw [hy]; exact journalAfterWrite_plan w [] _ _
  have hyqueue : y.journal.queue = q := by rw [hy]
  have hywritten : slotWritten s = startWrite y := slotWritten_last hplan hqueue
  have hanswer : composesAll s y (answersWith detailRetained [e]) := composesAll_of_bus (by rw [hy])
  have hmoves := startWrite_moves y
  rw [hywritten]
  refine ⟨composesAll_then hanswer ?_, fun hq => ?_, fun n r plan hq hentry => ?_, fun n r hq hentry => ?_⟩
  · have hbus := hmoves.bus
    rwa [show y.station = s.station by rw [hy], show y.listening = s.listening by rw [hy]] at hbus
  · rw [startWrite_empty (hyqueue.trans hq)]
    exact ⟨hyqueue.trans hq, hyplan, by rw [hy]⟩
  · have hentry' : entryPlan y.journal n.body = some plan := by rw [hy]; exact hentry
    rw [startWrite_begins hyplan (hyqueue.trans hq) hentry']
    exact ⟨hyqueue, rfl, by rw [hy]; rfl, by rw [hy]⟩
  · have hentry' : entryPlan y.journal n.body = none := by rw [hy]; exact hentry
    rw [startWrite_noPage hyplan (hyqueue.trans hq) hentry', raiseJournalFull_eq, hyqueue, sendAll_eq]
    refine ⟨rfl, rfl, rfl, composesAll_of_bus ?_⟩
    rw [enqueueAll_append, hy]

/-! ### A slot write fails -/

theorem spoilSlot_moves (w : SlotWrite) (s : State) : JournalMoves s (spoilSlot w s) := ⟨rfl, rfl, .refl⟩

/-- The answer that goes out NOT-RETAINED when the entry at the head is lost. -/
def lostAnswers (e : JournalEntry) (q : List JournalEntry) : List OutTelegram :=
  answersWith detailNotRetained (if e.pairFirst then q.take 1 else [e])

/-- The queue behind a lost entry: the pair's answer no longer waits. -/
def queueAfterLoss (e : JournalEntry) (q : List JournalEntry) : List JournalEntry :=
  if e.pairFirst then q.modify 0 (fun x => { x with answer := none }) else q

theorem headNotWritten_eq {s : State} {e : JournalEntry} {q : List JournalEntry} (hqueue : s.journal.queue = e :: q) :
    headNotWritten s = sendAll (lostAnswers e q)
      { s with journal := { s.journal with queue := queueAfterLoss e q, plan := [], since := none, closed := true } } := by
  simp only [headNotWritten, hqueue]
  unfold lostAnswers queueAfterLoss
  cases hpair : e.pairFirst with
  | false =>
    simp only [Bool.false_eq_true, if_false]
    exact sendAnswerIf_eq e _ _
  | true =>
    simp only [if_true]
    cases q with
    | nil => rfl
    | cons x r => exact sendAnswerIf_eq x _ _

theorem headNotWritten_moves (s : State) : JournalMoves s (headNotWritten s) := by
  cases hqueue : s.journal.queue with
  | nil => simp only [headNotWritten, hqueue]; exact .refl s
  | cons e q =>
    rw [headNotWritten_eq hqueue]
    refine .trans ?_ (sendAll_moves _ _)
    exact ⟨rfl, rfl, .refl⟩

theorem slotFailed_header {s : State} {w : SlotWrite} {rest : List SlotWrite} (hplan : s.journal.plan = w :: rest) (hslot : w.slot = 0) :
    slotFailed s = raiseJournalFull (spoilSlot w s) := by
  simp only [slotFailed, hplan]
  exact if_pos hslot

theorem slotFailed_entry {s : State} {w : SlotWrite} {rest : List SlotWrite} (hplan : s.journal.plan = w :: rest) (hslot : w.slot ≠ 0) :
    slotFailed s = startWrite (headNotWritten (spoilSlot w s)) := by
  simp only [slotFailed, hplan]
  exact if_neg hslot

theorem slotFailed_moves (s : State) : JournalMoves s (slotFailed s) := by
  cases hplan : s.journal.plan with
  | nil => simp only [slotFailed, hplan]; exact .refl s
  | cons w rest =>
    by_cases hslot : w.slot = 0
    · rw [slotFailed_header hplan hslot]
      exact (spoilSlot_moves w s).trans (raiseJournalFull_moves _)
    · rw [slotFailed_entry hplan hslot]
      exact (spoilSlot_moves w s).trans ((headNotWritten_moves _).trans (startWrite_moves _))

theorem slotFailed_eeprom {s : State} {w : SlotWrite} {rest : List SlotWrite} (hplan : s.journal.plan = w :: rest) :
    (slotFailed s).eeprom = (spoilSlot w s).eeprom := by
  by_cases hslot : w.slot = 0
  · rw [slotFailed_header hplan hslot, raiseJournalFull_eq, sendAll_eq]
  · rw [slotFailed_entry hplan hslot, startWrite_eeprom]
    cases hqueue : (spoilSlot w s).journal.queue with
    | nil => simp only [headNotWritten, hqueue]
    | cons e q => rw [headNotWritten_eq hqueue, sendAll_eq]

/-- The answers of the entries behind a lost one, after those that went out with it: all that waited behind the pair. -/
theorem lostAnswers_behind (e : JournalEntry) (q : List JournalEntry) :
    lostAnswers e q ++ answersWith detailNotRetained (queueAfterLoss e q)
      = answersWith detailNotRetained (if e.pairFirst then q else e :: q) := by
  unfold lostAnswers queueAfterLoss
  cases e.pairFirst with
  | false => exact (answersWith_append _ [e] q).symm
  | true =>
    cases q with
    | nil => rfl
    | cons x r => exact (answersWith_append _ [x] r).symm

theorem queueAfterLoss_eq_nil (e : JournalEntry) (q : List JournalEntry) : queueAfterLoss e q = [] ↔ q = [] := by
  unfold queueAfterLoss
  split
  · exact List.modify_eq_nil_iff
  · rfl

theorem slotFailed_lost {s : State} {w : SlotWrite} {rest : List SlotWrite} {e : JournalEntry} {q : List JournalEntry}
    (hplan : s.journal.plan = w :: rest) (hslot : w.slot ≠ 0) (hqueue : s.journal.queue = e :: q) : EntryLost e q s (slotFailed s) := by
  let x : State :=
    { spoilSlot w s with journal := { s.journal with queue := queueAfterLoss e q, plan := [], since := none, closed := true } }
  let y : State := sendAll (lostAnswers e q) x
  have hy : y = { x with bus := enqueueAll s.station s.listening (lostAnswers e q) s.bus } := sendAll_eq _ _
  have hyqueue : y.journal.queue = queueAfterLoss e q := by rw [hy]
  have hyplan : y.journal.plan = [] := by rw [hy]
  have hfailed : slotFailed s = startWrite y :=
    (slotFailed_entry hplan hslot).trans (congrArg startWrite (headNotWritten_eq (s := spoilSlot w s) hqueue))
  have hanswer : composesAll s y (lostAnswers e q) := composesAll_of_bus (by rw [hy])
  have hmoves := startWrite_moves y
  rw [hfailed]
  refine
    { answer := composesAll_then hanswer ?_
      closed := (startWrite_closed y).trans (by rw [hy])
      leaves := fun hfull hpair => ?_
      pair := fun n r hfull hpair hq => ?_
      noPage := fun hq hpage => ?_ }
  · have hbus := hmoves.bus
    rwa [show y.station = s.station by rw [hy]; rfl, show y.listening = s.listening by rw [hy]; rfl] at hbus
  · rw [startWrite_queue hfull, hyqueue, queueAfterLoss, if_neg (by simp [hpair])]
  · rw [startWrite_queue hfull, hyqueue, queueAfterLoss, if_pos hpair, hq]
    rfl
  · obtain ⟨n, r, hn⟩ := List.exists_cons_of_ne_nil (mt (queueAfterLoss_eq_nil e q).mp hq)
    have hentry : entryPlan y.journal n.body = none := entryPlan_closed (by rw [hy]) (by rw [hy]; exact hpage) _
    rw [startWrite_noPage hyplan (hyqueue.trans hn) hentry, raiseJournalFull_eq, hyqueue, sendAll_eq]
    refine ⟨rfl, rfl, rfl, composesAll_of_bus ?_⟩
    rw [← lostAnswers_behind, enqueueAll_append, hy]
    rfl

end Sys2Proof.Machine
end

