-- ==== Sys2Proof/Proofs/SlotWrites.lean ====
section
/-! PROOF. SLOT_WRITE_COMPLETE and SLOT_WRITE_FAIL: the write queue, a compaction, and the image reading of a restart that has waited for the
write (R181, R186, R187, R189). -/

namespace Sys2Proof.Machine

/-! ### The image reading after the write -/

/-- What an image reading changes nothing of: the EEPROM, the journal and JOURNAL-FULL; the bus is handed telegrams. -/
structure KeepsJournal (s t : State) : Prop where
  eeprom : t.eeprom = s.eeprom
  journal : t.journal = s.journal
  full : t.faults.journalFull = s.faults.journalFull
  bus : Sends s.station s.listening s.bus t.bus

theorem KeepsJournal.refl (s : State) : KeepsJournal s s := ⟨rfl, rfl, rfl, .refl⟩

theorem endImageWait_keepsJournal (s : State) : KeepsJournal s (endImageWait s) := by
  unfold endImageWait
  split
  · have hand := firstForms_handedOn (restartBlocks (nowOf s) s.cfg (loadConfiguration { s with imageWait := false }))
    exact ⟨hand.eeprom, hand.journal, (congrArg Faults.journalFull hand.faults).trans rfl, hand.bus⟩
  · exact .refl s

/-- What the controller moved before the image reading does not show in what the reading leaves. -/
theorem ImageRead.afterMoves {s t u : State} (hmoves : JournalMoves s t) (h : ImageRead t u) : ImageRead s u := by
  have hpresence : t.presence = s.presence := hmoves.keeps State.presence (fun _ _ _ _ _ _ => rfl)
  have hair : t.air = s.air := hmoves.keeps State.air (fun _ _ _ _ _ _ => rfl)
  have hlight : t.light = s.light := hmoves.keeps State.light (fun _ _ _ _ _ _ => rfl)
  have hstation : t.station = s.station := hmoves.keeps State.station (fun _ _ _ _ _ _ => rfl)
  have hpins : t.pins = s.pins := hmoves.keeps State.pins (fun _ _ _ _ _ _ => rfl)
  have htt : t.tt = s.tt := hmoves.keeps State.tt (fun _ _ _ _ _ _ => rfl)
  exact
    { occupancy := h.occupancy
      vacancy := h.vacancy
      doors := hpins ▸ h.doors
      presenceCounts := hpresence ▸ h.presenceCounts
      air := hair ▸ h.air
      lux := hlight ▸ h.lux
      join := h.join
      partitions := by rw [← hstation, ← hpins]; exact h.partitions
      cfg := h.cfg
      fault := h.fault
      format := h.format
      imageWait := h.imageWait
      phase := h.phase.trans (hmoves.keeps State.phase (fun _ _ _ _ _ _ => rfl))
      pins := h.pins.trans hpins
      clock := h.clock.trans (hmoves.keeps State.clock (fun _ _ _ _ _ _ => rfl))
      listening := h.listening.trans (hmoves.keeps State.listening (fun _ _ _ _ _ _ => rfl))
      station := h.station.trans hstation
      calendar := ⟨h.calendar.1.trans (hmoves.keeps State.cal (fun _ _ _ _ _ _ => rfl)),
        h.calendar.2.trans (hmoves.keeps State.backup (fun _ _ _ _ _ _ => rfl))⟩
      list := htt ▸ h.list
      service := h.service.trans (hmoves.keeps State.service (fun _ _ _ _ _ _ => rfl))
      pending := h.pending.trans (hmoves.keeps State.pending (fun _ _ _ _ _ _ => rfl)) }

/-- The end of the event leaves what the image reading left. -/
theorem ImageRead.endEvent {s t : State} (h : ImageRead s t) (b : State) : ImageRead s (endEvent b t) := by
  have hand := endEvent_handedOn b t
  have htt : (Machine.endEvent b t).tt = t.tt := (endEvent_keepsOutputs b t).tt
  obtain ⟨hrelation, hgroup, hfollower, hclaim⟩ := h.join
  have hnone {α β : Type} {x y : Option α} {f : α → β} (he : y.map f = x.map f) (hx : x = none) : y = none := by
    rw [hx] at he
    exact Option.map_eq_none_iff.mp he
  exact
    { occupancy := hand.presence ▸ h.occupancy
      vacancy := hand.presence ▸ h.vacancy
      doors := by rw [hand.presence, hand.cfg]; exact h.doors
      presenceCounts := hand.presence ▸ h.presenceCounts
      air := by rw [hand.peers, hand.capacity, hand.overflows]; exact h.air
      lux := by rw [hand.lux, hand.discardedLux]; exact h.lux
      join := ⟨hnone hand.joins.partnerSeq hrelation, hnone hand.joins.report hgroup, hnone hand.joins.order hfollower,
        hand.joins.claimSeq.trans hclaim⟩
      partitions := by rw [hand.joins.partitions, hand.cfg]; exact h.partitions
      cfg := by rw [hand.cfg, hand.eeprom]; exact h.cfg
      fault := by rw [hand.faults, hand.eeprom]; exact h.fault
      format := by rw [hand.formatRead, hand.eeprom]; exact h.format
      imageWait := hand.imageWait.trans h.imageWait
      phase := hand.phase.trans h.phase
      pins := hand.pins.trans h.pins
      clock := hand.clock.trans h.clock
      listening := hand.listening.trans h.listening
      station := hand.station.trans h.station
      calendar := ⟨hand.cal.trans h.calendar.1, hand.backup.trans h.calendar.2⟩
      list := by rw [htt]; exact h.list
      service := hand.service.trans h.service
      pending := hand.pending.trans h.pending }

/-! ### The entry's outcome over the rest of the event -/

theorem HandedOn.keepsJournal {s t : State} (h : HandedOn s t) : KeepsJournal s t :=
  ⟨h.eeprom, h.journal, congrArg Faults.journalFull h.faults, h.bus⟩

theorem entryWritten_keeps {w : SlotWrite} {e : JournalEntry} {q : List JournalEntry} {s t u : State} (h : EntryWritten w e q s t)
    (hjournal : u.journal = t.journal) (hfull : u.faults.journalFull = t.faults.journalFull)
    (hbus : Sends s.station s.listening t.bus u.bus) : EntryWritten w e q s u := by
  obtain ⟨hanswer, hlast, hnext, hnoPage⟩ := h
  refine ⟨composesAll_then hanswer hbus, ?_, ?_, fun n r hq hentry => ?_⟩
  · rw [hjournal, hfull]; exact hlast
  · rw [hjournal, hfull]; exact hnext
  · rw [hjournal, hfull]
    obtain ⟨hqueue, hplan, hraised, hanswers⟩ := hnoPage n r hq hentry
    exact ⟨hqueue, hplan, hraised, composesAll_then hanswers hbus⟩

theorem entryLost_keeps {e : JournalEntry} {q : List JournalEntry} {s t u : State} (h : EntryLost e q s t)
    (hjournal : u.journal = t.journal) (hfull : u.faults.journalFull = t.faults.journalFull)
    (hbus : Sends s.station s.listening t.bus u.bus) : EntryLost e q s u := by
  obtain ⟨hanswer, hclosed, hleaves, hpair, hnoPage⟩ := h
  refine ⟨composesAll_then hanswer hbus, ?_, ?_, ?_, fun hq hpage => ?_⟩
  · rw [hjournal]; exact hclosed
  · rw [hjournal, hfull]; exact hleaves
  · rw [hjournal, hfull]; exact hpair
  · rw [hjournal, hfull]
    obtain ⟨hraised, hqueue, hplan, hanswers⟩ := hnoPage hq hpage
    exact ⟨hraised, hqueue, hplan, composesAll_then hanswers hbus⟩

/-- The end of a slot write's event: what the controller moved, then the image reading where one is awaited, then what any event ends with. -/
structure WriteEnds (s x t : State) : Prop where
  eeprom : t.eeprom = x.eeprom
  journal : t.journal = x.journal
  full : t.faults.journalFull = x.faults.journalFull
  bus : Sends s.station s.listening x.bus t.bus
  idle : s.imageWait = false → HandedOn x t
  reads : s.imageWait = true → ImageRead s t

theorem endImageWait_writeEnds {s x : State} (h : JournalMoves s x) : WriteEnds s x (endEvent s (endImageWait x)) := by
  have hwait : x.imageWait = s.imageWait := h.keeps State.imageWait (fun _ _ _ _ _ _ => rfl)
  have hstation : x.station = s.station := h.keeps State.station (fun _ _ _ _ _ _ => rfl)
  have hlistening : x.listening = s.listening := h.keeps State.listening (fun _ _ _ _ _ _ => rfl)
  have hread := endImageWait_keepsJournal x
  have hand := endEvent_handedOn s (endImageWait x)
  have hstation' : (endImageWait x).station = s.station ∧ (endImageWait x).listening = s.listening := by
    rw [← hstation, ← hlistening]
    cases hx : x.imageWait with
    | false => rw [endImageWait_idle hx]; exact ⟨rfl, rfl⟩
    | true => exact ⟨(endImageWait_reads hx).station, (endImageWait_reads hx).listening⟩
  refine
    { eeprom := hand.eeprom.trans hread.eeprom
      journal := hand.journal.trans hread.journal
      full := (congrArg Faults.journalFull hand.faults).trans hread.full
      bus := ?_
      idle := fun hidle => ?_
      reads := fun hawaited => ((endImageWait_reads (hwait.trans hawaited)).afterMoves h).endEvent s }
  · have hbus := hand.bus
    rw [hstation'.1, hstation'.2] at hbus
    have hbus' := hread.bus
    rw [hstation, hlistening] at hbus'
    exact hbus'.trans hbus
  · rw [endImageWait_idle (hwait.trans hidle)] at hand ⊢
    exact hand

theorem WriteEnds.entryWritten {w : SlotWrite} {e : JournalEntry} {q : List JournalEntry} {s x t : State} (h : WriteEnds s x t)
    (hx : EntryWritten w e q s x) : EntryWritten w e q s t := entryWritten_keeps hx h.journal h.full h.bus

theorem WriteEnds.entryLost {e : JournalEntry} {q : List JournalEntry} {s x t : State} (h : WriteEnds s x t)
    (hx : EntryLost e q s x) : EntryLost e q s t := entryLost_keeps hx h.journal h.full h.bus

theorem WriteEnds.handedOn {s x t : State} (h : WriteEnds s x t) (hmoves : JournalMoves s x) (hidle : s.imageWait = false) :
    HandedOn { s with eeprom := t.eeprom, journal := t.journal, faults := t.faults, freeUsed := t.freeUsed } t
    ∧ t.faults = { s.faults with journalFull := t.faults.journalFull } := by
  have hand := h.idle hidle
  have hall := hmoves.handedOn.trans hand
  rw [← hand.eeprom, ← hand.journal, ← hand.faults, ← hand.freeUsed] at hall
  refine ⟨hall, ?_⟩
  rw [hand.faults]
  exact hmoves.faults

/-! ### The commands -/

theorem exec_slotWriteComplete_running {s : State} (h : s.phase = .running) :
    exec .slotWriteComplete s = .next (endEvent s (endImageWait (slotWritten s))) := by
  change Host.Outcome.next (if powered s then endEvent s (slotCompletes s) else s) = _
  rw [if_pos (powered_of_running h)]
  simp only [slotCompletes, h]

theorem exec_slotWriteFail_running {s : State} (h : s.phase = .running) :
    exec .slotWriteFail s = .next (endEvent s (endImageWait (slotFailed s))) := by
  change Host.Outcome.next (if powered s then endEvent s (slotFails s) else s) = _
  rw [if_pos (powered_of_running h)]
  simp only [slotFails, h]

theorem powered_of_compacting {s : State} {l : List Booking} {ws : List SlotWrite} {d : Bool} (h : s.phase = .compacting l ws d) :
    powered s = true := by
  simp [powered, h]

theorem exec_slotWriteComplete_compacting {s : State} {l : List Booking} {ws : List SlotWrite} {d : Bool}
    (h : s.phase = .compacting l ws d) : exec .slotWriteComplete s = .next (endEvent s (compactionWritten s)) := by
  change Host.Outcome.next (if powered s then endEvent s (slotCompletes s) else s) = _
  rw [if_pos (powered_of_compacting h)]
  simp only [slotCompletes, h]

theorem exec_slotWriteFail_compacting {s : State} {l : List Booking} {ws : List SlotWrite} {d : Bool}
    (h : s.phase = .compacting l ws d) : exec .slotWriteFail s = .next (endEvent s (compactionBroken s)) := by
  change Host.Outcome.next (if powered s then endEvent s (slotFails s) else s) = _
  rw [if_pos (powered_of_compacting h)]
  simp only [slotFails, h]

/-- Step 6 and the end of its event: the derivation of the list, and what every start hands on. -/
theorem finishStart_ends (b : State) (l : List Booking) (x : State) :
    HandedOn { x with phase := .running, tt := { x.tt with records := l } } (endEvent b (finishStart l x))
    ∧ Derived x.cal.running (instantOf x.cal.time) (occRead x) l (endEvent b (finishStart l x)) := by
  refine ⟨(finishStart_handedOn l x).trans (endEvent_handedOn b _), ?_⟩
  obtain ⟨hlost, hkept, hsummary⟩ := finishStart_derived l x
  have htt : (endEvent b (finishStart l x)).tt = (finishStart l x).tt := (endEvent_keepsOutputs b _).tt
  exact ⟨htt ▸ hlost, htt ▸ hkept, htt ▸ hsummary⟩

/-- Settles O18: the four ways in which a completed write ends, by the phase and what is left of the plan. -/
theorem slotWriteCompletes : Obligations.SlotWriteCompletes := by
  refine ⟨fun s w rest hphase hplan hwf => ?_, fun s l w w' rest d hphase => ?_, fun s l w hphase => ?_, fun s l w hphase => ?_⟩
  · have hmoves := slotWritten_moves s
    have hends := endImageWait_writeEnds hmoves
    have hcells : (endEvent s (endImageWait (slotWritten s))).eeprom.cells = writeSlot w s.eeprom.cells := by
      rw [hends.eeprom, slotWritten_eeprom hplan]
    refine ⟨_, exec_slotWriteComplete_running hphase, fun i hi => ?_, fun a ha => ?_, fun hrest => ?_, fun e q hrest hqueue => ?_,
      fun hidle => ?_, hends.reads⟩
    · rw [hcells]
      exact memRead_writeList_same _ _ hwf i hi
    · rw [hcells]
      exact memRead_writeList_other _ _ ha
    · rw [hends.journal, slotWritten_next hplan hrest]
      exact ⟨journalAfterWrite_plan _ _ _ _, journalAfterWrite_queue _ _ _ _⟩
    · subst hrest
      exact hends.entryWritten (slotWritten_entry hplan hqueue)
    · have hfree : (endEvent s (endImageWait (slotWritten s))).freeUsed = s.freeUsed :=
        (hends.idle hidle).freeUsed.trans (slotWritten_freeUsed s)
      have hall := hends.handedOn hmoves hidle
      rwa [hfree] at hall
  · have hwritten : compactionWritten s =
        { writeSlots [w] s with phase := .compacting l (w' :: rest) d,
                                journal := { s.journal with since := some (nowOf s) } } := by
      simp only [compactionWritten, hphase]
      rfl
    have hand := endEvent_handedOn s (compactionWritten s)
    refine ⟨_, exec_slotWriteComplete_compacting hphase, ?_, ?_⟩
    · rw [hand.phase, hwritten]
    · rw [hand.eeprom, hwritten]
      rfl
  · have hwritten : compactionWritten s = finishStart l (compactionDone l (writeSlots [w] s)) := by
      simp only [compactionWritten, hphase]
      rfl
    obtain ⟨hand, hderived⟩ := finishStart_ends s l (compactionDone l (writeSlots [w] s))
    rw [← hwritten] at hand hderived
    refine ⟨_, exec_slotWriteComplete_compacting hphase, hand.phase, ?_, fun x hx => ?_, hand.faults, hderived⟩
    · rw [hand.eeprom]
      rfl
    · rw [hand.journal]
      simp [compactionDone, compactedJournal, hx]
  · have hwritten : compactionWritten s = { compactionDone l (writeSlots [w] s) with phase := .compacting l [] true } := by
      simp only [compactionWritten, hphase]
      rfl
    have hand := endEvent_handedOn s (compactionWritten s)
    refine ⟨_, exec_slotWriteComplete_compacting hphase, ?_, ?_⟩
    · rw [hand.phase, hwritten]
    · rw [hand.eeprom, hwritten]
      rfl

/-- Settles O19: a failed write spoils its slot alone; the entry, the queue or the compaction is lost with it. -/
theorem slotWriteFails : Obligations.SlotWriteFails := by
  refine ⟨fun s w rest hphase hplan => ?_, fun s l w rest d hphase => ?_⟩
  · have hmoves := slotFailed_moves s
    have hends := endImageWait_writeEnds hmoves
    refine ⟨_, exec_slotWriteFail_running hphase, fun a ha => ?_, hends.handedOn hmoves, hends.reads, fun hslot => ?_,
      fun e q hslot hqueue => hends.entryLost (slotFailed_lost hplan hslot hqueue)⟩
    · rw [hends.eeprom, slotFailed_eeprom hplan]
      exact memRead_spoilSlot_other ha
    · have hfailed := slotFailed_header hplan hslot
      rw [raiseJournalFull_eq, sendAll_eq] at hfailed
      rw [hends.journal, hends.full]
      refine ⟨by rw [hfailed], by rw [hfailed], by rw [hfailed], composesAll_then (t := slotFailed s) (composesAll_of_bus ?_) hends.bus⟩
      rw [hfailed]
      rfl
  · cases d with
    | false =>
      have hbroken : compactionBroken s = finishStart l (compactionFailed w s) := by
        simp only [compactionBroken, hphase]
        rfl
      obtain ⟨hand, hderived⟩ := finishStart_ends s l (compactionFailed w s)
      rw [← hbroken] at hand hderived
      refine ⟨_, exec_slotWriteFail_compacting hphase, fun a ha => ?_, hand.faults, fun _ => ⟨hand.phase, hderived⟩, fun h => (nomatch h)⟩
      rw [hand.eeprom]
      exact memRead_spoilSlot_other (s := s) ha
    | true =>
      have hbroken : compactionBroken s = { compactionFailed w s with phase := .compacting l [] true } := by
        simp only [compactionBroken, hphase]
        rfl
      have hand := endEvent_handedOn s (compactionBroken s)
      rw [hbroken] at hand
      rw [exec_slotWriteFail_compacting hphase, hbroken]
      refine ⟨_, rfl, fun a ha => ?_, hand.faults, fun h => (nomatch h), fun _ => hand.phase⟩
      rw [hand.eeprom]
      exact memRead_spoilSlot_other (s := s) ha

end Sys2Proof.Machine
end

