-- ==== Sys2Proof/Proofs/BookingCommands.lean ====
section
/-! PROOF. BOOKING_PUT and BOOKING_DROP in effect (R20 to R29), and the expiries of a record's timers (R31, R34, R35). -/

namespace Sys2Proof.Machine

/-! ### The answer and the journal -/

theorem length_journalEntries (a : Answer) (l : List JournalBody) : (journalEntries a l).length = l.length := by
  induction l with
  | nil => rfl
  | cons x rest ih =>
    cases rest with
    | nil => rfl
    | cons y r => exact congrArg (· + 1) ih

/-- Only the last entry of a change carries its answer. -/
theorem answersWith_journalEntries (a : Answer) (d : Nat) (x : JournalBody) (rest : List JournalBody) :
    answersWith d (journalEntries a (x :: rest)) = [answerTelegram a d] := by
  induction rest generalizing x with
  | nil => rfl
  | cons y r ih => exact ih y

theorem journalEntries_cons (a : Answer) (x : JournalBody) (rest : List JournalBody) :
    ∃ e q, journalEntries a (x :: rest) = e :: q ∧ e.body = x := by
  cases rest with
  | nil => exact ⟨_, _, rfl, rfl⟩
  | cons y r => exact ⟨_, _, rfl, rfl⟩

/-- The list and the capture as a decision leaves them (R24 to R28). -/
def listTaken (source : Nat) (d : Decision) (s : State) : State :=
  { s with tt := { s.tt with records := d.records, captured := if captures d.status then some source else s.tt.captured } }

/-- The answer and the journal of a decision whose list has been taken (R27). -/
def giveAnswer (a : Answer) (es : List JournalBody) (s : State) : State :=
  match es with
  | [] => sendAnswer a detailNone s
  | x :: rest => handEntries (journalEntries a (x :: rest)) a s

theorem applyDecision_eq (source id : Nat) (d : Decision) (s : State) :
    applyDecision source id d s = giveAnswer (answerOf source id d) d.entries (listTaken source d s) := by
  unfold applyDecision giveAnswer
  dsimp only
  split
  next h => simp only [h]; rfl
  next es h =>
    cases hes : d.entries with
    | nil => exact absurd hes h
    | cons x rest => rfl

theorem handEntries_refused {es : List JournalEntry} {a : Answer} {s : State}
    (h : s.faults.journalFull = true ∨ 4 < s.journal.queue.length + es.length) :
    handEntries es a s = sendAnswer a detailNotRetained s := if_pos (by simpa using h)

theorem handEntries_taken {es : List JournalEntry} {a : Answer} {s : State} (hfull : s.faults.journalFull = false)
    (hroom : s.journal.queue.length + es.length ≤ 4) :
    handEntries es a s = startWrite { s with journal := { s.journal with queue := s.journal.queue ++ es } } :=
  if_neg (by simp [hfull, hroom])

theorem sendAnswer_moves (a : Answer) (d : Nat) (s : State) : JournalMoves s (sendAnswer a d s) := ⟨rfl, rfl, .enqueue _ .refl⟩

theorem handEntries_moves (es : List JournalEntry) (a : Answer) (s : State) : JournalMoves s (handEntries es a s) := by
  unfold handEntries
  split
  · exact sendAnswer_moves a _ s
  · refine .trans ?_ (startWrite_moves _)
    exact ⟨rfl, rfl, .refl⟩

theorem giveAnswer_moves (a : Answer) (es : List JournalBody) (s : State) : JournalMoves s (giveAnswer a es s) := by
  cases es with
  | nil => exact sendAnswer_moves a _ s
  | cons x rest => exact handEntries_moves _ _ s

theorem handEntries_eeprom (es : List JournalEntry) (a : Answer) (s : State) : (handEntries es a s).eeprom = s.eeprom := by
  unfold handEntries
  split
  · rfl
  · exact startWrite_eeprom _

theorem handEntries_freeUsed (es : List JournalEntry) (a : Answer) (s : State) : (handEntries es a s).freeUsed = s.freeUsed := by
  unfold handEntries
  split
  · rfl
  · exact startWrite_freeUsed _

theorem giveAnswer_eeprom (a : Answer) (es : List JournalBody) (s : State) : (giveAnswer a es s).eeprom = s.eeprom := by
  cases es with
  | nil => rfl
  | cons x rest => exact handEntries_eeprom _ _ s

theorem giveAnswer_freeUsed (a : Answer) (es : List JournalBody) (s : State) : (giveAnswer a es s).freeUsed = s.freeUsed := by
  cases es with
  | nil => rfl
  | cons x rest => exact handEntries_freeUsed _ _ s

theorem giveAnswer_refused {a : Answer} {es : List JournalBody} {s : State} (hes : es ≠ [])
    (h : s.faults.journalFull = true ∨ 4 < s.journal.queue.length + es.length) :
    giveAnswer a es s = sendAnswer a detailNotRetained s := by
  obtain ⟨x, rest, rfl⟩ := List.exists_cons_of_ne_nil hes
  exact handEntries_refused (by rwa [length_journalEntries])

theorem giveAnswer_taken {a : Answer} {es : List JournalBody} {s : State} (hes : es ≠ []) (hfull : s.faults.journalFull = false)
    (hroom : s.journal.queue.length + es.length ≤ 4) :
    giveAnswer a es s = startWrite { s with journal := { s.journal with queue := s.journal.queue ++ journalEntries a es } } := by
  obtain ⟨x, rest, rfl⟩ := List.exists_cons_of_ne_nil hes
  exact handEntries_taken hfull (by rwa [length_journalEntries])

/-- With an empty queue the entries are the queue, and the first of them is at its head. -/
theorem giveAnswer_first {a : Answer} {x : JournalBody} {rest : List JournalBody} {s : State} (hfull : s.faults.journalFull = false)
    (hqueue : s.journal.queue = []) (hroom : (x :: rest).length ≤ 4) :
    ∃ e q, journalEntries a (x :: rest) = e :: q ∧ e.body = x
      ∧ giveAnswer a (x :: rest) s = startWrite { s with journal := { s.journal with queue := e :: q } } := by
  obtain ⟨e, q, hjournal, hbody⟩ := journalEntries_cons a x rest
  refine ⟨e, q, hjournal, hbody, ?_⟩
  rw [giveAnswer_taken (List.cons_ne_nil x rest) hfull (by rw [hqueue]; simpa using hroom), hqueue, hjournal]
  rfl

/-- The answer of R27 in each state of the write queue. -/
theorem giveAnswer_given (source id : Nat) (d : Decision) (s : State) :
    AnswerGiven source id d s (giveAnswer (answerOf source id d) d.entries (listTaken source d (heard s))) := by
  let x : State := listTaken source d (heard s)
  change AnswerGiven source id d s (giveAnswer (answerOf source id d) d.entries x)
  constructor
  case unwritten =>
    intro h
    rw [h]
    exact ⟨rfl, rfl, .refl⟩
  case full =>
    intro h hfull
    rw [giveAnswer_refused (s := x) h hfull]
    exact ⟨rfl, rfl, .refl⟩
  case waits =>
    intro h hfull hroom hplan
    rw [giveAnswer_taken (s := x) h hfull hroom, startWrite_busy]
    · exact ⟨rfl, rfl⟩
    · exact hplan
  case begins =>
    intro e rest plan hes hfull hqueue hroom hidle hentry
    rw [hes] at hroom ⊢
    obtain ⟨head, q, hjournal, hbody, hgives⟩ := giveAnswer_first (a := answerOf source id d) (s := x) hfull hqueue hroom
    have hhead : entryPlan s.journal head.body = some plan := hbody ▸ hentry
    rw [hgives, hjournal, startWrite_begins (e := head) (q := q) (plan := plan)]
    · exact ⟨rfl, rfl⟩
    · exact hidle
    · rfl
    · exact hhead
  case noPage =>
    intro e rest hes hfull hqueue hroom hidle hentry
    rw [hes] at hroom ⊢
    obtain ⟨head, q, hjournal, hbody, hgives⟩ := giveAnswer_first (a := answerOf source id d) (s := x) hfull hqueue hroom
    have hhead : entryPlan s.journal head.body = none := hbody ▸ hentry
    rw [hgives, startWrite_noPage (e := head) (q := q)]
    · rw [raiseJournalFull_eq, sendAll_eq, ← hjournal, answersWith_journalEntries]
      exact ⟨rfl, rfl, rfl, .refl⟩
    · exact hidle
    · rfl
    · exact hhead

theorem answerGiven_keeps {source id : Nat} {d : Decision} {s t u : State} (h : AnswerGiven source id d s t)
    (hjournal : u.journal = t.journal) (hfaults : u.faults = t.faults) (hbus : Sends s.station s.listening t.bus u.bus) :
    AnswerGiven source id d s u := by
  obtain ⟨hunwritten, hfull, hwaits, hbegins, hnoPage⟩ := h
  constructor
  case unwritten =>
    intro hes
    obtain ⟨hj, hf, hfirst⟩ := hunwritten hes
    exact ⟨hjournal.trans hj, hfaults.trans hf, hfirst.trans hbus⟩
  case full =>
    intro hes hcause
    obtain ⟨hj, hf, hfirst⟩ := hfull hes hcause
    exact ⟨hjournal.trans hj, hfaults.trans hf, hfirst.trans hbus⟩
  case waits => rw [hjournal, hfaults]; exact hwaits
  case begins => rw [hjournal, hfaults]; exact hbegins
  case noPage =>
    intro e rest hes hraised hqueue hroom hidle hentry
    obtain ⟨hf, hq, hp, hfirst⟩ := hnoPage e rest hes hraised hqueue hroom hidle hentry
    rw [hjournal, hfaults]
    exact ⟨hf, hq, hp, hfirst.trans hbus⟩

/-! ### The stored record -/

/-- What the evaluation of the stored record does to a record of the list (R24, R25). -/
def storedEvaluation (id : Nat) (c : EvalCtx) (b : Booking) : RecordResult :=
  if b.id = id ∧ b.state = .pending then evaluatePending c b else (some b, [])

theorem evaluateStored_eq (id : Nat) (s : State) : evaluateStored id s = overRecordsAt (storedEvaluation id) s := rfl

theorem evaluateStored_handedOn (id : Nat) (s : State) : HandedOn s (evaluateStored id s) :=
  overRecordsAt_handedOn _ (fun c => evaluateOne_keepsId id c) s

/-- The Timetable's part of a PUT or DROP that has been decided. -/
def decided (source id : Nat) (d : Decision) (s : State) : State :=
  if d.evaluate then evaluateStored id (applyDecision source id d s) else applyDecision source id d s

theorem decided_handedOn (source id : Nat) (d : Decision) (s : State) :
    HandedOn (giveAnswer (answerOf source id d) d.entries (listTaken source d s)) (decided source id d s) := by
  unfold decided
  rw [applyDecision_eq]
  split
  · exact evaluateStored_handedOn id _
  · exact .refl _

theorem decided_records (source id : Nat) (d : Decision) (s : State) :
    (decided source id d (heard s)).tt.records = listDecided s id d := by
  let y : State := giveAnswer (answerOf source id d) d.entries (listTaken source d (heard s))
  have hmoves : JournalMoves (listTaken source d (heard s)) y := giveAnswer_moves _ _ _
  have hrecords : y.tt.records = d.records := hmoves.keeps (fun x => x.tt.records) (fun _ _ _ _ _ _ => rfl)
  have hcal : calInstant y.cal = calInstant s.cal := hmoves.keeps (fun x => calInstant x.cal) (fun _ _ _ _ _ _ => rfl)
  have hctx (now : Nat) : evalCtx y now false = evalCtx s now false := hmoves.keeps (fun x => evalCtx x now false) (fun _ _ _ _ _ _ => rfl)
  unfold decided listDecided
  rw [applyDecision_eq, evaluateStored_eq]
  change (if d.evaluate then overRecordsAt (storedEvaluation id) y else y).tt.records = _
  cases hnow : calInstant s.cal with
  | none => rw [overRecordsAt_stopped _ (hcal.trans hnow), ite_self, hrecords]
  | some now =>
    dsimp only
    split
    · rw [overRecordsAt_tt _ (hcal.trans hnow), hctx, hrecords]
      rfl
    · exact hrecords

theorem mem_listDecided_other {s : State} {id : Nat} {d : Decision} {b : Booking} (hb : b ∈ d.records)
    (h : b.id ≠ id ∨ b.state ≠ .pending ∨ d.evaluate = false) : b ∈ listDecided s id d := by
  unfold listDecided
  split
  · exact hb
  · split
    next heval =>
      refine mem_listAfter.mpr ⟨b, hb, ?_⟩
      rw [if_neg]
      rintro ⟨hid, hstate⟩
      rcases h with h | h | h
      · exact h hid
      · exact h hstate
      · rw [h] at heval; cases heval
    · exact hb

/-- The state after the event of a PUT or DROP that has been decided. -/
def decisionEnds (source id : Nat) (d : Decision) (s : State) : State :=
  finishTelegram s (settle (decided source id d (heard s)))

theorem decisionEnds_handedOn (source id : Nat) (d : Decision) (s : State) :
    HandedOn (giveAnswer (answerOf source id d) d.entries (listTaken source d (heard s))) (decisionEnds source id d s) :=
  (decided_handedOn source id d (heard s)).trans ((settle_handedOn _).trans (finishTelegram_handedOn _ _))

theorem decisionEnds_list (source id : Nat) (d : Decision) (s : State) :
    ListIs (calInstant s.cal) (listDecided s id d) (decisionEnds source id d s) := by
  have hcal : (decided source id d (heard s)).cal = s.cal :=
    (decided_handedOn source id d (heard s)).cal.trans ((giveAnswer_moves _ _ _).keeps State.cal (fun _ _ _ _ _ _ => rfl))
  refine finishTelegram_list s (settle_list (congrArg calInstant hcal) ?_)
  rw [decided_records]
  exact .refl

theorem decision_taken (source id : Nat) (d : Decision) (s : State) : DecisionTaken source id d s (decisionEnds source id d s) := by
  let x : State := listTaken source d (heard s)
  let y : State := giveAnswer (answerOf source id d) d.entries x
  have hmoves : JournalMoves x y := giveAnswer_moves _ _ _
  have hand : HandedOn y (decisionEnds source id d s) := decisionEnds_handedOn source id d s
  have hcaptured : (decisionEnds source id d s).tt.captured = (if captures d.status then some source else s.tt.captured) :=
    hand.captured.trans (hmoves.keeps (fun z => z.tt.captured) (fun _ _ _ _ _ _ => rfl))
  have heeprom : y.eeprom = s.eeprom := giveAnswer_eeprom _ _ x
  have hfree : y.freeUsed = s.freeUsed := giveAnswer_freeUsed _ _ x
  have hlist := decisionEnds_list source id d s
  refine
    { captured := hcaptured
      list := hlist
      stays := fun b hb hother hfar => ?_
      faults := ?_
      eeprom := hand.eeprom.trans heeprom
      rest := ?_
      answer := answerGiven_keeps (giveAnswer_given source id d s) hand.journal hand.faults ?_ }
  · rcases hfar with hstate | hfar
    · exact hlist.records.keeps (mem_listDecided_other hb (.inr (.inl hstate))) hstate
    · exact hlist.records.far (mem_listDecided_other hb (hother.imp_right .inr)) hfar
  · rw [hand.faults]
    exact hmoves.faults
  · have hall := hmoves.handedOn.trans hand
    rw [heeprom, hfree, ← hand.journal, ← hand.faults] at hall
    rw [hcaptured]
    exact hall
  · have hbus := hand.bus
    rwa [hmoves.keeps State.station (fun _ _ _ _ _ _ => rfl), hmoves.keeps State.listening (fun _ _ _ _ _ _ => rfl)] at hbus

/-! ### Where the record stands -/

/-- The record a PUT took is in the list decided, under the id of the PUT; a PENDING one is to be evaluated, and its end lies ahead. -/
structure RecordTaken (s : State) (id : Nat) (d : Decision) (b : Booking) : Prop where
  mem : b ∈ d.records
  id : b.id = id
  pending : b.state = .pending → d.evaluate = true ∧ ∀ now, calInstant s.cal = some now → now < dateInstant b.finish

theorem putNew_taken {s : State} {l : List Booking} {x b : Booking} (h : (putNew l x).record = some b)
    (hahead : ∀ now, calInstant s.cal = some now → now < dateInstant x.finish) : RecordTaken s x.id (putNew l x) b := by
  generalize hd : putNew l x = d at h ⊢
  unfold putNew at hd
  split at hd
  · subst hd
    cases h
    exact ⟨mem_insertBooking.mpr (.inl rfl), rfl, fun _ => ⟨rfl, hahead⟩⟩
  · split at hd
    · subst hd
      cases h
    · split at hd <;> subst hd <;> cases h
      exact ⟨mem_insertBooking.mpr (.inl rfl), rfl, fun _ => ⟨rfl, hahead⟩⟩

theorem adjustLive_live (now : Option Nat) (finish : DateTime) (headcount : Nat) (noRelease : Bool) {b : Booking} (h : isLive b = true) :
    (adjustLive now finish headcount noRelease b).state ≠ .pending := by
  have hstate : b.state = .active ∨ b.state = .runout := by simpa [isLive] using h
  unfold adjustLive
  dsimp only
  split
  · simp
  · rcases hstate with hb | hb <;> simp [hb]

theorem ahead_of_not_past {now : Option Nat} {t : DateTime} (h : isPast now t = false) : ∀ n, now = some n → n < dateInstant t := by
  rintro n rfl
  simpa [isPast] using h

theorem putLive_taken {s : State} {p : PutFields} {held b : Booking} (hlive : isLive held = true)
    (h : (putLive s p held).record = some b) (hchanged : (putLive s p held).status ≠ .unchanged) :
    RecordTaken s held.id (putLive s p held) b := by
  generalize hd : putLive s p held = d at h hchanged ⊢
  unfold putLive at hd
  dsimp only at hd
  split at hd
  · subst hd
    cases h
  · split at hd
    · subst hd
      exact absurd rfl hchanged
    · subst hd
      cases h
      exact ⟨mem_insertBooking.mpr (.inl rfl), adjustLive_id _ _ _ _ _, fun hpending => absurd hpending (adjustLive_live _ _ _ _ hlive)⟩

theorem decidePut_taken {s : State} {k : BookingKind} {p : PutFields} {b : Booking} (h : (decidePut s k p).record = some b)
    (hchanged : (decidePut s k p).status ≠ .unchanged) : RecordTaken s p.id (decidePut s k p) b := by
  generalize hd : decidePut s k p = d at h hchanged ⊢
  unfold decidePut at hd
  dsimp only at hd
  split at hd
  · split at hd
    · subst hd
      cases h
    next hpast =>
      subst hd
      exact putNew_taken h (ahead_of_not_past (by simpa using hpast))
  next held hfound =>
    obtain ⟨-, hid⟩ := find_id.2 held hfound
    split at hd
    next hlive =>
      subst hd
      exact hid ▸ putLive_taken hlive h hchanged
    · split at hd
      · subst hd
        cases h
      next hpast =>
        split at hd
        · subst hd
          exact absurd rfl hchanged
        · subst hd
          cases h
          exact ⟨mem_insertBooking.mpr (.inl rfl), rfl, fun _ => ⟨rfl, ahead_of_not_past (by simpa using hpast)⟩⟩

/-- Grant-change events leave a PENDING record that has not begun as it is, or make it PRECONDITIONING. -/
theorem GrantsFollow.near {now : Nat} {l m : List Booking} (h : GrantsFollow (some now) l m) {b : Booking}
    (hstart : now < dateInstant b.start) (hfinish : now < dateInstant b.finish) (hb : ∃ a ∈ l, a = b ∨ a = { b with state := .preconditioning })
    (hpending : b.state = .pending) : ∃ a ∈ m, a = b ∨ a = { b with state := .preconditioning } := by
  induction h with
  | refl => exact hb
  | step c hnow _ _ ih =>
    obtain ⟨a, ha, rfl | rfl⟩ := ih
    · cases hnow
      have hrows := evaluatePending_evaluated hfinish
      have hgrant : onGrant c a = if dateInstant a.start ≤ c.now + 3600 then evaluatePending c a else (some a, []) := by
        simp only [onGrant, hpending]
      by_cases hnear : dateInstant a.start ≤ c.now + 3600 ∧ dateInstant a.start ≤ c.now + c.lead * 60
      · refine ⟨{ a with state := .preconditioning }, mem_listAfter.mpr ⟨a, ha, ?_⟩, .inr rfl⟩
        rw [hgrant, if_pos hnear.1, hrows.preconditioning hstart hnear.1 hnear.2]
      · refine ⟨a, mem_listAfter.mpr ⟨a, ha, ?_⟩, .inl rfl⟩
        rw [hgrant]
        split
        · rw [hrows.pending hstart (by omega)]
        · rfl
    · exact ⟨_, mem_listAfter.mpr ⟨_, ha, by simp only [onGrant]⟩, .inr rfl⟩

/-- What the evaluation of the stored record puts in the list. -/
theorem mem_listDecided_stored {s : State} {id : Nat} {d : Decision} {b a : Booking} (hb : RecordTaken s id d b)
    (hpending : b.state = .pending) (hrunning : s.cal.running = true)
    (ha : (evaluatePending (evalCtx s (instantOf s.cal.time) false) b).1 = some a) : a ∈ listDecided s id d := by
  have hnow : calInstant s.cal = some (instantOf s.cal.time) := if_pos hrunning
  unfold listDecided
  rw [hnow]
  dsimp only
  rw [if_pos (hb.pending hpending).1]
  refine mem_listAfter.mpr ⟨b, hb.mem, ?_⟩
  rw [if_pos ⟨hb.id, hpending⟩]
  exact ha

theorem recordHeld_of_list {s : State} {id : Nat} {d : Decision} {b : Booking} {t : State} (hb : RecordTaken s id d b)
    (hlist : ListIs (calInstant s.cal) (listDecided s id d) t) :
    RecordHeld (evalCtx s (instantOf s.cal.time) false) s.cal.running b t.tt.records := by
  let c := evalCtx s (instantOf s.cal.time) false
  have hrows (hrunning : s.cal.running = true) (hpending : b.state = .pending) : Evaluated c b (evaluatePending c b) :=
    evaluatePending_evaluated ((hb.pending hpending).2 _ (if_pos hrunning))
  have hstored {a : Booking} (hrunning : s.cal.running = true) (hpending : b.state = .pending) (ha : (evaluatePending c b).1 = some a) :
      a ∈ listDecided s id d := mem_listDecided_stored hb hpending hrunning ha
  constructor
  case stored =>
    intro hcase
    cases hrunning : s.cal.running with
    | false =>
      have hnow : calInstant s.cal = none := by simp [calInstant, hrunning]
      have hsame : listDecided s id d = d.records := by simp only [listDecided, hnow]
      have hrecords := hlist.records
      rw [hsame, hnow] at hrecords
      exact hrecords.stopped ▸ hb.mem
    | true =>
      have hnow : calInstant s.cal = some (instantOf s.cal.time) := if_pos hrunning
      by_cases hpending : b.state = .pending
      · have hfar : instantOf s.cal.time + 3600 < dateInstant b.start := by
          rcases hcase with h | h | h
          · rw [hrunning] at h; cases h
          · exact absurd hpending h
          · exact h
        have hmem := hstored hrunning hpending
          (congrArg Prod.fst ((hrows hrunning hpending).pending (by change instantOf s.cal.time < _; omega) (.inl hfar)))
        refine hlist.records.far hmem (fun n hn => ?_)
        cases hnow.symm.trans hn
        exact hfar
      · exact hlist.records.keeps (mem_listDecided_other hb.mem (.inr (.inl hpending))) hpending
  case near =>
    intro hrunning hpending hahead
    have hnow : calInstant s.cal = some (instantOf s.cal.time) := if_pos hrunning
    have hrecords := hlist.records
    rw [hnow] at hrecords
    refine hrecords.near hahead ((hb.pending hpending).2 _ hnow) ?_ hpending
    by_cases hnear : dateInstant b.start ≤ c.now + 3600 ∧ dateInstant b.start ≤ c.now + c.lead * 60
    · exact ⟨_, hstored hrunning hpending (congrArg Prod.fst ((hrows hrunning hpending).preconditioning hahead hnear.1 hnear.2)), .inr rfl⟩
    · exact ⟨_, hstored hrunning hpending (congrArg Prod.fst ((hrows hrunning hpending).pending hahead (by omega))), .inl rfl⟩
  case preconditioning =>
    intro hrunning hpending hahead hnear hlead
    exact hlist.records.keeps
      (hstored hrunning hpending (congrArg Prod.fst ((hrows hrunning hpending).preconditioning hahead hnear hlead))) (by simp)
  case active =>
    intro hrunning hpending hbegun
    obtain ⟨a, ha, hactivated, -⟩ := (hrows hrunning hpending).active hbegun
    refine ⟨a, hlist.records.keeps (hstored hrunning hpending ha) ?_, hactivated⟩
    rw [hactivated.fields]
    simp

/-! ### The commands -/

theorem exec_bookingPut_reaches {s : State} {h : RxHeader} {payload : List Byte} (hreaches : Reaches s kBookingPut h payload) :
    exec (.bookingPut h payload) s = .next (finishTelegram s (takePut h payload (heard s))) :=
  congrArg Host.Outcome.next (telegramEvent_reaches hreaches _)

theorem exec_bookingDrop_reaches {s : State} {h : RxHeader} {payload : List Byte} (hreaches : Reaches s kBookingDrop h payload) :
    exec (.bookingDrop h payload) s = .next (finishTelegram s (takeDrop h payload (heard s))) :=
  congrArg Host.Outcome.next (telegramEvent_reaches hreaches _)

theorem takePut_decided {h : RxHeader} {payload : List Byte} {p : PutFields} {k : BookingKind} (s : State) (hread : rdPut payload = some p)
    (husable : putUsable p = true) (hkind : kindOfCode p.kind = some k) :
    takePut h payload (heard s) = settle (decided h.source.toNat p.id (decidePut s k p) (heard s)) := by
  simp only [takePut, ttPut, hread, husable, hkind, Bool.not_true, Bool.false_eq_true, if_false]
  rfl

theorem decideDrop_quiet (l : List Booking) (id : Nat) : (decideDrop l id).evaluate = false := by
  unfold decideDrop
  split <;> rfl

theorem takeDrop_decided {h : RxHeader} {payload : List Byte} {id : Nat} (s : State) (hread : rdDrop payload = some id) (hid : id ≠ 0) :
    takeDrop h payload (heard s) = settle (decided h.source.toNat id (decideDrop s.tt.records id) (heard s)) := by
  simp only [takeDrop, ttDrop, hread, hid, if_false, decided, decideDrop_quiet, Bool.false_eq_true]
  rfl

theorem decideDrop_gone {l : List Booking} {id : Nat} : ∀ b ∈ (decideDrop l id).records, b.id ≠ id := by
  unfold decideDrop
  split
  · intro b hb
    simpa using (List.mem_filter.mp hb).2
  next hnone =>
    intro b hb hid
    exact hnone (List.any_eq_true.mpr ⟨b, hb, by simp [hid]⟩)

/-- A content that fails R20 leaves the event of an unusable telegram. -/
theorem unusable_ends (s : State) :
    HandedOn (heardUnusable s) (finishTelegram s (settle (heardUnusable s)))
    ∧ ListIs (calInstant s.cal) s.tt.records (finishTelegram s (settle (heardUnusable s))) :=
  ⟨(settle_handedOn _).trans (finishTelegram_handedOn _ _), finishTelegram_list s (settle_list rfl .refl)⟩

theorem takePut_unusable {h : RxHeader} {payload : List Byte} (s : State) (hbad : ∀ p, rdPut payload = some p → putUsable p = false) :
    takePut h payload (heard s) = settle (heardUnusable s) := by
  unfold takePut ttPut
  dsimp only
  split
  · rfl
  next p hread => rw [if_pos (by simp [hbad p hread])]; rfl

theorem takeDrop_unusable {h : RxHeader} {payload : List Byte} (s : State) (hbad : ∀ id, rdDrop payload = some id → id = 0) :
    takeDrop h payload (heard s) = settle (heardUnusable s) := by
  unfold takeDrop ttDrop
  dsimp only
  split
  · rfl
  next id hread => rw [if_pos (hbad id hread)]; rfl

/-- Settles O14: both commands apply a decision, and the record of a PUT stands where its evaluation and the grants leave it. -/
theorem bookingsTakeEffect : Obligations.BookingsTakeEffect := by
  refine ⟨fun s h payload p k hreaches hread husable hkind => ?_, fun s h payload id hreaches hread hid => ?_,
    fun s h payload hreaches hbad => ?_, fun s h payload hreaches hbad => ?_⟩
  · refine ⟨_, exec_bookingPut_reaches hreaches, ?_⟩
    rw [takePut_decided s hread husable hkind]
    exact ⟨decision_taken _ _ _ s, fun b hb hchanged => recordHeld_of_list (decidePut_taken hb hchanged) (decisionEnds_list _ _ _ s)⟩
  · refine ⟨_, exec_bookingDrop_reaches hreaches, ?_⟩
    rw [takeDrop_decided s hread hid]
    have htaken := decision_taken h.source.toNat id (decideDrop s.tt.records id) s
    refine ⟨htaken, fun b hb => ?_⟩
    obtain ⟨a, ha, hab⟩ := htaken.rest.ids b hb
    exact hab ▸ decideDrop_gone a ha
  · refine ⟨_, exec_bookingPut_reaches hreaches, ?_⟩
    rw [takePut_unusable s hbad]
    exact unusable_ends s
  · refine ⟨_, exec_bookingDrop_reaches hreaches, ?_⟩
    rw [takeDrop_unusable s hbad]
    exact unusable_ends s

end Sys2Proof.Machine
end

