-- ==== Sys2Proof/Proofs/RecordTimers.lean ====
section
/-! PROOF. The expiries of a record's no-show window and run-out cap (R31, R34), and what an occurrence that ends leaves (R35, R38). -/

namespace Sys2Proof.Machine

/-! ### An occurrence that ends -/

theorem nextOccurrence_gone {b : Booking} (h : b.weeks = 0 ∨ 2199 < (addDays 7 b.start).year) : nextOccurrence b = none := by
  simp only [nextOccurrence, weekLater, h, if_true, Option.map_none]

theorem nextOccurrence_again {b : Booking} (hweeks : 0 < b.weeks) (hyear : (addDays 7 b.start).year ≤ 2199) :
    nextOccurrence b = some (weekOn b (addDays 7 b.start) (addDays 7 b.finish)) := by
  have hnot : ¬(b.weeks = 0 ∨ 2199 < (addDays 7 b.start).year) := by omega
  simp only [nextOccurrence, weekLater, hnot, if_false, Option.map_some, weekOn]

/-- A next occurrence more than 60 minutes away is put back as it is. -/
theorem leaveOrRecur_again {c : EvalCtx} {b : Booking} {start finish : DateTime} (hs : start = addDays 7 b.start)
    (hf : finish = addDays 7 b.finish) (hweeks : 0 < b.weeks) (hyear : start.year ≤ 2199) (hstart : c.now + 3600 < dateInstant start)
    (hfinish : c.now < dateInstant finish) : leaveOrRecur c b = (some (weekOn b start finish), []) := by
  have hnext := nextOccurrence_again (b := b) hweeks (hs ▸ hyear)
  rw [← hs, ← hf] at hnext
  simp only [leaveOrRecur, hnext]
  have hrows : Evaluated c (weekOn b start finish) (evaluatePending c (weekOn b start finish)) := evaluatePending_evaluated hfinish
  exact hrows.pending (by change c.now < dateInstant start; omega) (.inl hstart)

theorem GrantsFollow.ids {now : Option Nat} {l m : List Booking} (h : GrantsFollow now l m) :
    ∀ a ∈ m, ∃ x ∈ l, x.id = a.id := by
  induction h with
  | refl => exact fun a ha => ⟨a, ha, rfl⟩
  | step c _ _ _ ih =>
    intro a ha
    obtain ⟨x, hx, hxa⟩ := mem_listAfter.mp ha
    obtain ⟨y, hy, hyx⟩ := ih x hx
    exact ⟨y, hy, hyx.trans (onGrant_keepsId c x a hxa).symm⟩

/-- An event that ends the one record under its id leaves the list as R35 says. -/
theorem leavesOrRecurs_of_list {c : EvalCtx} {f : Booking → RecordResult} {l : List Booking} {b : Booking} {t : State}
    (hf : KeepsId f) (hmem : b ∈ l) (honly : ∀ x ∈ l, x.id = b.id → x = b) (hends : (f b).1 = (leaveOrRecur c b).1)
    (hlist : ListIs (some c.now) (listAfter f l) t) : LeavesOrRecurs c.now b t where
  gone hgone a ha haid := by
    obtain ⟨x, hx, hxa⟩ := hlist.records.ids a ha
    obtain ⟨y, hy, hyx⟩ := mem_listAfter.mp hx
    have hyb : y = b := honly y hy ((hf y x hyx).symm.trans (hxa.trans haid))
    rw [hyb, hends] at hyx
    simp only [leaveOrRecur, nextOccurrence_gone hgone] at hyx
    cases hyx
  again start finish hstart hfinish hweeks hyear hfar hahead := by
    refine hlist.records.far (mem_listAfter.mpr ⟨b, hmem, ?_⟩) (fun n hn => ?_)
    · rw [hends, leaveOrRecur_again hstart hfinish hweeks hyear hfar hahead]
    · cases hn
      exact hfar

/-! ### The first notice -/

/-- Where one record alone has notices, its first is the first of the event. -/
theorem eachRecord_firstNotice {f : Booking → RecordResult} {l : List Booking} {b : Booking} {n : Notice} {more : List Notice}
    (hmem : b ∈ l) (hquiet : ∀ x ∈ l, x ≠ b → (f x).2 = []) (hnotice : (f b).2 = n :: more) :
    ∃ rest, (eachRecord f l).2 = n :: rest := by
  induction l with
  | nil => cases hmem
  | cons x rest ih =>
    have hcons : (eachRecord f (x :: rest)).2 = (f x).2 ++ (eachRecord f rest).2 := rfl
    rw [hcons]
    by_cases hx : x = b
    · rw [hx, hnotice]
      exact ⟨_, rfl⟩
    · rw [hquiet x List.mem_cons_self hx]
      exact ih ((List.mem_cons.mp hmem).resolve_left (Ne.symm hx)) (fun y hy => hquiet y (List.mem_cons_of_mem _ hy))

theorem overRecords_firstNotice {f : Booking → RecordResult} {s : State} {n : Notice} {rest : List Notice}
    (h : (eachRecord f s.tt.records).2 = n :: rest) :
    composesFirst s (overRecords f s) s.bus (noticeTelegram s.tt.captured n) := by
  unfold overRecords
  dsimp only
  rw [sendAll_eq, h]
  exact enqueueAll_sends _ _ _ _

theorem overRecords_eq_overRecordsAt (f : EvalCtx → Booking → RecordResult) {s : State} (h : s.cal.running = true) :
    overRecordsAt f s = overRecords (f (evalCtx s (instantOf s.cal.time) false)) s := by
  have hnow : calInstant s.cal = some (instantOf s.cal.time) := if_pos h
  simp only [overRecordsAt, hnow]

/-! ### The event of a record's timer -/

/-- The event of a record's timer: the list, and what follows from it. -/
def recordTimerEnds (f : EvalCtx → Booking → RecordResult) (s : State) : State := endEvent s (afterRecords (overRecordsAt f s))

theorem recordTimerEnds_handedOn (f : EvalCtx → Booking → RecordResult) (s : State) :
    HandedOn (overRecordsAt f s) (recordTimerEnds f s) := (afterRecords_handedOn _).trans (endEvent_handedOn _ _)

theorem recordTimerEnds_list {f : EvalCtx → Booking → RecordResult} (hf : ∀ c, KeepsId (f c)) {s : State} (h : s.cal.running = true) :
    ListIs (calInstant s.cal) (listAfter (f (evalCtx s (instantOf s.cal.time) false)) s.tt.records) (recordTimerEnds f s) := by
  refine endEvent_list s (afterRecords_list (congrArg calInstant (overRecordsAt_handedOn f hf s).cal) ?_)
  rw [overRecordsAt_tt f (if_pos h)]
  exact .refl

/-- One record's timer ends its occurrence: notice, departure or recurrence. -/
theorem recordTimerEnds_occurrence {f : EvalCtx → Booking → RecordResult} (hf : ∀ c, KeepsId (f c)) {s : State} {b : Booking} {n : Notice}
    {more : List Notice} (hrunning : s.cal.running = true) (hmem : b ∈ s.tt.records) (honly : ∀ x ∈ s.tt.records, x.id = b.id → x = b)
    (hquiet : ∀ c x, x.id ≠ b.id → f c x = (some x, []))
    (hends : (f (evalCtx s (instantOf s.cal.time) false) b).1 = (leaveOrRecur (evalCtx s (instantOf s.cal.time) false) b).1)
    (hnotice : (f (evalCtx s (instantOf s.cal.time) false) b).2 = n :: more) :
    LeavesOrRecurs (instantOf s.cal.time) b (recordTimerEnds f s)
    ∧ composesFirst s (recordTimerEnds f s) s.bus (noticeTelegram s.tt.captured n) := by
  have hnow : calInstant s.cal = some (instantOf s.cal.time) := if_pos hrunning
  have hlist := recordTimerEnds_list hf hrunning
  rw [hnow] at hlist
  refine ⟨leavesOrRecurs_of_list (hf _) hmem honly hends hlist, ?_⟩
  obtain ⟨rest, hfirst⟩ := eachRecord_firstNotice hmem
    (fun x hx hxb => congrArg Prod.snd (hquiet _ x (fun hid => hxb (honly x hx hid)))) hnotice
  have hsends := overRecords_firstNotice hfirst
  rw [← overRecords_eq_overRecordsAt f hrunning] at hsends
  have hover := overRecordsAt_handedOn f hf s
  have hbus := (recordTimerEnds_handedOn f s).bus
  rw [hover.station, hover.listening] at hbus
  exact Sends.trans hsends hbus

theorem onWindowExpiry_other {id : Nat} (c : EvalCtx) {b : Booking} (h : b.id ≠ id) : onWindowExpiry id c b = (some b, []) := by
  unfold onWindowExpiry
  split
  · rw [if_neg (by simp [h])]
  · rfl

theorem onWindowExpiry_due {c : EvalCtx} {b : Booking} {since : Stamp} (hstate : b.state = .active) (hwindow : b.window = .running since)
    (hdue : c.w * 60000 ≤ elapsed since c.stamp) :
    onWindowExpiry b.id c b =
      if c.occupancy = .occupied then (some { b with window := .none, attended := true }, []) else becomeNoShow c b := by
  simp only [onWindowExpiry, hwindow, hstate, hdue, and_self, if_true]

theorem onCapExpiry_other {id : Nat} (c : EvalCtx) {b : Booking} (h : b.id ≠ id) : onCapExpiry id c b = (some b, []) := by
  rw [onCapExpiry, if_neg (by simp [h])]

theorem onCapExpiry_due {c : EvalCtx} {b : Booking} {since : Stamp} (hstate : b.state = .runout) (hrunout : b.runout = some since)
    (hdue : 1800000 ≤ elapsed since c.stamp) :
    onCapExpiry b.id c b = ((leaveOrRecur c b).1, noticeOf noticeOverrun b 1 :: (leaveOrRecur c b).2) := by
  rw [onCapExpiry, if_pos ⟨rfl, hstate, by simp [ranOut, hrunout, hdue]⟩]

theorem exec_noShowWindowExpiry_running {s : State} (id : Nat) (h : s.phase = .running) :
    exec (.noShowWindowExpiry id) s = .next (recordTimerEnds (onWindowExpiry id) s) := by
  change Host.Outcome.next (if started s then recordTimerEnds (onWindowExpiry id) s else s) = _
  rw [if_pos (by simp [started, h])]

theorem exec_runoutCapExpiry_running {s : State} (id : Nat) (h : s.phase = .running) :
    exec (.runoutCapExpiry id) s = .next (recordTimerEnds (onCapExpiry id) s) := by
  change Host.Outcome.next (if started s then recordTimerEnds (onCapExpiry id) s else s) = _
  rw [if_pos (by simp [started, h])]

/-- Settles O17: both timers end one record's occurrence by the same rule, and the window's leaves an attended room's record. -/
theorem recordTimersEndRecords : Obligations.RecordTimersEndRecords := by
  refine ⟨fun s id b since hphase hrunning hmem hid honly hstate hwindow hdue => ?_,
    fun s id b since hphase hrunning hmem hid honly hstate hrunout hdue => ?_, fun c b hvacant hstate hweeks => ?_⟩
  · subst hid
    have hf := onWindowExpiry_keepsId b.id
    have hlist := recordTimerEnds_list hf hrunning
    have hexpires := onWindowExpiry_due (c := evalCtx s (instantOf s.cal.time) false) hstate hwindow hdue
    refine ⟨_, exec_noShowWindowExpiry_running b.id hphase,
      (overRecordsAt_handedOn _ hf s).trans (recordTimerEnds_handedOn _ s), hlist, fun hoccupied => ?_, fun hoccupied => ?_⟩
    · refine hlist.records.keeps (mem_listAfter.mpr ⟨b, hmem, ?_⟩) (by simp [hstate])
      rw [hexpires]
      exact congrArg Prod.fst (if_pos hoccupied)
    · rw [show (evalCtx s (instantOf s.cal.time) false).occupancy = occRead s from rfl, if_neg hoccupied] at hexpires
      exact recordTimerEnds_occurrence hf hrunning hmem honly (fun c x hx => onWindowExpiry_other c hx) (by rw [hexpires]; rfl)
        (by rw [hexpires]; rfl)
  · subst hid
    have hf := onCapExpiry_keepsId b.id
    have hexpires := onCapExpiry_due (c := evalCtx s (instantOf s.cal.time) false) hstate hrunout hdue
    exact ⟨_, exec_runoutCapExpiry_running b.id hphase, (overRecordsAt_handedOn _ hf s).trans (recordTimerEnds_handedOn _ s),
      recordTimerEnds_list hf hrunning,
      recordTimerEnds_occurrence hf hrunning hmem honly (fun c x hx => onCapExpiry_other c hx) (by rw [hexpires]) (by rw [hexpires])⟩
  · simp only [onOccupancy, hvacant, hstate, leaveOrRecur_weekless c hweeks]

end Sys2Proof.Machine
end

