-- ==== Sys2Proof/Proofs/PresenceUnit.lean ====
section
/-! PROOF. The Presence Unit's commands: door decoders and entries (R46 to R48, R56 to R58), motion (R49, R55), CO2 (R50, R51) and the two
occupancy timers (R54 to R57). -/

namespace Sys2Proof.Machine

/-! ### What the cascades leave of the Presence Unit -/

theorem formHeadcount_presence (s : State) : (formHeadcount s).presence = recomputeH s.presence := (formHeadcount_handedOn s).presence

theorem takeOne_presence (e : QueueEvent) (s : State) : (takeOne e s).presence = takeEntry (nowOf s) e s.presence :=
  (takeOne_handedOn e s).presence

theorem changePresence_presence (f : Presence → Presence) (s : State) : (changePresence f s).presence = f s.presence :=
  (changePresence_handedOn f s).presence

theorem endEvent_presence (b s : State) : (endEvent b s).presence = s.presence := (endEvent_handedOn b s).presence

theorem arriveEntry_held {e : QueueEvent} {s : State} (h : s.presence.held = true) :
    arriveEntry e s = { s with presence := holdEntry e s.presence } := if_pos h

theorem arriveEntry_free {e : QueueEvent} {s : State} (h : s.presence.held = false) :
    arriveEntry e s = formHeadcount (takeOne e s) := if_neg (by simp [h])

theorem arriveEntry_keepsFields (e : QueueEvent) (s : State) : (arriveEntry e s).presence.doors = s.presence.doors
    ∧ (arriveEntry e s).presence.co2 = s.presence.co2 ∧ (arriveEntry e s).presence.halfPasses = s.presence.halfPasses
    ∧ (arriveEntry e s).faults = s.faults ∧ (arriveEntry e s).cal = s.cal ∧ (arriveEntry e s).service = s.service
    ∧ (arriveEntry e s).eeprom = s.eeprom ∧ (arriveEntry e s).journal = s.journal ∧ (arriveEntry e s).pins = s.pins
    ∧ (arriveEntry e s).cfg = s.cfg ∧ (arriveEntry e s).clock = s.clock ∧ (arriveEntry e s).phase = s.phase := by
  cases hheld : s.presence.held with
  | true => rw [arriveEntry_held hheld]; exact ⟨rfl, rfl, rfl, rfl, rfl, rfl, rfl, rfl, rfl, rfl, rfl, rfl⟩
  | false =>
    rw [arriveEntry_free hheld]
    have hkeeps := (takeOne_keepsRest e s).trans (formHeadcount_keepsRest _)
    exact ⟨hkeeps.doors, hkeeps.co2, hkeeps.halfPasses, hkeeps.faults, hkeeps.cal, hkeeps.service, hkeeps.eeprom, hkeeps.journal,
      hkeeps.pins, hkeeps.cfg, hkeeps.clock, hkeeps.phase⟩

/-! ### Doors -/

/-- Settles O21: the six rows of the table by computation on the decoder's state. -/
theorem doorDecoderTable : Obligations.DoorDecoderTable := fun _ _ => ⟨rfl, rfl, rfl, rfl, rfl, rfl⟩

/-- An entry is taken alike whatever the doors and the half passes are. -/
theorem takeEntry_doors (now : Stamp) (e : QueueEvent) (p : Presence) (doors : List Door) (half : Count16) :
    (takeEntry now e { p with doors := doors, halfPasses := half }).n = (takeEntry now e p).n
    ∧ (takeEntry now e { p with doors := doors, halfPasses := half }).occupancy = (takeEntry now e p).occupancy := by
  match e with
  | .pass true _ _ => exact ⟨rfl, rfl⟩
  | .pass false _ _ =>
    simp only [takeEntry, takeOut, correct]
    cases p.occupancy <;> dsimp only <;> repeat' split
    all_goals exact ⟨rfl, rfl⟩
  | .motion _ _ =>
    simp only [takeEntry, takeMotion, restartVacancy, correct, enterOccupied]
    cases p.occupancy <;> exact ⟨rfl, rfl⟩

theorem exec_beamBreak_taken {s : State} {d : Nat} {b : Beam} (htakes : takesFields s = true) (hdoor : isDoor d = true)
    (hclear : beamLevel s.pins d b = false) :
    exec (.beamBreak d b) s = .next (endEvent s (doorTakesBreak d b { s with pins := setBeam s.pins d b true })) := by
  change Host.Outcome.next (beamBreaks d b s) = _
  unfold beamBreaks
  rw [if_neg (by simp [hdoor, hclear])]
  dsimp only
  rw [if_pos htakes]

/-- The Presence Unit after a door's decoder took a break, before the pass it may have produced. -/
def brokenBeam (now : Stamp) (d : Nat) (b : Beam) (x : Door) (p : Presence) : Presence :=
  { p with doors := update1 p.doors d (doorBreak now b)
           halfPasses := if (decodeBreak now b x.decoder).2.1 then p.halfPasses.succ else p.halfPasses }

theorem doorTakesBreak_eq {s : State} {d : Nat} {b : Beam} {x : Door} (hx : nth1 s.presence.doors d = some x) :
    doorTakesBreak d b s =
      match (decodeBreak (nowOf s) b x.decoder).2.2 with
      | none => { s with presence := brokenBeam (nowOf s) d b x s.presence }
      | some inward => arriveEntry (.pass inward d (nowOf s)) { s with presence := brokenBeam (nowOf s) d b x s.presence } := by
  simp only [doorTakesBreak, hx]
  rfl

theorem doorTakesBreak_keeps {s : State} {d : Nat} {b : Beam} {x : Door} (hx : nth1 s.presence.doors d = some x) :
    (doorTakesBreak d b s).presence.doors = update1 s.presence.doors d (doorBreak (nowOf s) b)
    ∧ (doorTakesBreak d b s).presence.halfPasses =
        (if (decodeBreak (nowOf s) b x.decoder).2.1 then s.presence.halfPasses.succ else s.presence.halfPasses)
    ∧ (doorTakesBreak d b s).pins = s.pins ∧ (doorTakesBreak d b s).cal = s.cal ∧ (doorTakesBreak d b s).service = s.service
    ∧ (doorTakesBreak d b s).faults = s.faults ∧ (doorTakesBreak d b s).eeprom = s.eeprom
    ∧ (doorTakesBreak d b s).journal = s.journal ∧ (doorTakesBreak d b s).cfg = s.cfg ∧ (doorTakesBreak d b s).clock = s.clock
    ∧ (doorTakesBreak d b s).phase = s.phase := by
  rw [doorTakesBreak_eq hx]
  split
  · exact ⟨rfl, rfl, rfl, rfl, rfl, rfl, rfl, rfl, rfl, rfl, rfl⟩
  next inward _ =>
    obtain ⟨hdoors, -, hhalf, hfaults, hcal, hservice, heeprom, hjournal, hpins, hcfg, hclock, hphase⟩ :=
      arriveEntry_keepsFields (.pass inward d (nowOf s)) { s with presence := brokenBeam (nowOf s) d b x s.presence }
    exact ⟨hdoors, hhalf, hpins, hcal, hservice, hfaults, heeprom, hjournal, hcfg, hclock, hphase⟩

/-- Settles O22: the decoder's move, then the pass that meets a held queue or is taken. -/
theorem beamBreakIsDecoded : Obligations.BeamBreakIsDecoded := by
  intro s d b x htakes hdoor hclear hx
  let u : State := { s with pins := setBeam s.pins d b true }
  have hux : nth1 u.presence.doors d = some x := hx
  obtain ⟨hdoors, hhalf, hpins, hcal, hservice, hfaults, heeprom, hjournal, hcfg, hclock, hphase⟩ := doorTakesBreak_keeps (b := b) hux
  have hbreak := doorTakesBreak_eq (b := b) hux
  have hand := endEvent_handedOn s (doorTakesBreak d b u)
  refine ⟨_, exec_beamBreak_taken htakes hdoor hclear, hand.pins.trans hpins, ?_, ?_, fun e he => ?_, fun hnone => ?_,
    fun inward hpass hheld => ?_, fun inward hpass hheld => ?_, hand.cal.trans hcal, hand.service.trans hservice,
    hand.faults.trans hfaults, hand.eeprom.trans heeprom, hand.journal.trans hjournal, hand.cfg.trans hcfg, hand.clock.trans hclock,
    hand.phase.trans hphase⟩
  · rw [hand.presence, hdoors]
    exact nth1_update1_same _ hx
  · rw [hand.presence]
    exact hhalf
  · rw [hand.presence, hdoors]
    exact nth1_update1_other _ _ he
  · rw [hand.presence, hbreak, show (decodeBreak (nowOf u) b x.decoder).2.2 = none from hnone]
    rfl
  · rw [hand.presence, hbreak, show (decodeBreak (nowOf u) b x.decoder).2.2 = some inward from hpass]
    dsimp only
    rw [arriveEntry_held (s := { u with presence := brokenBeam (nowOf u) d b x u.presence }) hheld]
    exact ⟨rfl, rfl⟩
  · rw [hand.presence, hbreak, show (decodeBreak (nowOf u) b x.decoder).2.2 = some inward from hpass]
    dsimp only
    rw [arriveEntry_free (s := { u with presence := brokenBeam (nowOf u) d b x u.presence }) hheld, formHeadcount_presence, takeOne_presence]
    obtain ⟨hn, hoccupancy⟩ := takeEntry_doors (nowOf s) (.pass inward d (nowOf s)) s.presence
      (update1 s.presence.doors d (doorBreak (nowOf s) b))
      (if (decodeBreak (nowOf s) b x.decoder).2.1 then s.presence.halfPasses.succ else s.presence.halfPasses)
    exact ⟨hn, hoccupancy, rfl⟩

theorem takeOut_none {now : Stamp} {p : Presence} (h : p.n = 0) : takeOut now p = correct p := by
  unfold takeOut
  split <;> rw [if_pos h]

theorem takeOut_last {now : Stamp} {p : Presence} (hocc : p.occupancy = .occupied) (hn : p.n = 1) :
    takeOut now p = { p with n := 0, occupancy := .vacating, vacating := some now, pendingVacating := false } := by
  simp [takeOut, hocc, hn]

theorem takeOut_fewer {now : Stamp} {p : Presence} (hn : p.n ≠ 0) (h : ¬(p.occupancy = .occupied ∧ p.n = 1)) :
    takeOut now p = { p with n := p.n - 1 } := by
  unfold takeOut
  split
  next hocc => rw [if_neg hn, if_neg (fun hlast => h ⟨hocc, hlast⟩)]
  · rw [if_neg hn]

/-- The zone and the vacancy timer as a motion entry leaves them. -/
def motionSeen (now at_ : Stamp) (z : Nat) (p : Presence) : Presence :=
  restartVacancy now { p with zones := update1 p.zones z (seeMotion now at_) }

theorem takeMotion_vacating {now at_ : Stamp} {z : Nat} {p : Presence} (h : p.occupancy = .vacating) :
    takeMotion now z at_ p = correct (enterOccupied { motionSeen now at_ z p with n := 1 }) := by
  simp only [takeMotion, restartVacancy, motionSeen, h]

theorem takeMotion_occupied {now at_ : Stamp} {z : Nat} {p : Presence} (h : p.occupancy = .occupied) :
    takeMotion now z at_ p = motionSeen now at_ z p := by
  simp only [takeMotion, restartVacancy, motionSeen, h]

theorem takeMotion_empty {now at_ : Stamp} {z : Nat} {p : Presence} (hoccupied : p.occupancy ≠ .occupied)
    (hvacating : p.occupancy ≠ .vacating) : takeMotion now z at_ p = enterOccupied (motionSeen now at_ z p) := by
  unfold takeMotion
  dsimp only
  split
  next h => exact absurd h hvacating
  next h => exact absurd h hoccupied
  · rfl

/-- Settles O23: the table of R56, entry by entry. -/
theorem entriesMoveOccupancy : Obligations.EntriesMoveOccupancy := by
  refine fun now at_ d z p => ⟨⟨rfl, rfl, rfl, rfl, rfl, rfl⟩, ?_, ?_⟩
  · rw [show takeEntry now (.pass false d at_) p = takeOut now p from rfl]
    by_cases hnone : p.n = 0
    · rw [takeOut_none hnone, if_pos hnone, if_neg (by omega), if_neg (by omega)]
      exact ⟨by rw [hnone]; exact hnone, rfl, rfl, rfl, rfl, rfl⟩
    · by_cases hlast : p.occupancy = .occupied ∧ p.n = 1
      · rw [takeOut_last hlast.1 hlast.2, if_neg hnone, if_pos hlast, if_pos hlast]
        exact ⟨by rw [hlast.2], rfl, rfl, rfl, rfl, rfl⟩
      · rw [takeOut_fewer hnone hlast, if_neg hnone, if_neg hlast, if_neg hlast]
        exact ⟨rfl, rfl, rfl, rfl, rfl, rfl⟩
  · rw [show takeEntry now (.motion z at_) p = takeMotion now z at_ p from rfl]
    by_cases hvacating : p.occupancy = .vacating
    · rw [if_pos hvacating, if_pos hvacating, if_neg (by simp [hvacating]), takeMotion_vacating hvacating]
      exact ⟨rfl, rfl, rfl, rfl, rfl, rfl⟩
    · rw [if_neg hvacating, if_neg hvacating]
      by_cases hoccupied : p.occupancy = .occupied
      · rw [if_pos hoccupied, takeMotion_occupied hoccupied]
        exact ⟨hoccupied, rfl, rfl, rfl, rfl, rfl⟩
      · rw [if_neg hoccupied, takeMotion_empty hoccupied hvacating]
        exact ⟨rfl, rfl, rfl, rfl, rfl, rfl⟩

theorem exec_beamClear_taken {s : State} {d : Nat} {b : Beam} (htakes : takesFields s = true) (hdoor : isDoor d = true)
    (hbroken : beamLevel s.pins d b = true) :
    exec (.beamClear d b) s = .next { s with
      pins := setBeam s.pins d b false
      presence := { s.presence with
        doors := update1 s.presence.doors d (doorClear (nowOf s) b (bothClear (setBeam s.pins d b false) d)) } } := by
  change Host.Outcome.next (beamClears d b s) = _
  unfold beamClears
  rw [if_neg (by simp [hdoor, hbroken])]
  dsimp only
  rw [if_pos htakes]

theorem bothClear_iff (p : Pins) (d : Nat) : bothClear p d = true ↔ beamLevel p d .outer = false ∧ beamLevel p d .inner = false := by
  simp [bothClear]

theorem exec_passLimitExpiry_due {s : State} {d : Nat} {x : Door} {since : Stamp} (hpowered : powered s = true)
    (hx : nth1 s.presence.doors d = some x) (hpending : pendingBreak x.decoder = some since) (hdue : 1500 ≤ elapsed since (nowOf s)) :
    exec (.passLimitExpiry d) s = .next (passLimitRunsOut d s) := by
  have hlimit : passLimitDue d s = true := by simp [passLimitDue, hx, ranOut, hpending, hdue]
  exact congrArg Host.Outcome.next (if_pos (by simp [hpowered, hlimit]))

/-- Settles O24: the door named moves, the others stay. -/
theorem doorTimersMove : Obligations.DoorTimersMove := by
  refine ⟨fun s d b x htakes hdoor hbroken hx => ?_, fun s d x since hpowered hx hpending hdue => ?_⟩
  · refine ⟨_, exec_beamClear_taken htakes hdoor hbroken, rfl, ?_, fun e he => nth1_update1_other _ _ he⟩
    refine (nth1_update1_same _ hx).trans ?_
    simp only [doorClear, bothClear_iff]
  · exact ⟨_, exec_passLimitExpiry_due hpowered hx hpending hdue, rfl, nth1_update1_same _ hx, fun e he => nth1_update1_other _ _ he⟩

theorem exec_doorFaultTimeout_due {s : State} {d : Nat} {b : Beam} {x : Door} {since : Stamp} (hpowered : powered s = true)
    (hx : nth1 s.presence.doors d = some x) (hwell : x.decoder ≠ .fault) (htimer : beamTimer x b = some since)
    (hdue : 60000 ≤ elapsed since (nowOf s)) : exec (.doorFaultTimeout d b) s = .next (endEvent s (doorFails d s)) := by
  have hfault : doorFaultDue d b s = true := by simp [doorFaultDue, hx, ranOut, htimer, hdue, hwell]
  exact congrArg Host.Outcome.next (if_pos (by simp [hpowered, hfault]))

theorem exec_doorRecovery_due {s : State} {d : Nat} {x : Door} {since : Stamp} (hpowered : powered s = true)
    (hx : nth1 s.presence.doors d = some x) (hfault : x.decoder = .fault) (hrecovery : x.recovery = some since)
    (hdue : 10000 ≤ elapsed since (nowOf s)) : exec (.doorRecovery d) s = .next (endEvent s (doorRecovers d s)) := by
  have hrecovers : doorRecoveryDue d s = true := by simp [doorRecoveryDue, hx, ranOut, hrecovery, hdue, hfault]
  exact congrArg Host.Outcome.next (if_pos (by simp [hpowered, hrecovers]))

theorem setDoorFault_raised {d : Nat} (hdoor : isDoor d = true) (f : Faults) :
    setDoorFault d true f = { f with door1 := d == 1 || f.door1, door2 := d == 2 || f.door2 } := by
  have hd : d = 1 ∨ d = 2 := by simpa [isDoor] using hdoor
  rcases hd with rfl | rfl <;> rfl

theorem setDoorFault_cleared {d : Nat} (hdoor : isDoor d = true) (f : Faults) :
    setDoorFault d false f = { f with door1 := d != 1 && f.door1, door2 := d != 2 && f.door2 } := by
  have hd : d = 1 ∨ d = 2 := by simpa [isDoor] using hdoor
  rcases hd with rfl | rfl <;> rfl

/-- A door's new state is handed on with H formed again and nothing else of the Presence Unit (R47, R48). -/
theorem formDoor_parts (b s : State) :
    (endEvent b (formHeadcount (formOccupancy s))).presence = recomputeH s.presence
    ∧ (endEvent b (formHeadcount (formOccupancy s))).faults = s.faults := by
  have hocc := formOccupancy_handedOn s
  have hform := formHeadcount_handedOn (formOccupancy s)
  have hend := endEvent_handedOn b (formHeadcount (formOccupancy s))
  refine ⟨?_, hend.faults.trans (hform.faults.trans hocc.faults)⟩
  rw [hend.presence, hform.presence, hocc.presence]

/-- Settles O25: the door and its fault, then H. -/
theorem doorsFailAndRecover : Obligations.DoorsFailAndRecover := by
  refine ⟨fun s d b x since hpowered hdoor hx hwell htimer hdue => ?_, fun s d x since hpowered hdoor hx hfault hrecovery hdue => ?_⟩
  · have hparts : (endEvent s (doorFails d s)).presence = recomputeH _ ∧ (endEvent s (doorFails d s)).faults = _ := formDoor_parts s _
    have hexec := exec_doorFaultTimeout_due hpowered hx hwell htimer hdue
    obtain ⟨hpresence, hfaults⟩ := hparts
    generalize endEvent s (doorFails d s) = t at hpresence hfaults hexec
    refine ⟨t, _, hexec, (congrArg (fun p : Presence => nth1 p.doors d) hpresence).trans (nth1_update1_same _ hx), rfl, ?_⟩
    rw [hpresence, hfaults, setDoorFault_raised hdoor]
    exact ⟨rfl, rfl, rfl, rfl, rfl, rfl⟩
  · have hparts : (endEvent s (doorRecovers d s)).presence = recomputeH _ ∧ (endEvent s (doorRecovers d s)).faults = _ := formDoor_parts s _
    have hexec := exec_doorRecovery_due hpowered hx hfault hrecovery hdue
    obtain ⟨hpresence, hfaults⟩ := hparts
    generalize endEvent s (doorRecovers d s) = t at hpresence hfaults hexec
    refine ⟨t, hexec, (congrArg (fun p : Presence => nth1 p.doors d) hpresence).trans (nth1_update1_same _ hx), ?_⟩
    rw [hpresence, hfaults, setDoorFault_cleared hdoor]
    exact ⟨rfl, rfl, rfl, rfl, rfl⟩

/-! ### Motion -/

theorem elapsed_self (t : Stamp) : elapsed t t = 0 := by
  unfold elapsed
  rw [Nat.add_sub_cancel_left]

theorem seeMotion_now (now : Stamp) (z : MotionZone) : seeMotion now now z = { seen := some now, counts := true } := by
  simp [seeMotion, elapsed_self]

theorem takeMotion_parts (now at_ : Stamp) (z : Nat) (p : Presence) :
    (takeMotion now z at_ p).zones = update1 p.zones z (seeMotion now at_) ∧ (takeMotion now z at_ p).occupancy = .occupied
    ∧ (takeMotion now z at_ p).vacancy = some now := by
  by_cases hvacating : p.occupancy = .vacating
  · exact takeMotion_vacating hvacating ▸ ⟨rfl, rfl, rfl⟩
  · by_cases hoccupied : p.occupancy = .occupied
    · exact takeMotion_occupied hoccupied ▸ ⟨rfl, hoccupied, rfl⟩
    · exact takeMotion_empty hoccupied hvacating ▸ ⟨rfl, rfl, rfl⟩

theorem exec_motionPulse_taken {s : State} {z : Nat} {x : MotionZone} (htakes : takesFields s = true)
    (hx : nth1 s.presence.zones z = some x) :
    exec (.motionPulse z) s = .next (endEvent s (arriveEntry (.motion z (nowOf s)) s)) :=
  congrArg Host.Outcome.next (if_pos (by simp [htakes, zoneConfigured, hx]))

theorem exec_motionAgeExpiry_due {s : State} {z : Nat} {x : MotionZone} {since : Stamp} (hpowered : powered s = true)
    (hx : nth1 s.presence.zones z = some x) (hcounts : x.counts = true) (hseen : x.seen = some since)
    (hdue : 300000 ≤ elapsed since (nowOf s)) : exec (.motionAgeExpiry z) s = .next (endEvent s (motionAges z s)) :=
  congrArg Host.Outcome.next (if_pos (by simp [hpowered, motionAgeDue, hx, hcounts, hseen, ranOut, hdue]))

theorem motionAges_keepsRest (z : Nat) (s : State) : KeepsRest s (motionAges z s) := by
  refine KeepsRest.trans ?_ (formHeadcount_keepsRest _)
  exact ⟨by constructor <;> rfl, .ofSame rfl rfl rfl rfl rfl⟩

/-- Settles O26: the entry of a pulse, held or taken, and the age of a counting stamp. -/
theorem motionIsSeenAndAges : Obligations.MotionIsSeenAndAges := by
  refine ⟨fun s z x htakes hx => ?_, fun s z x since hpowered hx hcounts hseen hdue => ?_⟩
  · obtain ⟨hdoors, hco2, -, hfaults, hcal, hservice, heeprom, hjournal, hpins, -, -, -⟩ := arriveEntry_keepsFields (.motion z (nowOf s)) s
    have hand := endEvent_handedOn s (arriveEntry (.motion z (nowOf s)) s)
    refine ⟨_, exec_motionPulse_taken htakes hx, fun hheld => ?_, fun hheld => ?_, by rw [hand.presence, hdoors],
      by rw [hand.presence, hco2], hand.faults.trans hfaults, hand.cal.trans hcal, hand.service.trans hservice,
      hand.eeprom.trans heeprom, hand.journal.trans hjournal, hand.pins.trans hpins⟩
    · rw [hand.presence, arriveEntry_held hheld]
      exact ⟨rfl, rfl, rfl⟩
    · obtain ⟨hzones, hoccupancy, hvacancy⟩ := takeMotion_parts (nowOf s) (nowOf s) z s.presence
      rw [hand.presence, arriveEntry_free hheld, formHeadcount_presence, takeOne_presence]
      refine ⟨?_, hoccupancy, hvacancy, rfl⟩
      change nth1 (takeMotion (nowOf s) z (nowOf s) s.presence).zones z = _
      rw [hzones, nth1_update1_same _ hx, seeMotion_now]
  · have hpresence : (endEvent s (motionAges z s)).presence = recomputeH _ := (endEvent_presence _ _).trans (formHeadcount_presence _)
    refine ⟨_, exec_motionAgeExpiry_due hpowered hx hcounts hseen hdue, ?_, ?_, ?_,
      (motionAges_keepsRest z s).trans (endEvent_handedOn _ _).toKeepsRest⟩
    · rw [hpresence]
      exact nth1_update1_same _ hx
    · rw [hpresence]
      rfl
    · rw [hpresence]
      rfl

/-! ### CO2 -/

/-- A change of the CO2 hold is handed on with H formed again, and nothing else of the Presence Unit (R50, R51). -/
theorem formCo2_parts (b s : State) :
    (endEvent b (formHeadcount (settle (formHc s)))).presence = recomputeH s.presence
    ∧ KeepsRest s (endEvent b (formHeadcount (settle (formHc s)))) := by
  have hsettled := (formHc_handedOn s).trans (settle_handedOn _)
  refine ⟨?_, hsettled.toKeepsRest.trans ((formHeadcount_keepsRest _).trans (endEvent_handedOn b _).toKeepsRest)⟩
  rw [endEvent_presence, formHeadcount_presence, hsettled.presence]

theorem exec_co2Sample_taken {s : State} {c : Nat} (htakes : takesFields s = true) (hlow : 300 ≤ c) (hhigh : c ≤ 5000) :
    exec (.co2Sample (some c)) s = .next (endEvent s (co2Arrives c s)) := by
  have hvalid : validCo2 (some c) = some c := if_pos ⟨hlow, hhigh⟩
  change Host.Outcome.next (if !takesFields s then s else match validCo2 (some c) with
    | some c => endEvent s (co2Arrives c s)
    | none => co2Discarded s) = _
  rw [if_neg (by simp [htakes]), hvalid]

theorem exec_co2Sample_discarded {s : State} {ppm : Option Nat} (htakes : takesFields s = true)
    (hbad : ∀ c, ppm = some c → c < 300 ∨ 5000 < c) : exec (.co2Sample ppm) s = .next (co2Discarded s) := by
  have hinvalid : validCo2 ppm = none := by
    unfold validCo2
    split
    next c => rw [if_neg (by have := hbad c rfl; omega)]
    · rfl
  change Host.Outcome.next (if !takesFields s then s else match validCo2 ppm with
    | some c => endEvent s (co2Arrives c s)
    | none => co2Discarded s) = _
  rw [if_neg (by simp [htakes]), hinvalid]

theorem ranOut_of {t : Option Stamp} {since now : Stamp} {len : Nat} (ht : t = some since) (hdue : len ≤ elapsed since now) :
    ranOut t len now = true := by
  subst ht
  exact decide_eq_true hdue

theorem exec_co2HoldExpiry_due {s : State} {since : Stamp} (hpowered : powered s = true) (hhold : s.presence.co2.hold = some since)
    (hdue : 60000 ≤ elapsed since (nowOf s)) : exec .co2HoldExpiry s = .next (endEvent s (co2Lapses s)) :=
  congrArg Host.Outcome.next (if_pos (by rw [hpowered, ranOut_of hhold hdue]; rfl))

/-- Settles O27: the sample and the end of its hold, each with its fault and H. -/
theorem co2IsHeld : Obligations.Co2IsHeld := by
  refine ⟨fun s c htakes hlow hhigh => ?_, fun s ppm htakes hbad => exec_co2Sample_discarded htakes hbad,
    fun s since hpowered hhold hdue => ?_⟩
  · obtain ⟨hpresence, hkeeps⟩ := formCo2_parts s
      { s with presence := takeCo2 (nowOf s) s.cfg.cout s.air.applied c s.presence, faults := { s.faults with co2 := false } }
    have hexec := exec_co2Sample_taken htakes hlow hhigh
    change (endEvent s (co2Arrives c s)).presence = _ at hpresence
    refine ⟨_, hexec, ?_, ?_, ?_, hkeeps.faults, hkeeps.cal, hkeeps.eeprom, hkeeps.service⟩
    all_goals
      rw [hpresence]
      rfl
  · obtain ⟨hpresence, hkeeps⟩ := formCo2_parts s { s with presence := loseCo2 s.presence, faults := { s.faults with co2 := true } }
    have hexec := exec_co2HoldExpiry_due hpowered hhold hdue
    change (endEvent s (co2Lapses s)).presence = _ at hpresence
    refine ⟨_, hexec, ?_, ?_, ?_, hkeeps.faults, hkeeps.cal, hkeeps.eeprom, hkeeps.service⟩
    all_goals
      rw [hpresence]
      rfl

/-! ### The occupancy timers -/

theorem exec_vacancyTimerExpiry_due {s : State} {since : Stamp} (hpowered : powered s = true) (htimer : s.presence.vacancy = some since)
    (hdue : s.cfg.tv * 60000 ≤ elapsed since (nowOf s)) : exec .vacancyTimerExpiry s = .next (endEvent s (vacancyRunsOut s)) :=
  congrArg Host.Outcome.next (if_pos (by rw [hpowered, ranOut_of htimer hdue]; rfl))

theorem exec_vacatingHoldExpiry_due {s : State} {since : Stamp} (hpowered : powered s = true) (htimer : s.presence.vacating = some since)
    (hdue : 120000 ≤ elapsed since (nowOf s)) : exec .vacatingHoldExpiry s = .next (endEvent s (vacatingRunsOut s)) :=
  congrArg Host.Outcome.next (if_pos (by rw [hpowered, ranOut_of htimer hdue]; rfl))

/-- What VACANT leaves of the Presence Unit, with H formed again (R55 to R58, R60). -/
theorem recomputeH_enterVacant (p : Presence) :
    (recomputeH (enterVacant p)).occupancy = .vacant ∧ (recomputeH (enterVacant p)).n = 0 ∧ (recomputeH (enterVacant p)).recount = false
    ∧ (recomputeH (enterVacant p)).h = 0 ∧ (recomputeH (enterVacant p)).vacancy = none ∧ (recomputeH (enterVacant p)).vacating = none
    ∧ (recomputeH (enterVacant p)).corrections = p.corrections := ⟨rfl, rfl, rfl, rfl, rfl, rfl, rfl⟩

/-- A room that is not VACANT becomes so at the end of the vacancy time, with a correction where an OCCUPIED room still counted people. -/
theorem vacancyExpires_eq {p : Presence} (h : p.occupancy ≠ .vacant) :
    vacancyExpires p = enterVacant (if p.occupancy = .occupied ∧ p.n ≠ 0 then correct p else p) := by
  unfold vacancyExpires
  split
  next hocc => rw [if_neg (by simp [hocc])]
  next hocc =>
    by_cases hn : p.n = 0
    · rw [if_pos hn, if_neg (by simp [hn])]
    · rw [if_neg hn, if_pos ⟨hocc, hn⟩]
  next hocc => rw [if_neg (by simp [hocc])]
  next hocc => exact absurd hocc h

theorem vacatingExpires_eq {p : Presence} (h : p.occupancy = .vacating) : vacatingExpires p = enterVacant p := by
  simp only [vacatingExpires, h]

/-- An occupancy timer that runs out is kept pending while the queue is held, and else changes the Presence Unit by `f`. -/
theorem timerRunsOut_parts (b s : State) {f : Presence → Presence} (hf : KeepsDoors s.presence (f s.presence)) :
    (endEvent b (formHeadcount (changePresence f s))).presence = recomputeH (f s.presence)
    ∧ KeepsRest s (endEvent b (formHeadcount (changePresence f s))) := by
  refine ⟨?_, (changePresence_keepsRest f s hf).trans ((formHeadcount_keepsRest _).trans (endEvent_handedOn b _).toKeepsRest)⟩
  rw [endEvent_presence, formHeadcount_presence, changePresence_presence]

/-- Settles O28: each timer, held and not. -/
theorem occupancyTimersExpire : Obligations.OccupancyTimersExpire := by
  refine ⟨fun s since hpowered htimer hdue => ⟨_, exec_vacancyTimerExpiry_due hpowered htimer hdue, ?_⟩,
    fun s since hpowered htimer hdue => ⟨_, exec_vacatingHoldExpiry_due hpowered htimer hdue, ?_⟩⟩
  · cases hheld : s.presence.held with
    | true =>
      have hruns : vacancyRunsOut s = { s with presence := { s.presence with pendingVacancy := true } } := if_pos hheld
      rw [hruns]
      refine ⟨KeepsRest.trans ?_ (endEvent_handedOn s _).toKeepsRest, fun _ => endEvent_presence _ _, fun h => (nomatch h)⟩
      exact ⟨by constructor <;> rfl, .ofSame rfl rfl rfl rfl rfl⟩
    | false =>
      have hruns : vacancyRunsOut s = formHeadcount (changePresence vacancyExpires s) := if_neg (by simp [hheld])
      obtain ⟨hpresence, hkeeps⟩ := timerRunsOut_parts s s (vacancyExpires_keepsDoors s.presence)
      rw [hruns]
      refine ⟨hkeeps, fun h => (nomatch h), fun _ hroom => ?_⟩
      rw [hpresence, vacancyExpires_eq hroom]
      obtain ⟨hocc, hn, hrecount, hh, hvacancy, hvacating, hcorrections⟩ := recomputeH_enterVacant
        (if s.presence.occupancy = .occupied ∧ s.presence.n ≠ 0 then correct s.presence else s.presence)
      refine ⟨hocc, hn, hrecount, hh, hvacancy, hvacating, hcorrections.trans ?_⟩
      exact apply_ite Presence.corrections _ _ _
  · cases hheld : s.presence.held with
    | true =>
      have hruns : vacatingRunsOut s = { s with presence := { s.presence with pendingVacating := true } } := if_pos hheld
      rw [hruns]
      refine ⟨KeepsRest.trans ?_ (endEvent_handedOn s _).toKeepsRest, fun _ => endEvent_presence _ _, fun h => (nomatch h)⟩
      exact ⟨by constructor <;> rfl, .ofSame rfl rfl rfl rfl rfl⟩
    | false =>
      have hruns : vacatingRunsOut s = formHeadcount (changePresence vacatingExpires s) := if_neg (by simp [hheld])
      obtain ⟨hpresence, hkeeps⟩ := timerRunsOut_parts s s (vacatingExpires_keepsDoors s.presence)
      rw [hruns]
      refine ⟨hkeeps, fun h => (nomatch h), fun _ hroom => ?_⟩
      rw [hpresence, vacatingExpires_eq hroom]
      exact recomputeH_enterVacant s.presence

end Sys2Proof.Machine
end

