-- ==== Sys2Proof/Proofs/AirShares.lean ====
section
/-! PROOF. The arithmetic of the Air Share Unit: the grant and its sum over an air group (R80 to R82), the lead's own part and the damper
command (R84, R87), and the pre-conditioning lead (R86). -/

namespace Sys2Proof.Machine

/-! ### The grant within the demand -/

theorem le_clampTo (lo hi n : Nat) : lo ≤ clampTo lo hi n := Nat.le_max_left _ _

theorem clampTo_le {lo hi : Nat} (h : lo ≤ hi) (n : Nat) : clampTo lo hi n ≤ hi := Nat.max_le.mpr ⟨h, Nat.min_le_left _ _⟩

/-- The own record's minimum lies within its demand, and that within the Fmax in use, in every row of R68. -/
theorem demandRow_bounds {s : State} (hmin : fminInUse s ≤ fmaxInUse s) (hset : fsetInUse s ≤ fmaxInUse s) :
    (demandRow s).m ≤ (demandRow s).d ∧ (demandRow s).d ≤ fmaxInUse s := by
  have hoccupied : fminInUse s ≤ occupiedDemand s ∧ occupiedDemand s ≤ fmaxInUse s := ⟨le_clampTo _ _ _, clampTo_le hmin _⟩
  unfold demandRow
  split
  · exact ⟨le_refl _, le_refl _⟩
  · exact ⟨le_refl _, Nat.zero_le _⟩
  · split
    · exact ⟨le_refl _, Nat.zero_le _⟩
    · split
      · exact ⟨le_refl _, Nat.zero_le _⟩
      · split
        · split
          · exact ⟨hmin, le_refl _⟩
          · exact hoccupied
        · split
          · exact ⟨le_refl _, hset⟩
          · exact hoccupied

/-- No case of the share gives more than the own demand (R81). -/
theorem grantByShare_le {noLim : Bool} {cap : Nat} {own : Counted} {peers : List Counted} (h : own.m ≤ own.d) :
    grantByShare noLim cap own peers ≤ own.d := by
  unfold grantByShare
  dsimp only
  split
  · exact le_refl _
  · split
    next hcap =>
      split
      · exact Nat.zero_le _
      · exact (Nat.div_le_of_le_mul (by rw [Nat.mul_comm]; exact Nat.mul_le_mul_right _ hcap)).trans h
    · exact Nat.min_le_left _ _

theorem grantByCases_le {s : State} (hown : s.air.own = demandRow s) (h : (demandRow s).m ≤ (demandRow s).d) :
    grantByCases s (countOwn s.air.own) ≤ s.air.own.d := by
  unfold grantByCases
  split
  next hpurge =>
    have hrow : (demandRow s).d = s.cfg.fmax := by simp [demandRow, hpurge, fmaxInUse, flowGroup, airModeHolds]
    rw [hown, hrow]
  · exact Nat.zero_le _
  · split
    · exact Nat.zero_le _
    · split
      · exact Nat.zero_le _
      · exact grantByShare_le (by rw [hown]; exact h)

/-- Settles O33: the rows of R68 bound the demand, and each case of R81 the grant. -/
theorem grantWithinDemand : Obligations.GrantWithinDemand := by
  intro s hmin hset hown
  obtain ⟨hm, hd⟩ := demandRow_bounds hmin hset
  refine ⟨?_, hown ▸ hd⟩
  unfold grantOf
  split
  · rw [hown]; exact hm
  · split
    · exact le_refl _
    · exact grantByCases_le hown hm

/-! ### The grants of an air group -/

theorem sum_div_le (l : List Nat) (n : Nat) : (l.map (fun x => x / n)).sum ≤ l.sum / n := by
  induction l with
  | nil => exact Nat.zero_le _
  | cons x rest ih =>
    rw [List.map_cons, List.sum_cons, List.sum_cons]
    exact (Nat.add_le_add_left ih _).trans Nat.div_add_div_le_add_div

/-- The shares of R81 over the whole counted set, from the set alone. -/
def shareFrom (cap : Nat) (all : List Counted) (c : Counted) : Nat :=
  if sumDem all ≤ cap then c.d
  else if cap ≤ sumMin all then (if sumMin all = 0 then 0 else c.m * cap / sumMin all)
  else min c.d (c.m + c.w * (c.d - c.m) * (cap - sumMin all) / sumWeighted all)

theorem grantByShare_eq (cap : Nat) (own : Counted) (peers : List Counted) :
    grantByShare false cap own peers = shareFrom cap (own :: peers) own := by
  simp only [grantByShare, shareFrom, Bool.false_or, decide_eq_true_eq]

theorem shareFrom_perm {all all' : List Counted} (h : all.Perm all') (cap : Nat) (c : Counted) :
    shareFrom cap all c = shareFrom cap all' c := by
  have hmin : sumMin all = sumMin all' := (h.map _).sum_eq
  have hdem : sumDem all = sumDem all' := (h.map _).sum_eq
  have hweighted : sumWeighted all = sumWeighted all' := (h.map _).sum_eq
  simp only [shareFrom, hmin, hdem, hweighted]

/-- The shares of a counted set stay together within the capacity (R81). -/
theorem sum_shareFrom_le (cap : Nat) (all : List Counted) : (all.map (shareFrom cap all)).sum ≤ cap := by
  by_cases hdem : sumDem all ≤ cap
  · have hall : all.map (shareFrom cap all) = all.map (fun c => c.d) := List.map_congr_left (fun c _ => if_pos hdem)
    rw [hall]
    exact hdem
  by_cases hmin : cap ≤ sumMin all
  · by_cases hzero : sumMin all = 0
    · have hall : all.map (shareFrom cap all) = all.map (fun _ => 0) :=
        List.map_congr_left (fun c _ => by rw [shareFrom, if_neg hdem, if_pos hmin, if_pos hzero])
      rw [hall]
      simp
    · have hall : all.map (shareFrom cap all) = (all.map (fun c => c.m * cap)).map (fun x => x / sumMin all) := by
        rw [List.map_map]
        exact List.map_congr_left (fun c _ => by simp only [shareFrom, hdem, hmin, hzero, if_true, if_false, Function.comp_apply])
      have hsum : (all.map (fun c => c.m * cap)).sum = sumMin all * cap := List.sum_map_mul_right ..
      rw [hall]
      refine (sum_div_le _ _).trans ?_
      rw [hsum, Nat.mul_div_cancel_left _ (Nat.pos_of_ne_zero hzero)]
  · let extra : Counted → Nat := fun c => c.w * (c.d - c.m) * (cap - sumMin all) / sumWeighted all
    have hle : (all.map (shareFrom cap all)).sum ≤ (all.map (fun c => c.m + extra c)).sum := by
      refine List.sum_le_sum (fun c _ => ?_)
      simp only [shareFrom, hdem, hmin, if_false]
      exact Nat.min_le_right _ _
    have hsplit : (all.map (fun c => c.m + extra c)).sum = sumMin all + (all.map extra).sum := List.sum_map_add
    have hextra : (all.map extra).sum ≤ cap - sumMin all := by
      have hsum : (all.map (fun c => c.w * (c.d - c.m) * (cap - sumMin all))).sum = sumWeighted all * (cap - sumMin all) :=
        List.sum_map_mul_right ..
      have hdiv := sum_div_le (all.map (fun c => c.w * (c.d - c.m) * (cap - sumMin all))) (sumWeighted all)
      rw [List.map_map, hsum] at hdiv
      refine hdiv.trans (Nat.div_le_of_le_mul (le_refl _))
    omega

/-- Settles O34: every station reads the same counted set, so that the sum of the grants is the sum of its shares. -/
theorem grantsFitTheCapacity : Obligations.GrantsFitTheCapacity := by
  intro cap rooms hrooms
  let all : List Counted := rooms.map (fun r => countOwn r.air.own)
  have hgrant : ∀ s ∈ rooms, grantOf s = shareFrom cap all (countOwn s.air.own) := by
    intro s hs
    obtain ⟨hlistening, hstation, hair, hmask, hfollow, hplant, hlimit, hcap, hperm⟩ := hrooms s hs
    rw [← shareFrom_perm hperm, ← grantByShare_eq, ← hcap, ← hlimit]
    simp only [grantOf, hlistening, hstation, grantByCases, hair, hmask, hfollow, hplant, Bool.or_self, Bool.false_eq_true, if_false,
      Bool.not_true]
  have hmap : rooms.map grantOf = all.map (shareFrom cap all) := by
    rw [List.map_map]
    exact List.map_congr_left hgrant
  rw [hmap]
  exact sum_shareFrom_le cap all

/-! ### The own part and the damper command -/

/-- What a lead keeps of the grant beside the follower's share, rounded down, is at most its own part of the flow rounded up. -/
theorem sub_share_le {g own follower : Nat} (hpos : 0 < own + follower) (hg : g ≤ own + follower) :
    g - g * follower / (own + follower) ≤ own ∧ g * follower / (own + follower) ≤ g := by
  have hshare : g * follower / (own + follower) * (own + follower) + g * follower % (own + follower) = g * follower := by
    rw [Nat.mul_comm (g * follower / _)]
    exact Nat.div_add_mod _ _
  have hrest : g * follower % (own + follower) < own + follower := Nat.mod_lt _ hpos
  generalize g * follower / (own + follower) = q at *
  generalize g * follower % (own + follower) = r at *
  constructor
  · by_contra hmore
    have hq : q + own + 1 ≤ g := by omega
    have : (q + own + 1) * follower ≤ g * follower := Nat.mul_le_mul_right _ hq
    nlinarith
  · by_contra hmore
    have hq : g + 1 ≤ q := by omega
    have : (g + 1) * (own + follower) ≤ q * (own + follower) := Nat.mul_le_mul_right _ hq
    nlinarith

theorem damperCommand_nearest {flow fmax : Nat} (hpos : 0 < fmax) :
    damperCommand flow fmax ≤ 1000
    ∧ (flow ≤ fmax → 2 * flow * 1000 < 2 * fmax * damperCommand flow fmax + fmax
        ∧ 2 * fmax * damperCommand flow fmax ≤ 2 * flow * 1000 + fmax) := by
  refine ⟨Nat.min_le_left _ _, fun hflow => ?_⟩
  have hbelow : (2 * flow * 1000 + fmax) / (2 * fmax) ≤ 1000 := by
    rw [← Nat.lt_succ_iff, Nat.div_lt_iff_lt_mul (by omega)]
    omega
  have hcommand : damperCommand flow fmax = (2 * flow * 1000 + fmax) / (2 * fmax) := Nat.min_eq_right hbelow
  rw [hcommand]
  have hsplit := Nat.div_add_mod (2 * flow * 1000 + fmax) (2 * fmax)
  have hrest : (2 * flow * 1000 + fmax) % (2 * fmax) < 2 * fmax := Nat.mod_lt _ (by omega)
  omega

/-- Settles O35: the share rounds down, so the own part fits; the command is the rounded quotient. -/
theorem ownPartFitsTheDamper : Obligations.OwnPartFitsTheDamper := by
  refine ⟨fun s g own hgroup hfmax hpos hgrant hshare ⟨p, hlead⟩ => ?_, fun flow fmax hpos => damperCommand_nearest hpos⟩
  have hpart : s.air.share = some (s.air.g * g.followerFmax / g.fmax) := by rw [hshare, shareOf, hgroup]; rfl
  obtain ⟨hown, hwithin⟩ := sub_share_le (hfmax ▸ hpos) (hfmax ▸ hgrant)
  rw [← hfmax] at hown hwithin
  refine ⟨s.air.g - s.air.g * g.followerFmax / g.fmax, ?_, hown, Nat.sub_add_cancel hwithin⟩
  simp only [damperFlow, hlead, hpart, Option.getD_some]

/-! ### The pre-conditioning lead -/

theorem ceilDiv_le_iff {a b n : Nat} (hb : 0 < b) : ceilDiv a b ≤ n ↔ a ≤ n * b := by
  unfold ceilDiv
  rw [← Nat.lt_succ_iff, Nat.div_lt_iff_lt_mul hb, Nat.succ_mul]
  omega

theorem leadMinutes_le_iff {volume ge n : Nat} (hge : 0 < ge) :
    ceilDiv (ceilDiv (volume * 1500) ge) 60 ≤ n ↔ volume * 1500 ≤ n * 60 * ge := by
  rw [ceilDiv_le_iff (by decide), ceilDiv_le_iff hge]

/-- Settles O36: the lead is the rounded-up time, clamped. -/
theorem leadTimeSuffices : Obligations.LeadTimeSuffices := by
  intro volume ge
  have hzero : leadMinutes volume 0 = 60 := rfl
  have hbounds : 5 ≤ leadMinutes volume ge ∧ leadMinutes volume ge ≤ 60 := by
    unfold leadMinutes
    split
    · exact ⟨by decide, le_refl _⟩
    · exact ⟨le_clampTo _ _ _, clampTo_le (by decide) _⟩
  have hlead (hge : 0 < ge) : leadMinutes volume ge = max 5 (min 60 (ceilDiv (ceilDiv (volume * 1500) ge) 60)) :=
    if_neg (Nat.pos_iff_ne_zero.mp hge)
  refine ⟨hzero, hbounds.1, hbounds.2, fun hge hshort => ?_, fun hge hlong => ?_⟩
  · refine (leadMinutes_le_iff hge).mp ?_
    rw [hlead hge] at hshort ⊢
    omega
  · rw [← not_le, ← leadMinutes_le_iff hge, not_le]
    rw [hlead hge] at hlong ⊢
    omega

end Sys2Proof.Machine
end

