-- ==== Sys2Proof/Proofs/AirCommands.lean ====
section
/-! PROOF. The Air Share Unit's commands: DEMAND and the peer view (R73 to R77), CAPACITY (R78, R79), and the refreshes (R71, R72, R88, R89). -/

namespace Sys2Proof.Machine

/-! ### The peer view -/

theorem find_station {l : List Peer} {n : Nat} : (findPeer n l = none → ∀ x ∈ l, x.station ≠ n)
    ∧ ∀ e, findPeer n l = some e → e ∈ l ∧ e.station = n := by
  refine ⟨fun hnone x hx => ?_, fun e hfound => ⟨List.mem_of_find?_eq_some hfound, ?_⟩⟩
  · simpa using List.find?_eq_none.mp hnone x hx
  · simpa using List.find?_some hfound

theorem mem_insertPeer {p x : Peer} {l : List Peer} : x ∈ insertPeer p l ↔ x ∈ l ∨ x = p := by
  induction l with
  | nil => simp [insertPeer]
  | cons y rest ih =>
    unfold insertPeer
    split
    · rw [List.mem_cons, or_comm]
    · rw [List.mem_cons, ih, List.mem_cons, or_assoc]

/-- An entry of a new station keeps the order (R74). -/
theorem peersAscend_insert {p : Peer} {l : List Peer} (h : peersAscend l) (hnew : ∀ x ∈ l, x.station ≠ p.station) :
    peersAscend (insertPeer p l) := by
  induction l with
  | nil => exact List.pairwise_singleton _ _
  | cons x rest ih =>
    obtain ⟨hx, hrest⟩ := List.pairwise_cons.mp h
    unfold insertPeer
    split
    next hbefore =>
      refine List.pairwise_cons.mpr ⟨fun y hy => ?_, h⟩
      rcases List.mem_cons.mp hy with rfl | hy
      · exact hbefore
      · exact hbefore.trans (hx y hy)
    next hbefore =>
      refine List.pairwise_cons.mpr ⟨fun y hy => ?_, ih hrest (fun y hy => hnew y (List.mem_cons_of_mem _ hy))⟩
      rcases mem_insertPeer.mp hy with hy | rfl
      · exact hx y hy
      · have := hnew x List.mem_cons_self
        omega

/-- A change that keeps the stations keeps the order. -/
theorem peersAscend_map {f : Peer → Peer} {l : List Peer} (h : peersAscend l) (hf : ∀ x ∈ l, (f x).station = x.station) :
    peersAscend (l.map f) := by
  refine List.pairwise_map.mpr (h.imp_of_mem (fun {a b} ha hb hab => ?_))
  rw [hf a ha, hf b hb]
  exact hab

theorem oldestStale_none {now : Stamp} {l : List Peer} : oldestStale now l = none ↔ ∀ x ∈ l, x.stale = false := by
  induction l with
  | nil => simp [oldestStale]
  | cons p rest ih =>
    unfold oldestStale
    split
    next hrest =>
      simp only [ite_eq_right_iff, reduceCtorEq, imp_false, Bool.not_eq_true, List.forall_mem_cons]
      exact ⟨fun h => ⟨h, ih.mp hrest⟩, And.left⟩
    next x hrest =>
      refine ⟨fun h => ?_, fun h => ?_⟩
      · split at h <;> cases h
      · have := ih.mpr (fun y hy => h y (List.mem_cons_of_mem _ hy))
        rw [hrest] at this
        cases this

/-- The displaced entry is STALE, no STALE one is older, and of those as old it is the lowest (R77). -/
theorem oldestStale_some {now : Stamp} {l : List Peer} (h : peersAscend l) {y : Peer} (hy : oldestStale now l = some y) :
    y.stale = true ∧ ∀ x ∈ l, x.stale = true →
      elapsed x.since now < elapsed y.since now ∨ elapsed x.since now = elapsed y.since now ∧ y.station ≤ x.station := by
  induction l generalizing y with
  | nil => cases hy
  | cons p rest ih =>
    obtain ⟨hp, hrest⟩ := List.pairwise_cons.mp h
    unfold oldestStale at hy
    split at hy
    next hnone =>
      split at hy
      next hstale =>
        cases hy
        refine ⟨hstale, fun x hx hxs => ?_⟩
        rcases List.mem_cons.mp hx with rfl | hx
        · exact .inr ⟨rfl, le_refl _⟩
        · rw [oldestStale_none.mp hnone x hx] at hxs
          cases hxs
      · cases hy
    next z hz =>
      obtain ⟨hzs, hzmax⟩ := ih hrest hz
      have hpz := hp z (oldestStale_mem hz)
      split at hy
      next hcase =>
        cases hy
        refine ⟨hcase.1, fun x hx hxs => ?_⟩
        rcases List.mem_cons.mp hx with rfl | hx
        · exact .inr ⟨rfl, le_refl _⟩
        · have hbound := hzmax x hx hxs
          have horder := hp x hx
          omega
      next hcase =>
        cases hy
        refine ⟨hzs, fun x hx hxs => ?_⟩
        rcases List.mem_cons.mp hx with rfl | hx
        · refine .inl ?_
          by_contra hage
          exact hcase ⟨hxs, not_lt.mp hage⟩
        · exact hzmax x hx hxs

/-! ### What a DEMAND does to the view -/

theorem updatePeers_held {now : Stamp} {n : Nat} {c : DemandContent} {q : Nat} {l : List Peer} {e : Peer} (h : findPeer n l = some e) :
    updatePeers now n c q l = some (l.map (fun x => if x.station ≠ n then x
      else if q ≠ 0 ∧ q = e.seq then { e with since := now, stale := false } else freshEntry n c q now)) := by
  obtain ⟨-, hstation⟩ := find_station.2 e h
  have hreplace (p : Peer) (hp : p.station = n) : replacePeer p l = l.map (fun x => if x.station ≠ n then x else p) :=
    List.map_congr_left (fun x _ => by rw [hp, ite_not])
  simp only [updatePeers, h]
  split
  · exact congrArg some (hreplace _ hstation)
  · exact congrArg some (hreplace (peerEntry n c q now) rfl)

theorem updatePeers_room {now : Stamp} {n : Nat} {c : DemandContent} {q : Nat} {l : List Peer} (h : findPeer n l = none)
    (hroom : l.length < 24) : updatePeers now n c q l = some (insertPeer (freshEntry n c q now) l) := by
  simp only [updatePeers, h]
  exact if_pos hroom

theorem updatePeers_full {now : Stamp} {n : Nat} {c : DemandContent} {q : Nat} {l : List Peer} (h : findPeer n l = none)
    (hfull : 24 ≤ l.length) :
    updatePeers now n c q l = (oldestStale now l).map (fun z => insertPeer (freshEntry n c q now) (l.filter (fun p => p.station != z.station))) := by
  simp only [updatePeers, h]
  rw [if_neg (by omega)]
  split
  next z hz => rw [hz]; rfl
  next hz => rw [hz]; rfl

theorem updatePeers_ascend {now : Stamp} {n : Nat} {c : DemandContent} {q : Nat} {l m : List Peer} (h : peersAscend l)
    (hm : updatePeers now n c q l = some m) : peersAscend m := by
  cases hfind : findPeer n l with
  | some e =>
    obtain ⟨-, hstation⟩ := find_station.2 e hfind
    rw [updatePeers_held hfind] at hm
    cases hm
    refine peersAscend_map h (fun x _ => ?_)
    by_cases hx : x.station = n
    · rw [if_neg (by simp [hx]), hx]
      split
      · exact hstation
      · rfl
    · rw [if_pos hx]
  | none =>
    have hnew := find_station.1 hfind
    by_cases hroom : l.length < 24
    · rw [updatePeers_room hfind hroom] at hm
      cases hm
      exact peersAscend_insert h hnew
    · rw [updatePeers_full hfind (by omega)] at hm
      obtain ⟨z, -, rfl⟩ := Option.map_eq_some_iff.mp hm
      exact peersAscend_insert (h.filter _) (fun x hx => hnew x (List.mem_of_mem_filter hx))

/-! ### DEMAND -/

theorem exec_demand_reaches {s : State} {h : RxHeader} {payload : List Byte} (hreaches : Reaches s kDemand h payload) :
    exec (.demand h payload) s = .next (finishTelegram s (takeDemand h payload (heard s))) :=
  congrArg Host.Outcome.next (telegramEvent_reaches hreaches _)

theorem takeDemand_unreadable {s : State} {h : RxHeader} {payload : List Byte} (hgroup : toOwnGroup s h = true)
    (hread : rdDemand payload = none) : takeDemand h payload (heard s) = heardUnusable s := by
  have hgroup' : toOwnGroup (heard s) h = true := hgroup
  simp only [takeDemand, hgroup', hread, Bool.not_true, Bool.false_eq_true, if_false]
  rfl

theorem takeDemand_read {s : State} {h : RxHeader} {payload : List Byte} {c : DemandContent} {q : Nat} (hgroup : toOwnGroup s h = true)
    (hread : rdDemand payload = some (c, q)) : takeDemand h payload (heard s) = admitPeer h.source.toNat c q (heard s) := by
  have hgroup' : toOwnGroup (heard s) h = true := hgroup
  simp only [takeDemand, hgroup', hread, Bool.not_true, Bool.false_eq_true, if_false]

theorem admitPeer_kept {n : Nat} {c : DemandContent} {q : Nat} {s : State} {l : List Peer} (h : updatePeers (nowOf s) n c q s.air.peers = some l) :
    HandedOn { s with air := { s.air with peers := l } } (admitPeer n c q s) := by
  simp only [admitPeer, h]
  exact settle_handedOn _

theorem admitPeer_out {n : Nat} {c : DemandContent} {q : Nat} {s : State} (h : updatePeers (nowOf s) n c q s.air.peers = none) :
    admitPeer n c q s = { s with air := { s.air with overflows := s.air.overflows.succ } } := by
  simp only [admitPeer, h]

/-- The view and the overflow count after a checked DEMAND, by what the view can take. -/
structure DemandTaken (s : State) (m : Option (List Peer)) (t : State) : Prop where
  rest : HandedOn { heard s with air := { s.air with peers := t.air.peers, overflows := t.air.overflows } } t
  kept : ∀ l, m = some l → t.air.peers = l ∧ t.air.overflows = s.air.overflows
  out : m = none → t.air.peers = s.air.peers ∧ t.air.overflows = s.air.overflows + 1

theorem admitPeer_taken (n : Nat) (c : DemandContent) (q : Nat) (s : State) :
    DemandTaken s (updatePeers (nowOf s) n c q s.air.peers) (finishTelegram s (admitPeer n c q (heard s))) := by
  have hend := finishTelegram_handedOn s (admitPeer n c q (heard s))
  cases hm : updatePeers (nowOf s) n c q s.air.peers with
  | some l =>
    have hand := (admitPeer_kept (s := heard s) hm).trans hend
    refine ⟨?_, fun l' hl' => ?_, fun h => (nomatch h)⟩
    · rw [hand.peers, hand.overflows]
      exact hand
    · cases hl'
      exact ⟨hand.peers, hand.overflows⟩
  | none =>
    rw [admitPeer_out (s := heard s) hm] at hend ⊢
    refine ⟨?_, fun l' hl' => (nomatch hl'), fun _ => ⟨hend.peers, hend.overflows⟩⟩
    rw [hend.peers, hend.overflows]
    exact hend

/-- Settles O29: the rows of R74 and R77 by what the view holds. -/
theorem demandsEnterThePeerView : Obligations.DemandsEnterThePeerView := by
  intro s h payload hreaches hgroup hascend
  refine ⟨_, exec_demand_reaches hreaches, ?_⟩
  cases hread : rdDemand payload with
  | none =>
    have hand := finishTelegram_handedOn s (heardUnusable s)
    rw [takeDemand_unreadable hgroup hread, if_pos rfl]
    refine ⟨?_, ?_, fun _ => ⟨hand.peers, hand.overflows⟩, fun _ _ _ hr => (nomatch hr), fun _ _ hr => (nomatch hr),
      fun _ _ hr => (nomatch hr), fun _ _ _ hr => (nomatch hr)⟩
    · rw [hand.peers, hand.overflows]
      exact hand
    · rw [hand.peers]
      exact hascend
  | some content =>
    obtain ⟨c, q⟩ := content
    rw [takeDemand_read hgroup hread, if_neg (by simp)]
    have htaken := admitPeer_taken h.source.toNat c q s
    obtain ⟨hrest, hkept, hout⟩ := htaken
    refine ⟨hrest, ?_, fun hr => (nomatch hr), fun c' q' e hr hfind => ?_, fun c' q' hr hfind hroom => ?_,
      fun c' q' hr hfind hfull hfresh => ?_, fun c' q' z hr hfind hfull hz hstale holdest => ?_⟩
    · cases hm : updatePeers (nowOf s) h.source.toNat c q s.air.peers with
      | some l => rw [(hkept l hm).1]; exact updatePeers_ascend hascend hm
      | none => rw [(hout hm).1]; exact hascend
    · cases hr
      obtain ⟨hpeers, hoverflows⟩ := hkept _ (updatePeers_held hfind)
      exact ⟨hoverflows, hpeers⟩
    · cases hr
      obtain ⟨hpeers, hoverflows⟩ := hkept _ (updatePeers_room hfind hroom)
      exact ⟨hoverflows, fun x => by rw [hpeers, mem_insertPeer]⟩
    · cases hr
      obtain ⟨hpeers, hoverflows⟩ := hout (by rw [updatePeers_full hfind hfull, oldestStale_none.mpr hfresh]; rfl)
      exact ⟨hoverflows, hpeers⟩
    · cases hr
      obtain ⟨y, hy⟩ : ∃ y, oldestStale (nowOf s) s.air.peers = some y := by
        rw [← Option.isSome_iff_exists, Option.isSome_iff_ne_none, Ne, oldestStale_none]
        exact fun hfresh => by rw [hfresh z hz] at hstale; cases hstale
      obtain ⟨hystale, hymax⟩ := oldestStale_some hascend hy
      have hyz : y.station = z.station := by
        have hfrom := holdest y (oldestStale_mem hy) hystale
        have hto := hymax z hz hstale
        omega
      obtain ⟨hpeers, hoverflows⟩ := hkept _ (by rw [updatePeers_full hfind hfull, hy]; rfl)
      refine ⟨hoverflows, fun x => ?_⟩
      rw [hpeers, mem_insertPeer, List.mem_filter, hyz, bne_iff_ne]

/-! ### CAPACITY and the ages -/

theorem rdCapacity_flow {payload : List Byte} {flow : Nat} {running : Bool} (h : rdCapacity payload = some (flow, running)) : flow ≤ 20000 := by
  unfold rdCapacity at h
  split at h
  · split at h
    · cases h; exact Nat.min_le_right _ _
    · split at h
      · cases h; exact Nat.min_le_right _ _
      · cases h
  · cases h

theorem exec_capacity_reaches {s : State} {h : RxHeader} {payload : List Byte} (hreaches : Reaches s kCapacity h payload) :
    exec (.capacity h payload) s = .next (finishTelegram s (takeCapacity h payload (heard s))) :=
  congrArg Host.Outcome.next (telegramEvent_reaches hreaches _)

theorem takeCapacity_read {s : State} {h : RxHeader} {payload : List Byte} {flow : Nat} {running : Bool}
    (hscope : (toOwnGroup s h || toOwnStation s h || toAll h) = true) (hread : rdCapacity payload = some (flow, running)) :
    takeCapacity h payload (heard s) = setCapacity flow running (heard s) := by
  have hscope' : (toOwnGroup (heard s) h || toOwnStation (heard s) h || toAll h) = true := hscope
  simp only [takeCapacity, hscope', hread, if_true]

theorem takeCapacity_unreadable {s : State} {h : RxHeader} {payload : List Byte}
    (hscope : (toOwnGroup s h || toOwnStation s h || toAll h) = true) (hread : rdCapacity payload = none) :
    takeCapacity h payload (heard s) = heardUnusable s := by
  have hscope' : (toOwnGroup (heard s) h || toOwnStation (heard s) h || toAll h) = true := hscope
  simp only [takeCapacity, hscope', hread, if_true]
  rfl

/-- Settles O30: the record set whole, or the telegram unusable. -/
theorem capacityIsTaken : Obligations.CapacityIsTaken := by
  intro s h payload hreaches hscope
  refine ⟨fun flow running hread => ⟨rdCapacity_flow hread, _, exec_capacity_reaches hreaches, ?_⟩,
    fun hread => ⟨_, exec_capacity_reaches hreaches, ?_⟩⟩
  · rw [takeCapacity_read hscope hread]
    refine .trans ?_ (finishTelegram_handedOn _ _)
    exact settle_handedOn _
  · rw [takeCapacity_unreadable hscope hread]
    exact finishTelegram_handedOn _ _

theorem peerAged_of {s : State} {n len : Nat} {fresh : Bool} {p : Peer} (hp : findPeer n s.air.peers = some p)
    (hfresh : fresh = true → p.stale = false) (hage : len ≤ elapsed p.since (nowOf s)) : peerAged n len fresh s = true := by
  simp only [peerAged, hp, Bool.and_eq_true, Bool.or_eq_true, Bool.not_eq_true', decide_eq_true_eq]
  refine ⟨?_, hage⟩
  cases fresh with
  | false => exact .inl rfl
  | true => exact .inr (hfresh rfl)

/-- A new view, handed on at the end of its event. -/
theorem peersChange_handedOn (l : List Peer) (s : State) :
    HandedOn { s with air := { s.air with peers := l } } (endEvent s (settle { s with air := { s.air with peers := l } })) :=
  (settle_handedOn _).trans (endEvent_handedOn _ _)

/-- Settles O31: the entry marked or removed, the record lapsed. -/
theorem peersAndCapacityAge : Obligations.PeersAndCapacityAge := by
  refine ⟨fun s n p hpowered hp hfresh hage => ?_, fun s n p hpowered hp hage => ?_, fun s c hpowered hc hage => ?_⟩
  · have hand := peersChange_handedOn (markStale n s.air.peers) s
    refine ⟨_, congrArg Host.Outcome.next (if_pos (by rw [hpowered, peerAged_of hp (fun _ => hfresh) hage]; rfl)), ?_, hand.peers⟩
    rw [hand.peers]
    exact hand
  · have hand := peersChange_handedOn (removePeer n s.air.peers) s
    refine ⟨_, congrArg Host.Outcome.next (if_pos (by rw [hpowered, peerAged_of (fresh := false) hp (fun hf => (nomatch hf)) hage]; rfl)), ?_, fun x => ?_⟩
    · rw [hand.peers]
      exact hand
    · rw [hand.peers]
      simp [removePeer]
  · have haged : capacityAged s = true := ranOut_of (since := c.since) (by rw [hc]; rfl) hage
    refine ⟨_, congrArg Host.Outcome.next (if_pos (by rw [hpowered, haged]; rfl)), ?_⟩
    exact (settle_handedOn _).trans (endEvent_handedOn _ _)

/-! ### The refreshes -/

theorem demandSeq_eq (last : Option DemandContent) (seq : Nat) (c : DemandContent) :
    demandSeq last seq c = (if last = none then 0 else if last = some c then seq else if 255 ≤ seq then 1 else seq + 1) := by
  cases last with
  | none => rfl
  | some l => simp only [demandSeq, nextSeq, Option.some.injEq, reduceCtorEq, if_false]

theorem damperWrite_cases (s : State) :
    (s.service.air = .purge → damperWrite s (damperModeOf s) = some (1000, s.cfg.fmax))
    ∧ (s.service.air = .smokeHold → damperWrite s (damperModeOf s) = some (0, 0))
    ∧ (s.service.air = .none → s.service.maskAir = true → s.cfg.airIdle = .hold → damperWrite s (damperModeOf s) = none)
    ∧ (∀ v, s.service.air = .none → s.service.maskAir = true → s.cfg.airIdle = .fixed v →
        damperWrite s (damperModeOf s) = some (v, v * s.cfg.fmax / 1000))
    ∧ (s.service.air = .none → s.service.maskAir = false →
        damperWrite s (damperModeOf s) = (damperFlow s).map (fun f => (damperCommand f s.cfg.fmax, f))) := by
  refine ⟨fun h => ?_, fun h => ?_, fun h hmask hidle => ?_, fun v h hmask hidle => ?_, fun h hmask => ?_⟩
  · simp only [damperModeOf, h, damperWrite]
  · simp only [damperModeOf, h, damperWrite]
  · simp only [damperModeOf, h, hmask, hidle, if_true, damperWrite]
  · simp only [damperModeOf, h, hmask, hidle, if_true, damperWrite, idleValue]
  · simp only [damperModeOf, h, hmask, Bool.false_eq_true, if_false, damperWrite]

theorem refreshDamper_writes {s : State} {v f : Nat} (h : damperWrite s (damperModeOf s) = some (v, f)) :
    refreshDamper s = { s.air with output := v, applied := f, rewrite := some (nowOf s) } := by
  simp only [refreshDamper, h]
  rfl

theorem refreshDamper_stays {s : State} (h : damperWrite s (damperModeOf s) = none) :
    refreshDamper s = { s.air with rewrite := some (nowOf s) } := by
  simp only [refreshDamper, h]

theorem refreshDamper_fields (s : State) :
    refreshDamper s = { s.air with output := (refreshDamper s).output, applied := (refreshDamper s).applied, rewrite := some (nowOf s) } := by
  cases h : damperWrite s (damperModeOf s) with
  | none => rw [refreshDamper_stays h]
  | some w => rw [refreshDamper_writes (v := w.1) (f := w.2) h]

/-- Settles O32: the DEMAND composed again, and the output written by the mode that rules it. -/
theorem refreshesRepeat : Obligations.RefreshesRepeat := by
  refine ⟨fun s since hpowered hlistening hstation htimer hdue => ?_, fun s since hpowered htimer hdue => ?_⟩
  · have hspeak : maySpeak s = true := by simp [maySpeak, hlistening, hstation]
    refine ⟨_, congrArg Host.Outcome.next (if_pos (by rw [hpowered, hspeak, ranOut_of htimer hdue]; rfl)), rfl, demandSeq_eq _ _ _, ?_⟩
    rw [← hlistening]
    rfl
  · obtain ⟨hpurge, hsmoke, hhold, hfixed, hnormal⟩ := damperWrite_cases s
    refine ⟨_, congrArg Host.Outcome.next (if_pos (by rw [hpowered, ranOut_of htimer hdue]; rfl)), ?_, fun h => ?_, fun h => ?_,
      fun h hmask hidle => ?_, fun v h hmask hidle => ?_, fun f h hmask hflow => ?_, fun h hmask hflow => ?_⟩
    · exact congrArg (fun a => { s with air := a }) (refreshDamper_fields s)
    · simp only [refreshDamper_writes (hpurge h), and_self]
    · simp only [refreshDamper_writes (hsmoke h), and_self]
    · simp only [refreshDamper_stays (hhold h hmask hidle), and_self]
    · simp only [refreshDamper_writes (hfixed v h hmask hidle), and_self]
    · simp only [refreshDamper_writes ((hnormal h hmask).trans (by rw [hflow]; rfl)), and_self]
    · simp only [refreshDamper_stays ((hnormal h hmask).trans (by rw [hflow]; rfl)), and_self]

end Sys2Proof.Machine
end

