-- ==== Sys2Proof/Proofs/LightUnit.lean ====
section
/-! PROOF. The Light Unit: fades and corrected levels (R104, R105), and the PANEL telegrams (R98 to R101, R125, R126). -/

namespace Sys2Proof.Machine

/-! ### Fades -/

/-- On the way a level has moved from its start by the truncated share of the whole way (R105). -/
theorem fadeLevel_bounds {start target e len : Nat} (he : e < len) :
    min start target ≤ fadeLevel start target e len ∧ fadeLevel start target e len ≤ max start target
    ∧ distance (fadeLevel start target e len) start * len ≤ distance target start * e
    ∧ distance target start * e < (distance (fadeLevel start target e len) start + 1) * len := by
  have hway (way : Nat) : way * e / len ≤ way ∧ way * e / len * len ≤ way * e ∧ way * e < (way * e / len + 1) * len := by
    refine ⟨Nat.div_le_of_le_mul (by rw [Nat.mul_comm]; exact Nat.mul_le_mul_right _ he.le), Nat.div_mul_le_self _ _, ?_⟩
    rw [Nat.add_mul, Nat.one_mul, Nat.mul_comm (_ / _)]
    exact Nat.lt_mul_div_succ _ (by omega)
  unfold fadeLevel
  split
  next hup =>
    obtain ⟨hle, hlow, hhigh⟩ := hway (target - start)
    generalize (target - start) * e / len = q at *
    have htarget : distance target start = target - start := by unfold distance; omega
    have hmoved : distance (start + q) start = q := by unfold distance; omega
    rw [htarget, hmoved]
    exact ⟨by omega, by omega, hlow, hhigh⟩
  next hdown =>
    obtain ⟨hle, hlow, hhigh⟩ := hway (start - target)
    generalize (start - target) * e / len = q at *
    have htarget : distance target start = start - target := by unfold distance; omega
    have hmoved : distance (start - q) start = q := by unfold distance; omega
    rw [htarget, hmoved]
    exact ⟨by omega, by omega, hlow, hhigh⟩

/-! ### Corrected levels -/

/-- The scene level scaled by what daylight leaves of the task illuminance, before the minimum (R104). -/
def scaledLevel (z : ZoneCfg) (level et lu : Nat) : Nat := level * (et - z.k * lu / 16) / et

theorem scaledLevel_le (z : ZoneCfg) (level et lu : Nat) : scaledLevel z level et lu ≤ level := by
  refine Nat.div_le_of_le_mul ?_
  rw [Nat.mul_comm]
  exact Nat.mul_le_mul_right _ (Nat.sub_le _ _)

theorem scaledLevel_anti (z : ZoneCfg) (level et : Nat) {lu lu' : Nat} (h : lu ≤ lu') :
    scaledLevel z level et lu' ≤ scaledLevel z level et lu :=
  Nat.div_le_div_right (Nat.mul_le_mul_left _ (Nat.sub_le_sub_left (Nat.div_le_div_right (Nat.mul_le_mul_left _ h)) _))

theorem correctedLevel_eq (z : ZoneCfg) (level et lu : Nat) :
    correctedLevel z level et lu =
      if scaledLevel z level et lu = 0 ∧ z.dimToOff = true then 0 else max (scaledLevel z level et lu) (min z.minDim level) := by
  change (if 0 < scaledLevel z level et lu ∧ scaledLevel z level et lu < min z.minDim level then min z.minDim level
    else if (scaledLevel z level et lu = 0 ∧ (!z.dimToOff) = true) then min z.minDim level else scaledLevel z level et lu) = _
  generalize scaledLevel z level et lu = t
  cases z.dimToOff with
  | false =>
    simp only [Bool.not_false, Bool.false_eq_true, and_false, and_true, if_false]
    repeat' split
    all_goals omega
  | true =>
    simp only [Bool.not_true, Bool.false_eq_true, and_false, and_true, if_false]
    repeat' split
    all_goals omega

/-- Settles O38: a fade moves by a truncated share, and a corrected level is the scaled one raised to the minimum. -/
theorem levelsStayInBounds : Obligations.LevelsStayInBounds := by
  refine ⟨fun s i z f hpowered hz hf hdue => ?_, fun start target e len he => fadeLevel_bounds he, fun z level et lu lu' het hlevel hlu => ?_⟩
  · have hdone : ((nth1 s.light.zones i).map (fadeDone (nowOf s))).getD false = true := by
      rw [hz]
      simp [fadeDone, hf, hdue]
    exact ⟨_, congrArg Host.Outcome.next (if_pos (by rw [hpowered, hdone]; rfl)), rfl, nth1_update1_same _ hz,
      fun j hj => nth1_update1_other _ _ hj⟩
  · have hanti := scaledLevel_anti z level et hlu
    have hle := scaledLevel_le z level et lu
    rw [correctedLevel_eq, correctedLevel_eq]
    generalize scaledLevel z level et lu = t at *
    generalize scaledLevel z level et lu' = t' at *
    cases z.dimToOff with
    | false =>
      simp only [Bool.false_eq_true, and_false, if_false, false_or]
      omega
    | true =>
      simp only [and_true, true_or, implies_true]
      repeat' split
      all_goals omega

/-! ### PANEL telegrams -/

/-- A PANEL to the station whose content is read as `r`. -/
theorem takePanel_read {h : RxHeader} {payload : List Byte} {s : State} {r : PanelRequest} (hscope : (toOwnStation s h || toAll h) = true)
    (hread : rdPanel s.cfg.zones payload = some r) : takePanel h payload (heard s) = panelTaken r (heard s) := by
  have hread' : rdPanel (heard s).cfg.zones payload = some r := hread
  have hscope' : (toOwnStation (heard s) h || toAll h) = true := hscope
  simp only [takePanel, hread', hscope', if_true]

theorem takePanel_unusable {h : RxHeader} {payload : List Byte} {s : State} (hscope : (toOwnStation s h || toAll h) = true)
    (hread : rdPanel s.cfg.zones payload = none) : takePanel h payload (heard s) = heardUnusable s := by
  have hread' : rdPanel (heard s).cfg.zones payload = none := hread
  have hscope' : (toOwnStation (heard s) h || toAll h) = true := hscope
  simp only [takePanel, hread', hscope', if_true]
  rfl

theorem exec_panelScene_reaches {s : State} {h : RxHeader} {rest : List Byte} (hreaches : Reaches s kPanel h (0x00#8 :: rest)) :
    exec (.panelScene h rest) s = .next (finishTelegram s (takePanel h (0x00#8 :: rest) (heard s))) :=
  congrArg Host.Outcome.next (telegramEvent_reaches hreaches _)

theorem exec_panelLevel_reaches {s : State} {h : RxHeader} {rest : List Byte} (hreaches : Reaches s kPanel h (0x01#8 :: rest)) :
    exec (.panelLevel h rest) s = .next (finishTelegram s (takePanel h (0x01#8 :: rest) (heard s))) :=
  congrArg Host.Outcome.next (telegramEvent_reaches hreaches _)

theorem exec_panelBlind_reaches {s : State} {h : RxHeader} {rest : List Byte} (hreaches : Reaches s kPanel h (0x02#8 :: rest)) :
    exec (.panelBlind h rest) s = .next (finishTelegram s (takePanel h (0x02#8 :: rest) (heard s))) :=
  congrArg Host.Outcome.next (telegramEvent_reaches hreaches _)

theorem exec_panelRelease_reaches {s : State} {h : RxHeader} {rest : List Byte} (hreaches : Reaches s kPanel h (0x03#8 :: rest)) :
    exec (.panelRelease h rest) s = .next (finishTelegram s (takePanel h (0x03#8 :: rest) (heard s))) :=
  congrArg Host.Outcome.next (telegramEvent_reaches hreaches _)

/-- The targets are formed at the end of every settled event, in a listen-in too. -/
theorem settle_targetsFormed (s : State) : targetsFormed (settle s) := selectScene_targetsFormed (airLoop 33 s)

theorem finishTelegram_targetsFormed (before : State) {s : State} (h : targetsFormed s) : targetsFormed (finishTelegram before s) := by
  have hand := finishTelegram_handedOn before s
  unfold targetsFormed
  rw [hand.service, hand.listening, hand.cfg, (finishTelegram_keepsOutputs before s).light]
  exact h

/-! ### SCENE -/

theorem rdPanel_scene (zones : List ZoneCfg) {n : Byte} (h : n.toNat ≤ 7) : rdPanel zones [0x00#8, n] = some (.scene n.toNat) :=
  if_pos ⟨rfl, h⟩

theorem rdPanel_badScene (zones : List ZoneCfg) {rest : List Byte} (h : ∀ n, rest = [n] → 7 < n.toNat) :
    rdPanel zones (0x00#8 :: rest) = none := by
  unfold rdPanel
  split
  next hsub => cases hsub; rfl
  next n hsub =>
    cases hsub
    rw [if_neg (by have := h n rfl; omega)]
  next hsub => cases hsub; rfl
  next hsub => cases hsub; rfl
  · rfl

theorem sessionEndsHold_recorded (g : Option Gov) : sessionEndsHold (recordedSession g) g = false := by
  cases g with
  | none => rfl
  | some x => simp [sessionEndsHold, recordedSession]

/-- With the session settled and a hold that it does not end, the event leaves the hold (R101). -/
theorem settle_hold {s : State} (h : sessionSettled s) (hhold : ∀ x, s.light.hold = some x → sessionEndsHold x.recorded (govRead s) = false) :
    (settle s).light.hold = s.light.hold := by
  obtain ⟨hsummary, horder, hgroup, hfar⟩ := h
  exact (settle_settled ⟨hsummary, horder, hgroup, hfar, hhold⟩).1

theorem panelSceneTaken_alone {n : Nat} {s : State} (h : isFollow s = false) : panelSceneTaken n s = settle (beginSceneHold n s) := by
  have hnone : followRecord s = none := by
    unfold followRecord
    unfold isFollow at h
    split
    next hrole => rw [hrole] at h; cases h
    · rfl
  simp only [panelSceneTaken, hnone]

theorem beginSceneHold_handedOn (n : Nat) (s : State) : HandedOn s (beginSceneHold n s) := .ofLightHold s _

/-- The scene of a panel hold is the room scene of a station that follows none (R94). -/
theorem sceneChosen_panel {t : State} {x : PanelHold} {n : Nat} (h : sceneChosen t) (hfollow : isFollow t = false)
    (hhold : t.light.hold = some x) (hscene : x.scene = some n) : t.light.scene = some n ∧ t.light.source = .panel := by
  have hroom : roomSceneOf t = (some n, .panel) := by
    simp only [roomSceneOf, hfollow, Bool.false_eq_true, if_false, hhold, Option.bind_some, hscene]
  unfold sceneChosen at h
  rw [hroom] at h
  exact Prod.mk.injEq _ _ _ _ ▸ h

/-- The request of a follower's panel: its sequence steps, and nothing else of the event shows but the join telegram that carries it. -/
def panelRequested (n : Nat) (f : Follower) : Follower := { f with request := nextSeq f.request, requestScene := n }

theorem panelSceneTaken_follow {n : Nat} {s : State} {f : Follower} (h : followRecord s = some f) :
    panelSceneTaken n s = { s with join := { s.join with follower := some (panelRequested n f) } } := by
  simp only [panelSceneTaken, h]
  rfl

theorem finishTelegram_requestScene (before after : State) :
    (finishTelegram before after).join.follower.map (fun f => f.requestScene) = after.join.follower.map (fun f => f.requestScene) :=
  endEvent_requestScene before (deferIfWaiting after)

/-- Settles O39: the hold begun and settled, the follower's request, and a content that fails. -/
theorem panelScenesAreTaken : Obligations.PanelScenesAreTaken := by
  refine ⟨fun s h n hreaches hscope hn hfollow => ?_, fun s h n f hreaches hscope hn hf => ?_, fun s h rest hreaches hscope hbad => ?_⟩
  · let x : State := beginSceneHold n.toNat (heard s)
    have htake : takePanel h [0x00#8, n] (heard s) = settle x :=
      (takePanel_read hscope (rdPanel_scene _ hn)).trans (panelSceneTaken_alone (s := heard s) hfollow)
    have houtputs := finishTelegram_keepsOutputs s (settle x)
    have hhand := (settle_handedOn x).trans (finishTelegram_handedOn s _)
    rw [exec_panelScene_reaches hreaches, htake]
    refine ⟨_, rfl, (beginSceneHold_handedOn _ _).trans hhand, finishTelegram_targetsFormed s (settle_targetsFormed x), fun hsettled => ?_⟩
    have hhold : (finishTelegram s (settle x)).light.hold = x.light.hold := by
      rw [houtputs.light]
      refine settle_hold hsettled (fun y hy => ?_)
      cases hy
      exact sessionEndsHold_recorded _
    refine ⟨hhold, fun hlistening => ?_⟩
    have hformed := (settle_outputsFormed (s := x) hlistening).finishTelegram s
    have hrole : isFollow (finishTelegram s (settle x)) = false := by
      rw [Machine.isFollow, roleOf_congr hhand.partitions]
      exact hfollow
    exact sceneChosen_panel hformed.scene hrole hhold rfl
  · let x : State := { heard s with join := { s.join with follower := some (panelRequested n.toNat f) } }
    have htake : takePanel h [0x00#8, n] (heard s) = x :=
      (takePanel_read hscope (rdPanel_scene _ hn)).trans (panelSceneTaken_follow (s := heard s) hf)
    have houtputs := finishTelegram_keepsOutputs s x
    have hhand := finishTelegram_handedOn s x
    have hscene := finishTelegram_requestScene s x
    have hrequest := hhand.joins.request
    rw [exec_panelScene_reaches hreaches, htake]
    obtain ⟨f', hf', hf'scene⟩ := Option.map_eq_some_iff.mp (show _ = some n.toNat from hscene)
    rw [hf'] at hrequest
    have hstepped : f'.request = (if 255 ≤ f.request then 1 else f.request + 1) := Option.some.inj hrequest
    refine ⟨_, f', rfl, hf', hf'scene, hstepped, houtputs.light, houtputs.air, houtputs.tt, houtputs.blind, ?_⟩
    rw [hstepped]
    exact hhand
  · rw [exec_panelScene_reaches hreaches, takePanel_unusable hscope (rdPanel_badScene _ hbad)]
    exact ⟨_, rfl, finishTelegram_handedOn _ _, (finishTelegram_keepsOutputs _ _).light⟩

/-! ### LEVEL -/

/-- The overrides that a LEVEL sets in the order of the zones it addresses. -/
def withOverrides (v : Nat → Nat) (zones : List Nat) (o : List (Option Nat)) : List (Option Nat) :=
  zones.foldl (fun o i => update1 o i (fun _ => some (v i))) o

theorem length_withOverrides (v : Nat → Nat) (zones : List Nat) (o : List (Option Nat)) : (withOverrides v zones o).length = o.length := by
  induction zones generalizing o with
  | nil => rfl
  | cons z rest ih => exact (ih _).trans (length_update1 _ _ _)

theorem nth1_withOverrides_other (v : Nat → Nat) {zones : List Nat} {i : Nat} (h : i ∉ zones) (o : List (Option Nat)) :
    nth1 (withOverrides v zones o) i = nth1 o i := by
  induction zones generalizing o with
  | nil => rfl
  | cons z rest ih =>
    obtain ⟨hz, hrest⟩ : i ≠ z ∧ i ∉ rest := by simpa using h
    exact (ih hrest _).trans (nth1_update1_other _ _ hz)

theorem nth1_withOverrides_mem (v : Nat → Nat) {zones : List Nat} {i : Nat} (h : i ∈ zones) {o : List (Option Nat)} (hi : 1 ≤ i)
    (hlength : i ≤ o.length) : nth1 (withOverrides v zones o) i = some (some (v i)) := by
  induction zones generalizing o with
  | nil => cases h
  | cons z rest ih =>
    change nth1 (withOverrides v rest (update1 o z (fun _ => some (v z)))) i = _
    by_cases hrest : i ∈ rest
    · exact ih hrest (by rwa [length_update1])
    · obtain rfl : i = z := (List.mem_cons.mp h).resolve_right hrest
      have hsome : nth1 o i = some (o[i - 1]'(by omega)) := nth1_eq_some_iff.mpr ⟨by omega, List.getElem?_eq_getElem _⟩
      rw [nth1_withOverrides_other v hrest]
      exact nth1_update1_same _ hsome

/-- The hold in which a LEVEL sets its overrides (R100): the active one, or one that begins. -/
def levelHold (s : State) : PanelHold :=
  s.light.hold.getD { scene := if isFollow s then none else s.light.scene, overrides := noOverrides, recorded := recordedSession (govRead s) }

theorem beginLevelHold_eq (s : State) : beginLevelHold s = { s with light := { s.light with hold := some (levelHold s) } } := by
  unfold beginLevelHold levelHold
  split
  next x hx => rw [hx, Option.getD_some, ← hx]
  next hnone => rw [hnone, Option.getD_none]

theorem levelHold_override (s : State) {i : Nat} (hi : 1 ≤ i) (hi' : i ≤ 6) (hlength : ∀ x, s.light.hold = some x → x.overrides.length = 6) :
    nth1 (levelHold s).overrides i = some (overrideOf s.light i) := by
  unfold levelHold overrideOf
  cases hx : s.light.hold with
  | none =>
    have hnone : ∀ i : Fin 6, nth1 noOverrides (i + 1) = some none := by decide
    have := hnone ⟨i - 1, by omega⟩
    rwa [show i - 1 + 1 = i by omega] at this
  | some x =>
    have hlen := hlength x hx
    have hsome : nth1 x.overrides i = some (x.overrides[i - 1]'(by omega)) := nth1_eq_some_iff.mpr ⟨by omega, List.getElem?_eq_getElem _⟩
    simp only [Option.getD_some, hsome]

/-- A hold that begins holds no override, so that the base of a step is the same before and after. -/
theorem stepBase_beginLevelHold (s : State) (i : Nat) : stepBase (beginLevelHold s) i = stepBase s i := by
  have hoverride : overrideOf { s.light with hold := some (levelHold s) } i = overrideOf s.light i := by
    unfold overrideOf levelHold
    cases s.light.hold with
    | some x => rfl
    | none =>
      change (nth1 noOverrides i).getD none = none
      rw [show noOverrides = List.replicate 6 none from rfl]
      unfold nth1
      split
      · rfl
      · rw [List.getElem?_replicate]
        split <;> rfl
  have hroom (sc : SceneCfg) (z : ZoneCfg) : roomTarget { s.light with hold := some (levelHold s) } sc i z = roomTarget s.light sc i z := by
    unfold roomTarget
    rw [hoverride]
  rw [beginLevelHold_eq]
  unfold stepBase
  simp only [hroom]
  rfl

theorem setOverrides_level (r : PanelRequest) (zones : List Nat) (s : State) :
    setOverrides (beginLevelHold s) r zones =
      { s with light := { s.light with
          hold := some { levelHold s with overrides := withOverrides (newOverride (beginLevelHold s) r) zones (levelHold s).overrides } } } := by
  have hhold : (beginLevelHold s).light.hold = some (levelHold s) := by rw [beginLevelHold_eq]
  simp only [setOverrides, hhold]
  rw [beginLevelHold_eq]
  rfl

theorem panelTaken_level {r : PanelRequest} {a : LevelAddress} (hr : (∃ v, r = .levelAbs a v) ∨ ∃ d, r = .levelStep a d) (s : State) :
    panelTaken r s = panelLevelTaken r a s := by
  rcases hr with ⟨v, rfl⟩ | ⟨d, rfl⟩ <;> rfl

theorem length_levelHold {s : State} (h : ∀ x, s.light.hold = some x → x.overrides.length = 6) : (levelHold s).overrides.length = 6 := by
  unfold levelHold
  cases hx : s.light.hold with
  | none => rfl
  | some x => exact h x hx

theorem levelHold_lasts {s : State} (h : ∀ x, s.light.hold = some x → sessionEndsHold x.recorded (govRead s) = false) :
    sessionEndsHold (levelHold s).recorded (govRead s) = false := by
  unfold levelHold
  cases hx : s.light.hold with
  | none => exact sessionEndsHold_recorded _
  | some x => exact h x hx

/-- Settles O40: the hold in which the overrides are set, and each override by its zone. -/
theorem panelLevelsSetOverrides : Obligations.PanelLevelsSetOverrides := by
  intro s h rest r a hreaches hscope hread hr hlength
  let v : Nat → Nat := newOverride (beginLevelHold (heard s)) r
  let y : PanelHold := { levelHold s with overrides := withOverrides v (addressed s.cfg.zones a) (levelHold s).overrides }
  let x : State := { heard s with light := { s.light with hold := some y } }
  have htake : takePanel h (0x01#8 :: rest) (heard s) = settle x :=
    (takePanel_read hscope hread).trans ((panelTaken_level hr _).trans (congrArg settle (setOverrides_level r _ (heard s))))
  rw [exec_panelLevel_reaches hreaches, htake]
  have hset : HandedOn (heard s) x := .ofLightHold (heard s) (some y)
  refine ⟨_, rfl, hset.trans ((settle_handedOn x).trans (finishTelegram_handedOn s _)),
    finishTelegram_targetsFormed s (settle_targetsFormed x), fun hsettled hlasts => ⟨y, ?_, ?_, fun i hi hi' hmem => ⟨?_, ?_⟩, fun i hi hi' hmem => ?_⟩⟩
  · rw [(finishTelegram_keepsOutputs s (settle x)).light]
    refine settle_hold hsettled (fun z hz => ?_)
    cases hz
    exact levelHold_lasts hlasts
  · exact (length_withOverrides _ _ _).trans (length_levelHold hlength)
  · rintro w rfl
    exact nth1_withOverrides_mem v hmem hi (by rw [length_levelHold hlength]; exact hi')
  · rintro d rfl
    have hvalue : v i = clampLevel ((stepBase s i : Int) + d) := by
      change clampLevel ((stepBase (beginLevelHold (heard s)) i : Int) + d) = _
      rw [stepBase_beginLevelHold]
      rfl
    rw [← hvalue]
    exact nth1_withOverrides_mem v hmem hi (by rw [length_levelHold hlength]; exact hi')
  · exact (nth1_withOverrides_other v hmem _).trans (levelHold_override s hi hi' hlength)

/-! ### The light and the blinds in the air's passes -/

/-- The passes of the air may end the panel hold, and change nothing else of light and blinds. -/
structure HoldMayEnd (s t : State) : Prop where
  light : t.light = s.light ∨ t.light = { s.light with hold := none }
  blind : t.blind = s.blind

theorem HoldMayEnd.refl (s : State) : HoldMayEnd s s := ⟨.inl rfl, rfl⟩

theorem HoldMayEnd.trans {s t u : State} (a : HoldMayEnd s t) (b : HoldMayEnd t u) : HoldMayEnd s u := by
  refine ⟨?_, b.blind.trans a.blind⟩
  rcases b.light with h | h <;> rw [h] <;> rcases a.light with h' | h' <;> rw [h']
  · exact .inl rfl
  · exact .inr rfl
  · exact .inr rfl
  · exact .inr rfl

theorem checkHoldSession_holdMayEnd (s : State) : HoldMayEnd s (checkHoldSession s) := by
  unfold checkHoldSession
  split
  · exact .refl _
  · split
    · exact ⟨.inr rfl, rfl⟩
    · exact .refl _

theorem refreshSession_holdMayEnd (s : State) : HoldMayEnd s (refreshSession s) := by
  obtain ⟨hlight, hblind⟩ := checkHoldSession_holdMayEnd (changeGroup
    (fun g => { g with session := earlierGov (ownGov { s with tt := { s.tt with summary := summarize s.tt.records } }) g.fSession })
    { s with tt := { s.tt with summary := summarize s.tt.records } })
  exact ⟨hlight, hblind⟩

theorem airPass_holdMayEnd (s : State) : HoldMayEnd s (airPass s) := by
  obtain ⟨-, hlight, -, hblind, -⟩ := formDemand_rest (refreshSession s)
  exact (refreshSession_holdMayEnd s).trans ⟨.inl hlight, hblind⟩

theorem ttGrant_holdMayEnd (s : State) : HoldMayEnd s (ttGrant s) := by
  obtain ⟨hlight, hblind, -⟩ := overRecordsAt_outputs onGrant s
  exact ⟨.inl hlight, hblind⟩

theorem airLoop_holdMayEnd (n : Nat) (s : State) : HoldMayEnd s (airLoop n s) := by
  induction n generalizing s with
  | zero => exact refreshSession_holdMayEnd s
  | succ n ih =>
    have hpass := airPass_holdMayEnd s
    have hgrant := hpass.trans (ttGrant_holdMayEnd _)
    unfold airLoop
    dsimp only
    split
    · split
      · exact hgrant
      · exact hgrant.trans (ih _)
    · exact hpass

/-- An event without a panel hold ends without one. -/
theorem settle_noHold {s : State} (h : s.light.hold = none) : (settle s).light.hold = none := by
  change (selectScene (airLoop 33 s)).light.hold = none
  rw [selectScene_hold]
  rcases (airLoop_holdMayEnd 33 s).light with hl | hl <;> rw [hl]
  exact h

theorem selectScene_blind (s : State) : (selectScene s).blind = s.blind := by
  unfold selectScene
  split <;> rfl

theorem settle_blindHolds (s : State) : (settle s).blind.motors.map (fun m => m.hold) = s.blind.motors.map (fun m => m.hold) := by
  have hblind : (selectScene (airLoop 33 s)).blind = s.blind := (selectScene_blind _).trans (airLoop_holdMayEnd 33 s).blind
  rw [← hblind]
  exact formMotors_hold _ _ _ _

/-! ### BLIND and RELEASE -/

theorem rdPanel_blind (zones : List ZoneCfg) (m p1 p0 : Byte) :
    rdPanel zones [0x02#8, m, p1, p0] = some (.blind m.toNat (p1.toNat * 256 + p0.toNat)) := rfl

theorem rdPanel_release (zones : List ZoneCfg) : rdPanel zones [0x03#8] = some .release := rfl

/-- The motors whose hold a PANEL BLIND sets: the one it names, or every one for FFh. -/
def heldMotors (now : Stamp) (motor position : Nat) (l : List Motor) : List Motor :=
  if motor = allMotors then l.map (setHold now position) else update1 l motor (setHold now position)

theorem panelBlindTaken_taken {motor position : Nat} {s : State} (h : motor = 255 ∨ 1 ≤ motor ∧ motor ≤ s.blind.motors.length) :
    panelBlindTaken motor position s =
      formBlinds { s with blind := { s.blind with motors := heldMotors (nowOf s) motor position s.blind.motors } } := by
  unfold panelBlindTaken heldMotors
  by_cases hall : motor = allMotors
  · simp only [hall, if_true]
  · rw [if_neg hall, if_pos (h.resolve_left hall), if_neg hall]

theorem panelBlindTaken_unusable {motor position : Nat} {s : State} (hall : motor ≠ 255) (h : motor = 0 ∨ s.blind.motors.length < motor) :
    panelBlindTaken motor position s = countUnusable s := by
  rw [panelBlindTaken, if_neg (show motor ≠ allMotors from hall), if_neg (by omega)]

theorem nth1_map {α β : Type} (f : α → β) (l : List α) (i : Nat) : nth1 (l.map f) i = (nth1 l i).map f := by
  unfold nth1
  split
  · rfl
  · exact List.getElem?_map

theorem nth1_heldMotors {now : Stamp} {motor position i : Nat} {l : List Motor} {x : Motor} (hx : nth1 l i = some x) :
    nth1 (heldMotors now motor position l) i = some (if motor = 255 ∨ motor = i then setHold now position x else x) := by
  unfold heldMotors
  split
  next hall => rw [if_pos (.inl hall), nth1_map, hx]; rfl
  next hone =>
    by_cases hi : motor = i
    · subst hi
      rw [if_pos (.inr rfl)]
      exact nth1_update1_same _ hx
    · rw [if_neg (fun h => h.elim hone hi), nth1_update1_other _ _ (Ne.symm hi), hx]

/-- A motor of `s` after the motors took their rows: its hold, and its position where that is its row. -/
theorem nth1_formBlinds {s : State} {i : Nat} {x : Motor} (hx : nth1 s.blind.motors i = some x) :
    ∃ y, nth1 (formBlinds s).blind.motors i = some y ∧ y.hold = x.hold
      ∧ ∀ c, nth1 s.cfg.motors i = some c → y = applyRow (nowOf s) c (blindRow s c x) x := by
  obtain ⟨hi, hx'⟩ := nth1_eq_some_iff.mp hx
  have hget := formMotors_get s (fun _ => true) s.cfg.motors s.blind.motors (i - 1)
  rw [hx'] at hget
  refine ⟨_, nth1_eq_some_iff.mpr ⟨hi, hget⟩, ?_, fun c hc => ?_⟩
  · dsimp only
    split
    · exact applyRow_hold _ _ _ _
    · rfl
  · rw [nth1_eq_getElem? hc]
    rfl

/-- With no higher row a panel hold's position is the row of the motor (R119). -/
theorem blindRow_hold {s : State} {c : MotorCfg} {m : Motor} {x : BlindHold} (hevacuate : s.service.evacuate = false)
    (hmask : s.service.maskBlind = false) (hwind : windHolds s.blind c.facade = false) (hlistening : s.listening = false)
    (hhold : m.hold = some x) : blindRow s c m = .position x.position := by
  simp only [blindRow, hevacuate, hmask, hwind, hlistening, Bool.false_eq_true, if_false, positionRow, hhold]

theorem clearedHolds (l : List Motor) : ∀ y ∈ l.map clearHold, y.hold = none := by
  intro y hy
  obtain ⟨x, -, rfl⟩ := List.mem_map.mp hy
  rfl

/-- Settles O41: the holds set, refused and ended. -/
theorem panelHoldsOfBlinds : Obligations.PanelHoldsOfBlinds := by
  refine ⟨fun s h m p1 p0 hreaches hscope hmotor => ?_, fun s h m p1 p0 hreaches hscope hall hmotor => ?_, fun s h hreaches hscope => ?_⟩
  · let x : State :=
      { heard s with blind := { s.blind with motors := heldMotors (nowOf s) m.toNat (p1.toNat * 256 + p0.toNat) s.blind.motors } }
    have htake : takePanel h [0x02#8, m, p1, p0] (heard s) = formBlinds x :=
      (takePanel_read hscope (rdPanel_blind _ m p1 p0)).trans (panelBlindTaken_taken (s := heard s) hmotor)
    rw [exec_panelBlind_reaches hreaches, htake]
    have houtputs := finishTelegram_keepsOutputs s (formBlinds x)
    have hset : HandedOn (heard s) x :=
      ⟨⟨by constructor <;> rfl, .ofSame rfl rfl rfl rfl rfl⟩, rfl, rfl, rfl, rfl, rfl, rfl, rfl, rfl, rfl, rfl⟩
    refine ⟨_, rfl, hset.trans ((formBlinds_handedOn x).trans (finishTelegram_handedOn s _)), houtputs.light, houtputs.air, houtputs.tt,
      fun i z hz => ?_⟩
    obtain ⟨y, hy, hyhold, hyrow⟩ := nth1_formBlinds (s := x) (nth1_heldMotors hz)
    rw [houtputs.blind]
    refine ⟨y, hy, fun hnamed => ?_, fun hall hother => ?_⟩
    · rw [if_pos hnamed] at hyhold hyrow
      refine ⟨hyhold, fun c hc hevacuate hmask hwind hlistening => ?_⟩
      rw [hyrow c hc, blindRow_hold (s := x) hevacuate hmask hwind hlistening rfl]
      exact (takePosition_keeps _ _ _ _).2
    · rw [if_neg (fun h => h.elim hall hother)] at hyhold
      exact hyhold
  · have htake : takePanel h [0x02#8, m, p1, p0] (heard s) = heardUnusable s :=
      (takePanel_read hscope (rdPanel_blind _ m p1 p0)).trans (panelBlindTaken_unusable (s := heard s) hall hmotor)
    rw [exec_panelBlind_reaches hreaches, htake]
    exact ⟨_, rfl, finishTelegram_handedOn _ _, (finishTelegram_keepsOutputs _ _).blind⟩
  · let x : State := endBlindHolds (endLightHold (heard s))
    have htake : takePanel h [0x03#8] (heard s) = settle x := takePanel_read hscope (rdPanel_release _)
    have hset : HandedOn (heard s) x := (endLightHold_handedOn _).trans (endBlindHolds_handedOn _)
    have houtputs := finishTelegram_keepsOutputs s (settle x)
    rw [exec_panelRelease_reaches hreaches, htake]
    refine ⟨_, rfl, hset.trans ((settle_handedOn x).trans (finishTelegram_handedOn s _)),
      finishTelegram_targetsFormed s (settle_targetsFormed x), ?_, ?_⟩
    · rw [houtputs.light]
      exact settle_noHold (s := x) rfl
    · rw [houtputs.blind]
      intro y hy
      have hmem : y.hold ∈ (settle x).blind.motors.map (fun m => m.hold) := List.mem_map_of_mem hy
      rw [settle_blindHolds] at hmem
      obtain ⟨z, hz, hzy⟩ := List.mem_map.mp hmem
      exact hzy.symm.trans (clearedHolds _ z hz)

end Sys2Proof.Machine
end

