-- ==== Sys2Proof/Proofs/BlindUnit.lean ====
section

/-! PROOF. The Blind Unit: the ends of runs and of pauses, the façade records, and the rows that lock and stop a motor (R113 to R126). -/

namespace Sys2Proof.Machine

/-! ### One motor changed -/

/-- A change of a configured motor is a change of that motor alone. -/
theorem changeMotor_becomes {s : State} {n : Nat} {c : MotorCfg} {m : Motor} (f : MotorCfg → Motor → Motor)
    (hc : nth1 s.cfg.motors n = some c) (hm : nth1 s.blind.motors n = some m) : motorBecomes s (changeMotor s n f) n (f c m) := by
  have hchange : changeMotor s n f = { s with blind := { s.blind with motors := update1 s.blind.motors n (f c) } } := by
    simp only [changeMotor, hc]
  rw [hchange]
  refine ⟨rfl, ?_, fun j hj => ?_⟩
  · exact nth1_update1_same _ hm
  · exact nth1_update1_other _ _ hj

theorem motorIs_of {s : State} {n : Nat} {m : Motor} {test : Motor → Bool} (hm : nth1 s.blind.motors n = some m) (h : test m = true) :
    motorIs s n test = true := by
  simp only [motorIs, hm, h]

theorem runDone_of {now : Stamp} {m : Motor} {r : Run} (hr : m.run = some r) (hdue : r.len ≤ elapsed r.since now) :
    runDone now m = true := by
  simp only [runDone, hr, hdue, decide_true]

theorem exec_runComplete_due {s : State} {n : Nat} {m : Motor} (hpowered : powered s = true) (hm : nth1 s.blind.motors n = some m)
    (hdone : moveDone (nowOf s) m = true) : exec (.runComplete n) s = .next (changeMotor s n (fun _ => completeRun (nowOf s))) :=
  congrArg Host.Outcome.next (if_pos (by rw [hpowered, motorIs_of hm hdone]; rfl))

theorem exec_referencingComplete_due {s : State} {n : Nat} {m : Motor} (hpowered : powered s = true)
    (hm : nth1 s.blind.motors n = some m) (hstate : m.state = .referencing) (hdone : runDone (nowOf s) m = true) :
    exec (.referencingComplete n) s = .next (changeMotor s n (completeReferencing (nowOf s))) :=
  congrArg Host.Outcome.next (if_pos (by rw [hpowered, motorIs_of hm (by rw [hstate, hdone]; rfl)]; rfl))

theorem exec_lockedRunComplete_due {s : State} {n : Nat} {m : Motor} (hpowered : powered s = true)
    (hm : nth1 s.blind.motors n = some m) (hstate : m.state = .locked) (hdone : runDone (nowOf s) m = true) :
    exec (.lockedRunComplete n) s = .next (changeMotor s n (fun _ => completeLocked (nowOf s))) :=
  congrArg Host.Outcome.next (if_pos (by rw [hpowered, motorIs_of hm (by rw [hstate, hdone]; rfl)]; rfl))

theorem exec_pauseEnd_due {s : State} {n : Nat} {m : Motor} (hpowered : powered s = true) (hm : nth1 s.blind.motors n = some m)
    (hstate : m.state = .pause) (hstopped : stoppedLately (nowOf s) m = false) :
    exec (.pauseEnd n) s = .next (changeMotor s n (endPause (nowOf s))) :=
  congrArg Host.Outcome.next (if_pos (by
    rw [hpowered, motorIs_of hm (show pauseDone (nowOf s) m = true by unfold pauseDone; rw [hstate, hstopped]; rfl)]; rfl))

/-! ### Starting a move (R115 to R118) -/

/-- No run is owed a PAUSE once 500 ms have passed since the last stop (R116). -/
theorem reversalOwed_rested {now : Stamp} {m : Motor} (h : stoppedLately now m = false) (d : Dir) : reversalOwed now d m = false := by
  unfold reversalOwed
  split
  · rfl
  · rw [h, Bool.and_false]

theorem startMove_near {now : Stamp} {c : MotorCfg} {t : Nat} {m : Motor} (h : isNear t m.estimate = true) :
    startMove now c t m = { m with state := .idle, pending := none } := if_pos h

theorem startMove_referencing {now : Stamp} {c : MotorCfg} {t : Nat} {m : Motor} (hnear : isNear t m.estimate = false)
    (hdue : referencingDue t m = true) (hrested : stoppedLately now m = false) :
    startMove now c t m = { m with state := .referencing, pending := if t = 0 then none else some t,
                                   run := some (referencingRun now c m.estimate) } := by
  simp only [startMove, hnear, hdue, reversalOwed_rested hrested, Bool.false_eq_true, if_true, if_false]

theorem startMove_moves {now : Stamp} {c : MotorCfg} {p t : Nat} {m : Motor} (hestimate : m.estimate = some p)
    (hnear : isNear t (some p) = false) (hdue : referencingDue t m = false) (hrested : stoppedLately now m = false) :
    startMove now c t m = { m with state := if dirTo p t = .up then .movingUp else .movingDown, pending := none,
                                   run := some (runTo now c (dirTo p t) p t) } := by
  simp only [startMove, hestimate, hnear, hdue, reversalOwed_rested hrested, Bool.false_eq_true, if_false, Option.getD_some]

theorem startMove_waits {now : Stamp} {c : MotorCfg} {p t : Nat} {m : Motor} (hestimate : m.estimate = some p)
    (hnear : isNear t (some p) = false) (hdue : referencingDue t m = false) (howed : reversalOwed now (dirTo p t) m = true) :
    startMove now c t m = { m with state := .pause, pending := some t } := by
  simp only [startMove, hestimate, hnear, hdue, howed, Bool.false_eq_true, if_false, if_true, Option.getD_some]

theorem startMove_estimate (now : Stamp) (c : MotorCfg) (t : Nat) (m : Motor) : (startMove now c t m).estimate = m.estimate := by
  unfold startMove
  split
  · rfl
  · split
    · split <;> rfl
    · dsimp only
      split <;> rfl

/-! ### The ends of runs -/

theorem completeRun_some {now : Stamp} {m : Motor} {r : Run} (hr : m.run = some r) :
    completeRun now m = { m with state := .idle, estimate := some r.target, run := none, lastDir := some r.dir,
                                 lastStop := some now, count := if r.kind = .normal then m.count + 1 else 0 } := by
  unfold completeRun
  rw [hr]
  rfl

/-- A motor whose referencing run has just completed: at rest at 0, its last run up and ending now (R118). -/
def referenced (now : Stamp) (m : Motor) : Motor :=
  { m with state := .idle, estimate := some 0, run := none, lastDir := some .up, lastStop := some now, count := 0, pending := none }

theorem completeReferencing_rests {now : Stamp} (c : MotorCfg) {m : Motor} (h : m.pending = none) :
    completeReferencing now c m = referenced now m := by
  simp only [completeReferencing, h, referenced]

theorem completeReferencing_starts {now : Stamp} (c : MotorCfg) {m : Motor} {p : Nat} (h : m.pending = some p) :
    completeReferencing now c m = startMove now c p (referenced now m) := by
  simp only [completeReferencing, h, referenced]

theorem isNear_zero {p : Nat} (hlow : 1 ≤ p) (hhigh : p ≤ 20) : isNear p (some 0) = true := by
  simp only [isNear, Bool.and_eq_true, bne_iff_ne, decide_eq_true_eq]
  omega

theorem not_isNear_zero {p : Nat} (h : 20 < p) : isNear p (some 0) = false := by
  have hfar : ¬ (p - 0) + (0 - p) ≤ 20 := by omega
  simp only [isNear, hfar, decide_false, Bool.and_false]

/-- A move away from 0 right after a referencing run is owed a PAUSE (R116): the run went up and has stopped now. -/
theorem reversalOwed_referenced {now : Stamp} {m : Motor} {p : Nat} (h : 20 < p) :
    reversalOwed now (dirTo 0 p) (referenced now m) = true := by
  have hdir : dirTo 0 p = .down := by
    unfold dirTo
    split
    · rfl
    · rw [if_neg (by omega), if_pos (by omega)]
  have hlately : stoppedLately now (referenced now m) = true := by
    simp [stoppedLately, referenced, elapsed_self]
  have hlast : (referenced now m).lastDir = some .up := rfl
  simp only [reversalOwed, hdir, hlast, hlately, Bool.and_true]
  rfl

theorem referencingDue_referenced (now : Stamp) (m : Motor) (p : Nat) : referencingDue p (referenced now m) = false := by
  simp [referencingDue, referenced]

/-- The waiting target of a referencing run that completes: near, it is taken as reached; else it waits in PAUSE (R115, R118). -/
theorem startMove_referenced (now : Stamp) (c : MotorCfg) (m : Motor) {p : Nat} (hp : p ≠ 0) :
    startMove now c p (referenced now m) =
      if p ≤ 20 then referenced now m else { referenced now m with state := .pause, pending := some p } := by
  split
  · rename_i h
    exact startMove_near (isNear_zero (Nat.one_le_iff_ne_zero.mpr hp) h)
  · rename_i h
    have hfar : 20 < p := Nat.lt_of_not_le h
    exact startMove_waits rfl (not_isNear_zero hfar) (referencingDue_referenced now m p) (reversalOwed_referenced hfar)

/-- Settles O42: each completion is one change of its motor. -/
theorem motorRunsEnd : Obligations.MotorRunsEnd := by
  refine ⟨fun s n c m r hpowered hc hm hstate hrun hdue => ?_, fun s n c m r hpowered hc hm hstate hrun hdue hnonzero => ?_,
    fun s n c m r hpowered hc hm hstate hrun hdue => ?_⟩
  · have hmoving : (m.state == .movingUp || m.state == .movingDown) = true := by
      rcases hstate with h | h <;> rw [h] <;> rfl
    refine ⟨_, exec_runComplete_due hpowered hm (by unfold moveDone; rw [hmoving, runDone_of hrun hdue]; rfl), ?_⟩
    have hbecomes := changeMotor_becomes (fun _ => completeRun (nowOf s)) hc hm
    rw [completeRun_some hrun] at hbecomes
    exact hbecomes
  · refine ⟨_, _, exec_referencingComplete_due hpowered hm hstate (runDone_of hrun hdue), changeMotor_becomes _ hc hm, ?_⟩
    cases hpending : m.pending with
    | none =>
      rw [completeReferencing_rests c hpending]
      exact ⟨rfl, fun _ => ⟨rfl, rfl⟩, nofun, nofun⟩
    | some p =>
      have hp : p ≠ 0 := fun h => hnonzero (by rw [hpending, h])
      rw [completeReferencing_starts c hpending, startMove_referenced _ c m hp]
      split
      · rename_i hnear
        refine ⟨rfl, nofun, fun _ _ _ _ => ⟨rfl, rfl⟩, fun q hq hfar => ?_⟩
        cases hq
        omega
      · rename_i hnear
        refine ⟨rfl, nofun, fun q hq _ hle => ?_, fun q hq _ => ?_⟩
        · cases hq
          exact absurd hle hnear
        · cases hq
          exact ⟨rfl, rfl⟩
  · exact ⟨_, exec_lockedRunComplete_due hpowered hm hstate (runDone_of hrun hdue),
      changeMotor_becomes (fun _ => completeLocked (nowOf s)) hc hm⟩

/-! ### The end of a PAUSE -/

theorem endPause_locked (now : Stamp) (c : MotorCfg) {m : Motor} (h : m.lockPending = true) :
    endPause now c m = startLockedRun now c m := if_pos h

theorem endPause_pending (now : Stamp) (c : MotorCfg) {m : Motor} {q : Nat} (hlock : m.lockPending = false) (h : m.pending = some q) :
    endPause now c m = startMove now c q { m with pending := none } := by
  simp only [endPause, hlock, h, Bool.false_eq_true, if_false]

/-- What the end of a PAUSE never moves. -/
theorem endPause_keeps (now : Stamp) (c : MotorCfg) (m : Motor) :
    (endPause now c m).estimate = m.estimate ∧ (endPause now c m).hold = m.hold ∧ (endPause now c m).inForce = m.inForce := by
  unfold endPause
  split
  · exact ⟨rfl, rfl, rfl⟩
  · split
    · exact ⟨rfl, rfl, rfl⟩
    · obtain ⟨hhold, hinForce⟩ := startMove_keeps now c ‹Nat› { m with pending := none }
      exact ⟨startMove_estimate _ _ _ _, hhold, hinForce⟩

/-- The locked run goes up from now, from a known estimate or to find one (R123). -/
theorem startLockedRun_up (now : Stamp) (c : MotorCfg) (m : Motor) :
    ∃ r, (startLockedRun now c m).run = some r ∧ r.dir = .up ∧ r.since = now := by
  unfold startLockedRun
  dsimp only
  split <;> exact ⟨_, rfl, rfl, rfl⟩

theorem not_stoppedLately {now : Stamp} {m : Motor} (h : ∀ u, m.lastStop = some u → 500 ≤ elapsed u now) : stoppedLately now m = false := by
  unfold stoppedLately
  split
  · rfl
  · rename_i u hu
    exact decide_eq_false (Nat.not_lt.mpr (h u hu))

theorem exec_blindHoldExpiry_due {s : State} {n : Nat} {m : Motor} {x : BlindHold} (hpowered : powered s = true)
    (hm : nth1 s.blind.motors n = some m) (hx : m.hold = some x) (hdue : 1800000 ≤ elapsed x.since (nowOf s)) :
    exec (.blindHoldExpiry n) s
      = .next (formBlinds { s with blind := { s.blind with motors := update1 s.blind.motors n clearHold } }) :=
  congrArg Host.Outcome.next (if_pos (by
    rw [hpowered, motorIs_of hm (ranOut_of (by rw [hx]; rfl) hdue)]; rfl))

/-- Settles O43: the run that a PAUSE ends with, and the one hold that lapses. -/
theorem pausesAndHoldsEnd : Obligations.PausesAndHoldsEnd := by
  refine ⟨fun s n c m hpowered hc hm hstate hold => ?_, fun s n m x hpowered hm hx hdue => ?_⟩
  · have hrested : stoppedLately (nowOf s) m = false := not_stoppedLately hold
    obtain ⟨hestimate, hhold, hinForce⟩ := endPause_keeps (nowOf s) c m
    refine ⟨_, _, exec_pauseEnd_due hpowered hm hstate hrested, changeMotor_becomes _ hc hm, hestimate, hhold, hinForce,
      fun hlock => ?_, fun p q hlock hpending hp hcount hfar => ?_, fun q hlock hpending hnear => ?_,
      fun p q hlock hpending hp hcount hq0 hq1000 hfar => ?_, fun q hlock hpending hp => ?_⟩
    · rw [endPause_locked _ c hlock]
      exact ⟨rfl, rfl, startLockedRun_up _ c m⟩
    · have hdue : referencingDue q { m with pending := none } = false := by
        simp [referencingDue, hp, hcount]
      rw [endPause_pending _ c hlock hpending, startMove_moves (m := { m with pending := none }) hp hfar hdue hrested]
      exact ⟨rfl, rfl, rfl⟩
    · rw [endPause_pending _ c hlock hpending, startMove_near (m := { m with pending := none }) hnear]
      exact ⟨rfl, rfl, rfl⟩
    · have hdue : referencingDue q { m with pending := none } = true := by
        simp [referencingDue, hp, hcount, hq0, hq1000]
      rw [endPause_pending _ c hlock hpending, startMove_referencing (m := { m with pending := none }) (by rw [← hfar, ← hp]) hdue hrested, hp]
      exact ⟨rfl, if_neg hq0, rfl⟩
    · have hdue : referencingDue q { m with pending := none } = true := by
        simp [referencingDue, hp]
      have hfar : isNear q m.estimate = false := by rw [hp]; rfl
      rw [endPause_pending _ c hlock hpending, startMove_referencing (m := { m with pending := none }) hfar hdue hrested, hp]
      exact ⟨rfl, rfl⟩
  · refine ⟨_, exec_blindHoldExpiry_due hpowered hm hx hdue, rfl, ?_, fun j a hj ha => ?_⟩
    · obtain ⟨y, hy, hyhold, -⟩ := nth1_formBlinds
        (s := { s with blind := { s.blind with motors := update1 s.blind.motors n clearHold } }) (nth1_update1_same _ hm)
      exact ⟨y, hy, hyhold⟩
    · obtain ⟨y, hy, hyhold, -⟩ := nth1_formBlinds
        (s := { s with blind := { s.blind with motors := update1 s.blind.motors n clearHold } })
        ((nth1_update1_other _ clearHold hj).trans ha)
      exact ⟨y, hy, hyhold⟩

/-! ### Sun and wind -/

/-- A façade record after a SUN or WIND: changed where the telegram names it. -/
def takenFacade (h : RxHeader) (f : Facade → Facade) (x : Facade) : Facade :=
  if toAll h = true ∨ x.number = h.dest.toNat then f x else x

theorem takenFacade_named {h : RxHeader} {f : Facade → Facade} {x : Facade} (hx : facadeNamed h x) : takenFacade h f x = f x := if_pos hx

theorem takenFacade_other {h : RxHeader} {f : Facade → Facade} {x : Facade} (hx : ¬ facadeNamed h x) : takenFacade h f x = x := if_neg hx

theorem facadesTaken_handedOn (h : RxHeader) (f : Facade → Facade) (s : State) :
    HandedOn { s with blind := { s.blind with facades := s.blind.facades.map (takenFacade h f) } } (facadesTaken h f s) := by
  unfold facadesTaken
  split
  · rename_i hall
    have hmap : takenFacade h f = f := funext (fun x => takenFacade_named (.inl hall))
    rw [hmap]
    exact formBlinds_handedOn _
  · rename_i hall
    have hmap : takenFacade h f = fun x => if x.number = h.dest.toNat then f x else x := by
      funext x
      simp only [takenFacade, hall, false_or, Bool.false_eq_true]
    rw [hmap]
    exact formFacade_handedOn h.dest.toNat
      { s with blind := { s.blind with facades := s.blind.facades.map (fun x => if x.number = h.dest.toNat then f x else x) } }

theorem exec_sun_reaches {s : State} {h : RxHeader} {payload : List Byte} (hreaches : Reaches s kSun h payload) :
    exec (.sun h payload) s = .next (finishTelegram s (takeSunTelegram h payload (heard s))) :=
  congrArg Host.Outcome.next (telegramEvent_reaches hreaches _)

theorem exec_wind_reaches {s : State} {h : RxHeader} {payload : List Byte} (hreaches : Reaches s kWind h payload) :
    exec (.wind h payload) s = .next (finishTelegram s (takeWindTelegram h payload (heard s))) :=
  congrArg Host.Outcome.next (telegramEvent_reaches hreaches _)

/-- What a SUN or WIND whose content passes does: the façades named are changed, and what follows is handed on. -/
theorem facadesTaken_ends (h : RxHeader) (f : Facade → Facade) (s : State) :
    HandedOn { heard s with blind := { s.blind with facades := (finishTelegram s (facadesTaken h f (heard s))).blind.facades } }
      (finishTelegram s (facadesTaken h f (heard s)))
    ∧ (finishTelegram s (facadesTaken h f (heard s))).blind.facades = s.blind.facades.map (takenFacade h f) := by
  have hall := (facadesTaken_handedOn h f (heard s)).trans (finishTelegram_handedOn s _)
  have hfacades : (finishTelegram s (facadesTaken h f (heard s))).blind.facades = s.blind.facades.map (takenFacade h f) := hall.facades
  rw [hfacades]
  exact ⟨hall, rfl⟩

theorem getElem?_takenFacade {h : RxHeader} {f : Facade → Facade} {l m : List Facade} (hm : m = l.map (takenFacade h f)) {i : Nat}
    {x : Facade} (hx : l[i]? = some x) : m[i]? = some (takenFacade h f x) := by
  rw [hm, List.getElem?_map, hx]
  rfl

/-- A lock moves to ON at any ON, to HOLDING at an OFF from ON, and by another OFF not at all (R123). -/
theorem takeWind_rows (now : Stamp) (w : WindLock) :
    takeWind now true w = .on ∧ (w = .on → takeWind now false w = .holding now) ∧ (w ≠ .on → takeWind now false w = w) := by
  cases w with
  | clear => exact ⟨rfl, nofun, fun _ => rfl⟩
  | on => exact ⟨rfl, fun _ => rfl, fun h => absurd rfl h⟩
  | holding t => exact ⟨rfl, nofun, fun _ => rfl⟩

theorem exec_sunAgeExpiry_due {s : State} {n : Nat} {f : Facade} {since : Stamp} (hpowered : powered s = true)
    (hf : facadeOf s.blind n = some f) (hsince : f.sunSince = some since) (hdue : 900000 ≤ elapsed since (nowOf s)) :
    exec (.sunAgeExpiry n) s = .next (formFacade n { s with blind := changeFacade n loseSun s.blind }) :=
  congrArg Host.Outcome.next (if_pos (by
    rw [hpowered, show sunAged n s = true by simp only [sunAged, hf]; exact ranOut_of hsince hdue]; rfl))

theorem exec_windHoldingExpiry_due {s : State} {n : Nat} {f : Facade} {since : Stamp} (hpowered : powered s = true)
    (hf : facadeOf s.blind n = some f) (hwind : f.wind = .holding since) (hdue : 600000 ≤ elapsed since (nowOf s)) :
    exec (.windHoldingExpiry n) s
      = .next (formFacade n { s with blind := changeFacade n (fun f => { f with wind := .clear }) s.blind }) :=
  congrArg Host.Outcome.next (if_pos (by
    rw [hpowered, show windHoldingDone n s = true by
      simp only [windHoldingDone, hf]; exact ranOut_of (by rw [hwind]; rfl) hdue]; rfl))

/-- Settles O44: the records a SUN or WIND names, and their ends. -/
theorem sunAndWindAreRecorded : Obligations.SunAndWindAreRecorded := by
  refine ⟨fun s h payload hreaches hscope => ?_, fun s h payload hreaches hscope => ?_,
    fun s n f since hpowered hf hsince hdue => ⟨_, exec_sunAgeExpiry_due hpowered hf hsince hdue, rfl, rfl⟩,
    fun s n f since hpowered hf hwind hdue => ⟨_, exec_windHoldingExpiry_due hpowered hf hwind hdue, rfl, rfl⟩⟩
  · refine ⟨_, exec_sun_reaches hreaches, fun hbad => ?_, fun l hl => ?_⟩
    · have htake : takeSunTelegram h payload (heard s) = heardUnusable s := by
        simp only [takeSunTelegram, hscope, hbad, if_true]
        rfl
      rw [htake]
      exact ⟨finishTelegram_handedOn _ _, (finishTelegram_keepsOutputs _ _).blind⟩
    · have htake : takeSunTelegram h payload (heard s) = facadesTaken h (takeSun (nowOf s) l) (heard s) := by
        simp only [takeSunTelegram, hscope, hl, if_true]
        rfl
      rw [htake]
      obtain ⟨hhanded, hfacades⟩ := facadesTaken_ends h (takeSun (nowOf s) l) s
      refine ⟨hhanded, by rw [hfacades, List.length_map], fun i f hf => ⟨_, getElem?_takenFacade hfacades hf, ?_, ?_⟩⟩
      · exact fun hnamed => takenFacade_named hnamed
      · exact fun hother => takenFacade_other hother
  · refine ⟨_, exec_wind_reaches hreaches, fun hbad => ?_, fun on hon => ?_⟩
    · have htake : takeWindTelegram h payload (heard s) = heardUnusable s := by
        simp only [takeWindTelegram, hscope, hbad, if_true]
        rfl
      rw [htake]
      exact ⟨finishTelegram_handedOn _ _, (finishTelegram_keepsOutputs _ _).blind⟩
    · have htake : takeWindTelegram h payload (heard s)
          = facadesTaken h (fun f => { f with wind := takeWind (nowOf s) on f.wind }) (heard s) := by
        simp only [takeWindTelegram, hscope, hon, if_true]
        rfl
      rw [htake]
      obtain ⟨hhanded, hfacades⟩ := facadesTaken_ends h (fun f => { f with wind := takeWind (nowOf s) on f.wind }) s
      refine ⟨hhanded, by rw [hfacades, List.length_map], fun i f hf => ⟨_, getElem?_takenFacade hfacades hf, ?_⟩⟩
      obtain ⟨hanyOn, hfirstOff, hfurtherOff⟩ := takeWind_rows (nowOf s) f.wind
      by_cases hnamed : facadeNamed h f
      · rw [takenFacade_named hnamed]
        refine ⟨rfl, fun hother => absurd hnamed hother, fun _ ht => ?_, fun _ ht hw => ?_, fun _ ht hw => ?_⟩ <;> subst ht
        · exact hanyOn
        · exact hfirstOff hw
        · exact hfurtherOff hw
      · rw [takenFacade_other hnamed]
        exact ⟨rfl, fun _ => rfl, fun h => absurd h hnamed, fun h => absurd h hnamed, fun h => absurd h hnamed⟩

/-! ### Locked, and stopped -/

/-- Row 1 or row 3 holds under EVACUATE, and under the wind lock where blinds are enabled (R119). -/
theorem blindRow_locked {s : State} {c : MotorCfg} (m : Motor)
    (h : s.service.evacuate = true ∨ s.service.maskBlind = false ∧ windHolds s.blind c.facade = true) : blindRow s c m = .locked := by
  unfold blindRow
  split
  · rfl
  · rename_i hevacuate
    obtain ⟨hmask, hwind⟩ := h.resolve_left hevacuate
    rw [if_neg (by rw [hmask]; decide), if_pos hwind]

theorem blindRow_stopped {s : State} {c : MotorCfg} (m : Motor) (hevacuate : s.service.evacuate = false)
    (hmask : s.service.maskBlind = true) : blindRow s c m = .stopped := by
  simp only [blindRow, hevacuate, hmask, Bool.false_eq_true, if_false, if_true]

/-- At rest the locked run waits for the PAUSE it is owed, or starts at once. -/
theorem lockAtRest_rows (now : Stamp) (c : MotorCfg) (m : Motor) :
    (reversalOwed now .up m = true → (lockAtRest now c m).state = .pause ∧ relayUp (lockAtRest now c m) = false)
    ∧ (reversalOwed now .up m = false → (lockAtRest now c m).state = .locked ∧ relayUp (lockAtRest now c m) = true
        ∧ ∃ r, (lockAtRest now c m).run = some r ∧ r.dir = .up ∧ r.since = now) := by
  refine ⟨fun howed => ?_, fun howed => ?_⟩
  · rw [lockAtRest, if_pos howed]
    exact ⟨rfl, rfl⟩
  · rw [lockAtRest, howed, if_neg Bool.false_ne_true]
    exact ⟨rfl, rfl, startLockedRun_up now c m⟩

/-- How a motor enters LOCKED, by its state (R123). -/
theorem enterLocked_rows (now : Stamp) (c : MotorCfg) (x : Motor) :
    (x.state = .locked → enterLocked now c x = { x with inForce := some 0 })
    ∧ (x.state = .movingUp → (enterLocked now c x).state = .locked ∧ relayUp (enterLocked now c x) = true)
    ∧ (x.state = .referencing → (enterLocked now c x).state = .locked ∧ (enterLocked now c x).run = x.run
        ∧ (x.run ≠ none → relayUp (enterLocked now c x) = true))
    ∧ (x.state = .movingDown ∨ x.state = .pause → (enterLocked now c x).state = .pause ∧ relayUp (enterLocked now c x) = false)
    ∧ (x.state = .idle ∨ x.state = .unreferenced → enterLocked now c x = lockAtRest now c { x with inForce := some 0 }) := by
  refine ⟨fun h => ?_, fun h => ?_, fun h => ?_, fun h => ?_, fun h => ?_⟩
  · simp only [enterLocked, h]
  · simp only [enterLocked, h]
    exact ⟨trivial, rfl⟩
  · simp only [enterLocked, h]
    exact ⟨trivial, trivial, fun hrun => Option.isSome_iff_ne_none.mpr hrun⟩
  · rcases h with h | h <;> simp only [enterLocked, h] <;> exact ⟨trivial, rfl⟩
  · rcases h with h | h <;> simp only [enterLocked, h]

/-- Settles O45: the row that holds, and what it does to the motor in each of its states. -/
theorem motorsLockAndStop : Obligations.MotorsLockAndStop := by
  intro s n c x m hc hx hm
  obtain ⟨y, hy, -, hrow⟩ := nth1_formBlinds hx
  obtain rfl : m = y := Option.some.inj (hm.symm.trans hy)
  have happlied := hrow c hc
  refine ⟨fun hlocked => ?_, fun hevacuate hmask => ?_⟩
  · rw [blindRow_locked x hlocked] at happlied
    have hm : m = enterLocked (nowOf s) c x := happlied
    obtain ⟨hstays, hup, hreferencing, hpauses, hrests⟩ := enterLocked_rows (nowOf s) c x
    rw [hm]
    refine ⟨enterLocked_isLockedUp _ c x, hstays, hup, hreferencing, hpauses, fun hrest => ?_⟩
    rw [hrests hrest]
    exact lockAtRest_rows (nowOf s) c { x with inForce := some 0 }
  · rw [blindRow_stopped x hevacuate hmask] at happlied
    rw [happlied]
    exact stopAndHold_isStopped _ c x

end Sys2Proof.Machine
end

