-- ==== Sys2Proof/Proofs/PartitionTimers.lean ====
section

/-! PROOF. Contacts, claims and the timers of the Join Unit (R130 to R134, R139 to R142). -/

namespace Sys2Proof.Machine

/-! ### What an event of the Join Unit ends with -/

/-- The end of an event of the Join Unit, with the presence hold as R151 asks, leaves the Join Unit itself as it is. -/
theorem joinEventEnds (before s : State) :
    KeepsRest s (endEvent before (updateHold s)) ∧ KeepsJoin s (endEvent before (updateHold s)) :=
  ⟨(updateHold_keepsRest s).trans (endEvent_handedOn before _).toKeepsRest,
    (updateHold_keepsJoin s).trans (endEvent_handedOn before _).joins⟩

theorem KeepsJoin.partitionOf {s t : State} (k : KeepsJoin s t) (r : Nat) : partitionOf t r = partitionOf s r :=
  partitionOf_congr k.partitions r

theorem KeepsRest.now {s t : State} (k : KeepsRest s t) : nowOf t = nowOf s := by
  unfold nowOf
  rw [k.clock]

/-- A telegram handed to the bus first stays the first whatever follows in the event. -/
theorem composesFirst_of {s t u : State} {b : Bus} {x : OutTelegram} (hbus : t.bus = enqueue s.station s.listening x b)
    (hstation : t.station = s.station) (hlistening : t.listening = s.listening) (k : KeepsRest t u) : composesFirst s u b x := by
  have hsends := k.bus
  rw [hstation, hlistening, hbus] at hsends
  exact hsends

theorem sendJoin_bus (p kind : Nat) (payload : List Byte) (s : State) :
    (sendJoin p kind payload s).bus = enqueue s.station s.listening (joinTelegram s p kind payload) s.bus := by
  unfold sendJoin
  dsimp only
  split <;> rfl

/-- A JOIN telegram composed first. -/
theorem sendJoin_composesFirst {s t u : State} {p kind : Nat} {payload : List Byte} (hcfg : t.cfg = s.cfg)
    (hstation : t.station = s.station) (hlistening : t.listening = s.listening) (k : KeepsRest (sendJoin p kind payload t) u) :
    composesFirst s u t.bus (joinTelegram s p kind payload) := by
  have hsends := k.bus
  rw [(sendJoin_handedOn p kind payload t).station, (sendJoin_handedOn p kind payload t).listening, sendJoin_bus, hstation,
    hlistening] at hsends
  have htelegram : joinTelegram t p kind payload = joinTelegram s p kind payload := by
    unfold joinTelegram neighbourOf
    rw [hcfg]
  rw [htelegram] at hsends
  exact hsends

/-! ### The other partitions -/

theorem othersStay_of_same {s t : State} {p : Nat} (h : ∀ r, r ≠ p → partitionOf t r = partitionOf s r) : othersStay s t p :=
  fun r y hr hy => ⟨y, (h r hr).trans hy, .inl rfl⟩

/-- What does not touch the other partitions, before a step that lets one claim. -/
theorem othersStay_after {s t u : State} {p : Nat} (h : ∀ r, r ≠ p → partitionOf t r = partitionOf s r) (hnow : nowOf t = nowOf s)
    (hothers : othersStay t u p) : othersStay s u p := by
  intro r y hr hy
  rw [← hnow]
  exact hothers r y hr ((h r hr).trans hy)

theorem othersStay_keeps {s t u : State} {p : Nat} (hothers : othersStay s t p) (k : KeepsJoin t u) : othersStay s u p := by
  intro r y hr hy
  obtain ⟨z, hz, hrow⟩ := hothers r y hr hy
  exact ⟨z, (k.partitionOf r).trans hz, hrow⟩

theorem tryClaim_othersStay (s : State) (p : Nat) : othersStay s (tryClaim s) p := fun r y _ hy => tryClaim_partition s r y hy

/-! ### Claims -/

theorem beginClaim_composes (p : Nat) (s : State) :
    (beginClaim p s).join.claimSeq = nextSeq s.join.claimSeq
    ∧ (beginClaim p s).bus
      = enqueue s.station s.listening (joinTelegram s p kJoinClaim [byteOf (nextSeq s.join.claimSeq)]) s.bus :=
  ⟨(sendJoin_handedOn _ _ _ _).joins.claimSeq, sendJoin_bus _ _ _ _⟩

/-- A partition that waits with its retry due, in a station that is free, and before every other that waits so: its claim begins. -/
theorem tryClaim_begins {s : State} {p : Nat} {x : Partition} (hfree : isFree s = true) (hspeak : maySpeak s = true)
    (hx : partitionOf s p = some x) (hblocked : x.state = .blocked) (hdue : x.retry = .due)
    (hfirst : ∀ r z, r < p → partitionOf s r = some z → ¬(z.state = .blocked ∧ z.retry = .due)) :
    partitionOf (tryClaim s) p = some (claimingPartition (nowOf s) x)
    ∧ (∀ r, r ≠ p → partitionOf (tryClaim s) r = partitionOf s r)
    ∧ (tryClaim s).join.claimSeq = nextSeq s.join.claimSeq
    ∧ (tryClaim s).bus
      = enqueue s.station s.listening (joinTelegram s p kJoinClaim [byteOf (nextSeq s.join.claimSeq)]) s.bus := by
  obtain ⟨hseq, hbus⟩ := beginClaim_composes p s
  rw [tryClaim_claims hfree hspeak hx hblocked hdue hfirst]
  refine ⟨?_, fun r hr => ?_, hseq, hbus⟩
  · unfold partitionOf
    rw [beginClaim_partitions]
    exact nth1_update1_same _ hx
  · unfold partitionOf
    rw [beginClaim_partitions]
    exact nth1_update1_other _ _ hr

/-! ### The return to SOLO -/

theorem returnSolo_beforeClaim (p : Nat) (st : PartitionState) (r : Retry) (s : State) :
    ∃ u, returnSolo p st r s = tryClaim u ∧ nowOf u = nowOf s
      ∧ u.join.partitions = update1 s.join.partitions p (restPartition st r) := by
  refine ⟨_, rfl, ?_, (afterLeave_keepsJoin _).partitions.trans (leaveJoin_partitions p st r s)⟩
  split
  · exact (releaseQueue_keepsRest _).now.trans (leaveJoin_keepsRest p st r s).now
  · exact (leaveJoin_keepsRest p st r s).now

/-- The partition of a join that ends comes to rest, and of the others one may claim (R142). -/
theorem returnSolo_rests {p : Nat} {s : State} {x : Partition} (st : PartitionState) {r : Retry} (hx : partitionOf s p = some x)
    (hr : r ≠ .due) :
    partitionOf (returnSolo p st r s) p = some (restPartition st r x) ∧ othersStay s (returnSolo p st r s) p := by
  obtain ⟨u, hu, hnow, hpartitions⟩ := returnSolo_beforeClaim p st r s
  rw [hu]
  refine ⟨tryClaim_keeps ?_ hr, othersStay_after (fun q hq => ?_) hnow (tryClaim_othersStay u p)⟩
  · unfold partitionOf
    rw [hpartitions]
    exact nth1_update1_same _ hx
  · unfold partitionOf
    rw [hpartitions]
    exact nth1_update1_other _ _ hq

/-! ### Contacts -/

/-- A configured partition whose contact is being debounced is not settled (R151). -/
theorem not_allSettled {s : State} {p : Nat} {x : Partition} (hx : partitionOf s p = some x) (h : partitionSettled x = false) :
    allSettled s = false := by
  have hmem : x ∈ s.join.partitions := List.mem_of_getElem? (nth1_eq_getElem? hx)
  exact List.all_eq_false.mpr ⟨x, hmem, by rw [h]; decide⟩

theorem updateHold_holds {s : State} (h : allSettled s = false) : (updateHold s).presence.held = true := by
  unfold updateHold
  rw [h]
  rfl

theorem exec_partitionContactChange_taken {s : State} (p : Nat) (high : Bool) (h : takesFields s = true) :
    exec (.partitionContactChange p high) s = .next (endEvent s (contactMoves p high { s with pins := setPart s.pins p high })) :=
  congrArg Host.Outcome.next (if_pos h)

theorem partitionIs_of {s : State} {p : Nat} {x : Partition} {test : Partition → Bool} (hx : partitionOf s p = some x)
    (h : test x = true) : partitionIs s p test = true := by
  simp only [partitionIs, hx, h]

theorem exec_debounceExpiry_due {s : State} {p : Nat} {x : Partition} {since : Stamp} (hpowered : powered s = true)
    (hx : partitionOf s p = some x) (hsince : x.debounce = some since) (hdue : 5000 ≤ elapsed since (nowOf s)) :
    exec (.debounceExpiry p) s = .next (endEvent s (debounceEnds p s)) :=
  congrArg Host.Outcome.next (if_pos (by rw [hpowered, partitionIs_of hx (ranOut_of hsince hdue)]; rfl))

/-- A raw contact that changes: the debounce, and the presence hold it brings. -/
theorem contactMoves_changed {s : State} {p : Nat} {c : PartitionCfg} {x : Partition} {high : Bool}
    (hc : nth1 s.cfg.partitions p = some c) (hx : partitionOf s p = some x) (hconfigured : x.state ≠ .notConfigured)
    (hchange : contactOf c high ≠ x.raw) :
    contactMoves p high s = updateHold (changePartition p (contactChange (nowOf s) (contactOf c high)) s) := by
  simp only [contactMoves, hc, hx, hconfigured, hchange, or_self, if_false]

theorem contactMoves_same {s : State} {p : Nat} {c : PartitionCfg} {x : Partition} {high : Bool}
    (hc : nth1 s.cfg.partitions p = some c) (hx : partitionOf s p = some x) (hsame : contactOf c high = x.raw) :
    contactMoves p high s = s := by
  simp only [contactMoves, hc, hx, hsame, or_true, if_true]

/-! ### The end of the debounce -/

/-- What the end of a debounce has done before the presence hold is looked at: of the partition the contact, of the others a claim at most. -/
structure Debounced (s v : State) (p : Nat) (x y : Partition) : Prop where
  partition : partitionOf v p = some y
  rest : KeepsRest s v
  raw : y.raw = x.raw
  open_ : y.debounced = x.raw
  debounce : y.debounce = none
  others : othersStay s v p

theorem debounced_partition {s : State} {p : Nat} {x : Partition} (hx : partitionOf s p = some x) :
    partitionOf (changePartition p debounced s) p = some (debounced x) := partitionOf_change_same debounced hx

/-- A debounce that finds the contact back, or a state that it does not concern. -/
theorem debounced_only {s : State} {p : Nat} {x : Partition} (hx : partitionOf s p = some x) :
    Debounced s (changePartition p debounced s) p x (debounced x) :=
  ⟨debounced_partition hx, changePartition_keepsRest _ _ _, rfl, rfl, rfl,
    othersStay_of_same (fun _ hr => partitionOf_change_other debounced hr)⟩

/-- A debounced change that brings a partition to rest. -/
theorem debounced_rests {s : State} {p : Nat} {x : Partition} (st : PartitionState) (r : Retry) (hx : partitionOf s p = some x) :
    Debounced s (changePartition p (restPartition st r) (changePartition p debounced s)) p x (restPartition st r (debounced x)) := by
  refine ⟨partitionOf_change_same _ (debounced_partition hx),
    (changePartition_keepsRest p debounced s).trans (changePartition_keepsRest _ _ _), rfl, rfl, rfl,
    othersStay_of_same (fun q hq => ?_)⟩
  exact (partitionOf_change_other _ hq).trans (partitionOf_change_other debounced hq)

/-- A due partition may claim after a partition has come to rest. -/
theorem debounced_claims {s : State} {p : Nat} {x : Partition} (st : PartitionState) (r : Retry) (hx : partitionOf s p = some x) :
    ∃ y, Debounced s (tryClaim (changePartition p (restPartition st r) (changePartition p debounced s))) p x y
      ∧ (y = restPartition st r (debounced x) ∨ st = .blocked ∧ r = .due) := by
  obtain ⟨hpartition, hrest, -, -, -, -⟩ := debounced_rests st r hx
  obtain ⟨y, hy, hrow⟩ := tryClaim_partition _ p _ hpartition
  have hothers : othersStay s (tryClaim (changePartition p (restPartition st r) (changePartition p debounced s))) p :=
    othersStay_after (fun q hq => (partitionOf_change_other _ hq).trans (partitionOf_change_other debounced hq)) rfl (tryClaim_othersStay _ p)
  rcases hrow with rfl | ⟨hblocked, hdue, rfl⟩
  · exact ⟨_, ⟨hy, hrest.trans (tryClaim_keepsRest _), rfl, rfl, rfl, hothers⟩, .inl rfl⟩
  · exact ⟨_, ⟨hy, hrest.trans (tryClaim_keepsRest _), rfl, rfl, rfl, hothers⟩, .inr ⟨hblocked, hdue⟩⟩

/-- A join that ends behind a closed wall (R139). -/
theorem debounced_parts {s : State} {p : Nat} {x : Partition} (hx : partitionOf s p = some x) :
    Debounced s (returnSolo p .closed .none (sendRelease p (changePartition p debounced s))) p x
      (restPartition .closed .none (debounced x)) := by
  have hsend := sendRelease_handedOn p (changePartition p debounced s)
  have hpartition : partitionOf (sendRelease p (changePartition p debounced s)) p = some (debounced x) :=
    (hsend.joins.partitionOf p).trans (debounced_partition hx)
  obtain ⟨hrests, hothers⟩ := returnSolo_rests .closed hpartition (r := .none) (by decide)
  refine ⟨hrests, ((changePartition_keepsRest p debounced s).trans hsend.toKeepsRest).trans (returnSolo_keepsRest _ _ _ _),
    rfl, rfl, rfl, othersStay_after (fun q hq => ?_) hsend.now hothers⟩
  exact (hsend.joins.partitionOf q).trans (partitionOf_change_other debounced hq)

theorem debounceEnds_some {s : State} {p : Nat} {x : Partition} (hx : partitionOf s p = some x) :
    debounceEnds p s = updateHold
      (if x.raw = x.debounced then changePartition p debounced s
       else if x.raw then debouncedOpen p x.state (changePartition p debounced s)
       else debouncedClosed p x.state (changePartition p debounced s)) := by
  simp only [debounceEnds, hx]

/-- The end of a debounce in every state of its partition. -/
theorem debounceEnds_debounced {s : State} {p : Nat} {x : Partition} (hx : partitionOf s p = some x) :
    ∃ y v, debounceEnds p s = updateHold v ∧ Debounced s v p x y
      ∧ (x.raw = x.debounced → y = debounced x)
      ∧ (x.raw = false → x.debounced = true → x.state = .claiming ∨ x.state = .blocked ∨ x.state = .lead ∨ x.state = .follow →
          y = restPartition .closed .none (debounced x))
      ∧ (x.raw = false → x.debounced = true → x.state = .lead ∨ x.state = .follow →
          v = returnSolo p .closed .none (sendRelease p (changePartition p debounced s)))
      ∧ (x.raw = true → x.debounced = false → x.state = .closed →
          v = tryClaim (changePartition p (restPartition .blocked .due) (changePartition p debounced s))) := by
  rw [debounceEnds_some hx]
  cases hraw : x.raw <;> cases hopen : x.debounced
  · exact ⟨_, _, rfl, debounced_only hx, fun _ => rfl, nofun, nofun, nofun⟩
  · cases hstate : x.state with
    | closed => exact ⟨_, _, rfl, debounced_only hx, nofun, nofun, nofun, nofun⟩
    | notConfigured => exact ⟨_, _, rfl, debounced_only hx, nofun, nofun, nofun, nofun⟩
    | blocked => exact ⟨_, _, rfl, debounced_rests .closed .none hx, nofun, fun _ _ _ => rfl, nofun, nofun⟩
    | claiming =>
      obtain ⟨y, hdebounced, hrests⟩ := debounced_claims .closed .none hx
      exact ⟨y, _, rfl, hdebounced, nofun, fun _ _ _ => hrests.resolve_right (fun h => nomatch h.1), nofun, nofun⟩
    | lead => exact ⟨_, _, rfl, debounced_parts hx, nofun, fun _ _ _ => rfl, fun _ _ _ => rfl, nofun⟩
    | follow => exact ⟨_, _, rfl, debounced_parts hx, nofun, fun _ _ _ => rfl, fun _ _ _ => rfl, nofun⟩
  · by_cases hclosed : x.state = .closed
    · obtain ⟨y, hdebounced, -⟩ := debounced_claims .blocked .due hx
      rw [hclosed]
      exact ⟨y, _, rfl, hdebounced, nofun, nofun, nofun, fun _ _ _ => rfl⟩
    · have hstays : debouncedOpen p x.state (changePartition p debounced s) = changePartition p debounced s := by
        unfold debouncedOpen
        split
        · exact absurd ‹_› hclosed
        · rfl
      exact ⟨_, _, congrArg updateHold hstays, debounced_only hx, nofun, nofun, nofun, fun _ _ h => absurd h hclosed⟩
  · exact ⟨_, _, rfl, debounced_only hx, fun _ => rfl, nofun, nofun, nofun⟩

/-- The wall opens at a station that may claim, or may not (R132). -/
theorem wallOpens {s : State} {p : Nat} {x : Partition} (hx : partitionOf s p = some x) (hclosed : x.state = .closed) :
    let v := changePartition p (restPartition .blocked .due) (changePartition p debounced s)
    (isFree s = false ∨ maySpeak s = false → tryClaim v = v)
    ∧ (isFree s = true → maySpeak s = true →
        (∀ r z, r < p → partitionOf s r = some z → ¬(z.state = .blocked ∧ z.retry = .due)) →
        partitionOf (tryClaim v) p = some (claimingPartition (nowOf s) (debounced x))
        ∧ (tryClaim v).join.claimSeq = nextSeq s.join.claimSeq
        ∧ (tryClaim v).bus
          = enqueue s.station s.listening (joinTelegram s p kJoinClaim [byteOf (nextSeq s.join.claimSeq)]) s.bus) := by
  intro v
  have hrest : isEngaged x = false := by unfold isEngaged; rw [hclosed]; rfl
  have hrest' : isEngaged (debounced x) = false := hrest
  have hfree : isFree v = isFree s :=
    (isFree_change (restPartition .blocked .due) (debounced_partition hx) hrest' rfl).trans (isFree_change debounced hx hrest hrest')
  refine ⟨fun h => tryClaim_idle ?_, fun hfree' hspeak hfirst => ?_⟩
  · rw [hfree]
    exact h
  · have hv : partitionOf v p = some (restPartition .blocked .due (debounced x)) := partitionOf_change_same _ (debounced_partition hx)
    have hfirst' : ∀ r z, r < p → partitionOf v r = some z → ¬(z.state = .blocked ∧ z.retry = .due) := by
      intro r z hr hz
      refine hfirst r z hr ?_
      rw [← hz]
      exact ((partitionOf_change_other _ hr.ne).trans (partitionOf_change_other debounced hr.ne)).symm
    obtain ⟨hp, -, hseq, hbus⟩ := tryClaim_begins (hfree.trans hfree') hspeak hv rfl rfl hfirst'
    exact ⟨hp, hseq, hbus⟩

/-- Settles O46: a change of the line, and what its debounce ends with in each state. -/
theorem contactsDebounce : Obligations.ContactsDebounce := by
  refine ⟨fun s p c x high htakes hc hx hconfigured => ?_, fun s p high htakes => congrArg Host.Outcome.next (if_neg (by rw [htakes]; decide)),
    fun s p x since hpowered hx hsince hdue => ?_⟩
  · refine ⟨_, exec_partitionContactChange_taken p high htakes, fun hsame => ?_, fun hchange => ?_⟩
    · rw [contactMoves_same (s := { s with pins := setPart s.pins p high }) hc hx hsame]
      exact endEvent_handedOn _ _
    · rw [contactMoves_changed (s := { s with pins := setPart s.pins p high }) hc hx hconfigured hchange]
      let u : State := changePartition p (contactChange (nowOf s) (contactOf c high)) { s with pins := setPart s.pins p high }
      obtain ⟨hrest, hjoin⟩ := joinEventEnds s u
      have hu : partitionOf u p = some (contactChange (nowOf s) (contactOf c high) x) := partitionOf_change_same _ hx
      refine ⟨(changePartition_keepsRest _ _ _).trans hrest, (hjoin.partitionOf p).trans hu, fun r hr => ?_, fun hnew => ?_⟩
      · exact (hjoin.partitionOf r).trans (partitionOf_change_other _ hr)
      · have hunsettled : allSettled u = false := by
          refine not_allSettled hu ?_
          simp [partitionSettled, contactChange, hconfigured, hnew]
        rw [(endEvent_handedOn _ _).presence]
        exact updateHold_holds hunsettled
  · obtain ⟨y, v, hends, ⟨hy, hrest, hraw, hopen, hdebounce, hothers⟩, hback, hshut, hparts, hopens⟩ := debounceEnds_debounced hx
    rw [exec_debounceExpiry_due hpowered hx hsince hdue, hends]
    obtain ⟨hends, hjoin⟩ := joinEventEnds s v
    refine ⟨_, y, rfl, (hjoin.partitionOf p).trans hy, hrest.trans hends, hraw, hopen, hdebounce, othersStay_keeps hothers hjoin,
      fun hsame => ?_, fun hlow hwas hstate => ?_, fun hlow hwas hstate => ?_, fun hhigh hwas hstate => ?_⟩
    · rw [hback hsame, debounced, hsame]
    · rw [hshut hlow hwas hstate]
      exact ⟨rfl, rfl, rfl⟩
    · have hv := hparts hlow hwas hstate
      obtain ⟨hrelation, hgroup, hfollower⟩ := (hv ▸ returnSolo_alone p .closed .none _ : Alone v).keeps hjoin
      refine ⟨hrelation, hgroup, hfollower, sendJoin_composesFirst (t := changePartition p debounced s) rfl rfl rfl ?_⟩
      rw [hv]
      exact (returnSolo_keepsRest _ _ _ _).trans (joinEventEnds s _).1
    · have hv := hopens hhigh hwas hstate
      obtain ⟨hwaits, hclaims⟩ := wallOpens hx hstate
      refine ⟨fun hbusy => ?_, fun hfree hspeak hfirst => ?_⟩
      · rw [hv, hwaits hbusy, (debounced_rests .blocked .due hx).partition] at hy
        cases hy
        exact ⟨rfl, rfl⟩
      · obtain ⟨hp, hseq, hbus⟩ := hclaims hfree hspeak hfirst
        rw [hv, hp] at hy
        cases hy
        refine ⟨by rw [debounced, hhigh], hjoin.claimSeq.trans (by rw [hv]; exact hseq), ?_⟩
        refine composesFirst_of (t := v) (by rw [hv]; exact hbus) ?_ ?_ hends
        · exact hrest.station
        · exact hrest.listening

/-! ### The timers -/

theorem exec_claimTimerExpiry_due {s : State} {p : Nat} {x : Partition} {since : Stamp} (hpowered : powered s = true)
    (hx : partitionOf s p = some x) (hstate : x.state = .claiming) (hsince : x.claimTimer = some since)
    (hdue : 2000 ≤ elapsed since (nowOf s)) : exec (.claimTimerExpiry p) s = .next (endEvent s (claimRunsOut p s)) :=
  congrArg Host.Outcome.next (if_pos (by
    rw [hpowered, partitionIs_of hx (by unfold claimDue; rw [hstate, ranOut_of hsince hdue]; rfl)]; rfl))

theorem exec_retryTimerExpiry_due {s : State} {p : Nat} {x : Partition} {since : Stamp} (hpowered : powered s = true)
    (hx : partitionOf s p = some x) (hstate : x.state = .blocked) (hsince : x.retry = .timed since)
    (hdue : 60000 ≤ elapsed since (nowOf s)) : exec (.retryTimerExpiry p) s = .next (endEvent s (retryRunsOut p s)) :=
  congrArg Host.Outcome.next (if_pos (by
    rw [hpowered, partitionIs_of hx (by simp only [retryDue, hstate, hsince, hdue, decide_true])]; rfl))

theorem joinedOn_of_joinedPartition {s : State} {p : Nat} (h : joinedPartition s = some p) : joinedOn s p = true := by
  unfold joinedPartition at h
  unfold joinedOn
  split at h
  · cases h
  · rename_i q hq
    cases h
    rw [hq]
    simp
  · rename_i q hq
    cases h
    rw [hq]
    simp

theorem sendJoin_joined {s : State} {p kind : Nat} {payload : List Byte} {r : Relation} (hjoined : joinedOn s p = true)
    (hr : s.join.relation = some r) :
    sendJoin p kind payload s = { s with
      join := { s.join with relation := some { r with keep := nowOf s } }
      bus := enqueue s.station s.listening (joinTelegram s p kind payload) s.bus } := by
  unfold sendJoin
  rw [hjoined, hr]
  rfl

theorem exec_keepTimerExpiry_due {s : State} {p : Nat} {r : Relation} (hpowered : powered s = true) (hp : joinedPartition s = some p)
    (hr : s.join.relation = some r) (hdue : 30000 ≤ elapsed r.keep (nowOf s)) :
    exec .keepTimerExpiry s = .next (sendJoin p kJoinKeep [byteOf r.partnerSeq] s) := by
  refine congrArg Host.Outcome.next ((if_pos hpowered).trans ?_)
  unfold keepRunsOut
  rw [hp, hr]
  exact if_pos hdue

theorem exec_orphanTimerExpiry_due {s : State} {p : Nat} {r : Relation} (hpowered : powered s = true) (hp : joinedPartition s = some p)
    (hr : s.join.relation = some r) (hdue : 120000 ≤ elapsed r.orphan (nowOf s)) :
    exec .orphanTimerExpiry s
      = .next (endEvent s (updateHold (returnSolo p .blocked (.timed (nowOf s)) (sendRelease p s)))) := by
  refine congrArg Host.Outcome.next ((if_pos hpowered).trans (congrArg (endEvent s) ?_))
  unfold orphanRunsOut
  rw [hp, hr]
  exact if_pos hdue

/-- A claim that ends without a join waits 60 s, and another due partition may claim (R133). -/
theorem claimFails_waits {s : State} {p : Nat} {x : Partition} (hx : partitionOf s p = some x) :
    partitionOf (claimFails p s) p = some (restPartition .blocked (.timed (nowOf s)) x) ∧ othersStay s (claimFails p s) p := by
  have hu : partitionOf (changePartition p (restPartition .blocked (.timed (nowOf s))) s) p
      = some (restPartition .blocked (.timed (nowOf s)) x) := partitionOf_change_same _ hx
  refine ⟨tryClaim_keeps hu nofun, othersStay_after (fun r hr => partitionOf_change_other _ hr) rfl (tryClaim_othersStay _ p)⟩

/-- A claim composed again (R133). -/
theorem claimAgain_again {s : State} {p : Nat} {x : Partition} (hx : partitionOf s p = some x) :
    partitionOf (claimAgain p s) p = some { x with attempts := x.attempts + 1, claimTimer := some (nowOf s) }
    ∧ ∀ r, r ≠ p → partitionOf (claimAgain p s) r = partitionOf s r := by
  refine ⟨((sendJoin_handedOn _ _ _ _).joins.partitionOf p).trans (partitionOf_change_same _ hx), fun r hr => ?_⟩
  exact ((sendJoin_handedOn _ _ _ _).joins.partitionOf r).trans (partitionOf_change_other _ hr)

/-- A retry that becomes due, at a station that may claim or may not (R134). -/
theorem retry_becomesDue {s : State} {p : Nat} {x : Partition} (hx : partitionOf s p = some x) (hblocked : x.state = .blocked) :
    let v := changePartition p (fun x => { x with retry := .due }) s
    (isFree s = false ∨ maySpeak s = false → tryClaim v = v)
    ∧ (isFree s = true → maySpeak s = true →
        (∀ r z, r < p → partitionOf s r = some z → ¬(z.state = .blocked ∧ z.retry = .due)) →
        partitionOf (tryClaim v) p = some (claimingPartition (nowOf s) x)
        ∧ (∀ r, r ≠ p → partitionOf (tryClaim v) r = partitionOf s r)
        ∧ (tryClaim v).join.claimSeq = nextSeq s.join.claimSeq
        ∧ (tryClaim v).bus
          = enqueue s.station s.listening (joinTelegram s p kJoinClaim [byteOf (nextSeq s.join.claimSeq)]) s.bus) := by
  intro v
  have hrest : isEngaged x = false := by unfold isEngaged; rw [hblocked]; rfl
  have hfree : isFree v = isFree s := isFree_change (fun x => { x with retry := .due }) hx hrest hrest
  refine ⟨fun h => tryClaim_idle ?_, fun hfree' hspeak hfirst => ?_⟩
  · rw [hfree]
    exact h
  · have hv : partitionOf v p = some { x with retry := .due } := partitionOf_change_same (fun x => { x with retry := .due }) hx
    have hother (r : Nat) (hr : r ≠ p) : partitionOf v r = partitionOf s r := partitionOf_change_other _ hr
    have hfirst' : ∀ r z, r < p → partitionOf v r = some z → ¬(z.state = .blocked ∧ z.retry = .due) :=
      fun r z hr hz => hfirst r z hr ((hother r hr.ne).symm.trans hz)
    obtain ⟨hp, hothers, hseq, hbus⟩ := tryClaim_begins (hfree.trans hfree') hspeak hv hblocked rfl hfirst'
    exact ⟨hp, fun r hr => (hothers r hr).trans (hother r hr), hseq, hbus⟩

/-- Settles O47: each timer of the Join Unit as it runs out. -/
theorem joinTimersExpire : Obligations.JoinTimersExpire := by
  refine ⟨fun s p x since hpowered hx hstate hsince hdue => ?_, fun s p x since hpowered hx hstate hsince hdue => ?_,
    fun s p r hpowered hp hr hdue => ?_, fun s p x r hpowered hp hx hr hdue => ?_⟩
  · rw [exec_claimTimerExpiry_due hpowered hx hstate hsince hdue]
    by_cases hfewer : x.attempts < 3
    · have hruns : claimRunsOut p s = updateHold (claimAgain p s) :=
        congrArg updateHold (if_pos (partitionIs_of hx (decide_eq_true hfewer)))
      rw [hruns]
      obtain ⟨hends, hjoin⟩ := joinEventEnds s (claimAgain p s)
      obtain ⟨hp, hothers⟩ := claimAgain_again hx
      refine ⟨_, rfl, (claimAgain_keepsRest p s).trans hends, fun _ => ⟨(hjoin.partitionOf p).trans hp, fun r hr => ?_, ?_⟩,
        fun hmany => absurd hfewer (Nat.not_lt.mpr hmany)⟩
      · exact (hjoin.partitionOf r).trans (hothers r hr)
      · exact sendJoin_composesFirst
          (t := changePartition p (fun x => { x with attempts := x.attempts + 1, claimTimer := some (nowOf s) }) s) rfl rfl rfl hends
    · have hlast : partitionIs s p (fun x => decide (x.attempts < 3)) = false := by
        simp only [partitionIs, hx, hfewer, decide_false]
      have hruns : claimRunsOut p s = updateHold (claimFails p s) :=
        congrArg updateHold (if_neg (by rw [hlast]; decide))
      rw [hruns]
      obtain ⟨hends, hjoin⟩ := joinEventEnds s (claimFails p s)
      obtain ⟨hp, hothers⟩ := claimFails_waits hx
      exact ⟨_, rfl, (claimFails_keepsRest p s).trans hends, fun h => absurd h hfewer,
        fun _ => ⟨(hjoin.partitionOf p).trans hp, othersStay_keeps hothers hjoin⟩⟩
  · let v : State := changePartition p (fun x => { x with retry := .due }) s
    rw [exec_retryTimerExpiry_due hpowered hx hstate hsince hdue, show retryRunsOut p s = updateHold (tryClaim v) from rfl]
    obtain ⟨hends, hjoin⟩ := joinEventEnds s (tryClaim v)
    obtain ⟨hwaits, hclaims⟩ := retry_becomesDue hx hstate
    have hrest : KeepsRest s (tryClaim v) := (changePartition_keepsRest _ _ s).trans (tryClaim_keepsRest v)
    refine ⟨_, rfl, hrest.trans hends, fun hbusy => ?_, fun hfree hspeak hfirst => ?_⟩
    · have hv : tryClaim v = v := hwaits hbusy
      rw [hv] at hjoin ⊢
      exact ⟨(hjoin.partitionOf p).trans (partitionOf_change_same _ hx),
        fun r hr => (hjoin.partitionOf r).trans (partitionOf_change_other _ hr)⟩
    · obtain ⟨hp, hothers, hseq, hbus⟩ := hclaims hfree hspeak hfirst
      exact ⟨(hjoin.partitionOf p).trans hp, fun r hr => (hjoin.partitionOf r).trans (hothers r hr), hjoin.claimSeq.trans hseq,
        composesFirst_of hbus hrest.station hrest.listening hends⟩
  · rw [exec_keepTimerExpiry_due hpowered hp hr hdue, sendJoin_joined (joinedOn_of_joinedPartition hp) hr]
  · rw [exec_orphanTimerExpiry_due hpowered hp hr hdue]
    let u : State := returnSolo p .blocked (.timed (nowOf s)) (sendRelease p s)
    have hsend := sendRelease_handedOn p s
    obtain ⟨hends, hjoin⟩ := joinEventEnds s u
    obtain ⟨hrests, hothers⟩ := returnSolo_rests .blocked (r := .timed (nowOf s)) ((hsend.joins.partitionOf p).trans hx) nofun
    have hparts : KeepsRest (sendRelease p s) u := returnSolo_keepsRest _ _ _ _
    obtain ⟨hrelation, hgroup, hfollower⟩ := (returnSolo_alone p .blocked (.timed (nowOf s)) (sendRelease p s)).keeps hjoin
    refine ⟨_, rfl, (hsend.toKeepsRest.trans hparts).trans hends, (hjoin.partitionOf p).trans hrests, ?_, hrelation, hgroup, hfollower,
      sendJoin_composesFirst (t := s) rfl rfl rfl (hparts.trans hends)⟩
    exact othersStay_keeps (othersStay_after (fun r _ => hsend.joins.partitionOf r) hsend.now hothers) hjoin

end Sys2Proof.Machine
end

