-- ==== Sys2Proof/Proofs/JoinTelegrams.lean ====
section

/-! PROOF. The JOIN telegrams: their checks, claims, and what the partners of a join tell each other (R133 to R141, R147, R149, R152). -/

namespace Sys2Proof.Machine

/-! ### The way of a JOIN telegram -/

/-- A JOIN telegram's event ends with the presence hold, which leaves the Join Unit as the telegram has made it. -/
theorem joinTelegramEnds (before u : State) :
    KeepsRest u (finishTelegram before (updateHold u)) ∧ KeepsJoin u (finishTelegram before (updateHold u)) :=
  ⟨(updateHold_keepsRest u).trans (finishTelegram_handedOn before _).toKeepsRest,
    (updateHold_keepsJoin u).trans (finishTelegram_handedOn before _).joins⟩

theorem takeJoin_deaf {s : State} (h : RxHeader) (use : Nat → State → State) (hdeaf : joinDeaf s = true) : takeJoin h use s = s :=
  if_pos hdeaf

theorem takeJoin_stranger {s : State} {h : RxHeader} (use : Nat → State → State) (hhears : joinDeaf s = false)
    (hfrom : partitionFrom s h.source.toNat = none) : takeJoin h use s = countUnusable s := by
  simp only [takeJoin, hhears, hfrom, Bool.false_eq_true, if_false]

theorem takeJoin_neighbour {s : State} {h : RxHeader} {p : Nat} (use : Nat → State → State) (hhears : joinDeaf s = false)
    (hfrom : partitionFrom s h.source.toNat = some p) : takeJoin h use s = updateHold (use p s) := by
  simp only [takeJoin, hhears, hfrom, Bool.false_eq_true, if_false]

/-- A JOIN telegram that reaches the Join Unit is used on its partition. -/
theorem joinReaches_uses {s : State} {kind : Nat} {h : RxHeader} {payload : List Byte} {p : Nat} {x : Partition}
    (r : JoinReaches s kind h payload p x) (use : Nat → State → State) :
    telegramEvent kind h payload (takeJoin h use) s = finishTelegram s (updateHold (use p (heard s))) := by
  have htake : takeJoin h use (heard s) = updateHold (use p (heard s)) :=
    takeJoin_neighbour (s := heard s) use r.hears r.neighbour
  rw [telegramEvent_reaches r.toReaches, htake]

theorem joinReaches_record {s : State} {kind : Nat} {h : RxHeader} {payload : List Byte} {p : Nat} {x : Partition}
    (r : JoinReaches s kind h payload p x) : partitionOf (heard s) p = some x := r.record

theorem partitionState_of {s : State} {p : Nat} {x : Partition} (h : partitionOf s p = some x) : partitionState s p = x.state := by
  simp only [partitionState, h]

theorem contactOpen_of {s : State} {p : Nat} {x : Partition} (h : partitionOf s p = some x) : contactOpen s p = x.debounced := by
  simp only [contactOpen, h]

/-! ### The checks of R136 and R152 -/

theorem useClaim_unreadable {payload : List Byte} (h : payload.length ≠ 1) (source p : Nat) (s : State) :
    useClaim source payload p s = countUnusable s := by
  unfold useClaim
  split
  · exact absurd rfl h
  · rfl

theorem useKeep_unreadable {payload : List Byte} (h : payload.length ≠ 1) (p : Nat) (s : State) :
    useKeep payload p s = countUnusable s := by
  unfold useKeep
  split
  · exact absurd rfl h
  · rfl

theorem useRefuse_unreadable {payload : List Byte} (h : ∀ r, payload = [r] → 1 < r.toNat) (p : Nat) (s : State) :
    useRefuse payload p s = countUnusable s := by
  unfold useRefuse
  split
  · exact if_pos (h _ rfl)
  · rfl

theorem useRelease_unreadable {payload : List Byte} (h : payload ≠ []) (p : Nat) (s : State) :
    useRelease payload p s = countUnusable s := by
  unfold useRelease
  split
  · exact absurd rfl h
  · rfl

/-- Every JOIN telegram goes through the checks that all share, and one whose content fails them is counted. -/
theorem exec_joinCommand {c : Instr} {kind : Nat} {h : RxHeader} {payload : List Byte} (hc : (c, kind) ∈ joinCommands h payload)
    (s : State) :
    ∃ use, exec c s = .next (telegramEvent kind h payload (takeJoin h use) s)
      ∧ (joinUnreadable kind h.source.toNat payload → ∀ p x, use p x = countUnusable x) := by
  simp only [joinCommands, List.mem_cons, Prod.mk.injEq, List.not_mem_nil, or_false] at hc
  rcases hc with ⟨rfl, rfl⟩ | ⟨rfl, rfl⟩ | ⟨rfl, rfl⟩ | ⟨rfl, rfl⟩ | ⟨rfl, rfl⟩ | ⟨rfl, rfl⟩ | ⟨rfl, rfl⟩
  · exact ⟨useClaim h.source.toNat payload, rfl, fun ⟨hlength, _⟩ => useClaim_unreadable (hlength (.inl rfl)) _⟩
  · exact ⟨useAccept payload, rfl, fun ⟨_, _, _, haccept, _⟩ p x => by simp only [useAccept, haccept rfl]⟩
  · exact ⟨useRefuse payload, rfl, fun ⟨_, hrefuse, _⟩ => useRefuse_unreadable (hrefuse rfl)⟩
  · exact ⟨useRelease payload, rfl, fun ⟨_, _, hrelease, _⟩ => useRelease_unreadable (hrelease rfl)⟩
  · exact ⟨useKeep payload, rfl, fun ⟨hlength, _⟩ => useKeep_unreadable (hlength (.inr rfl))⟩
  · exact ⟨useState h.source.toNat payload, rfl, fun ⟨_, _, _, _, hstate, _⟩ p x => by simp only [useState, hstate rfl]⟩
  · exact ⟨useOrder payload, rfl, fun ⟨_, _, _, _, _, horder⟩ p x => by simp only [useOrder, horder rfl]⟩

/-- Settles O48: the three checks in the order of R152 and R136. -/
theorem joinTelegramsAreChecked : Obligations.JoinTelegramsAreChecked := by
  intro s h payload c kind hc hreaches
  obtain ⟨use, hexec, hunreadable⟩ := exec_joinCommand hc s
  rw [hexec, telegramEvent_reaches hreaches]
  refine ⟨fun hdeaf => ⟨_, rfl, ?_⟩, fun hhears hfrom => ⟨_, rfl, ?_⟩, fun p hhears hfrom hbad => ⟨_, rfl, ?_⟩⟩
  · rw [takeJoin_deaf (s := heard s) h use hdeaf]
    exact finishTelegram_handedOn _ _
  · rw [takeJoin_stranger (s := heard s) use hhears hfrom]
    exact finishTelegram_handedOn _ _
  · rw [takeJoin_neighbour (s := heard s) use hhears hfrom, hunreadable hbad p (heard s)]
    exact joinTelegramEnds s _

/-! ### Entering FOLLOW and LEAD -/

/-- A station that has just become a follower: of a fresh relation, answering claim `q`, and with nothing heard of its lead. -/
structure FollowsAfresh (now : Stamp) (q : Nat) (t : State) : Prop where
  group : t.join.group = none
  partnerSeq : t.join.relation.map (fun r => r.partnerSeq) = some 0
  orphan : t.join.relation.map (fun r => r.orphan) = some now
  answered : t.join.relation.map (fun r => r.claimSeq) = some q
  order : t.join.follower.map (fun f => f.order) = some none
  share : t.join.follower.map (fun f => f.share) = some none
  request : t.join.follower.map (fun f => f.request) = some 0

theorem FollowsAfresh.keeps {now : Stamp} {q : Nat} {t u : State} (f : FollowsAfresh now q t) (k : KeepsJoin t u) :
    FollowsAfresh now q u := by
  have hreport := k.report
  rw [f.group] at hreport
  exact ⟨by simpa using hreport, k.partnerSeq.trans f.partnerSeq, k.orphan.trans f.orphan, k.answered.trans f.answered,
    k.order.trans f.order, k.share.trans f.share, k.request.trans f.request⟩

/-- The follower record read in one, from its three parts. -/
theorem FollowsAfresh.follower {now : Stamp} {q : Nat} {t : State} (f : FollowsAfresh now q t) :
    t.join.follower.map (fun y => (y.order, y.share, y.request)) = some (none, none, 0) := by
  obtain ⟨y, hy, horder⟩ := Option.map_eq_some_iff.mp f.order
  have hshare : y.share = none := Option.some.inj ((congrArg _ hy).symm.trans f.share)
  have hrequest : y.request = 0 := Option.some.inj ((congrArg _ hy).symm.trans f.request)
  rw [hy]
  exact congrArg some (Prod.ext horder (Prod.ext hshare hrequest))

/-- What a claim that is followed composes its ACCEPT on. -/
def followed (p q : Nat) (s : State) : State :=
  { changePartition p (restPartition .follow .none) s with
    join := { (changePartition p (restPartition .follow .none) s).join with
      relation := some (newRelation (nowOf s) q), group := none, follower := some newFollower } }

theorem enterFollow_followed (p q : Nat) (s : State) :
    HandedOn (sendJoin p kJoinAccept (acceptBytes s q newFollower) (followed p q s)) (enterFollow p q s) :=
  roleChanged_handedOn _ _

theorem enterFollow_afresh (p q : Nat) (s : State) : FollowsAfresh (nowOf s) q (enterFollow p q s) :=
  FollowsAfresh.keeps (t := followed p q s) ⟨rfl, rfl, rfl, rfl, rfl, rfl, rfl⟩
    ((sendJoin_handedOn _ _ _ _).joins.trans (enterFollow_followed p q s).joins)

theorem enterFollow_partition {p : Nat} (q : Nat) {s : State} {x : Partition} (hx : partitionOf s p = some x) :
    partitionOf (enterFollow p q s) p = some (restPartition .follow .none x)
    ∧ ∀ r, r ≠ p → partitionOf (enterFollow p q s) r = partitionOf s r := by
  have hpartitions := enterFollow_partitions p q s
  refine ⟨?_, fun r hr => ?_⟩
  · unfold partitionOf
    rw [hpartitions]
    exact nth1_update1_same _ hx
  · unfold partitionOf
    rw [hpartitions]
    exact nth1_update1_other _ _ hr

theorem enterFollow_composes (p q : Nat) {s u : State} (k : KeepsRest (enterFollow p q s) u) :
    composesFirst s u s.bus (joinTelegram s p kJoinAccept (acceptBytes s q newFollower)) :=
  sendJoin_composesFirst (t := followed p q s) rfl rfl rfl ((enterFollow_followed p q s).toKeepsRest.trans k)

/-! ### JOIN-CLAIM (R135) -/

theorem claimTaken_closed {s : State} {p source q : Nat} (h : contactOpen s p = false) :
    claimTaken p source q s = sendRefuse p 0 s := by
  simp only [claimTaken, h, Bool.not_false, if_true]

theorem claimTaken_engaged {s : State} {p source q : Nat} (hopen : contactOpen s p = true) (h : engagedElsewhere s p = true) :
    claimTaken p source q s = sendRefuse p 1 s := by
  simp only [claimTaken, hopen, h, Bool.not_true, Bool.false_eq_true, if_false, if_true]

/-- Of two crossing claims the lower number's goes on (R135). -/
theorem claimTaken_crossed {s : State} {p source q : Nat} {x : Partition} (hx : partitionOf s p = some x) (hopen : x.debounced = true)
    (helse : engagedElsewhere s p = false) (hclaiming : x.state = .claiming) (hlower : s.station < source) :
    claimTaken p source q s = s := by
  simp only [claimTaken, contactOpen_of hx, hopen, helse, partitionState_of hx, hclaiming, hlower, Bool.not_true, Bool.false_eq_true,
    if_false, if_true]

/-- Another claim of the lead, at a follower (R135). -/
theorem claimAtFollow_fresh {s : State} {p q : Nat} {r : Relation} (hfollower : s.join.follower.isSome = true)
    (hr : s.join.relation = some r) (hnew : r.claimSeq ≠ q) : claimAtFollow p q s = enterFollow p q (leaveJoin p .blocked .none s) := by
  obtain ⟨f, hf⟩ := Option.isSome_iff_exists.mp hfollower
  simp only [claimAtFollow, hr, hf, hnew, if_false]

theorem claimAtFollow_keepsRest (p q : Nat) (s : State) : KeepsRest s (claimAtFollow p q s) := by
  unfold claimAtFollow
  split
  · split
    · exact (sendJoin_handedOn _ _ _ _).toKeepsRest.trans (hearPartner_keepsRest _)
    · exact (leaveJoin_keepsRest _ _ _ _).trans (enterFollow_keepsRest _ _ _)
  · exact .refl s

theorem claimTaken_keepsRest (p source q : Nat) (s : State) : KeepsRest s (claimTaken p source q s) := by
  unfold claimTaken
  split
  · exact (sendRefuse_handedOn _ _ _).toKeepsRest
  · split
    · exact (sendRefuse_handedOn _ _ _).toKeepsRest
    · split
      · split
        · exact .refl s
        · exact enterFollow_keepsRest _ _ _
      · exact claimAtFollow_keepsRest _ _ _
      · exact (leaveJoin_keepsRest _ _ _ _).trans (enterFollow_keepsRest _ _ _)
      · exact enterFollow_keepsRest _ _ _
      · exact .refl s
      · exact .refl s

/-- The claims that a station follows: at once, or after the join that stood has been left (R135). -/
theorem claimTaken_follows {s : State} {p source q : Nat} {x : Partition} (hx : partitionOf s p = some x) (hopen : x.debounced = true)
    (helse : engagedElsewhere s p = false)
    (hfollows : x.state = .claiming ∧ source ≤ s.station ∨ x.state = .blocked ∨ x.state = .lead
      ∨ x.state = .follow ∧ s.join.follower.isSome = true ∧ ∃ r, s.join.relation = some r ∧ r.claimSeq ≠ q) :
    (x.state = .claiming ∨ x.state = .blocked) ∧ claimTaken p source q s = enterFollow p q s
    ∨ (x.state = .lead ∨ x.state = .follow) ∧ claimTaken p source q s = enterFollow p q (leaveJoin p .blocked .none s) := by
  have hreach := contactOpen_of hx
  rw [hopen] at hreach
  rcases hfollows with ⟨h, hlower⟩ | h | h | ⟨h, hfollower, r, hr, hnew⟩
  · refine .inl ⟨.inl h, ?_⟩
    simp only [claimTaken, hreach, helse, partitionState_of hx, h, Nat.not_lt.mpr hlower, Bool.not_true, Bool.false_eq_true, if_false]
  · refine .inl ⟨.inr h, ?_⟩
    simp only [claimTaken, hreach, helse, partitionState_of hx, h, Bool.not_true, Bool.false_eq_true, if_false]
  · refine .inr ⟨.inl h, ?_⟩
    simp only [claimTaken, hreach, helse, partitionState_of hx, h, Bool.not_true, Bool.false_eq_true, if_false]
  · refine .inr ⟨.inr h, ?_⟩
    simp only [claimTaken, hreach, helse, partitionState_of hx, h, Bool.not_true, Bool.false_eq_true, if_false,
      claimAtFollow_fresh hfollower hr hnew]

/-- What becomes of the Join Unit where a claim is followed. -/
theorem claimTaken_followed {s : State} {p source q : Nat} {x : Partition} (hx : partitionOf s p = some x) (hopen : x.debounced = true)
    (helse : engagedElsewhere s p = false)
    (hfollows : x.state = .claiming ∧ source ≤ s.station ∨ x.state = .blocked ∨ x.state = .lead
      ∨ x.state = .follow ∧ s.join.follower.isSome = true ∧ ∃ r, s.join.relation = some r ∧ r.claimSeq ≠ q) :
    partitionOf (claimTaken p source q s) p = some (restPartition .follow .none x)
    ∧ (∀ r, r ≠ p → partitionOf (claimTaken p source q s) r = partitionOf s r)
    ∧ FollowsAfresh (nowOf s) q (claimTaken p source q s) := by
  rcases claimTaken_follows hx hopen helse hfollows with ⟨-, htaken⟩ | ⟨-, htaken⟩ <;> rw [htaken]
  · obtain ⟨hp, hothers⟩ := enterFollow_partition q hx
    exact ⟨hp, hothers, enterFollow_afresh p q s⟩
  · have hpartitions := leaveJoin_partitions p .blocked .none s
    have hleft : partitionOf (leaveJoin p .blocked .none s) p = some (restPartition .blocked .none x) := by
      unfold partitionOf
      rw [hpartitions]
      exact nth1_update1_same _ hx
    obtain ⟨hp, hothers⟩ := enterFollow_partition q hleft
    have hafresh := enterFollow_afresh p q (leaveJoin p .blocked .none s)
    rw [(leaveJoin_keepsRest p .blocked .none s).now] at hafresh
    refine ⟨hp, fun r hr => (hothers r hr).trans ?_, hafresh⟩
    unfold partitionOf
    rw [hpartitions]
    exact nth1_update1_other _ _ hr

/-- A follower answers the claim it has followed again (R135). -/
theorem claimTaken_again {s : State} {p source q : Nat} {x : Partition} {r : Relation} {f : Follower} (hx : partitionOf s p = some x)
    (hopen : x.debounced = true) (helse : engagedElsewhere s p = false) (hfollow : x.state = .follow)
    (hr : s.join.relation = some r) (hf : s.join.follower = some f) (hsame : r.claimSeq = q) :
    claimTaken p source q s = hearPartner (sendJoin p kJoinAccept (acceptBytes s q f) s) := by
  simp only [claimTaken, contactOpen_of hx, hopen, helse, partitionState_of hx, hfollow, claimAtFollow, hr, hf, hsame, Bool.not_true,
    Bool.false_eq_true, if_false, if_true]

/-- A partner heard: the orphan timer begins again. -/
theorem hearPartner_orphan {s : State} {o : Stamp} (h : s.join.relation.map (fun r => r.orphan) = some o) :
    (hearPartner s).join.relation.map (fun r => r.orphan) = some (nowOf s) := by
  obtain ⟨r, hr, -⟩ := Option.map_eq_some_iff.mp h
  change (s.join.relation.map (fun r => { r with orphan := nowOf s })).map (fun r => r.orphan) = _
  rw [hr]
  rfl

theorem exec_joinClaim_reaches {s : State} {h : RxHeader} {q : Byte} {p : Nat} {x : Partition}
    (r : JoinReaches s kJoinClaim h [q] p x) :
    exec (.joinClaim h [q]) s = .next (finishTelegram s (updateHold (claimTaken p h.source.toNat q.toNat (heard s)))) :=
  congrArg Host.Outcome.next (joinReaches_uses r (useClaim h.source.toNat [q]))

/-- Settles O49: the rows of R135 in their order. -/
theorem claimsAreAnswered : Obligations.ClaimsAreAnswered := by
  intro s h q p x hreaches
  have hx : partitionOf (heard s) p = some x := joinReaches_record hreaches
  obtain ⟨hends, hjoin⟩ := joinTelegramEnds s (claimTaken p h.source.toNat q.toNat (heard s))
  refine ⟨_, exec_joinClaim_reaches hreaches, (claimTaken_keepsRest _ _ _ _).trans hends, fun hshut => ?_, fun hopen helse => ?_,
    fun hopen helse hclaiming hlower => ?_, fun r f hopen helse hfollow hr hf hsame => ?_, fun hopen helse hfollows => ?_⟩
  · rw [claimTaken_closed ((contactOpen_of hx).trans hshut)] at hends hjoin ⊢
    exact ⟨hjoin.partitions.trans (sendRefuse_handedOn _ _ _).partitions, sendJoin_composesFirst (t := heard s) rfl rfl rfl hends⟩
  · rw [claimTaken_engaged ((contactOpen_of hx).trans hopen) helse] at hends hjoin ⊢
    exact ⟨hjoin.partitions.trans (sendRefuse_handedOn _ _ _).partitions, sendJoin_composesFirst (t := heard s) rfl rfl rfl hends⟩
  · rw [claimTaken_crossed hx hopen helse hclaiming hlower] at hjoin ⊢
    exact hjoin
  · rw [claimTaken_again hx hopen helse hfollow hr hf hsame] at hends hjoin ⊢
    have hsend := sendJoin_handedOn p kJoinAccept (acceptBytes (heard s) q.toNat f) (heard s)
    refine ⟨hjoin.partitions.trans hsend.partitions, hjoin.orphan.trans ?_, ?_, ?_⟩
    · have horphan : (sendJoin p kJoinAccept (acceptBytes (heard s) q.toNat f) (heard s)).join.relation.map (fun y => y.orphan)
          = some r.orphan := hsend.joins.orphan.trans (congrArg (Option.map fun y => y.orphan) hr)
      rw [hearPartner_orphan horphan, hsend.now]
      rfl
    · exact hjoin.order.trans (hsend.joins.order.trans (congrArg (Option.map fun y => y.order) hf))
    · exact sendJoin_composesFirst (t := heard s) rfl rfl rfl ((hearPartner_keepsRest _).trans hends)
  · obtain ⟨hp, hothers, hafresh⟩ := claimTaken_followed hx hopen helse hfollows
    have hfollowing := hafresh.keeps hjoin
    refine ⟨(hjoin.partitionOf p).trans hp, fun r hr => (hjoin.partitionOf r).trans (hothers r hr), hfollowing.group,
      hfollowing.partnerSeq, hfollowing.orphan, hfollowing.answered, hfollowing.follower, fun hfirst => ?_⟩
    rcases claimTaken_follows hx hopen helse hfollows with ⟨-, htaken⟩ | ⟨hjoined, -⟩
    · rw [htaken] at hends ⊢
      exact enterFollow_composes p q.toNat (s := heard s) hends
    · rcases hfirst with h | h <;> rw [h] at hjoined <;> rcases hjoined with h | h <;> cases h

/-! ### JOIN-ACCEPT, JOIN-REFUSE and JOIN-RELEASE -/

/-- The report of the group record that a JOIN-ACCEPT forms (R138). -/
def acceptedReport (c : StationConfig) (a : AcceptFields) : GroupReport :=
  { area := c.area + a.area, volume := c.volume + a.volume, fset := c.fset + a.fset, fmin := c.fmin + a.fmin, fmax := c.fmax + a.fmax,
    followerFmax := a.fmax, occupancy := .unknown, floor := 0, co2 := none, reliable := a.reliable, baseIn := a.inTotal,
    baseOut := a.outTotal }

/-- A station that has just become a lead: of a fresh relation, and with the two rooms' sums. -/
structure LeadsAfresh (now : Stamp) (g : GroupReport) (t : State) : Prop where
  follower : t.join.follower = none
  partnerSeq : t.join.relation.map (fun r => r.partnerSeq) = some 0
  orphan : t.join.relation.map (fun r => r.orphan) = some now
  report : t.join.group.map reportOf = some g

theorem LeadsAfresh.keeps {now : Stamp} {g : GroupReport} {t u : State} (l : LeadsAfresh now g t) (k : KeepsJoin t u) :
    LeadsAfresh now g u := by
  have horder := k.order
  rw [l.follower] at horder
  exact ⟨by simpa using horder, k.partnerSeq.trans l.partnerSeq, k.orphan.trans l.orphan, k.report.trans l.report⟩

theorem enterLead_afresh (p : Nat) (a : AcceptFields) (s : State) : LeadsAfresh (nowOf s) (acceptedReport s.cfg a) (enterLead p a s) := by
  refine LeadsAfresh.keeps ?_ (roleChanged_handedOn _ _).joins
  exact ⟨rfl, rfl, rfl, congrArg some (formGroupOccupancy_report s.presence (groupFrom s a))⟩

theorem enterLead_partition {p : Nat} (a : AcceptFields) {s : State} {x : Partition} (hx : partitionOf s p = some x) :
    partitionOf (enterLead p a s) p = some (restPartition .lead .none x)
    ∧ ∀ r, r ≠ p → partitionOf (enterLead p a s) r = partitionOf s r := by
  have hpartitions := enterLead_partitions p a s
  refine ⟨?_, fun r hr => ?_⟩
  · unfold partitionOf
    rw [hpartitions]
    exact nth1_update1_same _ hx
  · unfold partitionOf
    rw [hpartitions]
    exact nth1_update1_other _ _ hr

theorem useAccept_claiming {s : State} {p : Nat} {x : Partition} {payload : List Byte} {a : AcceptFields} (hx : partitionOf s p = some x)
    (hread : rdAccept payload = some a) (hstate : x.state = .claiming) : useAccept payload p s = enterLead p a s := by
  simp only [useAccept, hread, partitionState_of hx, hstate]

theorem useAccept_lead {s : State} {p : Nat} {x : Partition} {payload : List Byte} {a : AcceptFields} (hx : partitionOf s p = some x)
    (hread : rdAccept payload = some a) (hstate : x.state = .lead) : useAccept payload p s = hearPartner s := by
  simp only [useAccept, hread, partitionState_of hx, hstate]

theorem useAccept_other {s : State} {p : Nat} {x : Partition} {payload : List Byte} {a : AcceptFields} (hx : partitionOf s p = some x)
    (hread : rdAccept payload = some a) (hclaiming : x.state ≠ .claiming) (hlead : x.state ≠ .lead) :
    useAccept payload p s = sendRelease p s := by
  simp only [useAccept, hread, partitionState_of hx]

theorem useAccept_keepsRest (payload : List Byte) (p : Nat) {s : State} {a : AcceptFields} (hread : rdAccept payload = some a) :
    KeepsRest s (useAccept payload p s) := by
  simp only [useAccept, hread]
  split
  · exact enterLead_keepsRest _ _ _
  · exact hearPartner_keepsRest _
  · exact (sendRelease_handedOn _ _).toKeepsRest

/-- A telegram that fits no relation is answered with a RELEASE, which leaves the Join Unit as it is. -/
theorem released_ends {s u : State} {p : Nat} (hends : KeepsRest (sendRelease p (heard s)) u)
    (hjoin : KeepsJoin (sendRelease p (heard s)) u) :
    KeepsJoin (heard s) u ∧ composesFirst s u (heard s).bus (joinTelegram s p kJoinRelease []) :=
  ⟨(sendRelease_handedOn _ _).joins.trans hjoin, sendJoin_composesFirst (t := heard s) rfl rfl rfl hends⟩

theorem useRefuse_claiming {s : State} {p : Nat} {x : Partition} {r : Byte} (hx : partitionOf s p = some x) (hr : r.toNat ≤ 1)
    (hstate : x.state = .claiming) : useRefuse [r] p s = claimFails p s := by
  simp only [useRefuse, Nat.not_lt.mpr hr, partitionState_of hx, hstate, if_false]

theorem useRefuse_other {s : State} {p : Nat} {x : Partition} {r : Byte} (hx : partitionOf s p = some x) (hr : r.toNat ≤ 1)
    (hstate : x.state ≠ .claiming) : useRefuse [r] p s = s := by
  simp only [useRefuse, Nat.not_lt.mpr hr, partitionState_of hx, if_false]

theorem useRefuse_keepsRest {r : Byte} (p : Nat) (s : State) (hr : r.toNat ≤ 1) : KeepsRest s (useRefuse [r] p s) := by
  simp only [useRefuse, Nat.not_lt.mpr hr, if_false]
  split
  · exact claimFails_keepsRest p s
  · exact .refl s

/-- What a join that the partner ends leaves of its partition (R139). -/
theorem restPartition_parted {s : State} {p : Nat} {x : Partition} (hx : partitionOf s p = some x) :
    restPartition (partedState s p).1 (partedState s p).2 x
      = if x.debounced then restPartition .blocked (.timed (nowOf s)) x else restPartition .closed .none x := by
  unfold partedState
  rw [contactOpen_of hx]
  cases x.debounced <;> rfl

theorem partedState_notDue (s : State) (p : Nat) : (partedState s p).2 ≠ .due := by
  unfold partedState
  split <;> nofun

theorem useRelease_keepsRest (p : Nat) (s : State) : KeepsRest s (useRelease [] p s) := by
  unfold useRelease
  dsimp only
  split
  · exact returnSolo_keepsRest _ _ _ _
  · exact .refl s

/-- Settles O50: what each of the three does by the state of its partition. -/
theorem joinsBeginAndEnd : Obligations.JoinsBeginAndEnd := by
  refine ⟨fun s h payload p x a hreaches hread => ?_, fun s h r p x hreaches hr => ?_, fun s h p x hreaches => ?_⟩
  · have hx : partitionOf (heard s) p = some x := joinReaches_record hreaches
    obtain ⟨hends, hjoin⟩ := joinTelegramEnds s (useAccept payload p (heard s))
    refine ⟨_, congrArg Host.Outcome.next (joinReaches_uses hreaches (useAccept payload)),
      (useAccept_keepsRest payload p hread).trans hends, fun hstate => ?_, fun hstate => ?_, fun hclaiming hlead => ?_⟩
    · rw [useAccept_claiming hx hread hstate] at hjoin ⊢
      obtain ⟨hp, hothers⟩ := enterLead_partition a hx
      obtain ⟨hfollower, hpartner, horphan, hreport⟩ := (enterLead_afresh p a (heard s)).keeps hjoin
      exact ⟨(hjoin.partitionOf p).trans hp, fun r hr => (hjoin.partitionOf r).trans (hothers r hr), hfollower, hpartner, horphan, hreport⟩
    · rw [useAccept_lead hx hread hstate] at hjoin ⊢
      exact hjoin
    · rw [useAccept_other hx hread hclaiming hlead] at hends hjoin ⊢
      exact released_ends hends hjoin
  · have hx : partitionOf (heard s) p = some x := joinReaches_record hreaches
    obtain ⟨hends, hjoin⟩ := joinTelegramEnds s (useRefuse [r] p (heard s))
    refine ⟨_, congrArg Host.Outcome.next (joinReaches_uses hreaches (useRefuse [r])), (useRefuse_keepsRest p _ hr).trans hends,
      fun hstate => ?_, fun hstate => ?_⟩
    · rw [useRefuse_claiming hx hr hstate] at hjoin ⊢
      obtain ⟨hp, hothers⟩ := claimFails_waits hx
      exact ⟨(hjoin.partitionOf p).trans hp, othersStay_keeps hothers hjoin⟩
    · rw [useRefuse_other hx hr hstate] at hjoin ⊢
      exact hjoin
  · have hx : partitionOf (heard s) p = some x := joinReaches_record hreaches
    obtain ⟨hends, hjoin⟩ := joinTelegramEnds s (useRelease [] p (heard s))
    refine ⟨_, congrArg Host.Outcome.next (joinReaches_uses hreaches (useRelease [])), (useRelease_keepsRest p _).trans hends,
      fun hjoined => ?_, fun hfree => ?_⟩
    · have huse : useRelease [] p (heard s) = returnSolo p (partedState (heard s) p).1 (partedState (heard s) p).2 (heard s) :=
        if_pos hjoined
      rw [huse] at hjoin ⊢
      obtain ⟨hp, hothers⟩ := returnSolo_rests (partedState (heard s) p).1 hx (partedState_notDue (heard s) p)
      rw [restPartition_parted hx] at hp
      obtain ⟨hrelation, hgroup, hfollower⟩ :=
        (returnSolo_alone p (partedState (heard s) p).1 (partedState (heard s) p).2 (heard s)).keeps hjoin
      exact ⟨(hjoin.partitionOf p).trans hp, othersStay_keeps hothers hjoin, hrelation, hgroup, hfollower⟩
    · have huse : useRelease [] p (heard s) = heard s := if_neg (by rw [show joinedOn (heard s) p = false from hfree]; decide)
      rw [huse] at hjoin ⊢
      exact hjoin

/-! ### JOIN-KEEP, JOIN-STATE and JOIN-ORDER -/

theorem keepRepair_handedOn (taken : Nat) (s : State) : HandedOn s (keepRepair taken s) := by
  unfold keepRepair
  split
  · exact .refl s
  · split
    · exact .refl s
    · exact (composeOrder_handedOn s).trans (composeState_handedOn _)

theorem useKeep_joined {s : State} {p : Nat} {x : Partition} {q : Byte} (hx : partitionOf s p = some x)
    (hstate : x.state = .lead ∨ x.state = .follow) : useKeep [q] p s = keepRepair q.toNat (hearPartner s) := by
  rcases hstate with hstate | hstate <;> simp only [useKeep, partitionState_of hx, hstate]

theorem useKeep_claiming {s : State} {p : Nat} {x : Partition} {q : Byte} (hx : partitionOf s p = some x)
    (hstate : x.state = .claiming) : useKeep [q] p s = s := by
  simp only [useKeep, partitionState_of hx, hstate]

theorem useKeep_unjoined {s : State} {p : Nat} {x : Partition} {q : Byte} (hx : partitionOf s p = some x)
    (hstate : x.state = .closed ∨ x.state = .blocked) : useKeep [q] p s = sendRelease p s := by
  rcases hstate with hstate | hstate <;> simp only [useKeep, partitionState_of hx, hstate]

theorem useKeep_keepsRest (q : Byte) (p : Nat) (s : State) : KeepsRest s (useKeep [q] p s) := by
  unfold useKeep
  dsimp only
  split
  · exact .refl s
  · exact (hearPartner_keepsRest s).trans (keepRepair_handedOn _ _).toKeepsRest
  · exact (hearPartner_keepsRest s).trans (keepRepair_handedOn _ _).toKeepsRest
  · exact (sendRelease_handedOn _ _).toKeepsRest

theorem useState_new {s : State} {p source : Nat} {x : Partition} {payload : List Byte} {f : StateFields} (hx : partitionOf s p = some x)
    (hread : rdJoinState source payload = some f) (hstate : x.state = .lead) (hnew : newContent f.seq s = true) :
    useState source payload p s = stateTaken f (recordSeq f.seq (hearPartner s)) := by
  simp only [useState, hread, partitionState_of hx, hstate, hnew, if_true]

theorem useState_known {s : State} {p source : Nat} {x : Partition} {payload : List Byte} {f : StateFields} (hx : partitionOf s p = some x)
    (hread : rdJoinState source payload = some f) (hstate : x.state = .lead) (hknown : newContent f.seq s = false) :
    useState source payload p s = hearPartner s := by
  simp only [useState, hread, partitionState_of hx, hstate, hknown, Bool.false_eq_true, if_false]

theorem useState_claiming {s : State} {p source : Nat} {x : Partition} {payload : List Byte} {f : StateFields} (hx : partitionOf s p = some x)
    (hread : rdJoinState source payload = some f) (hstate : x.state = .claiming) : useState source payload p s = s := by
  simp only [useState, hread, partitionState_of hx, hstate]

theorem useState_unawaited {s : State} {p source : Nat} {x : Partition} {payload : List Byte} {f : StateFields} (hx : partitionOf s p = some x)
    (hread : rdJoinState source payload = some f) (hlead : x.state ≠ .lead) (hclaiming : x.state ≠ .claiming) :
    useState source payload p s = sendRelease p s := by
  simp only [useState, hread, partitionState_of hx]

theorem useOrder_new {s : State} {p : Nat} {x : Partition} {payload : List Byte} {f : OrderFields} (hx : partitionOf s p = some x)
    (hread : rdJoinOrder payload = some f) (hstate : x.state = .follow) (hnew : newContent f.seq s = true) :
    useOrder payload p s = orderTaken f.content (recordSeq f.seq (hearPartner s)) := by
  simp only [useOrder, hread, partitionState_of hx, hstate, hnew, if_true]

theorem useOrder_known {s : State} {p : Nat} {x : Partition} {payload : List Byte} {f : OrderFields} (hx : partitionOf s p = some x)
    (hread : rdJoinOrder payload = some f) (hstate : x.state = .follow) (hknown : newContent f.seq s = false) :
    useOrder payload p s = hearPartner s := by
  simp only [useOrder, hread, partitionState_of hx, hstate, hknown, Bool.false_eq_true, if_false]

theorem useOrder_claiming {s : State} {p : Nat} {x : Partition} {payload : List Byte} {f : OrderFields} (hx : partitionOf s p = some x)
    (hread : rdJoinOrder payload = some f) (hstate : x.state = .claiming) : useOrder payload p s = s := by
  simp only [useOrder, hread, partitionState_of hx, hstate]

theorem useOrder_unawaited {s : State} {p : Nat} {x : Partition} {payload : List Byte} {f : OrderFields} (hx : partitionOf s p = some x)
    (hread : rdJoinOrder payload = some f) (hfollow : x.state ≠ .follow) (hclaiming : x.state ≠ .claiming) :
    useOrder payload p s = sendRelease p s := by
  simp only [useOrder, hread, partitionState_of hx]

theorem newContent_new {s : State} {r : Relation} {q : Nat} (hr : s.join.relation = some r) (h : r.partnerSeq ≠ q) :
    newContent q s = true := by
  simp only [newContent, hr, bne_iff_ne, ne_eq, h, not_false_eq_true]

theorem newContent_known {s : State} {r : Relation} {q : Nat} (hr : s.join.relation = some r) (h : r.partnerSeq = q) :
    newContent q s = false := by
  simp only [newContent, hr, h, bne_self_eq_false]

/-- The relation after new content has been taken (R140, R141). -/
theorem recordSeq_relation {s : State} {r : Relation} (hr : s.join.relation = some r) (q : Nat) :
    (recordSeq q (hearPartner s)).join.relation = some { r with orphan := nowOf s, partnerSeq := q } := by
  change (s.join.relation.map _).map _ = _
  rw [hr]
  rfl

theorem requestTaken_handedOn (number scene : Nat) (s : State) : HandedOn s (requestTaken number scene s) := by
  unfold requestTaken
  split
  · exact .refl s
  · split
    · exact .refl s
    · refine HandedOn.trans ?_ (settle_handedOn _)
      refine HandedOn.trans ?_ (beginSceneHold_handedOn _ _)
      exact changeGroup_same _ (by intro _; rfl) (by intro _; rfl) s

/-- The follower's room as a JOIN-STATE reports it, in the lead's group record (R143, R147). -/
def reported (f : StateFields) (s : State) : State := changeGroup (fun g => takeReport f (applyDeltas f.inTotal f.outTotal g)) s

theorem reported_keepsRest (f : StateFields) (s : State) : KeepsRest s (reported f s) := by
  refine ⟨by constructor <;> rfl, .ofJoin rfl rfl (le_refl _) rfl (fun g hg => ?_)⟩
  obtain ⟨g', -, rfl⟩ := Option.map_eq_some_iff.mp hg
  exact (Nat.sub_le _ _).trans (Nat.min_le_left _ _)

/-- What a JOIN-STATE moves beside the report follows from it, and is handed on. -/
theorem stateTaken_handedOn (f : StateFields) (s : State) : HandedOn (reported f s) (stateTaken f s) := by
  unfold stateTaken
  dsimp only
  refine HandedOn.trans ?_ (requestTaken_handedOn _ _ _)
  refine HandedOn.trans ?_ (settle_handedOn _)
  refine HandedOn.trans ?_ (changeGroup_same _ (by intro _; rfl) (by intro _; rfl) _)
  refine HandedOn.trans ?_ (settle_handedOn _)
  refine HandedOn.trans ?_ (changeGroup_same _ (by intro _; rfl) (by intro _; rfl) _)
  refine HandedOn.trans ?_ (occHanded_handedOn _ _)
  refine HandedOn.trans ?_ (formOccupancy_handedOn _)
  split
  · exact formHc_handedOn _
  · exact .refl _

theorem stateTaken_keepsRest (f : StateFields) (s : State) : KeepsRest s (stateTaken f s) :=
  (reported_keepsRest f s).trans (stateTaken_handedOn f s).toKeepsRest

/-- The content of a JOIN-ORDER in the follower record (R149). -/
def ordered (c : OrderContent) (s : State) : State := { s with join := { s.join with follower := s.join.follower.map (takeOrder c) } }

theorem orderTaken_handedOn (c : OrderContent) (s : State) : HandedOn (ordered c s) (orderTaken c s) :=
  (occHanded_handedOn _ _).trans (settle_handedOn _)

theorem orderTaken_keepsRest (c : OrderContent) (s : State) : KeepsRest s (orderTaken c s) :=
  KeepsRest.trans (t := ordered c s) ⟨by constructor <;> rfl, .ofSame rfl rfl rfl rfl rfl⟩ (orderTaken_handedOn c s).toKeepsRest

theorem useState_keepsRest {source : Nat} {payload : List Byte} (p : Nat) {s : State} {f : StateFields}
    (hread : rdJoinState source payload = some f) : KeepsRest s (useState source payload p s) := by
  simp only [useState, hread]
  split
  · exact .refl s
  · split
    · exact ((hearPartner_keepsRest s).trans (recordSeq_keepsRest _ _)).trans (stateTaken_keepsRest _ _)
    · exact hearPartner_keepsRest s
  · exact (sendRelease_handedOn _ _).toKeepsRest

theorem useOrder_keepsRest {payload : List Byte} (p : Nat) {s : State} {f : OrderFields} (hread : rdJoinOrder payload = some f) :
    KeepsRest s (useOrder payload p s) := by
  simp only [useOrder, hread]
  split
  · exact .refl s
  · split
    · exact ((hearPartner_keepsRest s).trans (recordSeq_keepsRest _ _)).trans (orderTaken_keepsRest _ _)
    · exact hearPartner_keepsRest s
  · exact (sendRelease_handedOn _ _).toKeepsRest

/-- The relation read in one, from its two parts. -/
theorem relation_seqAndOrphan {o : Option Relation} {q : Nat} {now : Stamp} (hseq : o.map (fun r => r.partnerSeq) = some q)
    (horphan : o.map (fun r => r.orphan) = some now) : o.map (fun r => (r.partnerSeq, r.orphan)) = some (q, now) := by
  obtain ⟨r, rfl, hq⟩ := Option.map_eq_some_iff.mp hseq
  exact congrArg some (Prod.ext hq (Option.some.inj horphan))

/-- A STATE or ORDER already taken only restarts the orphan timer (R140, R141). -/
theorem heardAgain_keeps {s u : State} {r : Relation} (hr : s.join.relation = some r) (hjoin : KeepsJoin (hearPartner (heard s)) u) :
    KeepsJoin { heard s with join := { s.join with relation := some { r with orphan := nowOf s } } } u := by
  have hheard : hearPartner (heard s)
      = { heard s with join := { s.join with relation := some { r with orphan := nowOf s } } } := by
    have hmap : s.join.relation.map (fun y => { y with orphan := nowOf s }) = some { r with orphan := nowOf s } := by rw [hr]; rfl
    rw [← hmap]
    rfl
  rw [← hheard]
  exact hjoin

/-- Settles O51: new content is taken, what is known only restarts the timer, and what fits no relation is answered with a RELEASE. -/
theorem partnersReport : Obligations.PartnersReport := by
  refine ⟨fun s h q p x hreaches => ?_, fun s h payload p x f hreaches hread => ?_, fun s h payload p x f hreaches hread => ?_⟩
  · have hx : partitionOf (heard s) p = some x := joinReaches_record hreaches
    obtain ⟨hends, hjoin⟩ := joinTelegramEnds s (useKeep [q] p (heard s))
    refine ⟨_, congrArg Host.Outcome.next (joinReaches_uses hreaches (useKeep [q])), (useKeep_keepsRest q p (heard s)).trans hends,
      fun hstate => ?_, fun hstate => ?_, fun hstate => ?_⟩
    · rw [useKeep_joined hx hstate] at hjoin ⊢
      exact (keepRepair_handedOn _ _).joins.trans hjoin
    · rw [useKeep_claiming hx hstate] at hjoin ⊢
      exact hjoin
    · rw [useKeep_unjoined hx hstate] at hends hjoin ⊢
      exact released_ends hends hjoin
  · have hx : partitionOf (heard s) p = some x := joinReaches_record hreaches
    obtain ⟨hends, hjoin⟩ := joinTelegramEnds s (useState h.source.toNat payload p (heard s))
    refine ⟨_, congrArg Host.Outcome.next (joinReaches_uses hreaches (useState h.source.toNat payload)),
      (useState_keepsRest p hread).trans hends, fun r g hstate hr hg hnew => ?_, fun r hstate hr hsame => ?_, fun hstate => ?_,
      fun hlead hclaiming => ?_⟩
    · rw [useState_new hx hread hstate (newContent_new (s := heard s) hr hnew)] at hjoin ⊢
      have htaken := (stateTaken_handedOn f (recordSeq f.seq (hearPartner (heard s)))).joins.trans hjoin
      have hrelation := recordSeq_relation (s := heard s) hr f.seq
      refine ⟨htaken.partitions, relation_seqAndOrphan ?_ ?_, htaken.report.trans ?_⟩
      · exact htaken.partnerSeq.trans (congrArg (Option.map _) hrelation)
      · exact htaken.orphan.trans (congrArg (Option.map _) hrelation)
      · change (s.join.group.map _).map reportOf = _
        rw [hg]
        rfl
    · rw [useState_known hx hread hstate (newContent_known (s := heard s) hr hsame)] at hjoin ⊢
      exact heardAgain_keeps hr hjoin
    · rw [useState_claiming hx hread hstate] at hjoin ⊢
      exact hjoin
    · rw [useState_unawaited hx hread hlead hclaiming] at hends hjoin ⊢
      exact released_ends hends hjoin
  · have hx : partitionOf (heard s) p = some x := joinReaches_record hreaches
    obtain ⟨hends, hjoin⟩ := joinTelegramEnds s (useOrder payload p (heard s))
    refine ⟨_, congrArg Host.Outcome.next (joinReaches_uses hreaches (useOrder payload)),
      (useOrder_keepsRest p hread).trans hends, fun r y hstate hr hy hnew => ?_, fun r hstate hr hsame => ?_, fun hstate => ?_,
      fun hfollow hclaiming => ?_⟩
    · rw [useOrder_new hx hread hstate (newContent_new (s := heard s) hr hnew)] at hjoin ⊢
      have htaken := (orderTaken_handedOn f.content (recordSeq f.seq (hearPartner (heard s)))).joins.trans hjoin
      have hrelation := recordSeq_relation (s := heard s) hr f.seq
      have hfollower : (ordered f.content (recordSeq f.seq (hearPartner (heard s)))).join.follower = some (takeOrder f.content y) :=
        congrArg (Option.map (takeOrder f.content)) hy
      refine ⟨htaken.partitions, relation_seqAndOrphan ?_ ?_, ?_, ?_, ?_⟩
      · exact htaken.partnerSeq.trans (congrArg (Option.map _) hrelation)
      · exact htaken.orphan.trans (congrArg (Option.map _) hrelation)
      · exact htaken.order.trans (congrArg (Option.map _) hfollower)
      · exact htaken.share.trans (congrArg (Option.map _) hfollower)
      · exact htaken.request.trans (congrArg (Option.map _) hfollower)
    · rw [useOrder_known hx hread hstate (newContent_known (s := heard s) hr hsame)] at hjoin ⊢
      exact heardAgain_keeps hr hjoin
    · rw [useOrder_claiming hx hread hstate] at hjoin ⊢
      exact hjoin
    · rw [useOrder_unawaited hx hread hfollow hclaiming] at hends hjoin ⊢
      exact released_ends hends hjoin

end Sys2Proof.Machine
end

