-- ==== Sys2Proof/Proofs/SafetyOrders.lean ====
section

/-! PROOF. SAFETY: what a SET and a CLEAR change, and the outputs they drive at once (R88, R153 to R155). -/

namespace Sys2Proof.Machine

/-! ### The damper under a rule of the Safety and Service Unit (R88) -/

/-- A unit that rules the damper by itself: whatever else holds, its mode is `m`, and what it writes is `v` with `f` applied. -/
def RulesDamper (u : Service) (c : StationConfig) (m : DamperMode) (v f : Nat) : Prop :=
  m ≠ .normal ∧ ∀ t : State, t.service = u → t.cfg = c → damperModeOf t = m ∧ damperWrite t m = some (v, f)

/-- The damper stands as the rule writes it. -/
def DamperDriven (m : DamperMode) (v f : Nat) (a : Air) : Prop := a.mode = m ∧ a.output = v ∧ a.applied = f

theorem smokeHold_rulesDamper {u : Service} (c : StationConfig) (h : u.air = .smokeHold) : RulesDamper u c .smokeHold 0 0 :=
  ⟨nofun, fun t ht _ => ⟨by unfold damperModeOf; rw [ht, h], rfl⟩⟩

theorem purge_rulesDamper {u : Service} (c : StationConfig) (h : u.air = .purge) : RulesDamper u c .purge 1000 c.fmax :=
  ⟨nofun, fun t ht hc => ⟨by unfold damperModeOf; rw [ht, h], by unfold damperWrite; rw [hc]⟩⟩

/-- Driving the damper under the rule writes at once where the rule is new, and leaves what it wrote where it is not. -/
theorem driveDamper_ruled {s : State} {m : DamperMode} {v f : Nat} (hrule : RulesDamper s.service s.cfg m v f)
    (h : s.air.mode = m → DamperDriven m v f s.air) : DamperDriven m v f (driveDamper s) := by
  obtain ⟨hnormal, hrule⟩ := hrule
  obtain ⟨hmode, hwrite⟩ := hrule s rfl rfl
  unfold driveDamper
  simp only [hmode, hwrite, hnormal, if_false]
  split
  · exact ⟨rfl, rfl, rfl⟩
  · split
    · rename_i hsame
      obtain ⟨-, hout, happlied⟩ := h hsame.symm
      exact ⟨rfl, hout, happlied⟩
    · exact ⟨rfl, rfl, rfl⟩

/-- The announcement of the own record leaves the damper. -/
theorem announce_damper (s : State) :
    (announce s).air.mode = s.air.mode ∧ (announce s).air.output = s.air.output ∧ (announce s).air.applied = s.air.applied := by
  unfold announce
  split
  · exact ⟨rfl, rfl, rfl⟩
  · split
    · exact ⟨rfl, rfl, rfl⟩
    · split <;> exact ⟨rfl, rfl, rfl⟩

theorem refreshSession_air (s : State) : (refreshSession s).air = s.air := by
  unfold refreshSession checkHoldSession
  dsimp only
  split
  · rfl
  · split <;> rfl

theorem airPass_ruled {s : State} {m : DamperMode} {v f : Nat} (hrule : RulesDamper s.service s.cfg m v f)
    (h : s.air.mode = m → DamperDriven m v f s.air) : DamperDriven m v f (airPass s).air := by
  let x : State := { refreshSession s with air := { (refreshSession s).air with own := demandRow (refreshSession s) } }
  have hx : HandedOn s (announce x) :=
    (refreshSession_handedOn s).trans (HandedOn.trans (t := x)
      ⟨⟨by constructor <;> rfl, .ofSame rfl rfl rfl rfl rfl⟩, rfl, rfl, rfl, rfl, rfl, rfl, rfl, rfl, rfl, rfl⟩ (announce_handedOn x))
  obtain ⟨hmode, hout, happlied⟩ := announce_damper x
  obtain ⟨hmode', hout', happlied'⟩ : x.air.mode = s.air.mode ∧ x.air.output = s.air.output ∧ x.air.applied = s.air.applied := by
    change (refreshSession s).air.mode = _ ∧ (refreshSession s).air.output = _ ∧ (refreshSession s).air.applied = _
    rw [refreshSession_air]
    exact ⟨rfl, rfl, rfl⟩
  refine driveDamper_ruled (s := { announce x with air := { (announce x).air with
    g := grantOf (announce x), ge := whatIfGrant (announce x),
    lead := leadMinutes (volumeInUse (announce x)) (whatIfGrant (announce x)),
    share := shareOf (announce x) (grantOf (announce x)) } }) ?_ (fun hm => ?_)
  · have hservice : (announce x).service = s.service := hx.service
    have hcfg : (announce x).cfg = s.cfg := hx.cfg
    exact hservice.symm ▸ hcfg.symm ▸ hrule
  · obtain ⟨-, hv, hf⟩ := h ((hmode.trans hmode').symm.trans hm)
    exact ⟨hm, (hout.trans hout').trans hv, (happlied.trans happlied').trans hf⟩

theorem ttGrant_air (s : State) : (ttGrant s).air = s.air := by
  obtain ⟨-, -, hair⟩ := overRecordsAt_outputs onGrant s
  exact hair

/-- The passes of an event leave the damper as the rule writes it. -/
theorem airLoop_ruled {m : DamperMode} {v f : Nat} (n : Nat) {s : State} (hrule : RulesDamper s.service s.cfg m v f)
    (h : s.air.mode = m → DamperDriven m v f s.air) (hn : n ≠ 0 ∨ DamperDriven m v f s.air) :
    DamperDriven m v f (airLoop n s).air := by
  induction n generalizing s with
  | zero =>
    change DamperDriven m v f (refreshSession s).air
    rw [refreshSession_air]
    exact hn.resolve_left (fun h => h rfl)
  | succ n ih =>
    have hpass := airPass_ruled hrule h
    have hgrant : DamperDriven m v f (ttGrant (airPass s)).air := by
      rw [ttGrant_air]
      exact hpass
    unfold airLoop
    dsimp only
    split
    · split
      · exact hgrant
      · have hhand := (airPass_handedOn s).trans (overRecordsAt_handedOn onGrant onGrant_keepsId (airPass s))
        have hservice : (ttGrant (airPass s)).service = s.service := hhand.service
        have hcfg : (ttGrant (airPass s)).cfg = s.cfg := hhand.cfg
        exact ih (hservice.symm ▸ hcfg.symm ▸ hrule) (fun _ => hgrant) (.inr hgrant)
    · exact hpass

/-- An event under a rule that is new to the damper drives it at once (R88). -/
theorem settle_ruled {s : State} {m : DamperMode} {v f : Nat} (hrule : RulesDamper s.service s.cfg m v f) (hnew : s.air.mode ≠ m) :
    DamperDriven m v f (settle s).air := by
  have hair : (selectScene (airLoop 33 s)).air = (airLoop 33 s).air := by
    unfold selectScene
    split <;> rfl
  change DamperDriven m v f (selectScene (airLoop 33 s)).air
  rw [hair]
  exact airLoop_ruled 33 hrule (fun h => absurd h hnew) (.inl (by decide))

theorem damperModeOf_smokeHold_iff (s : State) : damperModeOf s = .smokeHold ↔ s.service.air = .smokeHold := by
  unfold damperModeOf
  split
  · rename_i h; rw [h]; decide
  · rename_i h; rw [h]; decide
  · rename_i h
    rw [h]
    refine ⟨fun hmode => ?_, nofun⟩
    split at hmode
    · split at hmode <;> cases hmode
    · cases hmode

theorem damperModeOf_purge_iff (s : State) : damperModeOf s = .purge ↔ s.service.air = .purge := by
  unfold damperModeOf
  split
  · rename_i h; rw [h]; decide
  · rename_i h; rw [h]; decide
  · rename_i h
    rw [h]
    refine ⟨fun hmode => ?_, nofun⟩
    split at hmode
    · split at hmode <;> cases hmode
    · cases hmode

/-! ### The unit's outcome -/

theorem changeSafety_handedOn (u : Service) (s : State) : HandedOn { s with service := u } (changeSafety u s) := by
  unfold changeSafety
  split
  · rename_i h
    subst h
    exact .refl s
  · exact settle_handedOn _

theorem changeSafety_same {u : Service} {s : State} (h : u = s.service) : changeSafety u s = s := if_pos h

theorem changeSafety_new {u : Service} {s : State} (h : u ≠ s.service) : changeSafety u s = settle { s with service := u } := if_neg h

/-- What a SAFETY that names no new outcome leaves (R154). -/
theorem safety_same {s : State} {u : Service} (h : u = s.service) :
    let t := finishTelegram s (changeSafety u (heard s))
    t.air = s.air ∧ t.light = s.light ∧ t.blind = s.blind ∧ t.tt = s.tt := by
  have hout := finishTelegram_keepsOutputs s (heard s)
  rw [changeSafety_same (s := heard s) h]
  exact ⟨hout.air, hout.light, hout.blind, hout.tt⟩

theorem safety_targetsFormed {s : State} {u : Service} (h : u ≠ s.service) :
    targetsFormed (finishTelegram s (changeSafety u (heard s))) := by
  rw [changeSafety_new (s := heard s) h]
  exact finishTelegram_targetsFormed s (settle_targetsFormed _)

theorem safety_drives {s : State} {u : Service} {m : DamperMode} {v f : Nat} (h : u ≠ s.service) (hrule : RulesDamper u s.cfg m v f)
    (hnew : s.air.mode ≠ m) : DamperDriven m v f (finishTelegram s (changeSafety u (heard s))).air := by
  rw [changeSafety_new (s := heard s) h, (finishTelegram_keepsOutputs s _).air]
  exact settle_ruled (s := { heard s with service := u }) hrule hnew

/-- Under EVACUATE every motor is locked up (R155, R119). -/
theorem safety_locksUp {s : State} {u : Service} (h : u ≠ s.service) (hevacuate : u.evacuate = true) {n : Nat} {c : MotorCfg} {m : Motor}
    (hc : nth1 s.cfg.motors n = some c)
    (hm : nth1 (finishTelegram s (changeSafety u (heard s))).blind.motors n = some m) : isLockedUp m := by
  rw [changeSafety_new (s := heard s) h, (finishTelegram_keepsOutputs s _).blind] at hm
  have hhand := settle_handedOn { heard s with service := u }
  have hcfg : (settle { heard s with service := u }).cfg = s.cfg := hhand.cfg
  have hservice : (settle { heard s with service := u }).service = u := hhand.service
  have hformed := formBlinds_motorsFormed (selectScene (airLoop 33 { heard s with service := u })) n c m (hcfg.symm ▸ hc) hm
  obtain ⟨hlocked, -, -⟩ := hformed
  exact hlocked (blindRow_locked m (.inl (hservice.symm ▸ hevacuate)))

/-! ### The checks of R153 -/

theorem exec_safetySet_reaches {s : State} {h : RxHeader} {rest : List Byte} (hreaches : Reaches s kSafety h (0x00#8 :: rest)) :
    exec (.safetySet h rest) s = .next (finishTelegram s (takeSafety h (0x00#8 :: rest) (heard s))) :=
  congrArg Host.Outcome.next (telegramEvent_reaches hreaches _)

theorem exec_safetyClear_reaches {s : State} {h : RxHeader} {rest : List Byte} (hreaches : Reaches s kSafety h (0x01#8 :: rest)) :
    exec (.safetyClear h rest) s = .next (finishTelegram s (takeSafety h (0x01#8 :: rest) (heard s))) :=
  congrArg Host.Outcome.next (telegramEvent_reaches hreaches _)

theorem namesBothAir_set (marks : Byte) (more : List Byte) :
    namesBothAir (0x00#8 :: marks :: more) = (marks.getLsbD 0 && marks.getLsbD 1) := by
  change (true && marks.getLsbD 0 && marks.getLsbD 1) = _
  rw [Bool.true_and]

theorem namesBothAir_clear (rest : List Byte) : namesBothAir (0x01#8 :: rest) = false := by
  cases rest <;> rfl

theorem takeSafety_set {s : State} {h : RxHeader} {marks : Byte} (hscope : safetyScope s h) (hmarks : marks.toNat % 8 ≠ 0)
    (hboth : (marks.getLsbD 0 && marks.getLsbD 1) = false) :
    takeSafety h [0x00#8, marks] s
      = changeSafety (safetyAfterSet (marks.getLsbD 0) (marks.getLsbD 1) (marks.getLsbD 2) s.service) s := by
  have hcontent : safetyContent h 0x00#8 marks s
      = changeSafety (safetyAfterSet (marks.getLsbD 0) (marks.getLsbD 1) (marks.getLsbD 2) s.service) s := by
    have hscope' : (toOwnGroup s h || toAll h) = true := hscope
    unfold safetyContent
    rw [hscope', if_neg (by decide), if_neg (by decide), if_neg (by decide), if_neg hmarks]
  unfold takeSafety
  rw [namesBothAir_set, hboth, if_neg Bool.false_ne_true]
  exact hcontent

theorem takeSafety_clear {s : State} {h : RxHeader} (marks : Byte) (hscope : safetyScope s h) :
    takeSafety h [0x01#8, marks] s = changeSafety (safetyAfterClear s.service) s := by
  have hcontent : safetyContent h 0x01#8 marks s = changeSafety (safetyAfterClear s.service) s := by
    have hscope' : (toOwnGroup s h || toAll h) = true := hscope
    unfold safetyContent
    rw [hscope', if_neg (by decide), if_pos (by decide)]
  unfold takeSafety
  rw [namesBothAir_clear, if_neg Bool.false_ne_true]
  exact hcontent

theorem safetyContent_stray {s : State} {h : RxHeader} (action marks : Byte) (hscope : ¬ safetyScope s h) :
    safetyContent h action marks s = countUnusable s := by
  have hscope' : (toOwnGroup s h || toAll h) = false := by
    unfold safetyScope at hscope
    rwa [Bool.not_eq_true] at hscope
  unfold safetyContent
  rw [hscope']
  rfl

theorem safetyContent_unmarked {s : State} {h : RxHeader} {marks : Byte} (hmarks : marks.toNat % 8 = 0) :
    safetyContent h 0x00#8 marks s = countUnusable s := by
  unfold safetyContent
  rw [if_pos hmarks]
  split
  · rfl
  · rw [if_neg (by decide), if_neg (by decide)]

/-- A SET that names no two air modes, and fails a later check (R153). -/
theorem takeSafety_set_unusable {s : State} {h : RxHeader} {rest : List Byte}
    (hbad : ∀ m more, rest = m :: more → (m.getLsbD 0 && m.getLsbD 1) = false ∧ (m.toNat % 8 = 0 ∨ more ≠ [] ∨ ¬ safetyScope s h)) :
    takeSafety h (0x00#8 :: rest) s = countUnusable s := by
  cases rest with
  | nil => rfl
  | cons m more =>
    obtain ⟨hboth, hfails⟩ := hbad m more rfl
    unfold takeSafety
    rw [namesBothAir_set, hboth, if_neg Bool.false_ne_true]
    cases more with
    | nil =>
      rcases hfails with hmarks | hlong | hscope
      · exact safetyContent_unmarked hmarks
      · exact absurd rfl hlong
      · exact safetyContent_stray _ _ hscope
    | cons _ _ => rfl

theorem takeSafety_clear_unusable {s : State} {h : RxHeader} {rest : List Byte} (hbad : ∀ m, rest = [m] → ¬ safetyScope s h) :
    takeSafety h (0x01#8 :: rest) s = countUnusable s := by
  unfold takeSafety
  rw [namesBothAir_clear, if_neg Bool.false_ne_true]
  split
  · rename_i m heq
    cases heq
    exact safetyContent_stray _ _ (hbad _ rfl)
  · rfl

/-- Settles O52: the outcome of each order, what it drives, and the checks before it. -/
theorem safetyOrdersTake : Obligations.SafetyOrdersTake := by
  refine ⟨fun s h marks hreaches hscope hmarks hboth => ?_, fun s h marks hreaches hscope => ?_, fun s h marks more hreaches hboth => ?_,
    fun s h rest hreaches hbad => ?_, fun s h rest hreaches hbad => ?_⟩
  · let u : Service := safetyAfterSet (marks.getLsbD 0) (marks.getLsbD 1) (marks.getLsbD 2) s.service
    have htake : takeSafety h [0x00#8, marks] (heard s) = changeSafety u (heard s) := takeSafety_set (s := heard s) hscope hmarks hboth
    rw [exec_safetySet_reaches hreaches, htake]
    have hhand := (changeSafety_handedOn u (heard s)).trans (finishTelegram_handedOn s _)
    have hservice : (finishTelegram s (changeSafety u (heard s))).service = u := hhand.service
    refine ⟨_, rfl, ?_, ?_, ?_, fun hsame => ?_, fun hnew => ?_, fun hsmoke hbefore hmode => ?_, fun hpurge hbefore hmode => ?_,
      fun hevacuate hbefore n c m hc hm => ?_⟩
    · rw [hservice]
      exact hhand
    · rw [hservice]
      rfl
    · rw [hservice]
      rfl
    · exact safety_same (hservice.symm.trans hsame)
    · exact safety_targetsFormed (hservice ▸ hnew)
    · rw [hservice] at hsmoke
      have hnew : u ≠ s.service := fun h => hbefore (h ▸ hsmoke)
      have hmodes : s.air.mode ≠ .smokeHold := fun h => hbefore ((damperModeOf_smokeHold_iff s).mp (hmode.symm.trans h))
      exact (safety_drives hnew (smokeHold_rulesDamper s.cfg hsmoke) hmodes).2
    · rw [hservice] at hpurge
      have hnew : u ≠ s.service := fun h => hbefore (h ▸ hpurge)
      have hmodes : s.air.mode ≠ .purge := fun h => hbefore ((damperModeOf_purge_iff s).mp (hmode.symm.trans h))
      exact (safety_drives hnew (purge_rulesDamper s.cfg hpurge) hmodes).2
    · rw [hservice] at hevacuate
      have hnew : u ≠ s.service := fun h => by rw [h, hbefore] at hevacuate; cases hevacuate
      exact safety_locksUp hnew hevacuate hc hm
  · have htake : takeSafety h [0x01#8, marks] (heard s) = changeSafety (safetyAfterClear s.service) (heard s) :=
      takeSafety_clear (s := heard s) marks hscope
    rw [exec_safetyClear_reaches hreaches, htake]
    refine ⟨_, rfl, (changeSafety_handedOn _ _).trans (finishTelegram_handedOn s _), fun hheld => safety_targetsFormed fun h => ?_,
      fun hair hevacuate => safety_same ?_⟩
    · have hair : s.service.air = .none := by rw [← h]; rfl
      have hevacuate : s.service.evacuate = false := by rw [← h]; rfl
      rcases hheld with h' | h'
      · exact h' hair
      · rw [hevacuate] at h'
        cases h'
    · rw [safetyAfterClear, ← hair, ← hevacuate]
  · have htake : takeSafety h (0x00#8 :: marks :: more) (heard s) = countMalformed (heard s) :=
      if_pos ((namesBothAir_set marks more).trans hboth)
    rw [exec_safetySet_reaches hreaches, htake]
    exact ⟨_, rfl, finishTelegram_handedOn _ _⟩
  · rw [exec_safetySet_reaches hreaches, takeSafety_set_unusable (s := heard s) hbad]
    exact ⟨_, rfl, finishTelegram_handedOn _ _⟩
  · rw [exec_safetyClear_reaches hreaches, takeSafety_clear_unusable (s := heard s) hbad]
    exact ⟨_, rfl, finishTelegram_handedOn _ _⟩

end Sys2Proof.Machine
end

