-- ==== Sys2Proof/Proofs/ServiceOrders.lean ====
section

/-! PROOF. SERVICE: the mask step, the lock step and the restart step (R157, R158, R160), and what a service restart leaves (R43, R181). -/

namespace Sys2Proof.Machine

/-! ### The mask and the lock -/

/-- What is handed on is handed on under any state of the Safety and Service Unit. -/
theorem HandedOn.withService {s t : State} (h : HandedOn s t) (u : Service) :
    HandedOn { s with service := u } { t with service := u } :=
  { phase := h.phase, pins := h.pins, clock := h.clock, station := h.station, listening := h.listening, cfg := h.cfg,
    formatRead := h.formatRead, cal := h.cal, backup := h.backup, captured := h.captured, doors := h.doors, co2 := h.co2,
    halfPasses := h.halfPasses, discardedCo2 := h.discardedCo2, queueLosses := h.queueLosses, peers := h.peers, capacity := h.capacity,
    overflows := h.overflows, lux := h.lux, discardedLux := h.discardedLux, facades := h.facades, service := rfl, faults := h.faults,
    eeprom := h.eeprom, journal := h.journal, imageWait := h.imageWait, freeUsed := h.freeUsed, pending := h.pending, bus := h.bus,
    records := h.records, ids := h.ids, queue := h.queue, count := h.count, announced := h.announced, groupCount := h.groupCount,
    presence := h.presence,
    joins := ⟨h.joins.partitions, h.joins.claimSeq, h.joins.report, h.joins.partnerSeq, h.joins.orphan, h.joins.answered, h.joins.order,
      h.joins.share, h.joins.request⟩ }

/-- A SERVICE carries a mask that differs from the one held (R158). -/
def carriesNewMask (f : ServiceFields) (u : Service) : Prop :=
  f.maskPresent = true ∧ ¬(f.air = u.maskAir ∧ f.light = u.maskLight ∧ f.blind = u.maskBlind)

/-- The unit with the mask that a SERVICE carries. -/
def masked (f : ServiceFields) (u : Service) : Service := { u with maskAir := f.air, maskLight := f.light, maskBlind := f.blind }

/-- The unit with the lock that a SERVICE carries. -/
def withLock (f : ServiceFields) (u : Service) : Service := { u with lock := u.lock || f.lock }

theorem maskStep_noMask {f : ServiceFields} {s : State} (h : ¬ carriesNewMask f s.service) : maskStep f s = s := by
  refine if_pos ?_
  rw [Bool.or_eq_true, Bool.not_eq_true']
  by_cases hpresent : f.maskPresent = true
  · refine .inr ?_
    have hheld : f.air = s.service.maskAir ∧ f.light = s.service.maskLight ∧ f.blind = s.service.maskBlind :=
      not_not.mp (fun hn => h ⟨hpresent, hn⟩)
    simp [maskHeld, hheld]
  · exact .inl (Bool.not_eq_true _ ▸ hpresent)

/-- A mask that differs is not passed over. -/
theorem not_maskPassedOver {f : ServiceFields} {u : Service} (h : carriesNewMask f u) : (!f.maskPresent || maskHeld f u) = false := by
  obtain ⟨hpresent, hdiffers⟩ := h
  rw [hpresent, Bool.not_true, Bool.false_or, Bool.eq_false_iff]
  intro hheld
  simp only [maskHeld, Bool.and_eq_true, beq_iff_eq] at hheld
  obtain ⟨⟨hair, hlight⟩, hblind⟩ := hheld
  exact hdiffers ⟨hair.symm, hlight.symm, hblind.symm⟩

theorem maskStep_refused {f : ServiceFields} {s : State} (h : carriesNewMask f s.service) (hlock : s.service.lock = true) :
    maskStep f s = countRefusal s := by
  unfold maskStep
  rw [not_maskPassedOver h, if_neg Bool.false_ne_true, if_pos hlock]

theorem maskStep_taken {f : ServiceFields} {s : State} (h : carriesNewMask f s.service) (hlock : s.service.lock = false) :
    maskStep f s = settle { s with service := masked f s.service } := by
  unfold maskStep
  rw [not_maskPassedOver h, if_neg Bool.false_ne_true, hlock, if_neg Bool.false_ne_true]
  rfl

theorem maskAndLock_noMask {f : ServiceFields} {u : Service} (h : ¬ carriesNewMask f u) : maskAndLock f u = withLock f u := by
  unfold carriesNewMask at h
  simp only [maskAndLock, h, false_and, if_false, withLock]

theorem maskAndLock_refused {f : ServiceFields} {u : Service} (h : carriesNewMask f u) (hlock : u.lock = true) :
    maskAndLock f u = withLock f { u with refusals := u.refusals + 1 } := by
  unfold carriesNewMask at h
  simp only [maskAndLock, h, hlock, and_true, not_false_eq_true, if_true, withLock, Bool.true_eq_false, and_false, if_false]

theorem maskAndLock_taken {f : ServiceFields} {u : Service} (h : carriesNewMask f u) (hlock : u.lock = false) :
    maskAndLock f u = withLock f (masked f u) := by
  unfold carriesNewMask at h
  simp only [maskAndLock, h, hlock, and_true, not_false_eq_true, if_true, withLock, masked, Bool.false_eq_true, and_false,
    if_false]

/-- The mask and lock steps have done what R158 says, and handed on what a new mask moves. -/
structure StepsTaken (f : ServiceFields) (s x : State) : Prop where
  handed : HandedOn { s with service := maskAndLock f s.service } x
  list : GrantsFollow (calInstant s.cal) s.tt.records x.tt.records
  formed : (maskAndLock f s.service).maskAir ≠ s.service.maskAir ∨ (maskAndLock f s.service).maskLight ≠ s.service.maskLight
    ∨ (maskAndLock f s.service).maskBlind ≠ s.service.maskBlind → targetsFormed x
  same : (maskAndLock f s.service).maskAir = s.service.maskAir → (maskAndLock f s.service).maskLight = s.service.maskLight →
    (maskAndLock f s.service).maskBlind = s.service.maskBlind → x.air = s.air ∧ x.light = s.light ∧ x.blind = s.blind ∧ x.tt = s.tt

/-- Where the mask stays, the two steps change their unit alone. -/
theorem StepsTaken.ofService {f : ServiceFields} {s : State} (hair : (maskAndLock f s.service).maskAir = s.service.maskAir)
    (hlight : (maskAndLock f s.service).maskLight = s.service.maskLight)
    (hblind : (maskAndLock f s.service).maskBlind = s.service.maskBlind) :
    StepsTaken f s { s with service := maskAndLock f s.service } :=
  ⟨.refl _, .refl, fun h => by rcases h with h | h | h <;> contradiction, fun _ _ _ => ⟨rfl, rfl, rfl, rfl⟩⟩

theorem steps_taken (f : ServiceFields) (s : State) : StepsTaken f s (lockStep f (maskStep f s)) := by
  by_cases hmask : carriesNewMask f s.service
  · cases hlock : s.service.lock with
    | true =>
      have hunit := maskAndLock_refused hmask hlock
      have hsteps : lockStep f (maskStep f s) = { s with service := maskAndLock f s.service } := by
        rw [maskStep_refused hmask hlock, hunit]
        rfl
      rw [hsteps]
      exact .ofService (by rw [hunit]; rfl) (by rw [hunit]; rfl) (by rw [hunit]; rfl)
    | false =>
      have hunit := maskAndLock_taken hmask hlock
      have hhand := settle_handedOn { s with service := masked f s.service }
      have hservice : (settle { s with service := masked f s.service }).service = masked f s.service := hhand.service
      have hsteps : lockStep f (maskStep f s)
          = { settle { s with service := masked f s.service } with service := maskAndLock f s.service } := by
        rw [maskStep_taken hmask hlock, hunit, lockStep, hservice]
        rfl
      have htargets := settle_targetsFormed { s with service := masked f s.service }
      rw [hsteps]
      refine ⟨hhand.withService _, ?_, fun _ => ?_, fun hair hlight hblind => ?_⟩
      · obtain ⟨hlist, -⟩ := settle_list (s := { s with service := masked f s.service }) (now := calInstant s.cal) rfl .refl
        exact hlist
      · unfold targetsFormed at htargets ⊢
        rw [hservice] at htargets
        rw [hunit]
        exact htargets
      · rw [hunit] at hair hlight hblind
        exact absurd ⟨hair, hlight, hblind⟩ hmask.2
  · have hunit := maskAndLock_noMask hmask
    have hsteps : lockStep f (maskStep f s) = { s with service := maskAndLock f s.service } := by
      rw [maskStep_noMask hmask, hunit]
      rfl
    rw [hsteps]
    exact .ofService (by rw [hunit]; rfl) (by rw [hunit]; rfl) (by rw [hunit]; rfl)

/-! ### The restart -/

/-- The part as a service restart begins: the timebase at 0, the listen-in running, and the blocks that no image item forms reset (R160). -/
def restartBegun (s : State) : State :=
  restartKept (journalRestart { s with clock := clockZero, listening := true, statusSeq := s.statusSeq.succ })

theorem serviceRestartNow_atOnce {s : State} (h : s.journal.plan = []) :
    serviceRestartNow s = rereadImage (nowOf s) (restartBegun s) := by
  refine if_pos ?_
  change s.journal.plan.isEmpty = true
  rw [h]
  rfl

theorem serviceRestartNow_waits {s : State} (h : s.journal.plan ≠ []) :
    serviceRestartNow s = refreshSession (restartBlocks (nowOf s) s.cfg { restartBegun s with imageWait := true }) := by
  refine if_neg ?_
  change ¬ s.journal.plan.isEmpty = true
  rwa [List.isEmpty_iff]

theorem restartBlocks_restart (old : Stamp) (c : StationConfig) (s : State) : BlocksRestart s (restartBlocks old c s) :=
  ⟨⟨rfl, rfl, rfl⟩, rfl, rfl, ⟨rfl, rfl, rfl, rfl⟩, ⟨rfl, rfl, rfl⟩, ⟨rfl, rfl⟩, ⟨rfl, rfl, rfl, rfl⟩, rfl⟩

/-- What hands on the blocks' first computations leaves them as restarted. -/
theorem BlocksRestart.handedOn {s t u : State} (b : BlocksRestart s t) (h : HandedOn t u) : BlocksRestart s u := by
  obtain ⟨hrelation, hgroup, hfollower, hclaim⟩ := b.join
  obtain ⟨halone, halone', halone''⟩ := Alone.keeps ⟨hrelation, hgroup, hfollower⟩ h.joins
  exact
    { occupancy := by rw [h.presence]; exact b.occupancy
      vacancy := by rw [h.presence]; exact b.vacancy
      doors := by rw [h.presence, h.cfg]; exact b.doors
      presenceCounts := by rw [h.presence]; exact b.presenceCounts
      air := by rw [h.peers, h.capacity, h.overflows]; exact b.air
      lux := by rw [h.lux, h.discardedLux]; exact b.lux
      join := ⟨halone, halone', halone'', h.joins.claimSeq.trans hclaim⟩
      partitions := by rw [h.joins.partitions, h.cfg]; exact b.partitions }

/-- The blocks restart from what a part had of counts, number and lines. -/
theorem BlocksRestart.from {r s t : State} (b : BlocksRestart s t) (hpresence : s.presence.halfPasses = r.presence.halfPasses
      ∧ s.presence.corrections = r.presence.corrections ∧ s.presence.queueLosses = r.presence.queueLosses
      ∧ s.presence.discardedCo2 = r.presence.discardedCo2)
    (hair : s.air.overflows = r.air.overflows) (hlight : s.light.discarded = r.light.discarded) (hstation : s.station = r.station)
    (hpins : s.pins = r.pins) : BlocksRestart r t := by
  obtain ⟨hhalf, hcorrections, hlosses, hdiscarded⟩ := hpresence
  exact
    { occupancy := b.occupancy
      vacancy := b.vacancy
      doors := hpins ▸ b.doors
      presenceCounts := by rw [← hhalf, ← hcorrections, ← hlosses, ← hdiscarded]; exact b.presenceCounts
      air := hair ▸ b.air
      lux := hlight ▸ b.lux
      join := b.join
      partitions := by rw [← hstation, ← hpins]; exact b.partitions }

/-- A restart under some configuration, whose reading the image wait may put off. -/
def restartedUnder (c : StationConfig) (format : Nat) (fault wait : Bool) (s : State) : State :=
  { restartBegun s with cfg := c, formatRead := format, faults := { (restartBegun s).faults with config := fault }, imageWait := wait }

/-- What a service restart leaves, whichever configuration it begins under. -/
theorem restartsAs_of {f : ServiceFields} {s x t : State} {old : Stamp} {c c' : StationConfig} {format : Nat} {fault wait : Bool}
    (hphase : s.phase = .running) (hsteps : StepsTaken f s x)
    (h : HandedOn (restartBlocks old c (restartedUnder c' format fault wait x)) t)
    (hrecords : t.tt.records = x.tt.records.map onRestart) (hsummary : t.tt.summary = summarize t.tt.records)
    (hnow : s.journal.plan = [] → wait = false ∧ c' = (readImage s.eeprom.answers (imageArea s.eeprom.cells)).getD StationConfig.configValues
      ∧ fault = (readImage s.eeprom.answers (imageArea s.eeprom.cells)).isNone
      ∧ format = if imageBlank s.eeprom.answers (imageArea s.eeprom.cells) then 0 else ((imageArea s.eeprom.cells).getD 0 0).toNat)
    (hlater : s.journal.plan ≠ [] → wait = true ∧ c' = s.cfg ∧ fault = s.faults.config ∧ format = s.formatRead) :
    RestartsAs (maskAndLock f s.service) s t := by
  have hx := hsteps.handed
  have hfrom : SameCounts s.bus x.bus := Sends.counts hx.bus
  have hbus : SameCounts (restartBus x.station x.bus) t.bus := Sends.counts h.bus
  have hstation : x.station = s.station := hx.station
  have hfaults : t.faults = { restartFaults s.faults with config := fault } := by
    have hkept : t.faults = { restartFaults x.faults with config := fault } := h.faults
    rw [hkept, hx.faults]
  have hpresence : x.presence = s.presence := hx.presence
  exact
    { toBlocksRestart := (BlocksRestart.handedOn (restartBlocks_restart _ _ _) h).from
        (by rw [← hpresence]; exact ⟨rfl, rfl, rfl, rfl⟩) hx.overflows hx.discardedLux hx.station hx.pins
      running := h.phase.trans (hx.phase.trans hphase)
      pins := h.pins.trans hx.pins
      clock := h.clock
      listening := h.listening
      station := h.station.trans hx.station
      calendar := ⟨h.cal.trans hx.cal, h.backup.trans hx.backup⟩
      captured := h.captured.trans hx.captured
      records := ⟨_, hsteps.list, hrecords⟩
      recordsKept := fun hair hlight hblind => by
        obtain ⟨-, -, -, htt⟩ := hsteps.same hair hlight hblind
        rw [hrecords, htt]
      summary := hsummary
      service := h.service.trans hx.service
      faults := by rw [hfaults]; rfl
      imageNow := fun hplan => by
        obtain ⟨hwait, hcfg, hfault, hformat⟩ := hnow hplan
        exact ⟨h.imageWait.trans hwait, h.cfg.trans hcfg, (congrArg Faults.config hfaults).trans hfault, h.formatRead.trans hformat⟩
      imageLater := fun hplan => by
        obtain ⟨hwait, hcfg, hfault, hformat⟩ := hlater hplan
        exact ⟨h.imageWait.trans hwait, h.cfg.trans hcfg, (congrArg Faults.config hfaults).trans hfault, h.formatRead.trans hformat⟩
      lfsr := by rw [hbus.lfsr, ← hstation]; rfl
      silent := Sends.silent (.inl rfl) h.bus ⟨rfl, rfl⟩
      counts := ⟨hbus.good.trans hfrom.good, hbus.bad.trans hfrom.bad, hbus.malformed.trans hfrom.malformed,
        hbus.unusable.trans hfrom.unusable, hbus.sent.trans hfrom.sent, hbus.collisions.trans hfrom.collisions,
        hbus.duplicates.trans hfrom.duplicates⟩
      eeprom := h.eeprom.trans hx.eeprom
      writes := by
        have hjournal : x.journal = s.journal := hx.journal
        rw [h.journal, ← hjournal]
        exact ⟨rfl, rfl⟩
      pending := h.pending.trans hx.pending }

theorem serviceRestartNow_restarts {f : ServiceFields} {s x : State} (b : State) (hphase : s.phase = .running) (hsteps : StepsTaken f s x) :
    RestartsAs (maskAndLock f s.service) s (finishTelegram b (serviceRestartNow x)) := by
  have hjournal : x.journal = s.journal := hsteps.handed.journal
  have heeprom : x.eeprom = s.eeprom := hsteps.handed.eeprom
  have hend := finishTelegram_handedOn b (serviceRestartNow x)
  have htt : (finishTelegram b (serviceRestartNow x)).tt = (serviceRestartNow x).tt := (finishTelegram_keepsOutputs b _).tt
  by_cases hplan : s.journal.plan = []
  · have hrestart : serviceRestartNow x = rereadImage (nowOf x) (restartBegun x) := serviceRestartNow_atOnce (by rw [hjournal, hplan])
    obtain ⟨hrecords, -, hsummary⟩ := (rereadImage_reads (nowOf x) (restartBegun x)).list
    have hforms : HandedOn (restartBlocks (nowOf x) x.cfg (loadConfiguration { restartBegun x with imageWait := false }))
        (serviceRestartNow x) := by
      rw [hrestart]
      exact firstForms_handedOn _
    refine restartsAs_of hphase hsteps (hforms.trans hend) ?_ ?_ (fun _ => ⟨rfl, ?_, ?_, ?_⟩) (fun h => absurd hplan h)
    · rw [htt, hrestart]
      exact hrecords
    · rw [htt, hrestart]
      exact hsummary
    · rw [← heeprom]
      rfl
    · rw [← heeprom]
      rfl
    · rw [← heeprom]
      rfl
  · have hrestart := serviceRestartNow_waits (s := x) (by rw [hjournal]; exact hplan)
    have hforms : HandedOn (restartBlocks (nowOf x) x.cfg (restartedUnder x.cfg x.formatRead x.faults.config true x))
        (serviceRestartNow x) := by
      rw [hrestart]
      exact refreshSession_handedOn _
    refine restartsAs_of hphase hsteps (hforms.trans hend) ?_ ?_ (fun h => absurd h hplan)
      (fun _ => ⟨rfl, hsteps.handed.cfg, congrArg Faults.config hsteps.handed.faults, hsteps.handed.formatRead⟩)
    · rw [htt, hrestart, refreshSession_tt]
      rfl
    · rw [htt, hrestart, refreshSession_tt]

/-! ### The telegram -/

theorem exec_serviceCommand {c : Instr} {h : RxHeader} {payload : List Byte} {s : State} (hc : c ∈ serviceCommands h payload)
    (hreaches : Reaches s kService h payload) :
    exec c s = .next (finishTelegram s (takeService h payload (heard s))) := by
  have htelegram := telegramEvent_reaches hreaches (takeService h payload)
  simp only [serviceCommands, List.mem_cons, List.not_mem_nil, or_false] at hc
  rcases hc with rfl | rfl | rfl <;> exact congrArg Host.Outcome.next htelegram

/-- A scope the unit takes is not FAÇADE. -/
theorem serviceScope_notFacade {s : State} {h : RxHeader} (hscope : serviceScope s h) : h.scope.toNat ≠ scopeFacade := by
  intro hfacade
  have hnone : (toOwnStation s h || toOwnGroup s h || toAll h) = false := by
    simp [toOwnStation, toOwnGroup, toAll, hfacade, scopeFacade, scopeStation, scopeAirGroup, scopeAll]
  exact Bool.false_ne_true (hnone.symm.trans hscope)

theorem takeService_read {s : State} {h : RxHeader} {payload : List Byte} {f : ServiceFields} (hscope : serviceScope s h)
    (hread : rdService payload = some f) : takeService h payload s = serviceTaken f s := by
  have hscope' : (toOwnStation s h || toOwnGroup s h || toAll h) = true := hscope
  simp only [takeService, serviceScope_notFacade hscope, hread, hscope', if_true, if_false]

theorem takeService_unusable {s : State} {h : RxHeader} {payload : List Byte} (hbad : h.scope.toNat = scopeFacade ∨ payload.length ≠ 1) :
    takeService h payload s = countUnusable s := by
  unfold takeService
  split
  · rfl
  · rename_i hfacade
    have hlength := hbad.resolve_left hfacade
    have hread : rdService payload = none := by
      unfold rdService
      split
      · exact absurd rfl hlength
      · rfl
    rw [hread]

theorem takeService_stray {s : State} {h : RxHeader} {payload : List Byte} (hfacade : h.scope.toNat ≠ scopeFacade)
    (hlength : payload.length = 1) (hscope : ¬ serviceScope s h) : takeService h payload s = s := by
  obtain ⟨b, rfl⟩ := List.length_eq_one_iff.mp hlength
  have hscope' : (toOwnStation s h || toOwnGroup s h || toAll h) = false := by
    unfold serviceScope at hscope
    rwa [Bool.not_eq_true] at hscope
  simp only [takeService, hfacade, rdService, hscope', if_false, Bool.false_eq_true]

theorem restartStep_none {f : ServiceFields} {s : State} (h : f.restart = false) : restartStep f s = s := by
  simp only [restartStep, h, Bool.not_false, if_true]

theorem restartStep_refused {f : ServiceFields} {s : State} (h : f.restart = true) (hlistening : s.listening = true)
    (hclock : s.clock.sec.toNat < 10) : restartStep f s = countRefusal s := by
  simp only [restartStep, h, tooSoon, hlistening, hclock, Bool.not_true, Bool.false_eq_true, if_false, decide_true, Bool.and_self, if_true]

theorem restartStep_taken {f : ServiceFields} {s : State} (h : f.restart = true)
    (hdue : s.listening = false ∨ 10 ≤ s.clock.sec.toNat) : restartStep f s = serviceRestartNow s := by
  have hsoon : tooSoon s = false := by
    rcases hdue with hdue | hdue
    · simp only [tooSoon, hdue, Bool.false_and]
    · simp only [tooSoon, Nat.not_lt.mpr hdue, decide_false, Bool.and_false]
  simp only [restartStep, h, hsoon, Bool.not_true, Bool.false_eq_true, if_false]

/-- Settles O53: the three steps in their order, and the checks before them. -/
theorem serviceOrdersTake : Obligations.ServiceOrdersTake := by
  intro s h payload c hc hreaches
  rw [exec_serviceCommand hc hreaches]
  refine ⟨fun f hscope hread hrestart => ⟨_, rfl, ?_⟩, fun f hscope hread hrestart hlistening hclock => ⟨_, rfl, ?_⟩,
    fun f hscope hread hrestart hdue => ⟨_, rfl, ?_⟩, fun hbad => ⟨_, rfl, ?_⟩, fun hfacade hlength hscope => ⟨_, rfl, ?_⟩⟩
  · have hsteps : StepsTaken f (heard s) (lockStep f (maskStep f (heard s))) := steps_taken f (heard s)
    have htake : takeService h payload (heard s) = lockStep f (maskStep f (heard s)) :=
      (takeService_read (s := heard s) hscope hread).trans (restartStep_none hrestart)
    have hout := finishTelegram_keepsOutputs s (lockStep f (maskStep f (heard s)))
    rw [htake]
    refine ⟨hsteps.handed.trans (finishTelegram_handedOn s _), fun hmasks => finishTelegram_targetsFormed s (hsteps.formed hmasks),
      fun hair hlight hblind => ?_⟩
    obtain ⟨hair', hlight', hblind', htt'⟩ := hsteps.same hair hlight hblind
    exact ⟨hout.air.trans hair', hout.light.trans hlight', hout.blind.trans hblind', hout.tt.trans htt'⟩
  · have hsteps : StepsTaken f (heard s) (lockStep f (maskStep f (heard s))) := steps_taken f (heard s)
    have hhand := hsteps.handed
    have htake : takeService h payload (heard s) = countRefusal (lockStep f (maskStep f (heard s))) := by
      refine (takeService_read (s := heard s) hscope hread).trans (restartStep_refused hrestart ?_ ?_)
      · exact hhand.listening.trans hlistening
      · rw [hhand.clock]
        exact hclock
    have hunit : (lockStep f (maskStep f (heard s))).service = maskAndLock f s.service := hhand.service
    have hcounted := hhand.withService { maskAndLock f s.service with refusals := (maskAndLock f s.service).refusals + 1 }
    rw [htake, countRefusal, hunit]
    exact hcounted.trans (finishTelegram_handedOn s _)
  · have hsteps : StepsTaken f (heard s) (lockStep f (maskStep f (heard s))) := steps_taken f (heard s)
    have hhand := hsteps.handed
    have htake : takeService h payload (heard s) = serviceRestartNow (lockStep f (maskStep f (heard s))) := by
      refine (takeService_read (s := heard s) hscope hread).trans (restartStep_taken hrestart ?_)
      rw [hhand.listening, hhand.clock]
      exact hdue
    rw [htake]
    exact serviceRestartNow_restarts (s := heard s) s hreaches.phase hsteps
  · rw [takeService_unusable hbad]
    exact finishTelegram_handedOn _ _
  · rw [takeService_stray (s := heard s) hfacade hlength hscope]
    exact finishTelegram_handedOn _ _

end Sys2Proof.Machine
end

