-- ==== Sys2Proof/Proofs/TransmitQueues.lean ====
section

/-! PROOF. The transmit queues: how a composed telegram joins them (R173, R174). -/

namespace Sys2Proof.Machine

/-! ### What a queue holds -/

theorem queued_append (a b : List QueueEntry) : queued (a ++ b) = queued a ++ queued b := List.map_append

theorem queued_cons (e : QueueEntry) (l : List QueueEntry) : queued (e :: l) = (e.telegram, e.attempts) :: queued l := rfl

theorem queueOf_setQueue_same (b : Bus) (c : TxClass) (q : List QueueEntry) : queueOf (setQueue b c q) c = q := by
  cases c <;> rfl

theorem queueOf_setQueue_other (b : Bus) {c d : TxClass} (h : d ≠ c) (q : List QueueEntry) :
    queueOf (setQueue b c q) d = queueOf b d := by
  cases c <;> cases d <;> first | rfl | exact absurd rfl h

/-- The entry being sent stands before the waiting ones. -/
theorem sendingOf_append_waitingOf (b : Bus) (c : TxClass) : sendingOf b c ++ waitingOf b c = queueOf b c := by
  unfold sendingOf waitingOf
  split
  · exact List.take_append_drop 1 _
  · rfl

/-- The waiting entries have room exactly where the queue has. -/
theorem waiting_hasRoom_iff (b : Bus) (c : TxClass) :
    (waitingOf b c).length < 8 - (sendingOf b c).length ↔ (queueOf b c).length < 8 := by
  rw [← sendingOf_append_waitingOf b c, List.length_append]
  omega

/-- An attempt that begins clears a backoff, and leaves what the queues hold. -/
theorem beginAttempt_queued (st : Nat) (b : Bus) (c d : TxClass) :
    queued (queueOf (beginAttempt st c b) d) = queued (queueOf b d) ∧ (beginAttempt st c b).dropped = b.dropped := by
  cases c <;> cases d
  · refine ⟨?_, rfl⟩
    cases hq : b.control with
    | nil =>
      have hq' : queueOf (beginAttempt st .control b) .control = [] := by
        simp [beginAttempt, queueOf, setQueue, spendYield, hq]
      rw [hq', queueOf, hq]
    | cons e rest =>
      have hq' : queueOf (beginAttempt st .control b) .control = { e with backoff := 0 } :: rest := by
        simp [beginAttempt, queueOf, setQueue, spendYield, hq]
      rw [hq', queueOf, hq]
      rfl
  · exact ⟨rfl, rfl⟩
  · exact ⟨rfl, rfl⟩
  · refine ⟨?_, rfl⟩
    cases hq : b.routine with
    | nil =>
      have hq' : queueOf (beginAttempt st .routine b) .routine = [] := by
        simp [beginAttempt, queueOf, setQueue, spendYield, hq]
      rw [hq', queueOf, hq]
    | cons e rest =>
      have hq' : queueOf (beginAttempt st .routine b) .routine = { e with backoff := 0 } :: rest := by
        simp [beginAttempt, queueOf, setQueue, spendYield, hq]
      rw [hq', queueOf, hq]
      rfl

/-- Starting a deferral changes the deferral alone. -/
theorem startDeferral_deferral (st : Nat) (li : Bool) (b : Bus) :
    startDeferral st li b = { b with deferral := (startDeferral st li b).deferral } := by
  unfold startDeferral
  split
  · rfl
  · split <;> rfl

theorem startDeferral_queueOf (st : Nat) (li : Bool) (b : Bus) (c : TxClass) : queueOf (startDeferral st li b) c = queueOf b c := by
  rw [startDeferral_deferral]
  cases c <;> rfl

theorem reclassDeferral_queued (st : Nat) (b : Bus) (c : TxClass) :
    queued (queueOf (reclassDeferral st b) c) = queued (queueOf b c) ∧ (reclassDeferral st b).dropped = b.dropped := by
  unfold reclassDeferral
  split
  · split
    · dsimp only
      split
      · exact beginAttempt_queued st b .control c
      · cases c <;> exact ⟨rfl, rfl⟩
    · exact ⟨rfl, rfl⟩
  · exact ⟨rfl, rfl⟩

/-! ### Entering a telegram -/

/-- How a telegram stands among the waiting entries of its class, and whether one was removed or dropped for it. -/
def joined (t : OutTelegram) (b : Bus) : List QueueEntry × Bool :=
  joinQueue (txClassOf t.kind) t (waitingOf b (txClassOf t.kind)) (8 - (sendingOf b (txClassOf t.kind)).length)

/-- A composed telegram joins the queue of its class, behind an entry that is being sent, and leaves the other queue. -/
theorem enqueue_joined {st : Nat} (li : Bool) (t : OutTelegram) (b : Bus) (h : st ≠ 0) :
    queued (queueOf (enqueue st li t b) (txClassOf t.kind))
      = queued (sendingOf b (txClassOf t.kind)) ++ queued (joined t b).1
    ∧ (∀ d, d ≠ txClassOf t.kind → queued (queueOf (enqueue st li t b) d) = queued (queueOf b d))
    ∧ (enqueue st li t b).dropped = if (joined t b).2 then b.dropped + 1 else b.dropped := by
  let x : Bus := setQueue b (txClassOf t.kind) (sendingOf b (txClassOf t.kind) ++ (joined t b).1)
  let y : Bus := if (joined t b).2 then { x with dropped := x.dropped.succ } else x
  have henqueue : enqueue st li t b = reclassDeferral st (startDeferral st li y) := if_neg h
  have hdropped : x.dropped = b.dropped := by
    change (setQueue b (txClassOf t.kind) _).dropped = b.dropped
    cases txClassOf t.kind <;> rfl
  have hqueue (d : TxClass) : queueOf y d = queueOf x d := by
    change queueOf (if (joined t b).2 then { x with dropped := x.dropped.succ } else x) d = _
    split
    · cases d <;> rfl
    · rfl
  have hqueued (d : TxClass) : queued (queueOf (enqueue st li t b) d) = queued (queueOf x d) := by
    obtain ⟨hreclass, -⟩ := reclassDeferral_queued st (startDeferral st li y) d
    rw [henqueue, hreclass, startDeferral_queueOf, hqueue]
  refine ⟨?_, fun d hd => ?_, ?_⟩
  · rw [hqueued, queueOf_setQueue_same, queued_append]
  · rw [hqueued, queueOf_setQueue_other b hd]
  · obtain ⟨-, hreclass⟩ := reclassDeferral_queued st (startDeferral st li y) .control
    rw [henqueue, hreclass, startDeferral_deferral]
    change (if (joined t b).2 then { x with dropped := x.dropped.succ } else x).dropped = _
    split
    · exact congrArg Count16.succ hdropped
    · exact hdropped

/-! ### ROUTINE -/

theorem txClassOf_routine {k : Nat} (h : k = kBookingAnswer ∨ k = kSessionNotice ∨ k = kReport) : txClassOf k = .routine := if_pos h

/-- No telegram of the ROUTINE queue coalesces (R173). -/
theorem not_sameKey_routine {t : OutTelegram} (h : t.kind = kBookingAnswer ∨ t.kind = kSessionNotice ∨ t.kind = kReport)
    (x : OutTelegram) : sameKey x t = false := by
  unfold sameKey
  cases hkind : x.kind == t.kind with
  | false => rfl
  | true =>
    rw [beq_iff_eq.mp hkind]
    rcases h with h | h | h <;> rw [h] <;> rfl

/-- Where no waiting entry has its key, a telegram joins at the tail while there is room, and else the class decides (R173, R174). -/
theorem joinQueue_fresh {c : TxClass} {t : OutTelegram} {w : List QueueEntry} {room : Nat} (h : coalesce t w = none) (hroom : w.length < room) :
    joinQueue c t w room = (w ++ [{ telegram := t, attempts := 0, backoff := 0 }], false) := by
  simp only [joinQueue, h, hroom, if_true]

theorem joinQueue_routineFull {t : OutTelegram} {w : List QueueEntry} {room : Nat} (h : coalesce t w = none) (hfull : ¬ w.length < room) :
    joinQueue .routine t w room = (w.drop 1 ++ [{ telegram := t, attempts := 0, backoff := 0 }], true) := by
  simp only [joinQueue, h, hfull, if_false]

theorem joinQueue_controlFull {t : OutTelegram} {w : List QueueEntry} {room : Nat} (h : coalesce t w = none) (hfull : ¬ w.length < room)
    (hkeep : dropKeep w = none) : joinQueue .control t w room = (w, true) := by
  simp only [joinQueue, h, hfull, hkeep, if_false]

theorem joinQueue_controlKeep {t : OutTelegram} {w v : List QueueEntry} {room : Nat} (h : coalesce t w = none) (hfull : ¬ w.length < room)
    (hkeep : dropKeep w = some v) :
    joinQueue .control t w room = (v ++ [{ telegram := t, attempts := 0, backoff := 0 }], true) := by
  simp only [joinQueue, h, hfull, hkeep, if_false]

theorem joinQueue_coalesces {c : TxClass} {t : OutTelegram} {w v : List QueueEntry} (room : Nat) (h : coalesce t w = some v) :
    joinQueue c t w room = (v, false) := by
  simp only [joinQueue, h]

section
variable {st : Nat} {t : OutTelegram} {b : Bus}

/-- A telegram that finds no entry of its key and room in its queue joins at the tail. -/
theorem enqueue_tail (li : Bool) (hst : st ≠ 0) (hfresh : coalesce t (waitingOf b (txClassOf t.kind)) = none)
    (hroom : (queueOf b (txClassOf t.kind)).length < 8) :
    queued (queueOf (enqueue st li t b) (txClassOf t.kind)) = queued (queueOf b (txClassOf t.kind)) ++ [(t, 0)]
    ∧ (enqueue st li t b).dropped = b.dropped := by
  obtain ⟨hqueue, -, hdropped⟩ := enqueue_joined li t b hst
  have hjoined : joined t b = (waitingOf b (txClassOf t.kind) ++ [{ telegram := t, attempts := 0, backoff := 0 }], false) :=
    joinQueue_fresh hfresh ((waiting_hasRoom_iff b _).mpr hroom)
  refine ⟨?_, by rw [hdropped, hjoined]; rfl⟩
  rw [hqueue, hjoined, ← sendingOf_append_waitingOf b (txClassOf t.kind), queued_append, queued_append, List.append_assoc]
  rfl

/-- A full ROUTINE queue gives up its oldest waiting entry (R174). -/
theorem enqueue_routineFull (li : Bool) (hst : st ≠ 0) (ht : t.kind = kBookingAnswer ∨ t.kind = kSessionNotice ∨ t.kind = kReport)
    (hfull : b.routine.length = 8) :
    queued (enqueue st li t b).routine = queued (sendingOf b .routine) ++ queued ((waitingOf b .routine).drop 1) ++ [(t, 0)]
    ∧ (enqueue st li t b).dropped = b.dropped + 1 := by
  obtain ⟨hqueue, -, hdropped⟩ := enqueue_joined li t b hst
  have hclass := txClassOf_routine ht
  have hjoined : joined t b = ((waitingOf b .routine).drop 1 ++ [{ telegram := t, attempts := 0, backoff := 0 }], true) := by
    unfold joined
    rw [hclass]
    refine joinQueue_routineFull (coalesce_none (fun x _ => not_sameKey_routine ht _)) ?_
    rw [waiting_hasRoom_iff]
    exact fun h => absurd hfull h.ne
  rw [hclass, hjoined, queued_append, ← List.append_assoc] at hqueue
  exact ⟨hqueue, by rw [hdropped, hjoined]; rfl⟩

end

/-! ### CONTROL -/

theorem txClassOf_control {k : Nat} (h : k = kDemand ∨ kJoinClaim ≤ k ∧ k ≤ kJoinOrder) : txClassOf k = .control := by
  refine if_neg ?_
  simp only [kDemand, kJoinClaim, kJoinOrder] at h
  simp only [kBookingAnswer, kSessionNotice, kReport]
  omega

/-- Settles O58: the two queues, with and without room. -/
theorem queuesKeepTheirRules : Obligations.QueuesKeepTheirRules := by
  intro st li t b
  refine ⟨fun h => if_pos h, fun hst ht => ?_, fun hst ht => ?_⟩
  · have hclass := txClassOf_routine ht
    obtain ⟨-, hother, -⟩ := enqueue_joined li t b hst
    refine ⟨hother .control (by rw [hclass]; decide), fun hroom => ?_, fun hfull hsending => ?_, fun hfull hsending => ?_⟩
    · have htail := enqueue_tail (b := b) li hst (coalesce_none (fun x _ => not_sameKey_routine ht _)) (by rw [hclass]; exact hroom)
      rw [hclass] at htail
      exact htail
    · obtain ⟨hqueue, hdropped⟩ := enqueue_routineFull li hst ht hfull
      have hwaiting : waitingOf b .routine = b.routine := if_neg hsending
      have hnone : sendingOf b .routine = [] := if_neg hsending
      rw [hwaiting, hnone] at hqueue
      refine ⟨hqueue.trans ?_, hdropped⟩
      rw [queued, queued, List.map_drop]
      rfl
    · obtain ⟨hqueue, hdropped⟩ := enqueue_routineFull li hst ht hfull
      have hwaiting : waitingOf b .routine = b.routine.drop 1 := if_pos hsending
      have hone : sendingOf b .routine = b.routine.take 1 := if_pos hsending
      rw [hwaiting, hone, List.drop_drop] at hqueue
      refine ⟨hqueue.trans ?_, hdropped⟩
      rw [queued, queued, queued, List.map_drop, List.map_take]
  · have hclass := txClassOf_control ht
    obtain ⟨hqueue, hother, hdropped⟩ := enqueue_joined li t b hst
    rw [hclass] at hqueue
    refine ⟨hother .routine (by rw [hclass]; decide), fun w r hw hfresh => ⟨fun hr hroom => ?_, fun e q hr hsame => ?_,
      fun hr hfull hkeep => ?_, fun u k v hr hfull hsplit hkeep hfirst => ?_⟩⟩
    · have hnone : coalesce t (waitingOf b (txClassOf t.kind)) = none := by
        rw [hclass, hw, hr, List.append_nil]
        exact coalesce_none hfresh
      have htail := enqueue_tail li hst hnone (by rw [hclass]; exact hroom)
      rw [hclass] at htail
      exact htail
    · have hjoined : joined t b = (w ++ { e with telegram := t } :: q, false) := by
        unfold joined
        rw [hclass, hw, hr]
        exact joinQueue_coalesces _ (coalesce_some hfresh hsame)
      rw [hjoined, queued_append, ← List.append_assoc] at hqueue
      exact ⟨hqueue, by rw [hdropped, hjoined]; rfl⟩
    · have hwaiting : waitingOf b .control = w := by rw [hw, hr, List.append_nil]
      have hjoined : joined t b = (w, true) := by
        unfold joined
        rw [hclass, hwaiting]
        refine joinQueue_controlFull (coalesce_none hfresh) ?_ (dropKeep_none hkeep)
        rw [← hwaiting, waiting_hasRoom_iff]
        exact fun h => absurd hfull h.ne
      rw [hjoined, ← queued_append, ← hwaiting, sendingOf_append_waitingOf] at hqueue
      exact ⟨hqueue, by rw [hdropped, hjoined]; rfl⟩
    · have hwaiting : waitingOf b .control = w := by rw [hw, hr, List.append_nil]
      have hjoined : joined t b = (u ++ v ++ [{ telegram := t, attempts := 0, backoff := 0 }], true) := by
        unfold joined
        rw [hclass, hwaiting]
        refine joinQueue_controlKeep (coalesce_none hfresh) ?_ (by rw [hsplit]; exact dropKeep_some hfirst hkeep)
        rw [← hwaiting, waiting_hasRoom_iff]
        exact fun h => absurd hfull h.ne
      rw [hjoined, queued_append, queued_append, ← List.append_assoc, ← List.append_assoc] at hqueue
      exact ⟨hqueue, by rw [hdropped, hjoined]; rfl⟩

end Sys2Proof.Machine
end

