-- ==== Sys2Proof/Proofs/Queries.lean ====
section

/-! PROOF. QUERY: the answers of the reporting path, and how they wait in the ROUTINE queue (R173, R190, R191). -/

namespace Sys2Proof.Machine

/-! ### What waits in the ROUTINE queue -/

/-- The telegrams that the ROUTINE queue holds. -/
def routineTelegrams (b : Bus) : List OutTelegram := b.routine.map (fun e => e.telegram)

theorem routineTelegrams_of_queued {a b : Bus} (h : queued a.routine = queued b.routine) : routineTelegrams a = routineTelegrams b := by
  have hfst (l : List QueueEntry) : (queued l).map Prod.fst = l.map (fun e => e.telegram) := by
    rw [queued, List.map_map]
    rfl
  unfold routineTelegrams
  rw [← hfst, ← hfst, h]

/-- A CONTROL telegram leaves the ROUTINE queue. -/
theorem enqueue_control_routine (st : Nat) (li : Bool) {t : OutTelegram} (ht : txClassOf t.kind = .control) (b : Bus) :
    routineTelegrams (enqueue st li t b) = routineTelegrams b := by
  by_cases hst : st = 0
  · rw [enqueue, if_pos hst]
  · obtain ⟨-, hother, -⟩ := enqueue_joined li t b hst
    exact routineTelegrams_of_queued (hother .routine (by rw [ht]; decide))

/-- A REPORT waits behind what the ROUTINE queue holds, while there is room. -/
theorem enqueue_report_routine {st : Nat} (li : Bool) {t : OutTelegram} {b : Bus} (hst : st ≠ 0) (ht : t.kind = kReport)
    (hroom : b.routine.length < 8) : routineTelegrams (enqueue st li t b) = routineTelegrams b ++ [t] := by
  have hkind : t.kind = kBookingAnswer ∨ t.kind = kSessionNotice ∨ t.kind = kReport := .inr (.inr ht)
  have hclass := txClassOf_routine hkind
  have htail := enqueue_tail (b := b) li hst (coalesce_none (fun x _ => not_sameKey_routine hkind _)) (by rw [hclass]; exact hroom)
  rw [hclass] at htail
  obtain ⟨hqueue, -⟩ := htail
  have happended : queued (enqueue st li t b).routine
      = queued (b.routine ++ [{ telegram := t, attempts := 0, backoff := 0 }]) := by
    rw [queued_append]
    exact hqueue
  have hsame := routineTelegrams_of_queued
    (b := { b with routine := b.routine ++ [{ telegram := t, attempts := 0, backoff := 0 }] }) happended
  rw [hsame]
  exact List.map_append

theorem sendAll_routine {l : List OutTelegram} {s : State} (hl : ∀ t ∈ l, t.kind = kReport) (hst : s.station ≠ 0)
    (hroom : s.bus.routine.length + l.length ≤ 8) : routineTelegrams (sendAll l s).bus = routineTelegrams s.bus ++ l := by
  induction l generalizing s with
  | nil => exact (List.append_nil _).symm
  | cons t rest ih =>
    rw [List.length_cons] at hroom
    have hone : routineTelegrams (send t s).bus = routineTelegrams s.bus ++ [t] :=
      enqueue_report_routine s.listening hst (hl t List.mem_cons_self) (by omega)
    have hlength : (send t s).bus.routine.length = s.bus.routine.length + 1 := by
      have hlengths := congrArg List.length hone
      simpa [routineTelegrams] using hlengths
    have hrest := ih (s := send t s) (fun x hx => hl x (List.mem_cons_of_mem t hx)) hst (by omega)
    rw [sendAll, hrest, hone, List.append_assoc]
    rfl

/-- The JOIN telegram that ends an event is of the CONTROL queue. -/
theorem composeJoin_routine (s : State) : routineTelegrams (composeJoin s).bus = routineTelegrams s.bus := by
  have hsend (p kind : Nat) (payload : List Byte) (x : State) (hkind : txClassOf kind = .control) :
      routineTelegrams (sendJoin p kind payload x).bus = routineTelegrams x.bus := by
    rw [sendJoin_bus]
    exact enqueue_control_routine _ _ hkind _
  unfold composeJoin
  split
  · unfold composeOrder
    split
    · split
      · rfl
      · exact hsend _ _ _ _ rfl
    · rfl
  · split
    · unfold composeState
      split
      · exact hsend _ _ _ _ rfl
      · rfl
    · rfl

theorem finishTelegram_routine (before after : State) :
    routineTelegrams (finishTelegram before after).bus = routineTelegrams after.bus := by
  have hcommit (x : State) : (commit before x).bus = x.bus := by
    unfold commit
    split <;> rfl
  have hdefer : routineTelegrams (deferIfWaiting after).bus = routineTelegrams after.bus :=
    congrArg (List.map fun e : QueueEntry => e.telegram) (startDeferral_queueOf after.station after.listening after.bus .routine)
  change routineTelegrams (commit before (composeJoin (deferIfWaiting after))).bus = _
  rw [hcommit, composeJoin_routine, hdefer]

/-! ### The answers -/

theorem reportTelegrams_kind {dest item page : Nat} {contents : List (List Byte)} {t : OutTelegram}
    (h : t ∈ reportTelegrams dest item page contents) : t.kind = kReport := by
  obtain ⟨x, -, rfl⟩ := List.mem_map.mp h
  rfl

theorem length_numbered {α : Type} (i : Nat) (l : List α) : (numbered i l).length = l.length := by
  induction l generalizing i with
  | nil => rfl
  | cons x rest ih => exact congrArg (· + 1) (ih (i + 1))

theorem sendAll_outputs (l : List OutTelegram) (s : State) :
    (sendAll l s).tt = s.tt ∧ (sendAll l s).air = s.air ∧ (sendAll l s).light = s.light ∧ (sendAll l s).blind = s.blind := by
  induction l generalizing s with
  | nil => exact ⟨rfl, rfl, rfl, rfl⟩
  | cons t rest ih => exact ih (send t s)

/-- The frame that brings a telegram leaves the queues. -/
theorem heard_routine (s : State) : (heard s).bus.routine = s.bus.routine := by
  change (hearFrame s.bus).routine = s.bus.routine
  unfold hearFrame hearStart lineQuiet
  split
  · dsimp only
    split
    · rfl
    · cases ‹Deferral›.cls <;> rfl
  · rfl

/-- A QUERY that reaches the reporting path is answered with the contents the path takes from the state it meets. -/
theorem answeredWith_of {s : State} {h : RxHeader} {q page : Byte} {c : Instr} {item k : Nat} {contents : List (List Byte)}
    (hreaches : Reaches s kQuery h [q, page]) (hexec : exec c s = .next (queryEvent h q page s))
    (htake : takeQuery h [q, page] (heard s) = answerQuery h item k contents (heard s)) : answeredWith s h c item k contents := by
  have hevent : queryEvent h q page s = finishTelegram s (answerQuery h item k contents (heard s)) := by
    rw [← htake]
    exact telegramEvent_reaches hreaches _
  rw [hevent] at hexec
  have hout := finishTelegram_keepsOutputs s (answerQuery h item k contents (heard s))
  obtain ⟨htt, hair, hlight, hblind⟩ := sendAll_outputs (reportTelegrams h.source.toNat item k contents) (heard s)
  refine ⟨_, hexec, (sendAll_handedOn _ (heard s)).trans (finishTelegram_handedOn s _), hout.tt.trans htt, hout.air.trans hair,
    hout.light.trans hlight, hout.blind.trans hblind, fun hst hroom => ?_⟩
  have hlength : (reportTelegrams h.source.toNat item k contents).length = contents.length := by
    rw [reportTelegrams, List.length_map, length_numbered]
  have hsent := sendAll_routine (s := heard s) (fun _ => reportTelegrams_kind) hst (by rw [heard_routine, hlength]; exact hroom)
  have hheard : routineTelegrams (heard s).bus = routineTelegrams s.bus := congrArg (List.map fun e : QueueEntry => e.telegram) (heard_routine s)
  rw [hheard] at hsent
  exact (finishTelegram_routine s _).trans hsent

/-- An item that the table has not, or a page outside its item (R190). -/
theorem takeQuery_unknown (h : RxHeader) {item page : Byte} (s : State)
    (hunknown : asksUnknown item page ∨ item.toNat = 1 ∧ 15 < page.toNat ∨ item.toNat = 2 ∧ 7 < page.toNat) :
    takeQuery h [item, page] s = answerQuery h 0xFF 0 [[item, page]] s := by
  unfold asksUnknown at hunknown
  simp only [takeQuery, itemStatus, itemBookings, itemPeers, itemCounters, itemOutputs, itemIdentity]
  refine (if_neg ?_).trans ((if_neg ?_).trans ((if_neg ?_).trans ((if_neg ?_).trans ((if_neg ?_).trans (if_neg ?_))))) <;> omega

theorem takeQuery_bookings (h : RxHeader) {page : Byte} (s : State) (hpage : page.toNat ≤ 15) :
    takeQuery h [0x01#8, page] s = answerQuery h 1 page.toNat (bookingsPage s page.toNat) s := by
  simp only [takeQuery]
  rw [if_neg (fun h => absurd h.1 (by decide)), if_pos ⟨rfl, hpage⟩]
  rfl

theorem takeQuery_peers (h : RxHeader) {page : Byte} (s : State) (hpage : page.toNat ≤ 7) :
    takeQuery h [0x02#8, page] s = answerQuery h 2 page.toNat (peersPage s page.toNat) s := by
  simp only [takeQuery]
  rw [if_neg (fun h => absurd h.1 (by decide)), if_neg (fun h => absurd h.1 (by decide)), if_pos ⟨rfl, hpage⟩]
  rfl

/-- Settles O55: each item with its pages, and what is outside the table. -/
theorem queriesAreAnswered : Obligations.QueriesAreAnswered := by
  refine ⟨fun s h hreaches => answeredWith_of hreaches rfl rfl, fun s h page hreaches => ⟨fun hpage => ?_, fun hpage => ?_⟩,
    fun s h page hreaches => ⟨fun hpage => ?_, fun hpage => ?_⟩, fun s h hreaches => answeredWith_of hreaches rfl rfl,
    fun s h hreaches => answeredWith_of hreaches rfl rfl, fun s h hreaches => answeredWith_of hreaches rfl rfl,
    fun s h item page hreaches hunknown => answeredWith_of hreaches rfl (takeQuery_unknown h _ (.inl hunknown))⟩
  · exact answeredWith_of hreaches rfl (takeQuery_bookings h (heard s) hpage)
  · exact answeredWith_of hreaches rfl (takeQuery_unknown h _ (.inr (.inl ⟨rfl, hpage⟩)))
  · exact answeredWith_of hreaches rfl (takeQuery_peers h (heard s) hpage)
  · exact answeredWith_of hreaches rfl (takeQuery_unknown h _ (.inr (.inr ⟨rfl, hpage⟩)))

end Sys2Proof.Machine
end

