-- ==== Sys2Proof/Proofs/Frames.lean ====
section

/-! PROOF. Frames: the telegram that characters hold, what the filter makes of it, and the command it acts as (R168 to R172). -/

namespace Sys2Proof.Machine

/-! ### Characters and telegrams (R168) -/

theorem goodChars_data (l : List Byte) : (goodChars l).map (fun c => c.data) = l := by
  induction l with
  | nil => rfl
  | cons b rest ih => exact congrArg (b :: ·) ih

theorem goodChars_wellFramed (l : List Byte) : (goodChars l).any (fun c => c.framingError) = false := by
  induction l with
  | nil => rfl
  | cons b rest ih => exact ih

/-- A telegram as R168 frames it is read back. -/
theorem parseFrame_framed (b0 b1 b2 : Byte) {payload : List Byte} (h : payload.length ≤ 24) :
    parseFrame (goodChars ([b0, b1, b2, byteOf payload.length] ++ payload
      ++ be2 (crc16 ([b0, b1, b2, byteOf payload.length] ++ payload)).toNat)) = some (telegramOf b0 b1 b2 payload) := by
  have hlength : (byteOf payload.length).toNat = payload.length := by
    rw [toNat_byteOf]
    exact Nat.mod_eq_of_lt (by omega)
  unfold parseFrame
  rw [goodChars_wellFramed, goodChars_data, if_neg Bool.false_ne_true]
  simp only [List.cons_append, List.nil_append, hlength]
  rw [if_neg (by omega), if_neg (by rw [List.length_append]; exact fun h => h rfl), List.take_left, List.drop_left, if_pos rfl]

/-- What the characters of a telegram are. -/
theorem parseFrame_some {frame : List RxChar} {x : Telegram} (h : parseFrame frame = some x) :
    (∀ c ∈ frame, c.framingError = false) ∧ x.payload.length ≤ 24 ∧ frame.length = 6 + x.payload.length := by
  unfold parseFrame at h
  split at h
  · cases h
  · rename_i hframing
    split at h
    · rename_i b0 b1 b2 b3 rest hdata
      split at h
      · cases h
      · split at h
        · cases h
        · rename_i hshort hlength
          rw [not_not] at hlength
          dsimp only at h
          split at h
          · cases h
            have hpayload : (rest.take b3.toNat).length = b3.toNat := by
              rw [List.length_take, hlength]
              omega
            have hchars : frame.length = rest.length + 4 := by
              rw [← List.length_map (fun c : RxChar => c.data), hdata]
              rfl
            refine ⟨fun c hc => ?_, ?_, ?_⟩
            · rw [Bool.not_eq_true, List.any_eq_false] at hframing
              exact Bool.not_eq_true _ ▸ hframing c hc
            · change (rest.take b3.toNat).length ≤ 24
              omega
            · change frame.length = 6 + (rest.take b3.toNat).length
              omega
          · cases h
    · cases h

/-! ### The event of a frame (R167 to R169) -/

theorem hearFrame_sameCounts (b : Bus) : SameCounts b (hearFrame b) := by
  unfold hearFrame hearStart lineQuiet
  split
  · dsimp only
    split
    · constructor <;> rfl
    · cases ‹Deferral›.cls <;> constructor <;> rfl
  · constructor <;> rfl

/-- The two commands that carry a frame of characters. -/
theorem exec_frame {c : Instr} {frame : List RxChar} (hc : c = .unhandledTelegram frame ∨ c = .idleEvent (some frame)) (s : State) :
    exec c s = .next (charsEvent frame s) := by
  rcases hc with rfl | rfl <;> rfl

theorem frameEvent_deaf {s : State} (h : powered s = false ∨ s.bus.sending.isSome = true) (hand : State → State) (t : Option Telegram) :
    frameEvent hand t s = s := by
  refine if_pos ?_
  rcases h with h | h <;> rw [h]
  · rfl
  · exact Bool.or_true _

theorem frameEvent_heard {s : State} (hpowered : powered s = true) (hsending : s.bus.sending = none) (hand : State → State)
    (t : Option Telegram) : frameEvent hand t s = finishTelegram s (takeFrame hand t s) :=
  if_neg (by rw [hpowered, hsending]; decide)

theorem charsEvent_frameEvent (frame : List RxChar) (s : State) :
    ∃ hand, charsEvent frame s = frameEvent hand (parseFrame frame) s := by
  unfold charsEvent
  cases parseFrame frame with
  | none => exact ⟨_, rfl⟩
  | some t => exact ⟨_, rfl⟩

theorem charsEvent_bad {s : State} {frame : List RxChar} (hpowered : powered s = true) (hsending : s.bus.sending = none)
    (hown : s.bus.ownFrame = false) (hbad : parseFrame frame = none) :
    charsEvent frame s = finishTelegram s (countBad { s with bus := hearFrame s.bus }) := by
  unfold charsEvent
  rw [hbad]
  refine (frameEvent_heard hpowered hsending _ _).trans (congrArg (finishTelegram s) ?_)
  unfold takeFrame
  rw [hown]
  rfl

theorem charsEvent_parsed {s : State} {frame : List RxChar} {x : Telegram} (hpowered : powered s = true) (hsending : s.bus.sending = none)
    (hown : s.bus.ownFrame = false) (hparse : parseFrame frame = some x) :
    charsEvent frame s = finishTelegram s (filterTelegram (handTelegram x) x { s with bus := hearFrame s.bus }) := by
  unfold charsEvent
  rw [hparse]
  refine (frameEvent_heard hpowered hsending _ _).trans (congrArg (finishTelegram s) ?_)
  unfold takeFrame
  rw [hown]
  rfl

/-- A telegram that the filter stops is counted by its verdict. -/
theorem filterTelegram_stopped {s : State} {x : Telegram} (hand : State → State) (h : verdict s x ≠ .passed) :
    filterTelegram hand x { s with bus := hearFrame s.bus } = countVerdict (verdict s x) { s with bus := hearFrame s.bus } := by
  unfold filterTelegram
  rw [verdict_hearFrame, if_neg (fun hpassed => h hpassed.1)]

/-- A telegram that passes before the start has completed is set aside (R180, R181). -/
theorem filterTelegram_early {s : State} {x : Telegram} (hand : State → State) (h : verdict s x = .passed)
    (hearly : s.phase ≠ .running ∨ s.imageWait = true) :
    filterTelegram hand x { s with bus := hearFrame s.bus } = heard s := by
  have htakes : takesTelegrams { s with bus := hearFrame s.bus } = false := by
    change (s.phase == .running && !s.imageWait) = false
    rcases hearly with hphase | hwait
    · rw [beq_eq_false_iff_ne.mpr hphase, Bool.false_and]
    · rw [hwait, Bool.not_true, Bool.and_false]
  unfold filterTelegram
  rw [verdict_hearFrame, h, htakes, if_neg (fun hboth => Bool.false_ne_true hboth.2)]
  rfl

/-- A telegram that passes goes to its block. -/
theorem filterTelegram_passed {s : State} {x : Telegram} (hand : State → State) (h : verdict s x = .passed)
    (hphase : s.phase = .running) (hwait : s.imageWait = false) :
    filterTelegram hand x { s with bus := hearFrame s.bus } = hand (heard s) := by
  have htakes : takesTelegrams { s with bus := hearFrame s.bus } = true := by
    change (s.phase == .running && !s.imageWait) = true
    rw [hphase, hwait]
    rfl
  unfold filterTelegram
  rw [verdict_hearFrame, h, htakes, if_pos ⟨rfl, rfl⟩]
  rfl

/-! ### The command a telegram acts as -/

/-- A frame that holds a telegram acts as the command that carries it. -/
theorem exec_frame_as {s : State} {c i : Instr} {frame : List RxChar} {kind : Nat} {h : RxHeader} {payload : List Byte}
    {hand : State → State} (hc : c = .unhandledTelegram frame ∨ c = .idleEvent (some frame))
    (hparse : parseFrame frame = some { kind := kind, hdr := h, payload := payload })
    (hi : exec i s = .next (telegramEvent kind h payload hand s))
    (hhand : handTelegram { kind := kind, hdr := h, payload := payload } = hand) : exec c s = exec i s := by
  obtain ⟨-, hfits, -⟩ := parseFrame_some hparse
  have hfits' : payloadFits payload = true := decide_eq_true hfits
  rw [exec_frame hc, hi]
  unfold charsEvent telegramEvent
  rw [hparse, hfits', ← hhand]
  rfl

/-- The telegrams whose kind is a command. -/
theorem exec_frame_telegram {s : State} {c i : Instr} {frame : List RxChar} {x : Telegram}
    (hc : c = .unhandledTelegram frame ∨ c = .idleEvent (some frame)) (hparse : parseFrame frame = some x)
    (hi : (x.kind, i) ∈ telegramCommands x) : exec c s = exec i s := by
  obtain ⟨kind, h, payload⟩ := x
  simp only [telegramCommands, List.mem_cons, Prod.mk.injEq, List.not_mem_nil, or_false] at hi
  rcases hi with ⟨rfl, rfl⟩ | ⟨rfl, rfl⟩ | ⟨rfl, rfl⟩ | ⟨rfl, rfl⟩ | ⟨rfl, rfl⟩ | ⟨rfl, rfl⟩ | ⟨rfl, rfl⟩ | ⟨rfl, rfl⟩ | ⟨rfl, rfl⟩
    | ⟨rfl, rfl⟩ | ⟨rfl, rfl⟩ | ⟨rfl, rfl⟩ | ⟨rfl, rfl⟩ | ⟨rfl, rfl⟩ | ⟨rfl, rfl⟩
  all_goals exact exec_frame_as hc hparse rfl rfl

/-- The telegrams whose kind and first bytes are a command. -/
theorem exec_frame_coded {s : State} {c i : Instr} {frame : List RxChar} {x : Telegram}
    (hc : c = .unhandledTelegram frame ∨ c = .idleEvent (some frame)) (hparse : parseFrame frame = some x)
    (hi : (x.kind, x.payload, i) ∈ codedCommands x) : exec c s = exec i s := by
  obtain ⟨kind, h, payload⟩ := x
  have hread {k : Nat} {p : List Byte} (hk : kind = k) (hp : payload = p) :
      parseFrame frame = some { kind := k, hdr := h, payload := p } := by
    rw [hparse, hk, hp]
  simp only [codedCommands, List.mem_cons, Prod.mk.injEq, List.not_mem_nil, or_false] at hi
  rcases hi with ⟨hk, hp, rfl⟩ | ⟨hk, hp, rfl⟩ | ⟨hk, hp, rfl⟩ | ⟨hk, hp, rfl⟩ | ⟨hk, hp, rfl⟩ | ⟨hk, hp, rfl⟩ | ⟨hk, hp, rfl⟩
    | ⟨hk, hp, rfl⟩ | ⟨hk, hp, rfl⟩ | ⟨hk, hp, rfl⟩ | ⟨hk, hp, rfl⟩ | ⟨hk, hp, rfl⟩
  all_goals exact exec_frame_as hc (hread hk hp) rfl rfl

/-- A QUERY outside the table acts as the one of an unknown item, whatever command the table names for its item. -/
theorem exec_frame_query {s : State} {c : Instr} {frame : List RxChar} {x : Telegram} {item page : Byte}
    (hc : c = .unhandledTelegram frame ∨ c = .idleEvent (some frame)) (hparse : parseFrame frame = some x) (hkind : x.kind = kQuery)
    (hpayload : x.payload = [item, page]) : exec c s = exec (.queryUnknownItem x.hdr item page) s := by
  obtain ⟨kind, h, payload⟩ := x
  obtain rfl : kind = kQuery := hkind
  obtain rfl : payload = [item, page] := hpayload
  exact exec_frame_as hc hparse rfl rfl

/-! ### Content that stands for no command -/

/-- A PANEL of an unknown subtype, or of another length than its subtype's. -/
theorem rdPanel_unlisted {payload : List Byte} (zones : List ZoneCfg)
    (h : ∀ sub rest, payload = sub :: rest → 3 < sub.toNat ∨ rest.length ≠ [1, 5, 3, 0].getD sub.toNat 0) :
    rdPanel zones payload = none := by
  have hother {sub : Byte} {rest : List Byte} {k : Nat} (hp : payload = sub :: rest) (hk : k ≤ 3)
      (hlength : rest.length = [1, 5, 3, 0].getD k 0) : sub.toNat ≠ k := by
    rintro rfl
    rcases h sub rest hp with h | h
    · omega
    · exact h hlength
  unfold rdPanel
  split
  · exact if_neg (hother rfl (le_refl _) rfl)
  · exact if_neg (fun hsub => hother rfl (by decide) rfl hsub.1)
  · exact if_neg (hother rfl (by decide) rfl)
  · exact if_neg (hother rfl (by decide) rfl)
  · rfl

theorem takeSafety_unlisted {s : State} {h : RxHeader} {payload : List Byte}
    (hbad : ∀ action marks more, payload = action :: marks :: more →
      1 < action.toNat ∨ more ≠ [] ∧ (action.toNat = 0 → (marks.getLsbD 0 && marks.getLsbD 1) = false)) :
    takeSafety h payload s = countUnusable s := by
  match payload, hbad with
  | [], _ => rfl
  | [_], _ => rfl
  | action :: marks :: more, hbad =>
    have hfails := hbad action marks more rfl
    have hboth : namesBothAir (action :: marks :: more) = false := by
      change (action.toNat == 0 && marks.getLsbD 0 && marks.getLsbD 1) = false
      rw [Bool.and_assoc]
      rcases hfails with hcode | ⟨-, hmarks⟩
      · rw [beq_eq_false_iff_ne.mpr (by omega), Bool.false_and]
      · by_cases hset : action.toNat = 0
        · rw [hmarks hset, Bool.and_false]
        · rw [beq_eq_false_iff_ne.mpr hset, Bool.false_and]
    unfold takeSafety
    rw [hboth, if_neg Bool.false_ne_true]
    cases more with
    | cons _ _ => rfl
    | nil =>
      have hcode : 1 < action.toNat := hfails.resolve_right (fun h => h.1 rfl)
      dsimp only
      unfold safetyContent
      split
      · rfl
      · rw [if_neg (by omega), if_pos (by omega)]

theorem takeQuery_unlisted {s : State} {h : RxHeader} {payload : List Byte} (hlength : payload.length ≠ 2) :
    takeQuery h payload s = countUnusable s := by
  unfold takeQuery
  split
  · exact absurd rfl hlength
  · rfl

theorem handTelegram_unusable {s : State} {x : Telegram} (h : contentUnusable s x) : handTelegram x (heard s) = heardUnusable s := by
  obtain ⟨kind, hdr, payload⟩ := x
  rcases h with ⟨hkind, hscope, hbad⟩ | ⟨hkind, hbad⟩ | ⟨hkind, hlength⟩
  · obtain rfl : kind = kPanel := hkind
    exact takePanel_unusable hscope (rdPanel_unlisted _ hbad)
  · obtain rfl : kind = kSafety := hkind
    exact takeSafety_unlisted (s := heard s) hbad
  · obtain rfl : kind = kQuery := hkind
    exact takeQuery_unlisted (s := heard s) hlength

/-- A kind that no block of the part takes is set aside (R171). -/
theorem handTelegram_aside {x : Telegram} (h : x.kind = kBookingAnswer ∨ x.kind = kSessionNotice ∨ x.kind = kReport) (s : State) :
    handTelegram x s = s := by
  obtain ⟨kind, hdr, payload⟩ := x
  rcases h with h | h | h <;> obtain rfl := h <;> rfl

/-- Settles O56: the verdict on each frame, and the command that a telegram acts as. -/
theorem framesAreJudged : Obligations.FramesAreJudged := by
  refine ⟨fun b0 b1 b2 payload hlength => parseFrame_framed b0 b1 b2 hlength, fun frame x hparse => parseFrame_some hparse,
    fun s frame c hc => ⟨fun hdeaf => ?_, fun hpowered hsending hown => ?_,
      fun hpowered hsending hown => ⟨fun hbad => ?_, fun x hparse => ?_⟩,
      fun x i hparse hi => exec_frame_telegram hc hparse hi, fun x i hparse hi => exec_frame_coded hc hparse hi,
      fun x item page hparse hkind hpayload _ => exec_frame_query hc hparse hkind hpayload⟩⟩
  · obtain ⟨hand, hevent⟩ := charsEvent_frameEvent frame s
    rw [exec_frame hc, hevent, frameEvent_deaf hdeaf]
  · obtain ⟨hand, hevent⟩ := charsEvent_frameEvent frame s
    have htake : takeFrame hand (parseFrame frame) s = { s with bus := hearFrame s.bus } := if_pos hown
    rw [exec_frame hc, hevent, frameEvent_heard hpowered hsending, htake]
    exact ⟨_, rfl, finishTelegram_handedOn _ _⟩
  · have hcount := (hearFrame_sameCounts s.bus).bad
    rw [exec_frame hc, charsEvent_bad hpowered hsending hown hbad, ← hcount]
    exact ⟨_, rfl, finishTelegram_handedOn _ _⟩
  · have hcounts := hearFrame_sameCounts s.bus
    rw [exec_frame hc, charsEvent_parsed hpowered hsending hown hparse]
    have hstopped {v : Verdict} (hv : verdict s x = v) (hnot : v ≠ .passed) :
        filterTelegram (handTelegram x) x { s with bus := hearFrame s.bus } = countVerdict v { s with bus := hearFrame s.bus } := by
      rw [filterTelegram_stopped _ (hv ▸ hnot), hv]
    refine ⟨fun hv => ?_, fun hv => ?_, fun hv => ?_, fun hv => ?_, fun hv hset => ?_, fun hv hphase hwait hbad => ?_⟩
    · rw [hstopped hv (by decide), ← hcounts.malformed]
      exact ⟨_, rfl, finishTelegram_handedOn _ _⟩
    · rw [hstopped hv (by decide)]
      exact ⟨_, rfl, finishTelegram_handedOn _ _⟩
    · rw [hstopped hv (by decide)]
      exact ⟨_, rfl, finishTelegram_handedOn _ _⟩
    · rw [hstopped hv (by decide), ← hcounts.duplicates]
      exact ⟨_, rfl, finishTelegram_handedOn _ _⟩
    · have hpassed : filterTelegram (handTelegram x) x { s with bus := hearFrame s.bus } = heard s := by
        by_cases hearly : s.phase ≠ .running ∨ s.imageWait = true
        · exact filterTelegram_early _ hv hearly
        · rw [not_or, not_not, Bool.not_eq_true] at hearly
          obtain ⟨hphase, hwait⟩ := hearly
          have hkind : x.kind = kBookingAnswer ∨ x.kind = kSessionNotice ∨ x.kind = kReport := by
            rcases hset with h | h | h
            · exact absurd hphase h
            · rw [hwait] at h
              cases h
            · exact h
          rw [filterTelegram_passed _ hv hphase hwait, handTelegram_aside hkind]
      rw [hpassed]
      exact ⟨_, rfl, finishTelegram_handedOn _ _⟩
    · rw [filterTelegram_passed _ hv hphase hwait, handTelegram_unusable hbad]
      exact ⟨_, rfl, finishTelegram_handedOn _ _⟩

end Sys2Proof.Machine
end

