-- ==== Sys2Proof/Proofs/WingBus.lean ====
section

/-! PROOF. The line and the attempts: deferrals, the frame an attempt sends, its outcomes, and the backoff generator (R167, R175 to R177). -/

namespace Sys2Proof.Machine

/-! ### Deferrals (R175) -/

/-- Where the station may not transmit, or nothing waits, no deferral starts. -/
theorem startDeferral_stays {s : State} {b : Bus} (h : maySpeak s = false ∨ b.control = [] ∧ b.routine = []) :
    startDeferral s.station s.listening b = b := by
  unfold startDeferral
  split
  · rfl
  · rename_i hmay
    rcases h with h | ⟨hcontrol, hroutine⟩
    · refine absurd ?_ hmay
      have hsilent : (s.listening || s.station == 0) = true := by
        unfold maySpeak at h
        revert h
        cases s.listening <;> cases hst : s.station == 0 <;> simp [bne, hst]
      simp only [hsilent, Bool.true_or]
    · simp only [headClass, hcontrol, hroutine, ne_eq, not_true_eq_false, if_false]

/-- On an idle line the head of the queues begins its deferral. -/
theorem startDeferral_begins {s : State} {b : Bus} {c : TxClass} (hspeak : maySpeak s = true) (hidle : b.lineIdle = true)
    (hdeferral : b.deferral = none) (hsending : b.sending = none) (hhead : headClass b = some c) :
    (startDeferral s.station s.listening b).deferral = some { cls := c, elapsed := 0, len := deferralLength s.station b c } := by
  unfold maySpeak at hspeak
  rw [Bool.and_eq_true, Bool.not_eq_true', bne_iff_ne] at hspeak
  obtain ⟨hlistening, hstation⟩ := hspeak
  unfold startDeferral
  rw [if_neg, hhead]
  rw [hlistening, beq_eq_false_iff_ne.mpr hstation, hidle, hdeferral, hsending]
  decide

/-- The quiet that ends a frame leaves what a deferral is counted from. -/
theorem deferralLength_lineQuiet (station : Nat) (b : Bus) (c : TxClass) :
    deferralLength station (lineQuiet b) c = deferralLength station b c := by
  cases c <;> rfl

theorem exec_idleEvent_none {s : State} (hpowered : powered s = true) (hsending : s.bus.sending = none) (hbusy : s.bus.lineIdle = false) :
    exec (.idleEvent none) s = .next (deferIfWaiting { s with bus := lineQuiet s.bus }) :=
  congrArg Host.Outcome.next (if_neg (by rw [hpowered, hsending, hbusy]; decide))

/-- The idle event on a line in use: the line is idle, and a deferral may have started. -/
theorem idleEvent_quiets (s : State) :
    let t := deferIfWaiting { s with bus := lineQuiet s.bus }
    t = { s with bus := { s.bus with
      lineIdle := true, ownFrame := false, rxInProgress := false, quiet := t.bus.quiet, deferral := t.bus.deferral } } := by
  intro t
  have hbus : t.bus = { lineQuiet s.bus with deferral := t.bus.deferral } := startDeferral_deferral s.station s.listening (lineQuiet s.bus)
  have hquiet : t.bus.quiet = 0 := by rw [hbus]; rfl
  rw [hquiet]
  exact congrArg (fun b => { s with bus := b }) hbus

theorem exec_startBit_taken {s : State} (hpowered : powered s = true) (hsending : s.bus.sending = none) :
    exec .startBit s = .next { s with bus := hearStart s.bus } :=
  congrArg Host.Outcome.next (if_pos (by rw [hpowered, hsending]; rfl))

/-- A start bit cancels a deferral and spends the yield of its class (R175, R176). -/
theorem hearStart_spends (b : Bus) :
    hearStart b = { b with deferral := none, lineIdle := false, rxInProgress := true, quiet := (hearStart b).quiet,
                           yieldControl := (hearStart b).yieldControl, yieldRoutine := (hearStart b).yieldRoutine }
    ∧ (hearStart b).yieldControl = (b.yieldControl && decide (b.deferral.map (fun d => d.cls) ≠ some .control))
    ∧ (hearStart b).yieldRoutine = (b.yieldRoutine && decide (b.deferral.map (fun d => d.cls) ≠ some .routine)) := by
  unfold hearStart
  cases b.deferral with
  | none => exact ⟨rfl, (Bool.and_true _).symm, (Bool.and_true _).symm⟩
  | some d =>
    obtain ⟨cls, since, len⟩ := d
    cases cls
    · exact ⟨rfl, (Bool.and_false _).symm, (Bool.and_true _).symm⟩
    · exact ⟨rfl, (Bool.and_true _).symm, (Bool.and_false _).symm⟩

/-! ### The attempt (R173, R177) -/

theorem exec_deferralExpiry_due {s : State} {d : Deferral} (hpowered : powered s = true) (hidle : s.bus.lineIdle = true)
    (hspeak : maySpeak s = true) (hsending : s.bus.sending = none) (hd : s.bus.deferral = some d) (hdue : d.len ≤ d.elapsed) :
    exec .deferralExpiry s = .next { s with bus := beginAttempt s.station d.cls s.bus } := by
  have hcls : deferralDue s = some d.cls := by
    unfold deferralDue
    rw [hpowered, hidle, hspeak, hsending, hd]
    exact if_pos hdue
  change Host.Outcome.next (match deferralDue s with | none => s | some c => { s with bus := beginAttempt s.station c s.bus }) = _
  rw [hcls]

/-- An attempt that begins puts the head of its queue on the line, and touches no other class. -/
theorem beginAttempt_begins {st : Nat} {b : Bus} {c : TxClass} {e : QueueEntry} {rest : List QueueEntry} (hq : queueOf b c = e :: rest) :
    (beginAttempt st c b).sending = some c ∧ (beginAttempt st c b).deferral = none ∧ yieldOf (beginAttempt st c b) c = false
    ∧ queueOf (beginAttempt st c b) c = { e with backoff := 0 } :: rest ∧ (beginAttempt st c b).frame = frameOf st e.telegram
    ∧ ∀ x, x ≠ c → queueOf (beginAttempt st c b) x = queueOf b x ∧ yieldOf (beginAttempt st c b) x = yieldOf b x := by
  have hframe : (beginAttempt st c b).frame = frameOf st e.telegram := by
    change headFrame st b c = _
    unfold headFrame
    rw [hq]
  refine ⟨rfl, rfl, ?_, ?_, hframe, fun x hx => ?_⟩
  · cases c <;> rfl
  · cases c <;> simp only [queueOf] at hq <;> simp only [beginAttempt, queueOf, setQueue, spendYield, hq]
  · cases c <;> cases x <;> first | exact absurd rfl hx | exact ⟨rfl, rfl⟩

theorem exec_transmitComplete_sent {s : State} {c : TxClass} (hpowered : powered s = true) (hsending : s.bus.sending = some c) :
    exec .transmitComplete s = .next { s with bus := sendDone c s.bus } := by
  change Host.Outcome.next (match s.bus.sending with
    | none => s
    | some c => if powered s then { s with bus := sendDone c s.bus } else s) = _
  rw [hsending, hpowered]
  rfl

/-- A telegram that is sent leaves its queue, and its class owes the yield. -/
theorem sendDone_sent {b : Bus} {c : TxClass} {e : QueueEntry} {rest : List QueueEntry} (hq : queueOf b c = e :: rest) :
    (sendDone c b).sending = none ∧ (sendDone c b).frame = [] ∧ queueOf (sendDone c b) c = rest ∧ yieldOf (sendDone c b) c = true
    ∧ (sendDone c b).sent = b.sent + 1
    ∧ ∀ x, x ≠ c → queueOf (sendDone c b) x = queueOf b x ∧ yieldOf (sendDone c b) x = yieldOf b x := by
  refine ⟨rfl, rfl, ?_, ?_, rfl, fun x hx => ?_⟩
  · cases c <;> exact congrArg (List.drop 1) hq
  · cases c <;> rfl
  · cases c <;> cases x <;> first | exact absurd rfl hx | exact ⟨rfl, rfl⟩

theorem exec_collision_stopped {s : State} {c : TxClass} (hpowered : powered s = true) (hsending : s.bus.sending = some c) :
    exec .collision s = .next { s with bus := collide c s.bus } := by
  change Host.Outcome.next (match s.bus.sending with
    | none => s
    | some c => if powered s then { s with bus := collide c s.bus } else s) = _
  rw [hsending, hpowered]
  rfl

/-- What a collision does to its queue, the count of drops and the generator. -/
theorem collide_stops (b : Bus) (c : TxClass) :
    (collide c b).sending = none ∧ (collide c b).frame = [] ∧ (collide c b).collisions = b.collisions + 1
    ∧ (∀ x, x ≠ c → queueOf (collide c b) x = queueOf b x)
    ∧ queueOf (collide c b) c
      = collidedQueue (backoffOf (if lastAttempt (queueOf b c) then b.lfsr else lfsrStep b.lfsr)) (queueOf b c)
    ∧ (collide c b).dropped = (if lastAttempt (queueOf b c) then b.dropped + 1 else b.dropped)
    ∧ (collide c b).lfsr = if lastAttempt (queueOf b c) then b.lfsr else lfsrStep b.lfsr := by
  refine ⟨rfl, rfl, rfl, fun x hx => ?_, ?_, rfl, rfl⟩
  · cases c <;> cases x <;> first | exact absurd rfl hx | rfl
  · cases c <;> rfl

theorem lastAttempt_cons (e : QueueEntry) (rest : List QueueEntry) : lastAttempt (e :: rest) = decide (7 ≤ e.attempts) := by
  simp [lastAttempt]

/-- The eighth failed attempt gives the telegram up (R177). -/
theorem collidedQueue_last (k : Nat) {e : QueueEntry} (rest : List QueueEntry) (h : 7 ≤ e.attempts) :
    collidedQueue k (e :: rest) = rest := if_pos (Nat.succ_le_succ h)

theorem collidedQueue_kept (k : Nat) {e : QueueEntry} {rest : List QueueEntry} (h : e.attempts < 7)
    (hfresh : takeSame e.telegram rest = none) :
    collidedQueue k (e :: rest) = { e with attempts := e.attempts + 1, backoff := k } :: rest := by
  simp only [collidedQueue, hfresh]
  exact if_neg (by omega)

theorem collidedQueue_same (k : Nat) {e : QueueEntry} {rest r : List QueueEntry} {t : OutTelegram} (h : e.attempts < 7)
    (hsame : takeSame e.telegram rest = some (t, r)) :
    collidedQueue k (e :: rest) = { telegram := t, attempts := e.attempts + 1, backoff := k } :: r := by
  simp only [collidedQueue, hsame]
  exact if_neg (by omega)

theorem backoffOf_le (r : BitVec 16) : backoffOf r ≤ 31 := Nat.le_of_lt_succ (r.extractLsb' 0 5).isLt

/-! ### The header of a telegram that is sent (R173) -/

theorem byteOf_low (a k : Nat) : (byteOf (64 * a + k)).extractLsb' 0 6 = BitVec.ofNat 6 k := by
  apply BitVec.eq_of_toNat_eq
  rw [BitVec.extractLsb'_toNat, toNat_byteOf, BitVec.toNat_ofNat, Nat.shiftRight_zero]
  omega

theorem byteOf_high (a : Nat) {k : Nat} (h : k < 64) : (byteOf (64 * a + k)).extractLsb' 6 2 = BitVec.ofNat 2 a := by
  apply BitVec.eq_of_toNat_eq
  rw [BitVec.extractLsb'_toNat, toNat_byteOf, BitVec.toNat_ofNat, Nat.shiftRight_eq_div_pow]
  omega

/-- What the part puts on the line reads back as its telegram. -/
theorem parseFrame_frameOf {station : Nat} {x : OutTelegram} (hstation : station < 64) (hkind : x.kind < 64) (hdest : x.dest < 64)
    (hlength : x.payload.length ≤ 24) :
    parseFrame (goodChars (frameOf station x)) = some {
      kind := x.kind
      hdr := { cls := BitVec.ofNat 2 (classCode (txClassOf x.kind)), role := BitVec.ofNat 2 roleRoom,
               source := BitVec.ofNat 6 station, scope := BitVec.ofNat 2 x.scope, dest := BitVec.ofNat 6 x.dest }
      payload := x.payload } := by
  refine (parseFrame_framed _ _ _ hlength).trans (congrArg some ?_)
  unfold telegramOf
  rw [byteOf_low, byteOf_high _ hkind, byteOf_low, byteOf_high _ hstation, byteOf_low, byteOf_high _ hdest,
    BitVec.toNat_ofNat, Nat.mod_eq_of_lt hkind]

/-! ### The backoff generator (R177) -/

/-- The bit that a draw shifts in. -/
def lfsrFeedback (r : BitVec 16) : Bool := ((r.getLsbD 15 ^^ r.getLsbD 13) ^^ r.getLsbD 12) ^^ r.getLsbD 10

theorem lfsrStep_low (r : BitVec 16) : (lfsrStep r).getLsbD 0 = lfsrFeedback r := by
  unfold lfsrStep lfsrFeedback
  rw [BitVec.getLsbD_or, BitVec.getLsbD_shiftLeft, BitVec.getLsbD_setWidth, BitVec.getLsbD_ofBool, Bool.xor_assoc]
  simp

theorem lfsrStep_shifts (r : BitVec 16) {i : Nat} (h : i < 15) : (lfsrStep r).getLsbD (i + 1) = r.getLsbD i := by
  unfold lfsrStep
  rw [BitVec.getLsbD_or, BitVec.getLsbD_shiftLeft, BitVec.getLsbD_setWidth, BitVec.getLsbD_ofBool]
  have hwidth : i + 1 < 16 := by omega
  simp [hwidth]

/-- A draw never empties the generator: what it shifts out comes back in. -/
theorem lfsrStep_ne_zero {r : BitVec 16} (h : r ≠ 0) : lfsrStep r ≠ 0 := by
  intro hzero
  have hlow (i : Nat) (hi : i < 15) : r.getLsbD i = false := by
    rw [← lfsrStep_shifts r hi, hzero]
    exact BitVec.getLsbD_zero
  have hfeedback : lfsrFeedback r = false := by
    rw [← lfsrStep_low, hzero]
    exact BitVec.getLsbD_zero
  have htop : r.getLsbD 15 = false := by
    unfold lfsrFeedback at hfeedback
    rw [hlow 13 (by decide), hlow 12 (by decide), hlow 10 (by decide)] at hfeedback
    simpa using hfeedback
  refine h (BitVec.eq_of_getLsbD_eq fun i hi => ?_)
  refine Eq.trans ?_ BitVec.getLsbD_zero.symm
  rcases Nat.lt_or_ge i 15 with hbelow | habove
  · exact hlow i hbelow
  · obtain rfl : i = 15 := by omega
    exact htop

/-- Settles O57: the line, the attempt and its outcomes, the frame it sends, and the generator. -/
theorem lineAndAttempts : Obligations.LineAndAttempts := by
  refine ⟨fun s hpowered hsending => ⟨fun hidle => ?_, fun hbusy => ?_⟩, fun s hpowered hsending => ?_,
    fun s d e rest hpowered hidle hspeak hsending hd hdue hq => ?_, fun s c e rest hpowered hsending hq => ⟨?_, ?_⟩,
    fun station x hstation hkind _ hdest hlength => parseFrame_frameOf hstation hkind hdest hlength,
    fun r => ⟨lfsrStep_ne_zero, lfsrStep_low r, fun i hi => lfsrStep_shifts r hi⟩⟩
  · exact congrArg Host.Outcome.next (if_pos (by rw [hpowered, hidle]; rfl))
  · refine ⟨_, exec_idleEvent_none hpowered hsending hbusy, idleEvent_quiets s, fun hnone => ?_, fun hspeak hd hcontrol => ?_,
      fun hspeak hd hcontrol hroutine => ?_⟩
    · have hstays : startDeferral s.station s.listening (lineQuiet s.bus) = lineQuiet s.bus := startDeferral_stays hnone
      change (startDeferral s.station s.listening (lineQuiet s.bus)).deferral = _
      rw [hstays]
      rfl
    · have hhead : headClass (lineQuiet s.bus) = some .control := if_pos hcontrol
      refine (startDeferral_begins (s := s) (b := lineQuiet s.bus) hspeak rfl hd hsending hhead).trans ?_
      rw [deferralLength_lineQuiet]
      rfl
    · have hhead : headClass (lineQuiet s.bus) = some .routine := (if_neg (not_not.mpr hcontrol)).trans (if_pos hroutine)
      refine (startDeferral_begins (s := s) (b := lineQuiet s.bus) hspeak rfl hd hsending hhead).trans ?_
      rw [deferralLength_lineQuiet]
      rfl
  · obtain ⟨hbus, hcontrol, hroutine⟩ := hearStart_spends s.bus
    exact ⟨_, exec_startBit_taken hpowered hsending, congrArg (fun b => { s with bus := b }) hbus, hcontrol, hroutine⟩
  · exact ⟨_, exec_deferralExpiry_due hpowered hidle hspeak hsending hd hdue, rfl, beginAttempt_begins hq⟩
  · exact ⟨_, exec_transmitComplete_sent hpowered hsending, rfl, sendDone_sent hq⟩
  · obtain ⟨hsent, hframe, hcollisions, hothers, hqueue, hdropped, hlfsr⟩ := collide_stops s.bus c
    rw [hq, lastAttempt_cons] at hqueue hdropped hlfsr
    refine ⟨_, exec_collision_stopped hpowered hsending, rfl, hsent, hframe, hcollisions, hothers, fun hlast => ?_, fun hmore => ?_⟩
    · rw [decide_eq_true hlast, if_pos rfl] at hdropped hlfsr
      exact ⟨hqueue.trans (collidedQueue_last _ rest hlast), hdropped, hlfsr⟩
    · rw [decide_eq_false (Nat.not_le.mpr hmore), if_neg Bool.false_ne_true] at hqueue hdropped hlfsr
      refine ⟨hlfsr, hdropped, backoffOf_le _, fun hfresh => ?_, fun u k v hsplit hfirst hsame => ?_⟩
      · exact hqueue.trans (collidedQueue_kept _ hmore (takeSame_none hfresh))
      · exact hqueue.trans (collidedQueue_same _ hmore (by rw [hsplit]; exact takeSame_some hfirst hsame))

end Sys2Proof.Machine
end
